-- ==== Sys2Proof/Word.lean ====
section
/-! DEFINITION. The word types: a command word and a register are 32 bits (10_state.md R21 to R25, 30_encoding.md R80),
a stream byte is 8 bits (00_scope.md R12). Codes, bit counts and cursors are naturals, as 00_scope.md R11 has them. -/

namespace Sys2Proof

/-- A byte of SRC or SNK (00_scope.md R12). -/
abbrev Byte := BitVec 8

/-- A command word or a 32-bit register. -/
abbrev Word := BitVec 32

/-- A finite sequence of bytes, compared by value (00_scope.md R12). -/
abbrev ByteString := List Byte

end Sys2Proof
end

