-- ==== Sys2Proof/Syntax.lean ====
section
/-! DEFINITION. The commands of 30_encoding.md R82, one constructor for each row of the opcode table, with the fields of
R81 as the decoder reads them: a field outside its legal range is still a command of a legal format (R85). -/

namespace Sys2Proof

/-- The seven commands. -/
inductive Instr where
  /-- CONFIG (40_config.md R100): fields `W0`, `BO`, `EL`, `TM`, `OBS`. -/
  | config (w0 bo : Nat) (el tm obs : Bool)
  /-- BWWRITE (42_bitwriter.md R124): fields `VALUE` and `N`. -/
  | bwwrite (value n : Nat)
  /-- BWFLUSH (42_bitwriter.md R126). -/
  | bwflush
  /-- BRREAD (41_bitreader.md R115): field `N`. -/
  | brread (n : Nat)
  /-- BRRESET (41_bitreader.md R116). -/
  | brreset
  /-- COMPRESS (43_compressor.md R137). -/
  | compress
  /-- DECOMPRESS (44_decompressor.md R157): the operand word `LEN`. -/
  | decompress (len : Word)
  deriving DecidableEq, Repr

end Sys2Proof
end

