-- ==== Sys2Proof/WellFormed.lean ====
section
/-! DEFINITION. Which terms of `Instr` have an encoding (every field fits the bits 30_encoding.md R81 gives it), and which
operands are legal (30_encoding.md R83, 40_config.md R100). -/

namespace Sys2Proof

/-- Every field fits its bits: `W0` and `N` have 4, `BO` has 2, `VALUE` has 12 (30_encoding.md R81). -/
def Instr.wellFormed : Instr → Bool
  | .config w0 bo _ _ _ => decide (w0 < 2 ^ 4) && decide (bo < 2 ^ 2)
  | .bwwrite value n => decide (value < 2 ^ 12) && decide (n < 2 ^ 4)
  | .bwflush => true
  | .brread n => decide (n < 2 ^ 4)
  | .brreset => true
  | .compress => true
  | .decompress _ => true

/-- The operand fields pass the checks of 60_exceptions.md R182 step 3: `BO` is 0 or 1, `W0` is in 2..8, `TM = 1` only
with `W0 = 8` (40_config.md R100), and `N` is in 1..12 (30_encoding.md R83). -/
def Instr.legalOperands : Instr → Bool
  | .config w0 bo _ tm _ => decide (bo ≤ 1) && decide (2 ≤ w0) && decide (w0 ≤ 8) && (!tm || decide (w0 = 8))
  | .bwwrite _ n => decide (1 ≤ n) && decide (n ≤ 12)
  | .bwflush => true
  | .brread n => decide (1 ≤ n) && decide (n ≤ 12)
  | .brreset => true
  | .compress => true
  | .decompress _ => true

end Sys2Proof
end

