-- ==== Sys2Proof/Decode.lean ====
section
/-! DEFINITION. The command-word decoder and, after it, the encoder, both written from 30_encoding.md R80 to R85. The
packed code stream (R70 to R75) is data and is not decoded here. -/

namespace Sys2Proof

/-- `bits[lo+len-1 : lo]` of a word, zero-extended (00_scope.md R11). -/
def bitField (w : Word) (lo len : Nat) : Nat := w.toNat / 2 ^ lo % 2 ^ len

/-- A one-bit field. -/
def bitFlag (w : Word) (at_ : Nat) : Bool := bitField w at_ 1 == 1

/-- The opcode, bits [7:0] (30_encoding.md R80). -/
def opcodeOf (w : Word) : Nat := bitField w 0 8

/-- Why a word is illegal (30_encoding.md R85). -/
inductive DecodeError where
  /-- The opcode is not in the map of R82. -/
  | unknownOpcode
  /-- A reserved bit of the format is not 0 (R81). -/
  | reservedBits
  deriving DecidableEq, Repr

/-- What the decode check of 60_exceptions.md R182 step 1 answers. -/
inductive Decoded where
  | ok (i : Instr)
  | illegal (why : DecodeError)
  deriving DecidableEq, Repr

/-- How many words a command takes: two for opcode 0x40, else one, whatever the other bits are (30_encoding.md R80). -/
def commandWords (w : Word) : Nat := if opcodeOf w = 0x40 then 2 else 1

/-- A format's reserved bits `[31:lo]` are all 0. -/
def reservedClear (w : Word) (lo : Nat) : Bool := w.toNat / 2 ^ lo == 0

/-- `i`, unless a reserved bit from `lo` up is set (30_encoding.md R81, R85). -/
def decodeFormat (w : Word) (lo : Nat) (i : Instr) : Decoded :=
  if reservedClear w lo then .ok i else .illegal .reservedBits

/-- The decoder (30_encoding.md R81 to R85): `w0` is the command word, `w1` the operand word that follows it, which only
DECOMPRESS has. -/
def decode (w0 w1 : Word) : Decoded :=
  if opcodeOf w0 = 0x01 then
    decodeFormat w0 17
      (.config (bitField w0 8 4) (bitField w0 12 2) (bitFlag w0 14) (bitFlag w0 15) (bitFlag w0 16))
  else if opcodeOf w0 = 0x10 then decodeFormat w0 24 (.bwwrite (bitField w0 12 12) (bitField w0 8 4))
  else if opcodeOf w0 = 0x11 then decodeFormat w0 8 .bwflush
  else if opcodeOf w0 = 0x20 then decodeFormat w0 12 (.brread (bitField w0 8 4))
  else if opcodeOf w0 = 0x21 then decodeFormat w0 8 .brreset
  else if opcodeOf w0 = 0x30 then decodeFormat w0 8 .compress
  else if opcodeOf w0 = 0x40 then decodeFormat w0 8 (.decompress w1)
  else .illegal .unknownOpcode

/-- The two 32-bit words of an instruction whose bits are numbered from the first word's least significant bit. -/
def tableWords (nbits w : Nat) : Word × Word :=
  (BitVec.ofNat 32 (w % 2 ^ nbits), BitVec.ofNat 32 (w % 2 ^ nbits / 2 ^ 32))

/-- The instruction the decoder reads from an instruction whose bits are `w`, numbered as spec/opcode_table.json numbers
them; bits from `nbits` up are 0 (log entry 19). -/
def decodeTableWord (nbits w : Nat) : Option Instr :=
  match decode (tableWords nbits w).1 (tableWords nbits w).2 with
  | .ok i => some i
  | .illegal _ => none

/-- The first word of an instruction (30_encoding.md R81). -/
def encodeWord : Instr → Word
  | .config w0 bo el tm obs =>
    BitVec.ofNat 32
      (0x01 + w0 * 2 ^ 8 + bo * 2 ^ 12 + el.toNat * 2 ^ 14 + tm.toNat * 2 ^ 15 + obs.toNat * 2 ^ 16)
  | .bwwrite value n => BitVec.ofNat 32 (0x10 + n * 2 ^ 8 + value * 2 ^ 12)
  | .bwflush => 0x11#32
  | .brread n => BitVec.ofNat 32 (0x20 + n * 2 ^ 8)
  | .brreset => 0x21#32
  | .compress => 0x30#32
  | .decompress _ => 0x40#32

/-- The operand words that follow the first word: DECOMPRESS's `LEN` (30_encoding.md R84). -/
def encodeOperands : Instr → List Word
  | .config _ _ _ _ _ => []
  | .bwwrite _ _ => []
  | .bwflush => []
  | .brread _ => []
  | .brreset => []
  | .compress => []
  | .decompress len => [len]

/-- The encoder: the words of an instruction, in the order they are sent on the command port (30_encoding.md R80, R81). -/
def encode (i : Instr) : List Word := encodeWord i :: encodeOperands i

end Sys2Proof
end

