-- ==== Sys2Proof/Config.lean ====
section
/-! DEFINITION. What the environment fixes: the two stream ports and the free answers of IO_ORACLE
(92_eei_decisions.md D20, 93_implementation_defined.md item 8). -/

namespace Sys2Proof

/-- The two byte streams an access can go to (20_memory.md R50). -/
inductive StreamPort where
  | src
  | snk
  deriving DecidableEq, Repr

/-- IO_ORACLE of 92_eei_decisions.md D20: whether the environment answers FAIL to the access of this index on this
port. It has no body, so no proof can see an answer (20_memory.md R51, R52: no rule constrains it).
DESIGN CHOICE (log entry 5), safe. -/
opaque Config.ioOracle : StreamPort → Nat → Bool

end Sys2Proof
end

