-- ==== Sys2Proof/Machine/State.lean ====
section
/-! DEFINITION. The architectural state of 10_state.md, the streams of 20_memory.md, the ports of 60_exceptions.md, and the
reset values of 10_state.md R35 and 70_reset_and_hazards.md R200. State is plain data. -/

namespace Sys2Proof.Machine

/-- The status codes 0 to 9 (60_exceptions.md R180). -/
inductive StatusCode where
  | ok
  | unknownByteOrder
  | dictionaryLookupFailure
  | corruptStreamCode
  | tableOverflow
  | prematureEndOfData
  | ioError
  | invalidArgument
  | illegalCommand
  | notConfigured
  deriving DecidableEq, Repr

/-- `BO`: how codes are laid into bytes (00_scope.md R7, 20_memory.md R55). -/
inductive ByteOrder where
  | msbFirst
  | lsbFirst
  deriving DecidableEq, Repr

/-- The unit an event names (60_exceptions.md R190). -/
inductive EvtUnit where
  | c
  | d
  deriving DecidableEq, Repr

/-- The kind of an event (60_exceptions.md R190). -/
inductive EvtKind where
  | init
  | clear
  | data
  | eoi
  | code
  | sentinel
  deriving DecidableEq, Repr

/-- An event, the tuple `(unit, kind, v1, v2)` (60_exceptions.md R190). -/
structure Event where
  unit : EvtUnit
  kind : EvtKind
  v1 : Nat
  v2 : Nat
  deriving DecidableEq, Repr

/-- An event as EVT shows it, with the SRC position and the SNK length at its emission: an observer that interleaves EVT
with the streams sees them (60_exceptions.md R192; log entry 7). -/
structure EvtRecord where
  event : Event
  srcPos : Nat
  snkLen : Nat
  deriving DecidableEq, Repr

/-- What the host can do to the block, always between commands: send a command word (30_encoding.md R80), bind SRC or SNK
(20_memory.md R50), assert reset (70_reset_and_hazards.md R200). DESIGN CHOICE (log entry 1), safe. -/
inductive HostAction where
  | word (w : Word)
  | bindSrc (bytes : List Byte)
  | bindSnk (bytes : List Byte)
  | reset
  deriving DecidableEq, Repr

/-- The host-visible registers (10_state.md R21 to R25). -/
structure Regs where
  cfg : Word
  status : Word
  errinfo0 : Word
  errinfo1 : Word
  result : Word
  expectedLen : Word
  deriving DecidableEq, Repr

/-- BW's or BR's three elements (10_state.md R26, R27): the accumulator, the count of its valid bits, and the wrapping byte
counter. The cache and its count are naturals, as 00_scope.md R11 has them; 10_state.md R31 bounds them. DESIGN CHOICE
(log entry 12), safe. -/
structure BitCache where
  cache : Nat
  bits : Nat
  count : Word
  deriving DecidableEq, Repr

/-- Byte strings by code, listed by strictly rising code; a code that is not listed has no entry. It holds D_TABLE
(10_state.md R29) and, read from string to code, C_DICT (10_state.md R28). DESIGN CHOICE (log entries 8, 9), safe. -/
abbrev CodeTable := List (Nat × ByteString)

/-- The compressor's elements (10_state.md R28). -/
structure Compressor where
  width : Nat
  codes : Nat
  dict : CodeTable
  run : ByteString
  pos : Nat
  deriving DecidableEq, Repr

/-- The decompressor's elements (10_state.md R29). `old = none` is the spec's `NONE`. -/
structure Decompressor where
  width : Nat
  codes : Nat
  table : CodeTable
  old : Option Nat
  written : Nat
  deriving DecidableEq, Repr

/-- The streams and ports of the host and the environment: SRC's binding and read position (20_memory.md R51), SNK's
sequence (R52), the events on EVT (60_exceptions.md R190), the access index of each stream and the environment's answers
(92_eei_decisions.md D20). `script = none`: the free `Config.ioOracle` answers; `script = some l`: FAIL exactly at the
accesses of `l`. DESIGN CHOICE (log entries 5, 6), safe. -/
structure Streams where
  src : List Byte
  srcPos : Nat
  snk : List Byte
  evt : List EvtRecord
  srcReads : Nat
  snkWrites : Nat
  script : Option (List (StreamPort × Nat))
  deriving DecidableEq, Repr

/-- The whole state: the registers, the four units (00_scope.md R1), the streams, and the host's pending actions. -/
structure State where
  regs : Regs
  bw : BitCache
  br : BitCache
  c : Compressor
  d : Decompressor
  io : Streams
  port : List HostAction
  deriving DecidableEq, Repr

/-- The model's own stops. The spec's block has none (60_exceptions.md R185): both are for states that the invariants of
10_state.md R31 to R33 rule out. -/
inductive Fault where
  /-- Raised by DECOMPRESS when it would read a D_TABLE entry that is absent, or the first byte of an empty one; no rule
  reads one (10_state.md R29, R33). DEDUCED (log entry 10), safe. -/
  | absentTableEntry
  /-- Raised by COMPRESS or DECOMPRESS when the bound of 70_reset_and_hazards.md R211 on its iterations is used up; R211
  says it never is. DEDUCED (log entry 11), safe. -/
  | sequencerOverrun
  deriving DecidableEq, Repr

/-- What the model gives no meaning. -/
inductive Refusal where
  /-- Raised by exec's arm of a command that has no meaning yet. Safe. -/
  | notModelled (mnemonic : String)
  /-- Raised by step when the host binds SRC or SNK between the two words of one command, which
  93_implementation_defined.md item 16 refuses: bindings change only between commands (20_memory.md R50). DEDUCED, that
  the words of a command are already the command (log entry 3), safe. -/
  | bindingInsideCommand
  deriving DecidableEq, Repr

/-- Registers at reset (10_state.md R35). -/
def Regs.reset : Regs :=
  { cfg := 0#32, status := 0#32, errinfo0 := 0#32, errinfo1 := 0#32, result := 0#32, expectedLen := 0#32 }

/-- BW or BR at reset and at construction (10_state.md R35, 40_config.md R102). -/
def BitCache.zero : BitCache := { cache := 0, bits := 0, count := 0#32 }

/-- C at reset (10_state.md R35). -/
def Compressor.reset : Compressor := { width := 0, codes := 0, dict := [], run := [], pos := 0 }

/-- D at reset (10_state.md R35). -/
def Decompressor.reset : Decompressor := { width := 0, codes := 0, table := [], old := none, written := 0 }

/-- The ports before the host has bound or read anything. DESIGN CHOICE (log entries 4 to 7). -/
def Streams.unbound : Streams :=
  { src := [], srcPos := 0, snk := [], evt := [], srcReads := 0, snkWrites := 0, script := none }

/-- The machine right after power-on reset (70_reset_and_hazards.md R200, 10_state.md R35), nothing bound and no host
action pending. -/
def State.reset : State :=
  { regs := Regs.reset, bw := BitCache.zero, br := BitCache.zero, c := Compressor.reset, d := Decompressor.reset,
    io := Streams.unbound, port := [] }

/-- Replace the registers. -/
def State.setRegs (s : State) (r : Regs) : State := { s with regs := r }

/-- Replace BW. -/
def State.setBw (s : State) (b : BitCache) : State := { s with bw := b }

/-- Replace BR. -/
def State.setBr (s : State) (b : BitCache) : State := { s with br := b }

/-- Replace C. -/
def State.setC (s : State) (c : Compressor) : State := { s with c := c }

/-- Replace D. -/
def State.setD (s : State) (d : Decompressor) : State := { s with d := d }

/-- Replace the streams. -/
def State.setIo (s : State) (io : Streams) : State := { s with io := io }

/-- Replace the host's pending actions. -/
def State.setPort (s : State) (p : List HostAction) : State := { s with port := p }

end Sys2Proof.Machine
end

