-- ==== Sys2Proof/Machine/Flags.lean ====
section
/-! DEFINITION. STATUS: its fields, the numbers of the status codes, and how a command's end computes it (10_state.md R22,
60_exceptions.md R180, R181). They are the block's only flags (10_state.md R37). -/

namespace Sys2Proof.Machine

/-- The number of a status code (60_exceptions.md R180). -/
def statusNumber : StatusCode → Nat
  | .ok => 0
  | .unknownByteOrder => 1
  | .dictionaryLookupFailure => 2
  | .corruptStreamCode => 3
  | .tableOverflow => 4
  | .prematureEndOfData => 5
  | .ioError => 6
  | .invalidArgument => 7
  | .illegalCommand => 8
  | .notConfigured => 9

/-- STATUS from its fields; bits [31:7] are 0 (10_state.md R22). -/
def statusWord (code : StatusCode) (sentinel errLatch configured : Bool) : Word :=
  BitVec.ofNat 32 (statusNumber code + sentinel.toNat * 2 ^ 4 + errLatch.toNat * 2 ^ 5 + configured.toNat * 2 ^ 6)

/-- STATUS.CODE (10_state.md R22). -/
def codeField (status : Word) : Nat := bitField status 0 4

/-- STATUS.SENTINEL (10_state.md R22). -/
def sentinelFlag (status : Word) : Bool := bitFlag status 4

/-- STATUS.ERRLATCH (10_state.md R22). -/
def errLatchFlag (status : Word) : Bool := bitFlag status 5

/-- STATUS.CONFIGURED (10_state.md R22). -/
def configuredFlag (status : Word) : Bool := bitFlag status 6

/-- STATUS after a raise: CODE is the status, SENTINEL is 0, ERRLATCH is 1, and CONFIGURED is cleared by a raise of CONFIG
(60_exceptions.md R181). -/
def statusAfterRaise (byConfig : Bool) (code : StatusCode) (status : Word) : Word :=
  statusWord code false true (configuredFlag status && !byConfig)

/-- STATUS after a normal return: CODE is OK, SENTINEL as BRREAD set it, ERRLATCH and CONFIGURED unchanged
(60_exceptions.md R181). -/
def statusAfterReturn (sentinel : Bool) (status : Word) : Word :=
  statusWord .ok sentinel (errLatchFlag status) (configuredFlag status)

/-- `STATUS.CONFIGURED <- 1 ; STATUS.ERRLATCH <- 0`, the flags a successful CONFIG writes before it returns
(40_config.md R100). -/
def statusConfigured : Word := statusWord .ok false false true

end Sys2Proof.Machine
end

