-- ==== Sys2Proof/Machine/Operands.lean ====
section
/-! DEFINITION. The coding parameters that CFG holds and the values derived from them (00_scope.md R7 to R9, 10_state.md
R21), and the operand form of a bit operation (00_scope.md R11). -/

namespace Sys2Proof.Machine

/-- `MAXW` (00_scope.md R8). -/
def maxWidth : Nat := 12

/-- `TSIZE` (00_scope.md R8). -/
def tableSize : Nat := 4096

/-- The TIFF sentinel (00_scope.md R8, 41_bitreader.md R113). -/
def tiffSentinel : Nat := 257

/-- `mask(n) = 2^n - 1` (00_scope.md R11). -/
def mask (n : Nat) : Nat := 2 ^ n - 1

/-- `CFG <- zext_32(OBSf<<7 | TMf<<6 | ELf<<5 | BOf<<4 | W0f)` for fields in their legal range (40_config.md R100). -/
def cfgWord (w0 bo : Nat) (el tm obs : Bool) : Word :=
  BitVec.ofNat 32 (w0 + bo * 2 ^ 4 + el.toNat * 2 ^ 5 + tm.toNat * 2 ^ 6 + obs.toNat * 2 ^ 7)

/-- `W0` (10_state.md R21). -/
def w0Of (cfg : Word) : Nat := bitField cfg 0 4

/-- `BO`: 0 is MSBFirst, 1 is LSBFirst (10_state.md R21). -/
def byteOrderOf (cfg : Word) : ByteOrder := if bitFlag cfg 4 then .lsbFirst else .msbFirst

/-- `EL`, which only C uses (00_scope.md R7). -/
def elOf (cfg : Word) : Bool := bitFlag cfg 5

/-- `TM`, which only BR and D use (00_scope.md R7). -/
def tmOf (cfg : Word) : Bool := bitFlag cfg 6

/-- `OBS` (00_scope.md R7). -/
def obsOf (cfg : Word) : Bool := bitFlag cfg 7

/-- `CLEAR = 1 << W0` (00_scope.md R9). -/
def clearCode (cfg : Word) : Nat := 2 ^ w0Of cfg

/-- `EOI = CLEAR + 1` (00_scope.md R9). -/
def eoiCode (cfg : Word) : Nat := clearCode cfg + 1

/-- `FIRST_FREE = CLEAR + 2` (00_scope.md R9). -/
def firstFree (cfg : Word) : Nat := clearCode cfg + 2

/-- The effective limit `(1 << width) - flag`, with C's flag `EL` (43_compressor.md R133) or D's flag `TM`
(44_decompressor.md R155). -/
def effectiveLimit (width : Nat) (flag : Bool) : Nat := 2 ^ width - flag.toNat

/-- The width one step wider, never past 12 (43_compressor.md R132, 44_decompressor.md R151). -/
def widen (width : Nat) : Nat := if width < maxWidth then width + 1 else width

end Sys2Proof.Machine
end

