-- ==== Sys2Proof/Machine/Ops.lean ====
section
/-! DEFINITION. The shared operations: the pseudocode primitives of 00_scope.md R13 (`MemRead`, `MemWrite`, `notify`,
`raise`, `return`), the code tables, and the end of a command, which is where the block takes an exception and where it
returns normally (60_exceptions.md R181). -/

namespace Sys2Proof.Machine

/-! ### Sequencing: a piece of pseudocode goes on with a value, or raises and ends the command -/

/-- How a piece of pseudocode ends: it goes on with a value, it raises `code(i0, i1)`, or the model stops. Each carries
the state at that point, so that a raise rolls nothing back (60_exceptions.md R184). -/
inductive Res (α : Type) where
  | ok (a : α) (s : State)
  | raised (code : StatusCode) (i0 i1 : Nat) (s : State)
  | fault (f : Fault)
  deriving DecidableEq, Repr

/-- Sequence two pieces of pseudocode: nothing after a raise executes (60_exceptions.md R181). -/
def Res.bind {α β : Type} (r : Res α) (k : α → State → Res β) : Res β :=
  match r with
  | .ok a s => k a s
  | .raised code i0 i1 s => .raised code i0 i1 s
  | .fault f => .fault f

/-- What a command returns: RESULT, and SENTINEL as BRREAD sets it (10_state.md R22, R24). -/
structure Returned where
  result : Word
  sentinel : Bool
  deriving DecidableEq, Repr

/-- RESULT 0 and SENTINEL 0, what every command but BRREAD, COMPRESS and DECOMPRESS returns (10_state.md R24). -/
def returnedNothing : Returned := { result := 0#32, sentinel := false }

/-! ### Taking an exception, and the normal return -/

/-- `on raise S(i0, i1)` (60_exceptions.md R181): STATUS, ERRINFO0, ERRINFO1 and RESULT are written, and every other
element keeps its value (R184). `byConfig` says that the raise is CONFIG's, which clears CONFIGURED (40_config.md R101). -/
def takeRaise (byConfig : Bool) (code : StatusCode) (i0 i1 : Nat) (s : State) : State :=
  s.setRegs { s.regs with
    status := statusAfterRaise byConfig code s.regs.status
    errinfo0 := BitVec.ofNat 32 i0
    errinfo1 := BitVec.ofNat 32 i1
    result := 0#32 }

/-- `on return` (60_exceptions.md R181). -/
def takeReturn (r : Returned) (s : State) : State :=
  s.setRegs { s.regs with
    status := statusAfterReturn r.sentinel s.regs.status
    errinfo0 := 0#32
    errinfo1 := 0#32
    result := r.result }

/-- The end of a command, by a raise or by a normal return. -/
def endCommand (byConfig : Bool) : Res Returned → Host.Outcome State Fault Refusal
  | .ok r s => .next (takeReturn r s)
  | .raised code i0 i1 s => .next (takeRaise byConfig code i0 i1 s)
  | .fault f => .fault f

/-- The configuration check of 60_exceptions.md R182 step 2: `NotConfigured(opcode, 0)` when CONFIGURED is 0, before
anything else of the command. -/
def whenConfigured (opcode : Nat) (s : State) (body : State → Res Returned) : Res Returned :=
  if configuredFlag s.regs.status then body s else .raised .notConfigured opcode 0 s

/-- An illegal command word ends with `IllegalCommand(word0, 0)` (30_encoding.md R85, 60_exceptions.md R182 step 1). -/
def illegalCommand (w0 : Word) (s : State) : Host.Outcome State Fault Refusal :=
  endCommand false (.raised .illegalCommand w0.toNat 0 s)

/-- Power-on reset, or a reset the host asserts between commands (70_reset_and_hazards.md R200): every element of
10_state.md takes its reset value; SRC, SNK, their bindings, EVT and the host's pending actions are not touched. -/
def powerOnReset (s : State) : State :=
  { State.reset with io := s.io, port := s.port }

/-! ### The streams (20_memory.md R51, R52) -/

/-- Whether the environment answers FAIL to an access: IO_ORACLE (92_eei_decisions.md D20). -/
def ioFails (script : Option (List (StreamPort × Nat))) (p : StreamPort) (index : Nat) : Bool :=
  match script with
  | none => Config.ioOracle p index
  | some l => l.contains (p, index)

/-- What `MemRead(SRC, 1)` answers (00_scope.md R13). -/
inductive ReadAnswer where
  | byte (b : Byte)
  | atEnd
  | fail
  deriving DecidableEq, Repr

/-- The answer of `MemRead(SRC, 1)` (20_memory.md R51). -/
def readAnswer (io : Streams) : ReadAnswer :=
  if ioFails io.script .src io.srcReads then .fail
  else
    match io.src[io.srcPos]? with
    | some b => .byte b
    | none => .atEnd

/-- The streams after `MemRead(SRC, 1)` answered: a byte is consumed, END and FAIL consume nothing (20_memory.md R51). -/
def afterRead (io : Streams) : ReadAnswer → Streams
  | .byte _ => { io with srcPos := io.srcPos + 1, srcReads := io.srcReads + 1 }
  | .atEnd => { io with srcReads := io.srcReads + 1 }
  | .fail => { io with srcReads := io.srcReads + 1 }

/-- `MemRead(SRC, 1)` (20_memory.md R51). A FAIL raises `IoError(0, 0)` (41_bitreader.md R117, 43_compressor.md R136);
`none` is END. -/
def memRead (s : State) : Res (Option Byte) :=
  match readAnswer s.io with
  | .byte b => .ok (some b) (s.setIo (afterRead s.io (.byte b)))
  | .atEnd => .ok none (s.setIo (afterRead s.io .atEnd))
  | .fail => .raised .ioError 0 0 (s.setIo (afterRead s.io .fail))

/-- `MemWrite(SNK, 1, b)` (20_memory.md R52): `b` is appended, or FAIL raises `IoError(1, 0)` and appends nothing
(42_bitwriter.md R120, 44_decompressor.md R158). -/
def memWrite (b : Byte) (s : State) : Res Unit :=
  if ioFails s.io.script .snk s.io.snkWrites then
    .raised .ioError 1 0 (s.setIo { s.io with snkWrites := s.io.snkWrites + 1 })
  else
    .ok () (s.setIo { s.io with snk := s.io.snk ++ [b], snkWrites := s.io.snkWrites + 1 })

/-- `notify(unit, kind, v1, v2)`: one event on EVT when `OBS = 1`, nothing when `OBS = 0` (60_exceptions.md R190). -/
def notify (unit : EvtUnit) (kind : EvtKind) (v1 v2 : Nat) (s : State) : State :=
  if obsOf s.regs.cfg then
    s.setIo { s.io with
      evt := s.io.evt ++
        [{ event := { unit := unit, kind := kind, v1 := v1, v2 := v2 }, srcPos := s.io.srcPos,
           snkLen := s.io.snk.length }] }
  else s

/-! ### The code tables (10_state.md R28, R29) -/

/-- Entry `c`, `none` where the table has no entry. -/
def tableGet (c : Nat) : CodeTable → Option ByteString
  | [] => none
  | (k, v) :: t => if k = c then some v else tableGet c t

/-- Set entry `c`, keeping the codes strictly rising. -/
def tablePut (c : Nat) (v : ByteString) : CodeTable → CodeTable
  | [] => [(c, v)]
  | (k, w) :: t =>
    if k < c then (k, w) :: tablePut c v t
    else if k = c then (c, v) :: t
    else (c, v) :: (k, w) :: t

/-- The code of a string: C_DICT read by key. -/
def tableCodeOf (key : ByteString) : CodeTable → Option Nat
  | [] => none
  | (k, v) :: t => if v = key then some k else tableCodeOf key t

/-- The literal entries: `[x]` for every `x` below CLEAR (43_compressor.md R131, 44_decompressor.md R151). -/
def literalTable (clear : Nat) : CodeTable :=
  (List.range clear).map fun x => (x, [BitVec.ofNat 8 x])

/-- Each code of the table is below every later one. -/
def codesRising : CodeTable → Bool
  | [] => true
  | (k, _) :: t => t.all (fun e => decide (k < e.1)) && codesRising t

/-- The stores C_DICT and D_TABLE have their one canonical form: codes strictly rising. SRC and SNK are plain sequences and
need none; there is no addressed memory (20_memory.md R50, R54). -/
def Memory.wf (s : State) : Bool := codesRising s.c.dict && codesRising s.d.table

end Sys2Proof.Machine
end

