-- ==== Sys2Proof/Machine/BitReader.lean ====
section
/-! DEFINITION. BR: the primitives `br_read` and `br_reset_cache` (41_bitreader.md R110 to R114, R117), and the commands
BRREAD (R115) and BRRESET (R116). -/

namespace Sys2Proof.Machine

/-- `kind` of `br_read`'s result (41_bitreader.md R110). -/
inductive ReadKind where
  | code
  | sentinel
  deriving DecidableEq, Repr

/-- The cache after one refill byte (41_bitreader.md R111). -/
def brTakeByte (order : ByteOrder) (b : Byte) (br : BitCache) : BitCache :=
  { cache :=
      match order with
      | .msbFirst => br.cache <<< 8 ||| b.toNat
      | .lsbFirst => br.cache ||| b.toNat <<< br.bits
    bits := br.bits + 8
    count := br.count + 1#32 }

/-- How the refill ends: the cache holds enough bits, or SRC answered END. -/
inductive RefillEnd where
  | filled
  | exhausted
  deriving DecidableEq, Repr

/-- The refill loop of `br_read` (41_bitreader.md R110, R111): one byte at a time while the cache holds fewer than `n` bits.
Each byte adds 8 bits, so `fuel = n` is never used up before the cache is full. From `BR_BITS = 7` a read of 12 bits takes one
byte and leaves 3 bits, as R110's pseudocode and 95_test_vectors.md V-BR-7 have it, against R115's corner case, which says two
bytes. DEDUCED (log entry 20), unsafe. -/
def brRefill (n : Nat) : Nat → State → Res RefillEnd
  | 0, s => .ok .filled s
  | fuel + 1, s =>
    if n ≤ s.br.bits then .ok .filled s
    else
      (memRead s).bind fun answer s1 =>
        match answer with
        | none => .ok .exhausted s1
        | some b => brRefill n fuel (s1.setBr (brTakeByte (byteOrderOf s1.regs.cfg) b s1.br))

/-- The code that the extraction returns (41_bitreader.md R112). -/
def brExtractCode (order : ByteOrder) (n : Nat) (br : BitCache) : Nat :=
  match order with
  | .msbFirst => br.cache >>> (br.bits - n) &&& mask n
  | .lsbFirst => br.cache &&& mask n

/-- The cache after the extraction (41_bitreader.md R112). -/
def brDropCode (order : ByteOrder) (n : Nat) (br : BitCache) : BitCache :=
  { cache :=
      (match order with
        | .msbFirst => br.cache
        | .lsbFirst => br.cache >>> n) &&& mask (br.bits - n)
    bits := br.bits - n
    count := br.count }

/-- `br_read(n)` (41_bitreader.md R110). On END nothing is extracted: it returns the sentinel 257 with `TM = 1` and raises
`PrematureEndOfData(n, BR_BITS)` with `TM = 0` (R113). -/
def brRead (n : Nat) (s : State) : Res (Nat × ReadKind) :=
  (brRefill n n s).bind fun ending s1 =>
    match ending with
    | .exhausted =>
      if tmOf s1.regs.cfg then .ok (tiffSentinel, .sentinel) s1
      else .raised .prematureEndOfData n s1.br.bits s1
    | .filled =>
      .ok (brExtractCode (byteOrderOf s1.regs.cfg) n s1.br, .code)
        (s1.setBr (brDropCode (byteOrderOf s1.regs.cfg) n s1.br))

/-- `br_reset_cache()` (41_bitreader.md R114): BR_COUNT and the SRC position are unchanged. -/
def brResetCache (s : State) : State := s.setBr { s.br with cache := 0, bits := 0 }

/-- SENTINEL for a read of this kind (41_bitreader.md R115). -/
def isSentinel : ReadKind → Bool
  | .code => false
  | .sentinel => true

/-- BRREAD (41_bitreader.md R115). -/
def execBrread (n : Nat) (s : State) : Host.Outcome State Fault Refusal :=
  endCommand false <| whenConfigured 0x20 s fun s =>
    if n < 1 ∨ 12 < n then .raised .invalidArgument n 2 s
    else
      (brRead n s).bind fun r s1 =>
        .ok { result := BitVec.ofNat 32 r.1, sentinel := isSentinel r.2 } s1

/-- BRRESET (41_bitreader.md R116). -/
def execBrreset (s : State) : Host.Outcome State Fault Refusal :=
  endCommand false <| whenConfigured 0x21 s fun s => .ok returnedNothing (brResetCache s)

end Sys2Proof.Machine
end

