-- ==== Sys2Proof/Machine/BitWriter.lean ====
section
/-! DEFINITION. BW: the primitives `bw_drain`, `bw_write` and `bw_flush` (42_bitwriter.md R120 to R123, R125), and the
commands BWWRITE (R124) and BWFLUSH (R126). -/

namespace Sys2Proof.Machine

/-- The whole byte the drain writes: the top byte with MSBFirst, the bottom byte with LSBFirst (42_bitwriter.md R120). -/
def bwOutByte (order : ByteOrder) (bw : BitCache) : Byte :=
  BitVec.ofNat 8
    (match order with
      | .msbFirst => bw.cache >>> (bw.bits - 8) &&& 0xFF
      | .lsbFirst => bw.cache &&& 0xFF)

/-- The cache after SNK has accepted that byte (42_bitwriter.md R120). -/
def bwDropByte (order : ByteOrder) (bw : BitCache) : BitCache :=
  { cache :=
      (match order with
        | .msbFirst => bw.cache
        | .lsbFirst => bw.cache >>> 8) &&& mask (bw.bits - 8)
    bits := bw.bits - 8
    count := bw.count + 1#32 }

/-- The loop of `bw_drain`. Each round takes 8 bits, so `BW_BITS / 8` rounds leave fewer than 8. -/
def bwDrainLoop : Nat → State → Res Unit
  | 0, s => .ok () s
  | fuel + 1, s =>
    if 8 ≤ s.bw.bits then
      (memWrite (bwOutByte (byteOrderOf s.regs.cfg) s.bw) s).bind fun _ s1 =>
        bwDrainLoop fuel (s1.setBw (bwDropByte (byteOrderOf s1.regs.cfg) s1.bw))
    else .ok () s

/-- `bw_drain()` (42_bitwriter.md R120): writes every whole byte of the cache. -/
def bwDrain (s : State) : Res Unit := bwDrainLoop (s.bw.bits / 8) s

/-- The merge of `bw_write` (42_bitwriter.md R121, R122): `v` is masked to `n` bits. -/
def bwMerge (order : ByteOrder) (v n : Nat) (bw : BitCache) : BitCache :=
  { cache :=
      match order with
      | .msbFirst => bw.cache <<< n ||| (v &&& mask n)
      | .lsbFirst => bw.cache ||| (v &&& mask n) <<< bw.bits
    bits := bw.bits + n
    count := bw.count }

/-- `bw_write(v, n)` (42_bitwriter.md R121): drain, merge, drain. -/
def bwWrite (v n : Nat) (s : State) : Res Unit :=
  (bwDrain s).bind fun _ s1 => bwDrain (s1.setBw (bwMerge (byteOrderOf s1.regs.cfg) v n s1.bw))

/-- The partial final byte (42_bitwriter.md R125): left-aligned with MSBFirst, as it is with LSBFirst. -/
def bwFlushByte (order : ByteOrder) (bw : BitCache) : Byte :=
  BitVec.ofNat 8
    (match order with
      | .msbFirst => (bw.cache &&& mask bw.bits) <<< (8 - bw.bits)
      | .lsbFirst => bw.cache &&& mask bw.bits)

/-- `bw_flush()` (42_bitwriter.md R125). -/
def bwFlush (s : State) : Res Unit :=
  (bwDrain s).bind fun _ s1 =>
    if 0 < s1.bw.bits then
      (memWrite (bwFlushByte (byteOrderOf s1.regs.cfg) s1.bw) s1).bind fun _ s2 =>
        .ok () (s2.setBw { cache := 0, bits := 0, count := s2.bw.count + 1#32 })
    else .ok () (s1.setBw { cache := 0, bits := 0, count := s1.bw.count })

/-- BWWRITE (42_bitwriter.md R124). -/
def execBwwrite (value n : Nat) (s : State) : Host.Outcome State Fault Refusal :=
  endCommand false <| whenConfigured 0x10 s fun s =>
    if n < 1 ∨ 12 < n then .raised .invalidArgument n 2 s
    else (bwWrite value n s).bind fun _ s1 => .ok returnedNothing s1

/-- BWFLUSH (42_bitwriter.md R126). -/
def execBwflush (s : State) : Host.Outcome State Fault Refusal :=
  endCommand false <| whenConfigured 0x11 s fun s =>
    (bwFlush s).bind fun _ s1 => .ok returnedNothing s1

end Sys2Proof.Machine
end

