-- ==== Sys2Proof/Machine/Compressor.lean ====
section
/-! DEFINITION. C: the procedures of 43_compressor.md R131 to R136, and the command COMPRESS (R137). -/

namespace Sys2Proof.Machine

/-- C's elements after `c_clear_table()` (43_compressor.md R131): the literal entries, `C_CODES = FIRST_FREE`,
`C_WIDTH = W0` advanced by one step. -/
def clearedCompressor (cfg : Word) (c : Compressor) : Compressor :=
  { c with dict := literalTable (clearCode cfg), codes := firstFree cfg, width := widen (w0Of cfg) }

/-- `c_clear_table()` (43_compressor.md R131). -/
def cClearTable (s : State) : State := s.setC (clearedCompressor s.regs.cfg s.c)

/-- `c_write_code(v, kind)` (43_compressor.md R135): the event, then the code at the current width. -/
def cWriteCode (v : Nat) (kind : EvtKind) (s : State) : Res Unit :=
  bwWrite v s.c.width (notify .c kind v s.c.width s)

/-- `C_DICT[key] <- C_CODES ; C_CODES <- C_CODES + 1`, at width `w` (43_compressor.md R134). -/
def cInsert (key : ByteString) (w : Nat) (c : Compressor) : Compressor :=
  { c with dict := tablePut c.codes key c.dict, codes := c.codes + 1, width := w }

/-- `c_add_table_entry(s)` (43_compressor.md R134): at the limit below width 12 the width grows and the entry is inserted; at
the limit at width 12 a CLEAR is written at width 12, the table is cleared and the entry is not inserted. -/
def cAddTableEntry (key : ByteString) (s : State) : Res Unit :=
  if s.c.codes = effectiveLimit s.c.width (elOf s.regs.cfg) then
    if s.c.width < maxWidth then .ok () (s.setC (cInsert key (s.c.width + 1) s.c))
    else (cWriteCode (clearCode s.regs.cfg) .clear s).bind fun _ s1 => .ok () (cClearTable s1)
  else .ok () (s.setC (cInsert key s.c.width s.c))

/-- Write the code of the current run, or raise `DictionaryLookupFailure(len(C_RUN), C_POS)` (43_compressor.md R136,
R138). -/
def cWriteRun (s : State) : Res Unit :=
  match tableCodeOf s.c.run s.c.dict with
  | some code => cWriteCode code .data s
  | none => .raised .dictionaryLookupFailure s.c.run.length s.c.pos s

/-- One iteration of SCAN for the input byte `b`, after `C_POS` has counted it (43_compressor.md R136). The string inserted is the run
and `b`, whatever `b` is, as R136 and 95_test_vectors.md V-C-11 have it, against 10_state.md R28, which says that every key's bytes
are below CLEAR. DEDUCED (log entry 13), unsafe. -/
def cScanByte (b : Byte) (s : State) : Res Unit :=
  if (tableCodeOf (s.c.run ++ [b]) s.c.dict).isSome then .ok () (s.setC { s.c with run := s.c.run ++ [b] })
  else
    (cWriteRun s).bind fun _ s1 =>
      (cAddTableEntry (s.c.run ++ [b]) s1).bind fun _ s2 => .ok () (s2.setC { s2.c with run := [b] })

/-- SCAN (43_compressor.md R136): one iteration for each input byte, up to END. `fuel` counts the bytes left in SRC
(70_reset_and_hazards.md R211). -/
def cScan : Nat → State → Res Unit
  | fuel, s =>
    (memRead s).bind fun answer s1 =>
      match answer with
      | none => .ok () s1
      | some b =>
        match fuel with
        | 0 => .fault .sequencerOverrun
        | rest + 1 =>
          (cScanByte b (s1.setC { s1.c with pos := s1.c.pos + 1 })).bind fun _ s2 => cScan rest s2

/-- FINISH (43_compressor.md R136): the code of the remaining run, EOI, and the flush. -/
def cFinish (s : State) : Res Unit :=
  (if s.c.run = [] then .ok () s else cWriteRun s).bind fun _ s1 =>
    (cWriteCode (eoiCode s1.regs.cfg) .eoi s1).bind fun _ s2 => bwFlush s2

/-- `compress()` (43_compressor.md R136). -/
def compressAll (s : State) : Res Unit :=
  (cWriteCode (clearCode s.regs.cfg) .clear (cClearTable s)).bind fun _ s1 =>
    (cScan (s1.io.src.length - s1.io.srcPos) s1).bind fun _ s2 => cFinish s2

/-- The fresh session of COMPRESS: BW zeroed, `C_RUN <- []`, `C_POS <- 0` (43_compressor.md R137, R140). -/
def freshCompress (s : State) : State := (s.setBw BitCache.zero).setC { s.c with run := [], pos := 0 }

/-- COMPRESS (43_compressor.md R137). -/
def execCompress (s : State) : Host.Outcome State Fault Refusal :=
  endCommand false <| whenConfigured 0x30 s fun s =>
    (compressAll (freshCompress s)).bind fun _ s1 => .ok { result := s1.bw.count, sentinel := false } s1

end Sys2Proof.Machine
end

