-- ==== Sys2Proof/Machine/Decompressor.lean ====
section
/-! DEFINITION. D: the procedures of 44_decompressor.md R150 to R156 and R158, and the command DECOMPRESS (R157). -/

namespace Sys2Proof.Machine

/-- D's elements after `d_clear_table()` (44_decompressor.md R151): literal entries only, `D_CODES = FIRST_FREE`,
`D_WIDTH = W0` bumped once. -/
def clearedDecompressor (cfg : Word) (d : Decompressor) : Decompressor :=
  { d with table := literalTable (clearCode cfg), codes := firstFree cfg, width := widen (w0Of cfg) }

/-- `d_clear_table()` (44_decompressor.md R151). -/
def dClearTable (s : State) : State := s.setD (clearedDecompressor s.regs.cfg s.d)

/-- The event kind of a read (44_decompressor.md R156). -/
def readEvtKind : ReadKind → EvtKind
  | .code => .code
  | .sentinel => .sentinel

/-- `d_next_code()` (44_decompressor.md R156): one code at the current width, then its event. -/
def dNextCode (s : State) : Res Nat :=
  (brRead s.d.width s).bind fun r s1 => .ok r.1 (notify .d (readEvtKind r.2) r.1 s1.d.width s1)

/-- `d_emit(s)` (44_decompressor.md R158): the whole string, each byte counted once SNK has accepted it. -/
def dEmit : ByteString → State → Res Unit
  | [], s => .ok () s
  | b :: rest, s =>
    (memWrite b s).bind fun _ s1 => dEmit rest (s1.setD { s1.d with written := s1.d.written + 1 })

/-- D's elements after the new entry `str` and the growth test of 44_decompressor.md R155, with the flag `TM`. -/
def dGrow (tm : Bool) (str : ByteString) (d : Decompressor) : Decompressor :=
  { d with
    table := tablePut d.codes str d.table
    codes := d.codes + 1
    width := if d.codes + 1 = effectiveLimit d.width tm ∧ d.width < maxWidth then d.width + 1 else d.width }

/-- `d_append(s, c)` (44_decompressor.md R155). -/
def dAppend (str : ByteString) (code : Nat) (s : State) : Res Unit :=
  if tableSize ≤ s.d.codes then .raised .tableOverflow s.d.codes code s
  else .ok () (s.setD (dGrow (tmOf s.regs.cfg) str s.d))

/-- Read `T[c]`, an entry the invariants of 10_state.md R33 say is there and not empty. -/
def dEntry (c : Nat) (s : State) : Res ByteString :=
  match tableGet c s.d.table with
  | some (b :: rest) => .ok (b :: rest) s
  | some [] => .fault .absentTableEntry
  | none => .fault .absentTableEntry

/-- `s ++ [t[0]]`, the new entry of 44_decompressor.md R153 and R154. -/
def withFirstOf (s t : ByteString) : ByteString := s ++ t.take 1

/-- `D_OLD <- code`. -/
def dSetOld (code : Nat) (s : State) : State := s.setD { s.d with old := some code }

/-- A known code (44_decompressor.md R153): emit, then append, then `D_OLD <- code`. -/
def dKnown (code old : Nat) (s : State) : Res Unit :=
  (dEntry code s).bind fun str s1 =>
    (dEmit str s1).bind fun _ s2 =>
      (dEntry old s2).bind fun oldStr s3 =>
        (dAppend (withFirstOf oldStr str) code s3).bind fun _ s4 => .ok () (dSetOld code s4)

/-- The code at the cursor, KwKwK (44_decompressor.md R154). -/
def dKwKwK (code old : Nat) (s : State) : Res Unit :=
  (dEntry old s).bind fun oldStr s1 =>
    (dEmit (withFirstOf oldStr oldStr) s1).bind fun _ s2 =>
      (dAppend (withFirstOf oldStr oldStr) code s2).bind fun _ s3 => .ok () (dSetOld code s3)

/-- The label of 44_decompressor.md R150's loops at which the next code is read. -/
inductive DLabel where
  | code
  | postClear
  deriving DecidableEq, Repr

/-- A data code at label CODE (44_decompressor.md R150, R152 to R154). -/
def dSteadyCode (code : Nat) (s : State) : Res Unit :=
  match s.d.old with
  | none => .raised .corruptStreamCode code s.d.codes s
  | some old =>
    if code < s.d.codes then dKnown code old s
    else if code = s.d.codes then dKwKwK code old s
    else .raised .corruptStreamCode code s.d.codes s

/-- A data code at label POSTCLEAR (44_decompressor.md R150, R152): a literal is emitted, with no table growth. -/
def dPostClearCode (code : Nat) (s : State) : Res Unit :=
  if clearCode s.regs.cfg ≤ code then .raised .corruptStreamCode code s.d.codes s
  else
    (dEntry code s).bind fun str s1 => (dEmit str s1).bind fun _ s2 => .ok () (dSetOld code s2)

/-- A data code at a label. -/
def dDataCode (label : DLabel) (code : Nat) (s : State) : Res Unit :=
  match label with
  | .code => dSteadyCode code s
  | .postClear => dPostClearCode code s

/-- The loops CODE and POSTCLEAR of 44_decompressor.md R150, one round for each code read: EOI ends them at any read, CLEAR
clears the table, then the budget `limit` is checked, then the post-clear code is read. `fuel` bounds the reads
(70_reset_and_hazards.md R211). -/
def dLoop (limit : Nat) : Nat → DLabel → State → Res Unit
  | 0, _, _ => .fault .sequencerOverrun
  | fuel + 1, label, s =>
    (dNextCode s).bind fun code s1 =>
      if code = eoiCode s1.regs.cfg then .ok () s1
      else if code = clearCode s1.regs.cfg then
        if limit ≤ s1.d.written then .ok () (dClearTable s1) else dLoop limit fuel .postClear (dClearTable s1)
      else
        (dDataCode label code s1).bind fun _ s2 =>
          if limit ≤ s2.d.written then .ok () s2 else dLoop limit fuel .code s2

/-- The most codes one DECOMPRESS can read: each takes at least one bit, and one more read can end it
(70_reset_and_hazards.md R211). -/
def dMaxReads (s : State) : Nat := s.br.bits + 8 * (s.io.src.length - s.io.srcPos) + 1

/-- `decompress(L)` (44_decompressor.md R150). -/
def decompressAll (limit : Nat) (s : State) : Res Unit :=
  dLoop limit (dMaxReads s) .code (dClearTable s)

/-- The fresh session of DECOMPRESS: `EXPECTED_LEN <- LEN`, BR zeroed, `D_OLD <- NONE`, `D_WRITTEN <- 0`
(44_decompressor.md R157, R159). -/
def freshDecompress (len : Word) (s : State) : State :=
  ((s.setRegs { s.regs with expectedLen := len }).setBr BitCache.zero).setD { s.d with old := none, written := 0 }

/-- DECOMPRESS (44_decompressor.md R157). -/
def execDecompress (len : Word) (s : State) : Host.Outcome State Fault Refusal :=
  endCommand false <| whenConfigured 0x40 s fun s =>
    (decompressAll len.toNat (freshDecompress len s)).bind fun _ s1 =>
      .ok { result := BitVec.ofNat 32 s1.d.written, sentinel := false } s1

end Sys2Proof.Machine
end

