-- ==== Sys2Proof/Machine/Construct.lean ====
section
/-! DEFINITION. CONFIG and `construct()` (40_config.md R100 to R104). -/

namespace Sys2Proof.Machine

/-- `construct()` (40_config.md R102): every unit takes its construction state for the parameters in CFG. It zeroes EXPECTED_LEN, as
R102's pseudocode has it, against 10_state.md R25, which says that it keeps its value until the next DECOMPRESS. DEDUCED (log
entry 21), unsafe. -/
def construct (s : State) : State :=
  ((((s.setBw BitCache.zero).setBr BitCache.zero).setC
      { clearedCompressor s.regs.cfg s.c with run := [], pos := 0 }).setD
      { clearedDecompressor s.regs.cfg s.d with old := none, written := 0 }).setRegs
    { s.regs with expectedLen := 0#32 }

/-- The two INIT events of a successful CONFIG, C's first (40_config.md R103). -/
def notifyInit (s : State) : State :=
  notify .d .init (clearCode s.regs.cfg) (eoiCode s.regs.cfg)
    (notify .c .init (clearCode s.regs.cfg) (eoiCode s.regs.cfg) s)

/-- CFG loaded with legal parameters, every unit constructed, CONFIGURED set and ERRLATCH cleared (40_config.md R100). -/
def configured (cfg : Word) (s : State) : State :=
  let s1 := construct (s.setRegs { s.regs with cfg := cfg })
  s1.setRegs { s1.regs with status := statusConfigured }

/-- CONFIG (40_config.md R100): the checks in the order shown, the first failing one reported; a failed CONFIG writes no
unit and clears CONFIGURED (R101). It needs no earlier configuration. -/
def execConfig (w0 bo : Nat) (el tm obs : Bool) (s : State) : Host.Outcome State Fault Refusal :=
  endCommand true <|
    if 1 < bo then .raised .unknownByteOrder bo 0 s
    else if w0 < 2 ∨ 8 < w0 then .raised .invalidArgument w0 1 s
    else if tm = true ∧ w0 ≠ 8 then .raised .invalidArgument w0 3 s
    else .ok returnedNothing (notifyInit (configured (cfgWord w0 bo el tm obs) s))

end Sys2Proof.Machine
end

