-- ==== Sys2Proof/Machine/Dispatch.lean ====
section
/-! DEFINITION. The meaning of each command, one arm for each constructor (30_encoding.md R82). -/

namespace Sys2Proof.Machine

def exec (i : Instr) (s : State) : Host.Outcome State Fault Refusal :=
  match i with
  | .config w0 bo el tm obs => Sys2Proof.Machine.execConfig w0 bo el tm obs s
  | .bwwrite value n => Sys2Proof.Machine.execBwwrite value n s
  | .bwflush => Sys2Proof.Machine.execBwflush s
  | .brread n => Sys2Proof.Machine.execBrread n s
  | .brreset => Sys2Proof.Machine.execBrreset s
  | .compress => Sys2Proof.Machine.execCompress s
  | .decompress len => Sys2Proof.Machine.execDecompress len s

end Sys2Proof.Machine
end

