-- ==== Sys2Proof/Machine/Fetch.lean ====
section
/-! DEFINITION. Taking the next host action from the command port (30_encoding.md R80, 10_state.md R30): the block fetches
no instruction from a memory (20_memory.md R63), the host delivers each command. -/

namespace Sys2Proof.Machine

/-- What stands at the head of the port. -/
inductive Fetched where
  /-- No host action pending: the block waits (70_reset_and_hazards.md R200, 60_exceptions.md R195). -/
  | idle
  /-- The first word of a two-word command has come and its operand word has not. -/
  | awaitingOperand
  /-- A whole command: its word, its operand word (0 for a one-word command), and what follows on the port. -/
  | command (w0 w1 : Word) (rest : List HostAction)
  /-- The host binds a stream or asserts reset. -/
  | host (a : HostAction) (rest : List HostAction)
  /-- The host binds a stream between the two words of one command. -/
  | interrupted
  deriving DecidableEq, Repr

/-- A reset that stands inside a command takes effect when that command has completed (70_reset_and_hazards.md R200,
60_exceptions.md R186): it goes behind the command's words. -/
def deferReset : Fetched → Fetched
  | .idle => .idle
  | .awaitingOperand => .awaitingOperand
  | .command w0 w1 rest => .command w0 w1 (.reset :: rest)
  | .host a rest => .host a rest
  | .interrupted => .interrupted

/-- The operand word of a two-word command (30_encoding.md R80). A reset before it is deferred to the command's end;
DEDUCED, that a command whose first word has come is a command that runs (log entry 3). -/
def fetchOperand (w0 : Word) : List HostAction → Fetched
  | [] => .awaitingOperand
  | .word w1 :: rest => .command w0 w1 rest
  | .bindSrc _ :: _ => .interrupted
  | .bindSnk _ :: _ => .interrupted
  | .reset :: rest => deferReset (fetchOperand w0 rest)

/-- The next command or host action; a command's length depends on its opcode alone (30_encoding.md R80). -/
def fetch : List HostAction → Fetched
  | [] => .idle
  | .word w0 :: rest => if commandWords w0 = 2 then fetchOperand w0 rest else .command w0 0#32 rest
  | .bindSrc bytes :: rest => .host (.bindSrc bytes) rest
  | .bindSnk bytes :: rest => .host (.bindSnk bytes) rest
  | .reset :: rest => .host .reset rest

/-- A host action that is no command word: a new binding of SRC starts at position 0 and a new binding of SNK holds the
bytes it is given (20_memory.md R50, R51); reset is R200 of 70_reset_and_hazards.md. A word alone does nothing here: `fetch`
never hands one over. -/
def hostAct (a : HostAction) (s : State) : State :=
  match a with
  | .bindSrc bytes => s.setIo { s.io with src := bytes, srcPos := 0 }
  | .bindSnk bytes => s.setIo { s.io with snk := bytes }
  | .reset => powerOnReset s
  | .word _ => s

/-- The words of one command as the host sends them, numbered as the opcode table numbers them. -/
def portWords (nbits w : Nat) : List HostAction :=
  if commandWords (tableWords nbits w).1 = 2 then [.word (tableWords nbits w).1, .word (tableWords nbits w).2]
  else [.word (tableWords nbits w).1]

end Sys2Proof.Machine
end

