-- ==== Sys2Proof/Machine/Step.lean ====
section
/-! DEFINITION. One step: the next host action, a whole command at a time (10_state.md R30, 20_memory.md R60). -/

namespace Sys2Proof.Machine

/-- The decode check, then the command (60_exceptions.md R182). -/
def runCommand (w0 w1 : Word) (s : State) : Host.Outcome State Fault Refusal :=
  match decode w0 w1 with
  | .ok i => exec i s
  | .illegal _ => illegalCommand w0 s

/-- One step of the machine. With nothing to take from the port the block waits and nothing changes (log entry 2). -/
def step (s : State) : Host.Outcome State Fault Refusal :=
  match fetch s.port with
  | .idle => .next s
  | .awaitingOperand => .next s
  | .command w0 w1 rest => runCommand w0 w1 (s.setPort rest)
  | .host a rest => .next (hostAct a (s.setPort rest))
  | .interrupted => .refused .bindingInsideCommand

/-- The command of bits `w` put at the head of the command port, where step takes its next one (log entry 15). -/
def State.withFetchWord (s : State) (nbits w : Nat) : State := s.setPort (portWords nbits w ++ s.port)

end Sys2Proof.Machine
end

