-- ==== Sys2Proof/Machine/Debug.lean ====
section
/-! DEFINITION. The debug read port (60_exceptions.md R193, 10_state.md R20): it reads any state element of 10_state.md by
name, one C_DICT entry by key and one D_TABLE entry by index. A read is a function of the state: it has no side effect. -/

namespace Sys2Proof.Machine

/-- The elements the port names (10_state.md R35, 60_exceptions.md R193). -/
inductive Element where
  | cfg
  | status
  | errinfo0
  | errinfo1
  | result
  | expectedLen
  | bwCache
  | bwBits
  | bwCount
  | brCache
  | brBits
  | brCount
  | cWidth
  | cCodes
  | cDict
  | cDictEntry (key : ByteString)
  | cRun
  | cPos
  | dWidth
  | dCodes
  | dTable
  | dTableEntry (index : Nat)
  | dOld
  | dWritten
  deriving DecidableEq, Repr

/-- What a debug read answers: a register, a natural, a code or no code, a byte string or no entry, or a whole table. -/
inductive DebugValue where
  | word (w : Word)
  | nat (n : Nat)
  | code (c : Option Nat)
  | bytes (b : Option ByteString)
  | table (t : CodeTable)
  deriving DecidableEq, Repr

/-- One read of the debug port (60_exceptions.md R193). It answers in every state a step can end in, also when only the first word of
a DECOMPRESS has come, where the spec does not say whether that is between commands. DESIGN CHOICE (log entry 22), unsafe. -/
def debugRead (s : State) : Element → DebugValue
  | .cfg => .word s.regs.cfg
  | .status => .word s.regs.status
  | .errinfo0 => .word s.regs.errinfo0
  | .errinfo1 => .word s.regs.errinfo1
  | .result => .word s.regs.result
  | .expectedLen => .word s.regs.expectedLen
  | .bwCache => .nat s.bw.cache
  | .bwBits => .nat s.bw.bits
  | .bwCount => .word s.bw.count
  | .brCache => .nat s.br.cache
  | .brBits => .nat s.br.bits
  | .brCount => .word s.br.count
  | .cWidth => .nat s.c.width
  | .cCodes => .nat s.c.codes
  | .cDict => .table s.c.dict
  | .cDictEntry key => .code (tableCodeOf key s.c.dict)
  | .cRun => .bytes (some s.c.run)
  | .cPos => .nat s.c.pos
  | .dWidth => .nat s.d.width
  | .dCodes => .nat s.d.codes
  | .dTable => .table s.d.table
  | .dTableEntry index => .bytes (tableGet index s.d.table)
  | .dOld => .code s.d.old
  | .dWritten => .nat s.d.written

end Sys2Proof.Machine
end

