-- ==== Sys2Proof/Safety.lean ====
section
/-! DEFINITION. What counts as a sound state and a successful command, in the terms the claims use: the invariants of
10_state.md R21, R22, R31 to R33, the bit view of the streams (30_encoding.md R72, R73), and the environment's answers. -/

namespace Sys2Proof.Machine

/-! ### The bit view of bytes and codes (30_encoding.md R72, R73) -/

/-- The bits of a code of width `n` in stream order: from bit `n-1` down with MSBFirst (30_encoding.md R72), from bit 0 up
with LSBFirst (R73). -/
def codeBits (order : ByteOrder) (n v : Nat) : List Bool :=
  match order with
  | .msbFirst => (List.range n).map fun k => v.testBit (n - 1 - k)
  | .lsbFirst => (List.range n).map fun k => v.testBit k

/-- The code that a sequence of bits in stream order stands for. -/
def codeOfBits (order : ByteOrder) (bits : List Bool) : Nat :=
  match order with
  | .msbFirst => bits.foldl (fun a b => 2 * a + b.toNat) 0
  | .lsbFirst => bits.foldr (fun b a => b.toNat + 2 * a) 0

/-- The stream bits of a byte sequence: bit `s[j]` is bit `7 - j mod 8` of byte `j div 8` with MSBFirst, bit `j mod 8` with
LSBFirst (30_encoding.md R72, R73). -/
def streamBits (order : ByteOrder) (bytes : List Byte) : List Bool :=
  bytes.flatMap fun b => codeBits order 8 b.toNat

/-- The bits a cache holds, in stream order. -/
def pendingBits (order : ByteOrder) (b : BitCache) : List Bool := codeBits order b.bits b.cache

/-- Every bit written so far: SNK's, then those BW still holds (10_state.md R34). -/
def writtenBits (s : State) : List Bool :=
  streamBits (byteOrderOf s.regs.cfg) s.io.snk ++ pendingBits (byteOrderOf s.regs.cfg) s.bw

/-- The bytes of SRC not read yet. -/
def unreadBytes (s : State) : List Byte := s.io.src.drop s.io.srcPos

/-- Every bit BR can still return: those it holds, then SRC's (10_state.md R34). -/
def unreadBits (s : State) : List Bool :=
  pendingBits (byteOrderOf s.regs.cfg) s.br ++ streamBits (byteOrderOf s.regs.cfg) (unreadBytes s)

/-! ### The environment and the end of a command -/

/-- From now on no access to SRC answers FAIL (20_memory.md R51). -/
def SrcAnswers (s : State) : Prop := ∀ k, s.io.srcReads ≤ k → ioFails s.io.script .src k = false

/-- From now on no access to SNK answers FAIL (20_memory.md R52). -/
def SnkAccepts (s : State) : Prop := ∀ k, s.io.snkWrites ≤ k → ioFails s.io.script .snk k = false

/-- The next `k` accesses to SRC do not answer FAIL. -/
def ReadsAnswered (s : State) (k : Nat) : Prop := ∀ j, j < k → ioFails s.io.script .src (s.io.srcReads + j) = false

/-- The next `k` accesses to SNK do not answer FAIL. -/
def WritesAccepted (s : State) (k : Nat) : Prop := ∀ j, j < k → ioFails s.io.script .snk (s.io.snkWrites + j) = false

/-- The first access to SRC that answers FAIL is the one `j` accesses from now. -/
def ReadFailsAt (s : State) (j : Nat) : Prop :=
  ReadsAnswered s j ∧ ioFails s.io.script .src (s.io.srcReads + j) = true

/-- The first access to SNK that answers FAIL is the one `j` accesses from now. -/
def WriteFailsAt (s : State) (j : Nat) : Prop :=
  WritesAccepted s j ∧ ioFails s.io.script .snk (s.io.snkWrites + j) = true

/-- The bytes a `br_read(n)` takes from SRC when SRC has them: one at a time until the cache holds `n` bits
(41_bitreader.md R111). -/
def refillBytes (s : State) (n : Nat) : Nat := (n - s.br.bits + 7) / 8

/-- The code of width `w` that starts `skip` bits into the unread part of SRC (30_encoding.md R72, R73). -/
def sourceCode (s : State) (skip w : Nat) : Nat :=
  codeOfBits (byteOrderOf s.regs.cfg) (((streamBits (byteOrderOf s.regs.cfg) (unreadBytes s)).drop skip).take w)

/-- The events that `t` has beyond those of `s`. -/
def newEvents (s t : State) : List EvtRecord := t.io.evt.drop s.io.evt.length

/-- STATUS.CONFIGURED is 1. -/
def Configured (s : State) : Prop := configuredFlag s.regs.status = true

/-- The registers after a command that returned with this RESULT and SENTINEL: every other register of `r` is kept
(60_exceptions.md R181). -/
def returnedRegs (result : Word) (sentinel : Bool) (r : Regs) : Regs :=
  { r with
    status := statusWord .ok sentinel (errLatchFlag r.status) (configuredFlag r.status)
    errinfo0 := 0#32
    errinfo1 := 0#32
    result := result }

/-- The registers after a command that raised `code(i0, i1)`, with CONFIGURED as given (60_exceptions.md R181). -/
def raisedRegs (configured : Bool) (code : StatusCode) (i0 i1 : Nat) (r : Regs) : Regs :=
  { r with
    status := statusWord code false true configured
    errinfo0 := BitVec.ofNat 32 i0
    errinfo1 := BitVec.ofNat 32 i1
    result := 0#32 }

/-! ### Sound states -/

/-- The values CFG can hold once configured (10_state.md R21, 40_config.md R100). -/
structure CfgLegal (cfg : Word) : Prop where
  reserved : cfg.toNat < 2 ^ 8
  w0_low : 2 ≤ w0Of cfg
  w0_high : w0Of cfg ≤ 8
  tiff : tmOf cfg = true → w0Of cfg = 8

/-- STATUS holds only what R22 and R180 let it hold. -/
structure StatusSound (status : Word) : Prop where
  reserved : status.toNat < 2 ^ 7
  code : codeField status ≤ 9
  latched : codeField status ≠ 0 → errLatchFlag status = true
  sentinel : sentinelFlag status = true → codeField status = 0

/-- A bit cache holds nothing above its valid bits, of which there are at most `most` (10_state.md R31). -/
structure CacheSound (most : Nat) (b : BitCache) : Prop where
  cache : b.cache < 2 ^ b.bits
  bits : b.bits ≤ most

/-- The codes a table lists: the literals, then those assigned so far (10_state.md R32, R33). -/
def assignedCodes (cfg : Word) (codes : Nat) : List Nat :=
  List.range (clearCode cfg) ++ List.range' (firstFree cfg) (codes - firstFree cfg)

/-- C once constructed (10_state.md R32, R28). -/
structure CompressorSound (cfg : Word) (c : Compressor) : Prop where
  width_low : w0Of cfg + 1 ≤ c.width
  width_high : c.width ≤ maxWidth
  codes_low : firstFree cfg ≤ c.codes
  codes_high : c.codes ≤ effectiveLimit c.width (elOf cfg)
  assigned : c.dict.map Prod.fst = assignedCodes cfg c.codes
  distinct : (c.dict.map Prod.snd).Nodup
  literal : ∀ x, x < clearCode cfg → tableGet x c.dict = some [BitVec.ofNat 8 x]
  prefixed : ∀ e ∈ c.dict, firstFree cfg ≤ e.1 → 1 < e.2.length ∧ e.2.dropLast ∈ c.dict.map Prod.snd
  run_counted : c.run.length ≤ c.pos

/-- D once constructed (10_state.md R33), and the growth test of 44_decompressor.md R155 has been applied. -/
structure DecompressorSound (cfg : Word) (d : Decompressor) : Prop where
  width_low : w0Of cfg + 1 ≤ d.width
  width_high : d.width ≤ maxWidth
  codes_low : firstFree cfg ≤ d.codes
  codes_high : d.codes ≤ tableSize
  codes_width : d.codes ≤ 2 ^ d.width
  grown : d.width < maxWidth → d.codes < effectiveLimit d.width (tmOf cfg)
  assigned : d.table.map Prod.fst = assignedCodes cfg d.codes
  literal : ∀ x, x < clearCode cfg → tableGet x d.table = some [BitVec.ofNat 8 x]
  entry : ∀ e ∈ d.table, e.2 ≠ [] ∧ (firstFree cfg ≤ e.1 → e.2.length ≤ e.1 - clearCode cfg)
  old : ∀ c, d.old = some c → c < tableSize ∧ c ≠ clearCode cfg ∧ c ≠ eoiCode cfg

/-- A sound state, between commands: what 10_state.md R21, R22, R28, R29 and R31 to R33 say of it. -/
structure Inv (s : State) : Prop where
  cfg : s.regs.cfg = 0#32 ∨ CfgLegal s.regs.cfg
  status : StatusSound s.regs.status
  configured : configuredFlag s.regs.status = true → CfgLegal s.regs.cfg
  bw : CacheSound 19 s.bw
  bw_latched : 7 < s.bw.bits → errLatchFlag s.regs.status = true
  br : CacheSound 11 s.br
  stores : Memory.wf s = true
  src_pos : s.io.srcPos ≤ s.io.src.length
  unconstructed : s.regs.cfg = 0#32 →
    s.bw = BitCache.zero ∧ s.br = BitCache.zero ∧ s.c = Compressor.reset ∧ s.d = Decompressor.reset
  compressor : CfgLegal s.regs.cfg → CompressorSound s.regs.cfg s.c
  decompressor : CfgLegal s.regs.cfg → DecompressorSound s.regs.cfg s.d

/-! ### Terms of the claims about whole commands -/

/-- On the port the host binds a stream between the two words of one command, be it after resets that wait for the command's end
(93_implementation_defined.md item 16). -/
def BindingInsideCommand (port : List HostAction) : Prop :=
  ∃ w k rest bytes, opcodeOf w = 0x40 ∧
    (port = .word w :: (List.replicate k .reset ++ .bindSrc bytes :: rest) ∨
      port = .word w :: (List.replicate k .reset ++ .bindSnk bytes :: rest))

/-- The opcode of a command (30_encoding.md R82). -/
def opcodeOfInstr (i : Instr) : Nat := opcodeOf (encodeWord i)

/-- An instruction is CONFIG. -/
def isConfig : Instr → Bool
  | .config _ _ _ _ _ => true
  | .bwwrite _ _ => false
  | .bwflush => false
  | .brread _ => false
  | .brreset => false
  | .compress => false
  | .decompress _ => false

/-- A list of commands, one after another, stopping at the first fault or refusal. -/
def runCommands : List Instr → State → Host.Outcome State Fault Refusal
  | [], s => .next s
  | i :: rest, s =>
    match exec i s with
    | .next t => runCommands rest t
    | .fault f => .fault f
    | .refused r => .refused r

/-- The RESULTs of a list of BRREADs, each of which must end with OK and no sentinel; `none` otherwise. -/
def readResults : List Nat → State → Option (List Nat)
  | [], _ => some []
  | n :: rest, s =>
    match exec (.brread n) s with
    | .next t =>
      if codeField t.regs.status = 0 ∧ sentinelFlag t.regs.status = false then
        (readResults rest t).map (t.regs.result.toNat :: ·)
      else none
    | .fault _ => none
    | .refused _ => none

/-- The host binds SRC to `bytes` (20_memory.md R50, R51). -/
def bindSource (bytes : List Byte) (s : State) : State := hostAct (.bindSrc bytes) s

/-- What is left of a state when OBS and the events are hidden (60_exceptions.md R191). -/
def hideObserver (s : State) : State :=
  (s.setRegs { s.regs with cfg := s.regs.cfg &&& ~~~0x80#32 }).setIo { s.io with evt := [] }

/-- The same of an outcome. -/
def hideOutcome : Host.Outcome State Fault Refusal → Host.Outcome State Fault Refusal
  | .next s => .next (hideObserver s)
  | .fault f => .fault f
  | .refused r => .refused r

/-- `width(k)` of 30_encoding.md R71: the width of the `k`-th data code of an epoch, with the flag `EL` where C writes and `TM`
where D reads. -/
def scheduledWidth (cfg : Word) (flag : Bool) (k : Nat) : Nat :=
  w0Of cfg + 1 +
    ((List.range' (w0Of cfg + 1) (11 - w0Of cfg)).filter fun w =>
      decide (2 ^ w - flag.toNat ≤ firstFree cfg + k - 2)).length

/-- The number of data codes after which the in-band CLEAR comes (30_encoding.md R71). -/
def fullEpoch (cfg : Word) : Nat := 4096 - (elOf cfg).toNat - firstFree cfg + 1

/-- C's events from a point where `k` data codes of the epoch have been written follow the schedule of 30_encoding.md R71: data
code `k + 1` at its width, an in-band CLEAR only after a full epoch and at width 12, EOI last, at the width of the epoch's
last data code. The list may end early, where a command raised. -/
def followsSchedule (cfg : Word) : Nat → List Event → Bool
  | _, [] => true
  | k, e :: rest =>
    decide (e.unit = .c) &&
      match e.kind with
      | .data => decide (e.v2 = scheduledWidth cfg (elOf cfg) (k + 1)) && decide (k < fullEpoch cfg) &&
          followsSchedule cfg (k + 1) rest
      | .clear =>
        decide (e.v1 = clearCode cfg) && decide (e.v2 = 12) && decide (k = fullEpoch cfg) && followsSchedule cfg 0 rest
      | .eoi =>
        decide (e.v1 = eoiCode cfg) &&
          decide (e.v2 = if k = 0 then w0Of cfg + 1 else scheduledWidth cfg (elOf cfg) k) && rest.isEmpty
      | .init => false
      | .code => false
      | .sentinel => false

/-- D's events from a point where `k` data codes of the epoch have been read: each code is read at the width the schedule of
30_encoding.md R71 gives the epoch's next data code, and a CLEAR starts an epoch. -/
def readsOnSchedule (cfg : Word) : Nat → List Event → Bool
  | _, [] => true
  | k, e :: rest =>
    decide (e.unit = .d) && decide (e.v2 = scheduledWidth cfg (tmOf cfg) (k + 1)) &&
      readsOnSchedule cfg (if e.v1 = clearCode cfg then 0 else k + 1) rest

end Sys2Proof.Machine
end

