-- ==== Sys2Proof/Certificates/Slice0/Obligations.lean ====
section
/-! DEFINITION. The statements for the provers. Each docstring names the rules of the spec it formalises, or says what of it is
the model's choice and names the log entry. The access indexes and the environment's answers, which many of them mention, are the
model's own (log entries 5, 6). -/

section Claims

open Sys2Proof Sys2Proof.Machine

/-! ### Reset, the command port, the decoder -/

/-- Every state element, read through the debug port, has the reset value of 10_state.md R35. -/
def Obligations.ResetStateValues : Prop :=
  debugRead State.reset .cfg = .word 0#32 ∧ debugRead State.reset .status = .word 0#32 ∧
  debugRead State.reset .errinfo0 = .word 0#32 ∧ debugRead State.reset .errinfo1 = .word 0#32 ∧
  debugRead State.reset .result = .word 0#32 ∧ debugRead State.reset .expectedLen = .word 0#32 ∧
  debugRead State.reset .bwCache = .nat 0 ∧ debugRead State.reset .bwBits = .nat 0 ∧
  debugRead State.reset .bwCount = .word 0#32 ∧
  debugRead State.reset .brCache = .nat 0 ∧ debugRead State.reset .brBits = .nat 0 ∧
  debugRead State.reset .brCount = .word 0#32 ∧
  debugRead State.reset .cWidth = .nat 0 ∧ debugRead State.reset .cCodes = .nat 0 ∧
  debugRead State.reset .cDict = .table [] ∧ (∀ key, debugRead State.reset (.cDictEntry key) = .code none) ∧
  debugRead State.reset .cRun = .bytes (some []) ∧ debugRead State.reset .cPos = .nat 0 ∧
  debugRead State.reset .dWidth = .nat 0 ∧ debugRead State.reset .dCodes = .nat 0 ∧
  (∀ c, debugRead State.reset (.dTableEntry c) = .bytes none) ∧
  debugRead State.reset .dOld = .code none ∧ debugRead State.reset .dWritten = .nat 0

/-- What the host does between commands: a reset gives every element of 10_state.md its reset value and touches neither
stream (70_reset_and_hazards.md R200); a binding of SRC starts at position 0, a binding of SNK holds the bytes it is
given, and no element of 10_state.md changes (20_memory.md R50, R51). That EVT, the access indexes and the rest of the
port stay as they are is the model's choice (log entries 1, 6, 7, 14). -/
def Obligations.HostActionsBetweenCommands : Prop :=
  ∀ (s : State) (rest : List HostAction) (bytes : List Byte),
    (s.port = .reset :: rest → step s = .next { State.reset with io := s.io, port := rest }) ∧
    (s.port = .bindSrc bytes :: rest → step s = .next { s with io := { s.io with src := bytes, srcPos := 0 }, port := rest }) ∧
    (s.port = .bindSnk bytes :: rest → step s = .next { s with io := { s.io with snk := bytes }, port := rest })

/-- With no whole command on the port the block waits and nothing changes: after reset it waits for the first command
word (70_reset_and_hazards.md R200), and between commands all its state persists (60_exceptions.md R195). A reset behind
the first word of a two-word command waits for that command's end. That a step then leaves the state as it is is the
model's reading (log entries 2, 3). -/
def Obligations.IdleBlockWaits : Prop :=
  ∀ s : State,
    (s.port = [] → step s = .next s) ∧
    (∀ w k, s.port = .word w :: List.replicate k .reset → opcodeOf w = 0x40 → step s = .next s)

/-- A step runs the command that the word at the head of the port decodes to, on the state whose port has the command's
words taken off (30_encoding.md R80, 60_exceptions.md R182): one word, or two when the opcode is 0x40. Resets that the
host asserts between the two words take effect when the command has completed (70_reset_and_hazards.md R200): they are
what the port holds next. That a command runs from its first word on is the model's reading (log entry 3). -/
def Obligations.StepRunsDecodedCommand : Prop :=
  ∀ (s : State) (w w1 : Word) (k : Nat) (rest : List HostAction) (i : Instr),
    (s.port = .word w :: rest → opcodeOf w ≠ 0x40 → decode w 0#32 = .ok i → step s = exec i (s.setPort rest)) ∧
    (s.port = .word w :: (List.replicate k .reset ++ .word w1 :: rest) → opcodeOf w = 0x40 → decode w w1 = .ok i →
      step s = exec i (s.setPort (List.replicate k .reset ++ rest)))

/-- The encoding of any well-formed command, put on the port, runs that command: the words that 30_encoding.md R81 gives
it are the ones the block takes (R80). -/
def Obligations.EncodedCommandRuns : Prop :=
  ∀ (s : State) (i : Instr) (rest : List HostAction),
    i.wellFormed = true → s.port = (encode i).map HostAction.word ++ rest → step s = exec i (s.setPort rest)

/-- An illegal word ends with IllegalCommand and the word in ERRINFO0, and changes only STATUS, ERRINFO0, ERRINFO1 and
RESULT (30_encoding.md R85, 60_exceptions.md R183). With opcode 0x40 the second word is consumed (30_encoding.md R80),
and resets between the words take effect afterwards (log entry 3). -/
def Obligations.IllegalWordEndsCommand : Prop :=
  ∀ (s : State) (w w1 : Word) (k : Nat) (rest : List HostAction) (why : DecodeError),
    (s.port = .word w :: rest → opcodeOf w ≠ 0x40 → decode w 0#32 = .illegal why →
      step s = .next ((s.setPort rest).setRegs
        (raisedRegs (configuredFlag s.regs.status) .illegalCommand w.toNat 0 s.regs))) ∧
    (s.port = .word w :: (List.replicate k .reset ++ .word w1 :: rest) → opcodeOf w = 0x40 → decode w w1 = .illegal why →
      step s = .next ((s.setPort (List.replicate k .reset ++ rest)).setRegs
        (raisedRegs (configuredFlag s.regs.status) .illegalCommand w.toNat 0 s.regs)))

/-- Which words are illegal: an opcode outside the map of 30_encoding.md R82, or a reserved bit of R81 that is 1. -/
def Obligations.IllegalWordsExactly : Prop :=
  ∀ w w1 : Word,
    (∃ why, decode w w1 = .illegal why) ↔
      (w.extractLsb' 0 8).toNat ∉ [0x01, 0x10, 0x11, 0x20, 0x21, 0x30, 0x40] ∨
      ((w.extractLsb' 0 8).toNat = 0x01 ∧ w.extractLsb' 17 15 ≠ 0#15) ∨
      ((w.extractLsb' 0 8).toNat = 0x10 ∧ w.extractLsb' 24 8 ≠ 0#8) ∨
      ((w.extractLsb' 0 8).toNat = 0x20 ∧ w.extractLsb' 12 20 ≠ 0#20) ∨
      ((w.extractLsb' 0 8).toNat ∈ [0x11, 0x21, 0x30, 0x40] ∧ w.extractLsb' 8 24 ≠ 0#24)

/-- A legal word's operands are its fields, zero-extended, at the bits that 30_encoding.md R81 gives them (R83). -/
def Obligations.DecodeReadsFields : Prop :=
  ∀ w w1 : Word,
    (w.extractLsb' 0 8 = 0x01#8 → w.extractLsb' 17 15 = 0#15 →
      decode w w1 = .ok (.config (w.extractLsb' 8 4).toNat (w.extractLsb' 12 2).toNat
        (w.getLsbD 14) (w.getLsbD 15) (w.getLsbD 16))) ∧
    (w.extractLsb' 0 8 = 0x10#8 → w.extractLsb' 24 8 = 0#8 →
      decode w w1 = .ok (.bwwrite (w.extractLsb' 12 12).toNat (w.extractLsb' 8 4).toNat)) ∧
    (w.extractLsb' 0 8 = 0x20#8 → w.extractLsb' 12 20 = 0#20 →
      decode w w1 = .ok (.brread (w.extractLsb' 8 4).toNat)) ∧
    (w = 0x11#32 → decode w w1 = .ok .bwflush) ∧ (w = 0x21#32 → decode w w1 = .ok .brreset) ∧
    (w = 0x30#32 → decode w w1 = .ok .compress) ∧ (w = 0x40#32 → decode w w1 = .ok (.decompress w1))

/-- Decoding an encoded well-formed command gives it back, at every value its fields can hold (30_encoding.md R81, R83,
R84). -/
def Obligations.DecodeOfEncode : Prop :=
  ∀ (i : Instr) (w1 : Word), i.wellFormed = true →
    decode (encodeWord i) ((encodeOperands i).headD w1) = .ok i

/-- A word that decodes is the encoding of the command it decodes to, so no two legal words are one command: every bit
of a legal word is in the command (30_encoding.md R81). -/
def Obligations.EncodeOfDecode : Prop :=
  ∀ (w w1 : Word) (i : Instr), decode w w1 = .ok i →
    i.wellFormed = true ∧ encode i = if opcodeOf w = 0x40 then [w, w1] else [w]

/-- The encoding examples of 30_encoding.md R87, each encoded and decoded. -/
def Obligations.EncodingExamples : Prop :=
  (encode (.config 8 0 false false false) = [0x00000801#32] ∧
    decode 0x00000801#32 0#32 = .ok (.config 8 0 false false false)) ∧
  (encode (.config 8 1 false false false) = [0x00001801#32] ∧
    decode 0x00001801#32 0#32 = .ok (.config 8 1 false false false)) ∧
  (encode (.config 8 0 true true false) = [0x0000C801#32] ∧
    decode 0x0000C801#32 0#32 = .ok (.config 8 0 true true false)) ∧
  (encode (.config 8 1 false false true) = [0x00011801#32] ∧
    decode 0x00011801#32 0#32 = .ok (.config 8 1 false false true)) ∧
  (encode (.config 4 0 false false false) = [0x00000401#32] ∧
    decode 0x00000401#32 0#32 = .ok (.config 4 0 false false false)) ∧
  (encode (.bwwrite 5 3) = [0x00005310#32] ∧ decode 0x00005310#32 0#32 = .ok (.bwwrite 5 3)) ∧
  (encode (.bwwrite 0x1FF 9) = [0x001FF910#32] ∧ decode 0x001FF910#32 0#32 = .ok (.bwwrite 0x1FF 9)) ∧
  (encode (.bwwrite 1 1) = [0x00001110#32] ∧ decode 0x00001110#32 0#32 = .ok (.bwwrite 1 1)) ∧
  (encode (.bwwrite 0xABC 12) = [0x00ABCC10#32] ∧ decode 0x00ABCC10#32 0#32 = .ok (.bwwrite 0xABC 12)) ∧
  (encode .bwflush = [0x00000011#32] ∧ decode 0x00000011#32 0#32 = .ok .bwflush) ∧
  (encode (.brread 9) = [0x00000920#32] ∧ decode 0x00000920#32 0#32 = .ok (.brread 9)) ∧
  (encode .brreset = [0x00000021#32] ∧ decode 0x00000021#32 0#32 = .ok .brreset) ∧
  (encode .compress = [0x00000030#32] ∧ decode 0x00000030#32 0#32 = .ok .compress) ∧
  (encode (.decompress 5#32) = [0x00000040#32, 0x00000005#32] ∧
    decode 0x00000040#32 0x00000005#32 = .ok (.decompress 5#32))

/-! ### The whole machine -/

/-- Reset is a sound state. -/
def Obligations.ResetIsSound : Prop := Inv State.reset

/-- Every step from a sound state leads to a sound state: CFG stays legal, STATUS keeps its reserved bits and its latch,
the bit caches hold nothing above their bits, and the dictionary and the table keep their shape (10_state.md R21, R22,
R31 to R33; the spec marks R31 to R33 as derived). Of `Inv`, the clause that D has been widened as soon as its cursor
reached the limit is read from 44_decompressor.md R155, and the canonical form of the tables is the model's (log entries
8, 9). -/
def Obligations.StepKeepsSound : Prop := ∀ s t : State, Inv s → step s = .next t → Inv t

/-- From a sound state every command completes, with a status code: the block has no trap and no stuck command
(60_exceptions.md R185, 70_reset_and_hazards.md R211). A step stops exactly where the host binds a stream between the
two words of one command, which 93_implementation_defined.md item 16 refuses (log entry 3). -/
def Obligations.SoundMachineNeverStops : Prop :=
  ∀ s : State, Inv s →
    (∀ i, ∃ t, exec i s = .next t) ∧
    (BindingInsideCommand s.port → step s = .refused .bindingInsideCommand) ∧
    (¬ BindingInsideCommand s.port → ∃ t, step s = .next t)

/-- CFG changes only by CONFIG: no other command writes it, and a step that changes it took a CONFIG word or a reset
(40_config.md R104; for reset, 10_state.md R21). -/
def Obligations.CfgOnlyByConfig : Prop :=
  (∀ (i : Instr) (s t : State), isConfig i = false → exec i s = .next t → t.regs.cfg = s.regs.cfg) ∧
  (∀ s t : State, step s = .next t → t.regs.cfg ≠ s.regs.cfg →
    ∃ rest, s.port = .reset :: rest ∨
      ∃ w, s.port = .word w :: rest ∧ w.extractLsb' 0 8 = 0x01#8 ∧ codeField t.regs.status = 0)

/-- STATUS after any command (10_state.md R22, 60_exceptions.md R181): a code of 60_exceptions.md R180, reserved bits 0,
ERRLATCH set by every error and cleared only by a successful CONFIG, CONFIGURED written by CONFIG alone, SENTINEL only
after a BRREAD that returned 257 with `TM = 1`. -/
def Obligations.StatusRule : Prop :=
  ∀ (i : Instr) (s t : State), exec i s = .next t →
    t.regs.status.toNat < 2 ^ 7 ∧ codeField t.regs.status ≤ 9 ∧
    (errLatchFlag t.regs.status = true ↔
      codeField t.regs.status ≠ 0 ∨ (isConfig i = false ∧ errLatchFlag s.regs.status = true)) ∧
    (configuredFlag t.regs.status = true ↔
      (isConfig i = true ∧ codeField t.regs.status = 0) ∨ (isConfig i = false ∧ configuredFlag s.regs.status = true)) ∧
    (sentinelFlag t.regs.status = true →
      ∃ n, i = .brread n ∧ codeField t.regs.status = 0 ∧ t.regs.result = 257#32 ∧ tmOf s.regs.cfg = true)

/-- ERRINFO0, ERRINFO1 and RESULT after any command (10_state.md R23, R24). -/
def Obligations.ResultRule : Prop :=
  ∀ (i : Instr) (s t : State), exec i s = .next t →
    (codeField t.regs.status = 0 → t.regs.errinfo0 = 0#32 ∧ t.regs.errinfo1 = 0#32) ∧
    (codeField t.regs.status ≠ 0 → t.regs.result = 0#32) ∧
    (codeField t.regs.status = 0 →
      match i with
      | .brread _ => t.regs.result.toNat ≤ 4095
      | .compress => t.regs.result = t.bw.count
      | .decompress _ => t.regs.result = BitVec.ofNat 32 t.d.written
      | .config _ _ _ _ _ => t.regs.result = 0#32
      | .bwwrite _ _ => t.regs.result = 0#32
      | .bwflush => t.regs.result = 0#32
      | .brreset => t.regs.result = 0#32)

/-- Which command raises which status, and what it records (60_exceptions.md R180). The code read, which
CorruptStreamCode records in ERRINFO0 and TableOverflow in ERRINFO1, is the one of the last event when `OBS = 1`; with
`OBS = 0` the registers are the same (ObserverDoesNotMatter). -/
def Obligations.ErrorCausesAndInfo : Prop :=
  ∀ (i : Instr) (s t : State), exec i s = .next t →
    (codeField t.regs.status = 1 → ∃ w0 bo el tm obs, i = .config w0 bo el tm obs ∧
      t.regs.errinfo0 = BitVec.ofNat 32 bo ∧ t.regs.errinfo1 = 0#32) ∧
    (codeField t.regs.status = 2 → i = .compress ∧
      t.regs.errinfo0 = BitVec.ofNat 32 t.c.run.length ∧ t.regs.errinfo1 = BitVec.ofNat 32 t.c.pos) ∧
    (codeField t.regs.status = 3 → (∃ len, i = .decompress len) ∧ t.regs.errinfo1 = BitVec.ofNat 32 t.d.codes ∧
      (obsOf s.regs.cfg = true → ∃ r, (newEvents s t).getLast? = some r ∧ t.regs.errinfo0 = BitVec.ofNat 32 r.event.v1)) ∧
    (codeField t.regs.status = 4 → (∃ len, i = .decompress len) ∧ 4096 ≤ t.d.codes ∧
      t.regs.errinfo0 = BitVec.ofNat 32 t.d.codes ∧
      (obsOf s.regs.cfg = true → ∃ r, (newEvents s t).getLast? = some r ∧ t.regs.errinfo1 = BitVec.ofNat 32 r.event.v1)) ∧
    (codeField t.regs.status = 5 → tmOf s.regs.cfg = false ∧ t.regs.errinfo1 = BitVec.ofNat 32 t.br.bits ∧
      ((∃ n, i = .brread n ∧ t.regs.errinfo0 = BitVec.ofNat 32 n) ∨
        ((∃ len, i = .decompress len) ∧ t.regs.errinfo0 = BitVec.ofNat 32 t.d.width))) ∧
    (codeField t.regs.status = 6 → t.regs.errinfo1 = 0#32 ∧
      match i with
      | .brread _ => t.regs.errinfo0 = 0#32
      | .bwwrite _ _ => t.regs.errinfo0 = 1#32
      | .bwflush => t.regs.errinfo0 = 1#32
      | .compress => t.regs.errinfo0 = 0#32 ∨ t.regs.errinfo0 = 1#32
      | .decompress _ => t.regs.errinfo0 = 0#32 ∨ t.regs.errinfo0 = 1#32
      | .config _ _ _ _ _ => False
      | .brreset => False) ∧
    (codeField t.regs.status = 7 →
      match i with
      | .config w0 _ _ _ _ => t.regs.errinfo0 = BitVec.ofNat 32 w0 ∧ (t.regs.errinfo1 = 1#32 ∨ t.regs.errinfo1 = 3#32)
      | .bwwrite _ n => t.regs.errinfo0 = BitVec.ofNat 32 n ∧ t.regs.errinfo1 = 2#32
      | .brread n => t.regs.errinfo0 = BitVec.ofNat 32 n ∧ t.regs.errinfo1 = 2#32
      | .bwflush => False
      | .brreset => False
      | .compress => False
      | .decompress _ => False) ∧
    codeField t.regs.status ≠ 8 ∧
    (codeField t.regs.status = 9 → isConfig i = false ∧ configuredFlag s.regs.status = false ∧
      t.regs.errinfo0 = BitVec.ofNat 32 (opcodeOfInstr i) ∧ t.regs.errinfo1 = 0#32)

/-- A command ends with IoError exactly when one of the accesses it made was answered FAIL; that access was its last on
that stream, and ERRINFO0 names the stream (20_memory.md R51, R52, 41_bitreader.md R117, 42_bitwriter.md R120). The
count of the accesses is the model's own (log entry 6). -/
def Obligations.IoErrorExactlyOnFail : Prop :=
  ∀ (i : Instr) (s t : State), exec i s = .next t →
    (codeField t.regs.status = 6 ↔
      (∃ k, s.io.srcReads ≤ k ∧ k < t.io.srcReads ∧ ioFails s.io.script .src k = true) ∨
      (∃ k, s.io.snkWrites ≤ k ∧ k < t.io.snkWrites ∧ ioFails s.io.script .snk k = true)) ∧
    (∀ k, s.io.srcReads ≤ k → k < t.io.srcReads → ioFails s.io.script .src k = true →
      k + 1 = t.io.srcReads ∧ t.regs.errinfo0 = 0#32) ∧
    (∀ k, s.io.snkWrites ≤ k → k < t.io.snkWrites → ioFails s.io.script .snk k = true →
      k + 1 = t.io.snkWrites ∧ t.regs.errinfo0 = 1#32)

/-- What every command does to the streams: SRC is only consumed, SNK is only appended to, one byte an access
(20_memory.md R51, R52, R59), and nothing is rolled back (R60). The command port and the environment's answers are no
command's to change. The count of the accesses is the model's own (log entry 6). -/
def Obligations.StreamsOnlyGrow : Prop :=
  ∀ (i : Instr) (s t : State), exec i s = .next t →
    t.io.src = s.io.src ∧ s.io.srcPos ≤ t.io.srcPos ∧ s.io.snk <+: t.io.snk ∧ s.io.evt <+: t.io.evt ∧
    t.io.srcPos - s.io.srcPos ≤ t.io.srcReads - s.io.srcReads ∧ s.io.srcReads ≤ t.io.srcReads ∧
    t.io.snk.length - s.io.snk.length ≤ t.io.snkWrites - s.io.snkWrites ∧ s.io.snkWrites ≤ t.io.snkWrites ∧
    t.io.script = s.io.script ∧ t.port = s.port

/-- What each command leaves alone, however it ends (00_scope.md R2, 60_exceptions.md R194, 10_state.md R34): the units
are independent. -/
def Obligations.UnitsAreIndependent : Prop :=
  ∀ (i : Instr) (s t : State), exec i s = .next t →
    match i with
    | .config _ _ _ _ _ => t.io.srcPos = s.io.srcPos ∧ t.io.snk = s.io.snk ∧ t.io.srcReads = s.io.srcReads ∧
        t.io.snkWrites = s.io.snkWrites
    | .bwwrite _ _ => t.br = s.br ∧ t.c = s.c ∧ t.d = s.d ∧ t.regs.expectedLen = s.regs.expectedLen ∧
        t.io.srcPos = s.io.srcPos ∧ t.io.srcReads = s.io.srcReads
    | .bwflush => t.br = s.br ∧ t.c = s.c ∧ t.d = s.d ∧ t.regs.expectedLen = s.regs.expectedLen ∧
        t.io.srcPos = s.io.srcPos ∧ t.io.srcReads = s.io.srcReads
    | .brread _ => t.bw = s.bw ∧ t.c = s.c ∧ t.d = s.d ∧ t.regs.expectedLen = s.regs.expectedLen ∧
        t.io.snk = s.io.snk ∧ t.io.snkWrites = s.io.snkWrites
    | .brreset => t.bw = s.bw ∧ t.c = s.c ∧ t.d = s.d ∧ t.regs.expectedLen = s.regs.expectedLen ∧ t.io = s.io ∧
        t.br.count = s.br.count
    | .compress => t.br = s.br ∧ t.d = s.d ∧ t.regs.expectedLen = s.regs.expectedLen
    | .decompress _ => t.bw = s.bw ∧ t.c = s.c

/-- Every command and every step keep the one canonical form of the two tables, from any state (the model's form of
C_DICT and D_TABLE, log entries 8 and 9). -/
def Obligations.TablesStayCanonical : Prop :=
  (∀ (i : Instr) (s t : State), Memory.wf s = true → exec i s = .next t → Memory.wf t = true) ∧
  (∀ s t : State, Memory.wf s = true → step s = .next t → Memory.wf t = true)

/-- Events: only COMPRESS, DECOMPRESS and a successful CONFIG put any on EVT, none do with `OBS = 0`, and each unit's
events are its own kinds (60_exceptions.md R190, 40_config.md R103). -/
def Obligations.WhoEmitsEvents : Prop :=
  ∀ (i : Instr) (s t : State), exec i s = .next t →
    (obsOf t.regs.cfg = false → newEvents s t = []) ∧
    match i with
    | .config _ _ _ _ _ =>
      (codeField t.regs.status ≠ 0 → newEvents s t = []) ∧
      (codeField t.regs.status = 0 → obsOf t.regs.cfg = true →
        (newEvents s t).map EvtRecord.event =
          [{ unit := .c, kind := .init, v1 := clearCode t.regs.cfg, v2 := eoiCode t.regs.cfg },
           { unit := .d, kind := .init, v1 := clearCode t.regs.cfg, v2 := eoiCode t.regs.cfg }])
    | .bwwrite _ _ => newEvents s t = []
    | .bwflush => newEvents s t = []
    | .brread _ => newEvents s t = []
    | .brreset => newEvents s t = []
    | .compress => ∀ r ∈ newEvents s t, r.event.unit = .c ∧
        (r.event.kind = .clear ∨ r.event.kind = .data ∨ r.event.kind = .eoi)
    | .decompress _ => ∀ r ∈ newEvents s t, r.event.unit = .d ∧
        (r.event.kind = .code ∨ r.event.kind = .sentinel)

/-- Events are ordered with the streams: the positions they are stamped with never go back and lie within the command,
and after a COMPRESS that ended with OK the EOI event came before the last byte (60_exceptions.md R192, which the spec
marks as derived). The stamps are the model's own (log entry 7). -/
def Obligations.EventsAreOrdered : Prop :=
  ∀ (i : Instr) (s t : State), exec i s = .next t →
    (∀ r ∈ newEvents s t, s.io.srcPos ≤ r.srcPos ∧ r.srcPos ≤ t.io.srcPos ∧
      s.io.snk.length ≤ r.snkLen ∧ r.snkLen ≤ t.io.snk.length) ∧
    (newEvents s t).Pairwise (fun a b => a.srcPos ≤ b.srcPos ∧ a.snkLen ≤ b.snkLen) ∧
    (i = .compress → codeField t.regs.status = 0 → obsOf t.regs.cfg = true →
      ∃ r, (newEvents s t).getLast? = some r ∧ r.event.kind = .eoi ∧ r.snkLen < t.io.snk.length)

/-- Each code event stands between the bytes of its own code and those of the others (60_exceptions.md R192, which the
spec marks as derived). A C event comes before the bytes that its code's `bw_write` drains: SNK then holds the whole
bytes of the codes before it and no bit of its own. A D CODE event comes after the SRC bytes its read took, and before
the bytes its code emits: those of the codes before it are in SNK, a CLEAR adds none, a literal adds its own byte at
that place, any other code adds at least one. The stamps are the model's own (log entry 7). -/
def Obligations.CodeEventsBracketTheirBytes : Prop :=
  ∀ (s t : State), Inv s → Configured s →
    (exec .compress s = .next t →
      ∀ n r, (newEvents s t)[n]? = some r →
        r.snkLen = s.io.snk.length + (((newEvents s t).take n).map (fun e => e.event.v2)).sum / 8) ∧
    (∀ len, exec (.decompress len) s = .next t →
      (∀ r, (newEvents s t).head? = some r → r.snkLen = s.io.snk.length) ∧
      (∀ n r, (newEvents s t)[n]? = some r →
        r.srcPos = if r.event.kind = .code
          then s.io.srcPos + ((((newEvents s t).take (n + 1)).map (fun e => e.event.v2)).sum + 7) / 8
          else s.io.src.length) ∧
      (∀ n a b, (newEvents s t)[n]? = some a → (newEvents s t)[n + 1]? = some b →
        (a.event.v1 = clearCode s.regs.cfg → b.snkLen = a.snkLen) ∧
        (a.event.v1 < clearCode s.regs.cfg → b.snkLen = a.snkLen + 1 ∧
          t.io.snk[a.snkLen]? = some (BitVec.ofNat 8 a.event.v1)) ∧
        (eoiCode s.regs.cfg < a.event.v1 → a.snkLen < b.snkLen)) ∧
      (codeField t.regs.status = 0 → ∀ r, (newEvents s t).getLast? = some r →
        if r.event.v1 = clearCode s.regs.cfg ∨ r.event.v1 = eoiCode s.regs.cfg then r.snkLen = t.io.snk.length
        else r.snkLen < t.io.snk.length))

/-- Observing changes nothing: from two states that differ only in OBS and in the events, any command ends the same way,
in states that differ only there (60_exceptions.md R191, a sentence the spec marks as derived); and so do two CONFIGs
that differ only in OBS. -/
def Obligations.ObserverDoesNotMatter : Prop :=
  ∀ s u : State, hideObserver s = hideObserver u →
    (∀ i, isConfig i = false → hideOutcome (exec i s) = hideOutcome (exec i u)) ∧
    (∀ w0 bo el tm obs obs', hideOutcome (exec (.config w0 bo el tm obs) s) =
      hideOutcome (exec (.config w0 bo el tm obs') u))

/-! ### CONFIG and the checks before a command -/

/-- A CONFIG with legal fields completes: every unit takes its construction state (40_config.md R102), CFG holds the
fields (10_state.md R21), STATUS is 0x40, and EVT gets the two INIT events when `OBS = 1` (40_config.md R103). Nothing
else changes. That EXPECTED_LEN is 0 afterwards is R102's pseudocode against 10_state.md R25's words (log entry 21), and
the positions an event is stamped with are the model's own (log entry 7). -/
def Obligations.ConfigConstructs : Prop :=
  ∀ (s : State) (w0 bo : Nat) (el tm obs : Bool), bo ≤ 1 → 2 ≤ w0 → w0 ≤ 8 → (tm = true → w0 = 8) →
    ∃ t, exec (.config w0 bo el tm obs) s = .next t ∧
      t.bw = { cache := 0, bits := 0, count := 0#32 } ∧ t.br = { cache := 0, bits := 0, count := 0#32 } ∧
      t.c.width = w0 + 1 ∧ t.c.codes = 2 ^ w0 + 2 ∧ t.c.run = [] ∧ t.c.pos = 0 ∧
      (∀ key code, tableCodeOf key t.c.dict = some code ↔ code < 2 ^ w0 ∧ key = [BitVec.ofNat 8 code]) ∧
      t.d.width = w0 + 1 ∧ t.d.codes = 2 ^ w0 + 2 ∧ t.d.old = none ∧ t.d.written = 0 ∧
      (∀ c, tableGet c t.d.table = if c < 2 ^ w0 then some [BitVec.ofNat 8 c] else none) ∧
      t.regs.cfg.toNat = w0 + 2 ^ 4 * bo + 2 ^ 5 * el.toNat + 2 ^ 6 * tm.toNat + 2 ^ 7 * obs.toNat ∧
      t.regs.status = 0x40#32 ∧ t.regs.errinfo0 = 0#32 ∧ t.regs.errinfo1 = 0#32 ∧ t.regs.result = 0#32 ∧
      t.regs.expectedLen = 0#32 ∧ t.port = s.port ∧
      t.io = { s.io with evt := s.io.evt ++
        if obs then
          [{ event := { unit := .c, kind := .init, v1 := 2 ^ w0, v2 := 2 ^ w0 + 1 }, srcPos := s.io.srcPos,
             snkLen := s.io.snk.length },
           { event := { unit := .d, kind := .init, v1 := 2 ^ w0, v2 := 2 ^ w0 + 1 }, srcPos := s.io.srcPos,
             snkLen := s.io.snk.length }]
        else [] }

/-- A CONFIG with an illegal field: the first failing check of 40_config.md R100 is reported, CONFIGURED is cleared, and
neither CFG nor any unit is written (R101). -/
def Obligations.ConfigErrorsInOrder : Prop :=
  ∀ (s : State) (w0 bo : Nat) (el tm obs : Bool),
    (1 < bo →
      exec (.config w0 bo el tm obs) s = .next (s.setRegs (raisedRegs false .unknownByteOrder bo 0 s.regs))) ∧
    (bo ≤ 1 → w0 < 2 ∨ 8 < w0 →
      exec (.config w0 bo el tm obs) s = .next (s.setRegs (raisedRegs false .invalidArgument w0 1 s.regs))) ∧
    (bo ≤ 1 → 2 ≤ w0 → w0 < 8 → tm = true →
      exec (.config w0 bo el tm obs) s = .next (s.setRegs (raisedRegs false .invalidArgument w0 3 s.regs)))

/-- A failed CONFIG writes neither CFG nor any unit, clears CONFIGURED, sets ERRLATCH, and until a later CONFIG succeeds
every other command ends with NotConfigured (40_config.md R101). -/
def Obligations.FailedConfigDisables : Prop :=
  ∀ (s t : State) (w0 bo : Nat) (el tm obs : Bool),
    exec (.config w0 bo el tm obs) s = .next t → codeField t.regs.status ≠ 0 →
      t.regs.cfg = s.regs.cfg ∧ t.bw = s.bw ∧ t.br = s.br ∧ t.c = s.c ∧ t.d = s.d ∧ t.io = s.io ∧
      t.regs.expectedLen = s.regs.expectedLen ∧ t.regs.result = 0#32 ∧
      configuredFlag t.regs.status = false ∧ errLatchFlag t.regs.status = true ∧
      ((codeField t.regs.status = 1 ∧ t.regs.errinfo0 = BitVec.ofNat 32 bo ∧ t.regs.errinfo1 = 0#32) ∨
        (codeField t.regs.status = 7 ∧ t.regs.errinfo0 = BitVec.ofNat 32 w0 ∧
          (t.regs.errinfo1 = 1#32 ∨ t.regs.errinfo1 = 3#32))) ∧
      ∀ i, isConfig i = false →
        exec i t = .next (t.setRegs (raisedRegs false .notConfigured (opcodeOfInstr i) 0 t.regs))

/-- Before a CONFIG has succeeded every other command ends with `NotConfigured(opcode, 0)`, before any check of its
operands, and changes nothing but STATUS, ERRINFO0, ERRINFO1 and RESULT (60_exceptions.md R182, R183). -/
def Obligations.NotConfiguredGate : Prop :=
  ∀ (s : State) (i : Instr), isConfig i = false → configuredFlag s.regs.status = false →
    exec i s = .next (s.setRegs (raisedRegs false .notConfigured (opcodeOfInstr i) 0 s.regs))

/-- BRREAD and BWWRITE with `N` outside 1..12 end with `InvalidArgument(N, 2)` and change nothing but STATUS, ERRINFO0,
ERRINFO1 and RESULT (41_bitreader.md R115, 42_bitwriter.md R124, 60_exceptions.md R183). -/
def Obligations.InvalidWidthIsRejected : Prop :=
  ∀ (s : State) (n value : Nat), Configured s → n = 0 ∨ 12 < n →
    exec (.brread n) s = .next (s.setRegs (raisedRegs true .invalidArgument n 2 s.regs)) ∧
    exec (.bwwrite value n) s = .next (s.setRegs (raisedRegs true .invalidArgument n 2 s.regs))

/-! ### BR -/

/-- BRREAD completes when SRC and the cache hold `N` bits: RESULT is the code of the next `N` bits, those bits are gone,
exactly the bytes the cache was short of are taken and counted, and nothing else changes (41_bitreader.md R110 to R112).
At `N = 12` with `BR_BITS = 7` that is one byte, as R110 has it, against R115's corner case, which says two (log entry
20). -/
def Obligations.BrreadReturnsNextBits : Prop :=
  ∀ (s : State) (n : Nat), Inv s → Configured s → 1 ≤ n → n ≤ 12 → n ≤ (unreadBits s).length →
    ReadsAnswered s (refillBytes s n) →
    ∃ t, exec (.brread n) s = .next t ∧
      t.regs = returnedRegs (BitVec.ofNat 32 (codeOfBits (byteOrderOf s.regs.cfg) ((unreadBits s).take n))) false s.regs ∧
      unreadBits t = (unreadBits s).drop n ∧
      t.br.bits = s.br.bits + 8 * refillBytes s n - n ∧
      t.br.count = s.br.count + BitVec.ofNat 32 (refillBytes s n) ∧
      t.io = { s.io with
        srcPos := s.io.srcPos + refillBytes s n, srcReads := s.io.srcReads + refillBytes s n } ∧
      t.bw = s.bw ∧ t.c = s.c ∧ t.d = s.d ∧ t.port = s.port

/-- BRREAD past the end of SRC: with `TM = 1` it returns the sentinel 257, with `TM = 0` it raises
`PrematureEndOfData(N, BR_BITS)`; the cache keeps every bit, the bytes taken before END included (41_bitreader.md R113). -/
def Obligations.BrreadPastEnd : Prop :=
  ∀ (s : State) (n : Nat), Inv s → Configured s → 1 ≤ n → n ≤ 12 → (unreadBits s).length < n →
    ReadsAnswered s ((unreadBytes s).length + 1) →
    ∃ t, exec (.brread n) s = .next t ∧
      t.regs = (if tmOf s.regs.cfg then returnedRegs 257#32 true s.regs
        else raisedRegs true .prematureEndOfData n (unreadBits s).length s.regs) ∧
      unreadBits t = unreadBits s ∧ t.br.bits = (unreadBits s).length ∧
      t.br.count = s.br.count + BitVec.ofNat 32 (unreadBytes s).length ∧
      t.io = { s.io with
        srcPos := s.io.src.length, srcReads := s.io.srcReads + (unreadBytes s).length + 1 } ∧
      t.bw = s.bw ∧ t.c = s.c ∧ t.d = s.d ∧ t.port = s.port

/-- BRREAD when SRC answers FAIL to an access it needs, the `j`-th after `j` bytes: `IoError(0, 0)`, and the cache keeps
what it held and the bytes taken before (41_bitreader.md R117, 60_exceptions.md R184). -/
def Obligations.BrreadSourceFails : Prop :=
  ∀ (s : State) (n j : Nat), Inv s → Configured s → 1 ≤ n → n ≤ 12 → j ≤ (unreadBytes s).length →
    s.br.bits + 8 * j < n → ReadFailsAt s j →
    ∃ t, exec (.brread n) s = .next t ∧ t.regs = raisedRegs true .ioError 0 0 s.regs ∧
      unreadBits t = unreadBits s ∧ t.br.bits = s.br.bits + 8 * j ∧
      t.br.count = s.br.count + BitVec.ofNat 32 j ∧
      t.io = { s.io with srcPos := s.io.srcPos + j, srcReads := s.io.srcReads + j + 1 } ∧
      t.bw = s.bw ∧ t.c = s.c ∧ t.d = s.d ∧ t.port = s.port

/-- BRRESET completes: BR's unread bits are discarded, and BR_COUNT, the position in SRC and everything else are kept
(41_bitreader.md R114, R116). -/
def Obligations.BrresetDiscards : Prop :=
  ∀ s : State, Configured s →
    exec .brreset s = .next
      { s with br := { cache := 0, bits := 0, count := s.br.count }, regs := returnedRegs 0#32 false s.regs }

/-! ### BW -/

/-- BWWRITE completes when SNK accepts the bytes it completes: the low `N` bits of VALUE follow the bits written before,
in the stream order of the configured byte order; whole bytes go to SNK and are counted, fewer than 8 bits stay
(42_bitwriter.md R120 to R124). -/
def Obligations.BwwriteAppendsCode : Prop :=
  ∀ (s : State) (value n : Nat), Inv s → Configured s → 1 ≤ n → n ≤ 12 → WritesAccepted s ((s.bw.bits + n) / 8) →
    ∃ t, exec (.bwwrite value n) s = .next t ∧ t.regs = returnedRegs 0#32 false s.regs ∧
      writtenBits t = writtenBits s ++ codeBits (byteOrderOf s.regs.cfg) n value ∧
      s.io.snk <+: t.io.snk ∧ t.io.snk.length = s.io.snk.length + (s.bw.bits + n) / 8 ∧
      t.bw.bits = (s.bw.bits + n) % 8 ∧ t.bw.count = s.bw.count + BitVec.ofNat 32 ((s.bw.bits + n) / 8) ∧
      t.io = { s.io with snk := t.io.snk, snkWrites := s.io.snkWrites + (s.bw.bits + n) / 8 } ∧
      t.br = s.br ∧ t.c = s.c ∧ t.d = s.d ∧ t.port = s.port

/-- BWWRITE when SNK refuses the `j`-th byte it is given: `IoError(1, 0)`. The bytes before it are in SNK, the refused
byte is still in BW, and the code has been merged exactly when the refused byte was not one that an earlier failure had
left (42_bitwriter.md R120, R121, 60_exceptions.md R184). -/
def Obligations.BwwriteSinkFails : Prop :=
  ∀ (s : State) (value n j : Nat), Inv s → Configured s → 1 ≤ n → n ≤ 12 → j < (s.bw.bits + n) / 8 → WriteFailsAt s j →
    ∃ t, exec (.bwwrite value n) s = .next t ∧ t.regs = raisedRegs true .ioError 1 0 s.regs ∧
      writtenBits t = writtenBits s ++ (if j < s.bw.bits / 8 then [] else codeBits (byteOrderOf s.regs.cfg) n value) ∧
      t.bw.bits + 8 * j = s.bw.bits + (if j < s.bw.bits / 8 then 0 else n) ∧
      s.io.snk <+: t.io.snk ∧ t.io.snk.length = s.io.snk.length + j ∧ t.bw.count = s.bw.count + BitVec.ofNat 32 j ∧
      t.io = { s.io with snk := t.io.snk, snkWrites := s.io.snkWrites + j + 1 } ∧
      t.br = s.br ∧ t.c = s.c ∧ t.d = s.d ∧ t.port = s.port

/-- BWFLUSH completes when SNK accepts what BW holds: the pending bits reach SNK, completed with zero bits to a whole
byte, and BW is empty; with nothing pending no byte is written, so a second BWFLUSH writes nothing (42_bitwriter.md
R125, R126). -/
def Obligations.BwflushPadsWithZeros : Prop :=
  ∀ s : State, Inv s → Configured s → WritesAccepted s ((s.bw.bits + 7) / 8) →
    ∃ t, exec .bwflush s = .next t ∧ t.regs = returnedRegs 0#32 false s.regs ∧
      t.bw = { cache := 0, bits := 0, count := s.bw.count + BitVec.ofNat 32 ((s.bw.bits + 7) / 8) } ∧
      s.io.snk <+: t.io.snk ∧
      streamBits (byteOrderOf s.regs.cfg) t.io.snk =
        writtenBits s ++ List.replicate (8 * ((s.bw.bits + 7) / 8) - s.bw.bits) false ∧
      t.io = { s.io with snk := t.io.snk, snkWrites := s.io.snkWrites + (s.bw.bits + 7) / 8 } ∧
      t.br = s.br ∧ t.c = s.c ∧ t.d = s.d ∧ t.port = s.port

/-- BWFLUSH when SNK refuses the `j`-th byte: `IoError(1, 0)`, and no bit is lost (42_bitwriter.md R120, R125,
60_exceptions.md R184). -/
def Obligations.BwflushSinkFails : Prop :=
  ∀ (s : State) (j : Nat), Inv s → Configured s → j < (s.bw.bits + 7) / 8 → WriteFailsAt s j →
    ∃ t, exec .bwflush s = .next t ∧ t.regs = raisedRegs true .ioError 1 0 s.regs ∧
      writtenBits t = writtenBits s ∧ t.bw.bits + 8 * j = s.bw.bits ∧
      s.io.snk <+: t.io.snk ∧ t.io.snk.length = s.io.snk.length + j ∧ t.bw.count = s.bw.count + BitVec.ofNat 32 j ∧
      t.io = { s.io with snk := t.io.snk, snkWrites := s.io.snkWrites + j + 1 } ∧
      t.br = s.br ∧ t.c = s.c ∧ t.d = s.d ∧ t.port = s.port

/-- Packing and unpacking are exact inverses within one order (20_memory.md R55, 95_test_vectors.md L1-5): any codes
written with BWWRITE and flushed, then read back at the same widths, are read exactly, for both orders. -/
def Obligations.PackingInverse : Prop :=
  ∀ (s : State) (codes : List (Nat × Nat)), Inv s → Configured s → SrcAnswers s → SnkAccepts s →
    s.bw.bits = 0 → s.br.bits = 0 → s.io.snk = [] →
    (∀ p ∈ codes, 1 ≤ p.2 ∧ p.2 ≤ 12 ∧ p.1 < 2 ^ p.2) →
    ∃ t, runCommands (codes.map (fun p => .bwwrite p.1 p.2) ++ [.bwflush]) s = .next t ∧
      readResults (codes.map Prod.snd) (bindSource t.io.snk t) = some (codes.map Prod.fst)

/-! ### C -/

/-- `c_add_table_entry` (43_compressor.md R134): below the limit the string gets the cursor's code; at the limit below
width 12 the width grows and it still gets it; at the limit at width 12 a CLEAR code is written at width 12, the table
is rebuilt and the string is not inserted. -/
def Obligations.AddTableEntryEffect : Prop :=
  ∀ (s : State) (key : ByteString), Inv s → Configured s → s.bw.bits ≤ 7 → tableCodeOf key s.c.dict = none →
    SnkAccepts s →
    ∃ t, cAddTableEntry key s = .ok () t ∧ t.regs = s.regs ∧ t.br = s.br ∧ t.d = s.d ∧ t.c.run = s.c.run ∧ t.c.pos = s.c.pos ∧
      (s.c.codes ≠ 2 ^ s.c.width - (elOf s.regs.cfg).toNat ∨ s.c.width < 12 →
        tableCodeOf key t.c.dict = some s.c.codes ∧ t.c.codes = s.c.codes + 1 ∧
        t.c.width = s.c.width + (if s.c.codes = 2 ^ s.c.width - (elOf s.regs.cfg).toNat then 1 else 0) ∧
        (∀ k, k ≠ key → tableCodeOf k t.c.dict = tableCodeOf k s.c.dict) ∧ t.bw = s.bw ∧ t.io = s.io) ∧
      (s.c.codes = 2 ^ s.c.width - (elOf s.regs.cfg).toNat → s.c.width = 12 →
        t.c.codes = firstFree s.regs.cfg ∧ t.c.width = w0Of s.regs.cfg + 1 ∧
        (∀ k code, tableCodeOf k t.c.dict = some code ↔ code < clearCode s.regs.cfg ∧ k = [BitVec.ofNat 8 code]) ∧
        writtenBits t = writtenBits s ++ codeBits (byteOrderOf s.regs.cfg) 12 (clearCode s.regs.cfg))

/-- COMPRESS of an empty SRC completes: CLEAR and EOI at width `W0 + 1`, then the flush, no data code (43_compressor.md
R139). For `W0 = 8` and MSBFirst that is 80 40 40. -/
def Obligations.CompressEmptyInput : Prop :=
  ∀ s : State, Inv s → Configured s → unreadBytes s = [] → ReadsAnswered s 1 →
    WritesAccepted s ((2 * (w0Of s.regs.cfg + 1) + 7) / 8) →
    ∃ t, exec .compress s = .next t ∧
      t.regs = returnedRegs (BitVec.ofNat 32 ((2 * (w0Of s.regs.cfg + 1) + 7) / 8)) false s.regs ∧
      streamBits (byteOrderOf s.regs.cfg) t.io.snk = streamBits (byteOrderOf s.regs.cfg) s.io.snk ++
        codeBits (byteOrderOf s.regs.cfg) (w0Of s.regs.cfg + 1) (clearCode s.regs.cfg) ++
        codeBits (byteOrderOf s.regs.cfg) (w0Of s.regs.cfg + 1) (eoiCode s.regs.cfg) ++
        List.replicate (8 * ((2 * (w0Of s.regs.cfg + 1) + 7) / 8) - 2 * (w0Of s.regs.cfg + 1)) false ∧
      (w0Of s.regs.cfg = 8 → byteOrderOf s.regs.cfg = .msbFirst → t.io.snk = s.io.snk ++ [0x80#8, 0x40#8, 0x40#8]) ∧
      t.c.codes = firstFree s.regs.cfg ∧ t.c.width = w0Of s.regs.cfg + 1 ∧ t.c.run = [] ∧ t.c.pos = 0 ∧
      t.io.srcPos = s.io.srcPos ∧ t.br = s.br ∧ t.d = s.d ∧ t.port = s.port

/-- COMPRESS completes on any input whose bytes are all literals, when no access fails: OK, the whole of SRC consumed,
RESULT the number of bytes appended to SNK modulo 2^32, BW empty, D and BR untouched (43_compressor.md R136, R137, R138,
R140). -/
def Obligations.CompressCompletes : Prop :=
  ∀ s : State, Inv s → Configured s → SrcAnswers s → SnkAccepts s →
    (∀ b ∈ unreadBytes s, b.toNat < clearCode s.regs.cfg) →
    ∃ t, exec .compress s = .next t ∧
      t.regs = returnedRegs (BitVec.ofNat 32 (t.io.snk.length - s.io.snk.length)) false s.regs ∧
      t.bw = { cache := 0, bits := 0, count := BitVec.ofNat 32 (t.io.snk.length - s.io.snk.length) } ∧
      t.io.srcPos = s.io.src.length ∧ t.c.pos = (unreadBytes s).length ∧ s.io.snk <+: t.io.snk ∧
      t.c.run <:+ unreadBytes s ∧ (t.c.run = [] ↔ unreadBytes s = []) ∧
      (∀ b : Byte, b.toNat < clearCode s.regs.cfg → (tableCodeOf [b] t.c.dict) = some b.toNat) ∧
      t.br = s.br ∧ t.d = s.d ∧ t.port = s.port ∧ t.io.src = s.io.src ∧ s.io.evt <+: t.io.evt

/-- COMPRESS of an input with a byte that is no literal raises DictionaryLookupFailure, at the first lookup of a run
that starts with such a byte (43_compressor.md R136, and R138, whose sentence on it the spec marks as derived): with the
first such byte at index `k`, after reading one byte more, or at the end of SRC; the run is that byte, and no EOI is
written. When it is the very first byte the run to be emitted is still empty: the spec's wording and its pseudocode
differ there, and the model follows the pseudocode (log entry 18). -/
def Obligations.CompressLookupFailure : Prop :=
  ∀ (s : State) (k : Nat) (b : Byte), Inv s → Configured s → SrcAnswers s → SnkAccepts s →
    (unreadBytes s)[k]? = some b → clearCode s.regs.cfg ≤ b.toNat →
    (∀ x ∈ (unreadBytes s).take k, x.toNat < clearCode s.regs.cfg) →
    ∃ t, exec .compress s = .next t ∧
      t.regs = raisedRegs true .dictionaryLookupFailure (if k = 0 then 0 else 1)
        (if k = 0 then 1 else min (k + 2) (unreadBytes s).length) s.regs ∧
      t.c.run = (if k = 0 then [] else [b]) ∧
      t.c.pos = (if k = 0 then 1 else min (k + 2) (unreadBytes s).length) ∧
      t.io.srcPos = s.io.srcPos + t.c.pos ∧
      (∀ r ∈ newEvents s t, r.event.kind ≠ .eoi) ∧ t.br = s.br ∧ t.d = s.d ∧ t.port = s.port

/-- How far 10_state.md R28's words on the bytes of keys, which the spec marks as derived, hold beside 43_compressor.md R134
and R136: after any COMPRESS every key is non-empty and all its bytes but the last are below CLEAR, and when every input
byte is below CLEAR so are all of them. That the last byte can be at or above CLEAR is log entry 13. -/
def Obligations.KeysBelowClear : Prop :=
  ∀ s t : State, Inv s → Configured s → exec .compress s = .next t →
    (∀ e ∈ t.c.dict, e.2 ≠ [] ∧ ∀ b ∈ e.2.dropLast, b.toNat < clearCode s.regs.cfg) ∧
    ((∀ b ∈ unreadBytes s, b.toNat < clearCode s.regs.cfg) →
      ∀ e ∈ t.c.dict, ∀ b ∈ e.2, b.toNat < clearCode s.regs.cfg)

/-- COMPRESS when SNK refuses its very first byte, or SRC its very first access: `IoError(1, 0)` before SRC is read,
because the CLEAR is written first, and `IoError(0, 0)` after the CLEAR (43_compressor.md R136, 60_exceptions.md R184;
95_test_vectors.md V-C-15). With `W0 < 7` the CLEAR alone completes no byte. -/
def Obligations.CompressEarlyFailures : Prop :=
  ∀ s : State, Inv s → Configured s →
    (7 ≤ w0Of s.regs.cfg → WriteFailsAt s 0 →
      ∃ t, exec .compress s = .next t ∧ t.regs = raisedRegs true .ioError 1 0 s.regs ∧
        t.io.srcReads = s.io.srcReads ∧ t.io.snk = s.io.snk ∧ t.c.pos = 0 ∧ t.c.run = [] ∧
        t.bw.bits = w0Of s.regs.cfg + 1 ∧ t.bw.cache = clearCode s.regs.cfg) ∧
    (WritesAccepted s 1 → ReadFailsAt s 0 →
      ∃ t, exec .compress s = .next t ∧ t.regs = raisedRegs true .ioError 0 0 s.regs ∧
        t.io.srcPos = s.io.srcPos ∧ t.c.pos = 0 ∧ t.c.run = [] ∧
        writtenBits t = streamBits (byteOrderOf s.regs.cfg) s.io.snk ++
          codeBits (byteOrderOf s.regs.cfg) (w0Of s.regs.cfg + 1) (clearCode s.regs.cfg))

/-- Each COMPRESS is a fresh session: what BW and C held before it has no effect (43_compressor.md R140). -/
def Obligations.CompressIsAFreshSession : Prop :=
  ∀ (s : State) (b : BitCache) (c : Compressor), Configured s → exec .compress ((s.setBw b).setC c) = exec .compress s

/-- The stream C writes follows the width schedule of 30_encoding.md R71 (a rule the spec marks as derived), whatever
the input and however the command ends: CLEAR at width `W0 + 1`, each data code at the width of its number in its epoch,
an in-band CLEAR exactly after a full epoch, EOI last. The codes and widths are those of the events, which C emits just
before each write (43_compressor.md R135). -/
def Obligations.CompressFollowsSchedule : Prop :=
  ∀ s t : State, Inv s → Configured s → obsOf s.regs.cfg = true → exec .compress s = .next t →
    ∃ rest, (newEvents s t).map EvtRecord.event =
        { unit := .c, kind := .clear, v1 := clearCode s.regs.cfg, v2 := w0Of s.regs.cfg + 1 } :: rest ∧
      followsSchedule s.regs.cfg 0 rest = true ∧
      (codeField t.regs.status = 0 → ∃ e, rest.getLast? = some e ∧ e.kind = .eoi)

/-! ### D -/

/-- A known code in the steady state (44_decompressor.md R153): `T[code]` is emitted, then the entry `T[old] ++
[T[code][0]]` is appended at the cursor and `D_OLD` becomes the code; with the table full the append raises
`TableOverflow(4096, code)` after the string is in SNK. -/
def Obligations.KnownCodeEffect : Prop :=
  ∀ (s : State) (code old : Nat) (b : Byte) (str oldStr : ByteString),
    s.d.old = some old → code < s.d.codes → s.d.codes ≤ 4096 →
    tableGet code s.d.table = some (b :: str) → tableGet old s.d.table = some oldStr → oldStr ≠ [] →
    WritesAccepted s (str.length + 1) →
    (s.d.codes < 4096 →
      ∃ t, dDataCode .code code s = .ok () t ∧ t.io.snk = s.io.snk ++ b :: str ∧
        t.d.written = s.d.written + str.length + 1 ∧ t.d.old = some code ∧ t.d.codes = s.d.codes + 1 ∧
        tableGet s.d.codes t.d.table = some (oldStr ++ [b]) ∧
        (∀ c, c ≠ s.d.codes → tableGet c t.d.table = tableGet c s.d.table) ∧
        t.regs = s.regs ∧ t.br = s.br ∧ t.bw = s.bw ∧ t.c = s.c) ∧
    (s.d.codes = 4096 →
      ∃ t, dDataCode .code code s = .raised .tableOverflow 4096 code t ∧ t.io.snk = s.io.snk ++ b :: str ∧
        t.d.written = s.d.written + str.length + 1 ∧ t.d.old = some old ∧ t.d.codes = 4096 ∧
        t.d.table = s.d.table)

/-- The code at the cursor (KwKwK), and a code beyond it (44_decompressor.md R154). -/
def Obligations.CursorCodeEffect : Prop :=
  ∀ (s : State) (code old : Nat) (b : Byte) (oldStr : ByteString),
    s.d.old = some old → tableGet old s.d.table = some (b :: oldStr) →
    (code = s.d.codes → s.d.codes < 4096 → WritesAccepted s (oldStr.length + 2) →
      ∃ t, dDataCode .code code s = .ok () t ∧ t.io.snk = s.io.snk ++ (b :: oldStr) ++ [b] ∧
        t.d.written = s.d.written + oldStr.length + 2 ∧ t.d.old = some code ∧ t.d.codes = s.d.codes + 1 ∧
        tableGet s.d.codes t.d.table = some ((b :: oldStr) ++ [b]) ∧
        (∀ c, c ≠ s.d.codes → tableGet c t.d.table = tableGet c s.d.table)) ∧
    (s.d.codes < code → dDataCode .code code s = .raised .corruptStreamCode code s.d.codes s)

/-- `d_append` (44_decompressor.md R155): the entry goes at the cursor, the cursor moves, and the width grows exactly
when the cursor has just reached `(1 << D_WIDTH) - TM` below width 12; a full table raises TableOverflow and changes
nothing. -/
def Obligations.AppendGrowsTable : Prop :=
  ∀ (s : State) (str : ByteString) (c : Nat),
    (4096 ≤ s.d.codes → dAppend str c s = .raised .tableOverflow s.d.codes c s) ∧
    (s.d.codes < 4096 → ∃ t, dAppend str c s = .ok () (s.setD t) ∧
      tableGet s.d.codes t.table = some str ∧ (∀ k, k ≠ s.d.codes → tableGet k t.table = tableGet k s.d.table) ∧
      t.codes = s.d.codes + 1 ∧ t.old = s.d.old ∧ t.written = s.d.written ∧
      t.width = s.d.width +
        (if s.d.codes + 1 = 2 ^ s.d.width - (tmOf s.regs.cfg).toNat ∧ s.d.width < 12 then 1 else 0))

/-- DECOMPRESS of a SRC that ends after `k` CLEARs, in the middle of the next code (44_decompressor.md R150, R152, R157;
`k = 0` takes in the empty SRC): any run of CLEARs acts as one, and then with `TM = 1` the sentinel is read as EOI and
it ends with OK and no output, and with `TM = 0` it raises `PrematureEndOfData(W0 + 1, BR_BITS)`. The bits left stay in
BR; EXPECTED_LEN is loaded and D is cleared. -/
def Obligations.DecompressSourceRunsOut : Prop :=
  ∀ (s : State) (len : Word) (k : Nat), Inv s → Configured s → k = 0 ∨ len ≠ 0#32 →
    k * (w0Of s.regs.cfg + 1) ≤ 8 * (unreadBytes s).length →
    8 * (unreadBytes s).length < (k + 1) * (w0Of s.regs.cfg + 1) →
    (∀ j, j < k → sourceCode s (j * (w0Of s.regs.cfg + 1)) (w0Of s.regs.cfg + 1) = clearCode s.regs.cfg) →
    ReadsAnswered s ((unreadBytes s).length + 1) →
    ∃ t, exec (.decompress len) s = .next t ∧
      t.regs = (if tmOf s.regs.cfg
        then { returnedRegs 0#32 false s.regs with expectedLen := len }
        else { raisedRegs true .prematureEndOfData (w0Of s.regs.cfg + 1)
          (8 * (unreadBytes s).length - k * (w0Of s.regs.cfg + 1)) s.regs with expectedLen := len }) ∧
      t.io.snk = s.io.snk ∧ t.io.srcPos = s.io.src.length ∧
      t.br.bits = 8 * (unreadBytes s).length - k * (w0Of s.regs.cfg + 1) ∧ t.br.cache < 2 ^ t.br.bits ∧
      unreadBits t = (streamBits (byteOrderOf s.regs.cfg) (unreadBytes s)).drop (k * (w0Of s.regs.cfg + 1)) ∧
      t.br.count = BitVec.ofNat 32 (unreadBytes s).length ∧
      t.d.codes = firstFree s.regs.cfg ∧ t.d.width = w0Of s.regs.cfg + 1 ∧ t.d.old = none ∧ t.d.written = 0 ∧
      t.bw = s.bw ∧ t.c = s.c ∧ t.port = s.port

/-- The first code of a stream (44_decompressor.md R150, R152): EOI ends with OK and no output, a data code raises
`CorruptStreamCode(code, D_CODES)` before anything is emitted, and CLEAR with a budget of 0 ends with OK, no further
code read. -/
def Obligations.DecompressFirstCode : Prop :=
  ∀ (s : State) (len : Word), Inv s → Configured s → w0Of s.regs.cfg + 1 ≤ 8 * (unreadBytes s).length →
    ReadsAnswered s ((w0Of s.regs.cfg + 8) / 8) →
    ∀ code, code = sourceCode s 0 (w0Of s.regs.cfg + 1) →
      code = eoiCode s.regs.cfg ∨ (code = clearCode s.regs.cfg ∧ len = 0#32) ∨
        (code ≠ clearCode s.regs.cfg ∧ code ≠ eoiCode s.regs.cfg) →
      ∃ t, exec (.decompress len) s = .next t ∧
        t.regs = (if code = eoiCode s.regs.cfg ∨ code = clearCode s.regs.cfg
          then { returnedRegs 0#32 false s.regs with expectedLen := len }
          else { raisedRegs true .corruptStreamCode code (firstFree s.regs.cfg) s.regs with expectedLen := len }) ∧
        t.io.snk = s.io.snk ∧ t.io.srcPos = s.io.srcPos + (w0Of s.regs.cfg + 8) / 8 ∧
        t.br.bits = 8 * ((w0Of s.regs.cfg + 8) / 8) - (w0Of s.regs.cfg + 1) ∧
        t.d.codes = firstFree s.regs.cfg ∧ t.d.width = w0Of s.regs.cfg + 1 ∧ t.d.old = none ∧ t.d.written = 0 ∧
        (∀ c, tableGet c t.d.table = if c < clearCode s.regs.cfg then some [BitVec.ofNat 8 c] else none) ∧
        t.bw = s.bw ∧ t.c = s.c ∧ t.port = s.port

/-- The post-clear read, with a budget above 0, after any run of CLEARs: a repeated CLEAR clears again, so the run acts
as one (44_decompressor.md R150, R152, 30_encoding.md R75). Then EOI ends DECOMPRESS with OK and no output, a code at or
above `FIRST_FREE` raises CorruptStreamCode, and a literal is emitted and becomes `D_OLD` with no growth; with a budget
of 1 that literal ends it with OK (R158), and with more it goes on from there. -/
def Obligations.DecompressPostClearCode : Prop :=
  ∀ (s : State) (len : Word) (k code : Nat), Inv s → Configured s → len ≠ 0#32 → SrcAnswers s → SnkAccepts s →
    (k + 2) * (w0Of s.regs.cfg + 1) ≤ 8 * (unreadBytes s).length →
    (∀ j, j ≤ k → sourceCode s (j * (w0Of s.regs.cfg + 1)) (w0Of s.regs.cfg + 1) = clearCode s.regs.cfg) →
    code = sourceCode s ((k + 1) * (w0Of s.regs.cfg + 1)) (w0Of s.regs.cfg + 1) → code ≠ clearCode s.regs.cfg →
    ∃ t, exec (.decompress len) s = .next t ∧ t.bw = s.bw ∧ t.c = s.c ∧ t.port = s.port ∧
      s.io.snk ++ (if code < clearCode s.regs.cfg then [BitVec.ofNat 8 code] else []) <+: t.io.snk ∧
      (clearCode s.regs.cfg ≤ code ∨ len = 1#32 →
        t.regs = (if code < clearCode s.regs.cfg then { returnedRegs 1#32 false s.regs with expectedLen := len }
          else if code = eoiCode s.regs.cfg then { returnedRegs 0#32 false s.regs with expectedLen := len }
          else { raisedRegs true .corruptStreamCode code (firstFree s.regs.cfg) s.regs with expectedLen := len }) ∧
        t.io.snk = s.io.snk ++ (if code < clearCode s.regs.cfg then [BitVec.ofNat 8 code] else []) ∧
        t.io.srcPos = s.io.srcPos + ((k + 2) * (w0Of s.regs.cfg + 1) + 7) / 8 ∧
        t.br.bits = 8 * (((k + 2) * (w0Of s.regs.cfg + 1) + 7) / 8) - (k + 2) * (w0Of s.regs.cfg + 1) ∧
        t.d.old = (if code < clearCode s.regs.cfg then some code else none) ∧
        t.d.written = (if code < clearCode s.regs.cfg then 1 else 0) ∧
        t.d.codes = firstFree s.regs.cfg ∧ t.d.width = w0Of s.regs.cfg + 1 ∧
        (∀ c, tableGet c t.d.table = if c < clearCode s.regs.cfg then some [BitVec.ofNat 8 c] else none))

/-- EXPECTED_LEN is loaded by every DECOMPRESS that passes the checks, however it ends, zeroed by a successful CONFIG,
and kept by all else (10_state.md R25, 30_encoding.md R84). That CONFIG zeroes it is 40_config.md R102's pseudocode,
against R25's words that it keeps its value until the next DECOMPRESS (log entry 21). -/
def Obligations.ExpectedLenRule : Prop :=
  ∀ (i : Instr) (s t : State), exec i s = .next t →
    match i with
    | .decompress len => t.regs.expectedLen = if configuredFlag s.regs.status then len else s.regs.expectedLen
    | .config _ _ _ _ _ => t.regs.expectedLen = if codeField t.regs.status = 0 then 0#32 else s.regs.expectedLen
    | .bwwrite _ _ => t.regs.expectedLen = s.regs.expectedLen
    | .bwflush => t.regs.expectedLen = s.regs.expectedLen
    | .brread _ => t.regs.expectedLen = s.regs.expectedLen
    | .brreset => t.regs.expectedLen = s.regs.expectedLen
    | .compress => t.regs.expectedLen = s.regs.expectedLen

/-- Each DECOMPRESS is a fresh session: what BR and D held before it has no effect (44_decompressor.md R159). -/
def Obligations.DecompressIsAFreshSession : Prop :=
  ∀ (s : State) (len : Word) (b : BitCache) (d : Decompressor), Configured s →
    exec (.decompress len) ((s.setBr b).setD d) = exec (.decompress len) s

/-- A DECOMPRESS that ended with OK met its budget or read EOI last (44_decompressor.md R150, R152, R158), and D_WRITTEN
is what it appended to SNK. -/
def Obligations.DecompressStopsForAReason : Prop :=
  ∀ (s t : State) (len : Word), Inv s → Configured s → exec (.decompress len) s = .next t →
    t.io.snk.length = s.io.snk.length + t.d.written ∧
    (codeField t.regs.status = 0 → obsOf s.regs.cfg = true →
      len.toNat ≤ t.d.written ∨ ∃ r, (newEvents s t).getLast? = some r ∧ r.event.v1 = eoiCode s.regs.cfg)

/-- The budget is a stop condition, not a length: DECOMPRESS may write past it, by less than the longest string, which
is at most 3838 bytes for `W0 = 8` (70_reset_and_hazards.md R208; the bound rests on 10_state.md R33, which the spec
marks as derived). -/
def Obligations.BudgetOvershootIsBounded : Prop :=
  ∀ (s t : State) (len : Word), Inv s → Configured s → exec (.decompress len) s = .next t →
    t.d.written + clearCode s.regs.cfg ≤ len.toNat + 4094 ∧
    (w0Of s.regs.cfg = 8 → t.d.written ≤ len.toNat + 3838)

/-- D reads every code at the width that the schedule of 30_encoding.md R71 gives it, with `TM` in place of `EL` (a
sentence the spec marks as derived), whatever the stream and however the command ends; a code read is below `2^width`,
but for the TIFF sentinel, which is read last (30_encoding.md R75). With `CompressFollowsSchedule` it says that the two
units are in lockstep exactly where `TM = EL` (70_reset_and_hazards.md R206). -/
def Obligations.DecompressFollowsSchedule : Prop :=
  ∀ (s t : State) (len : Word), Inv s → Configured s → exec (.decompress len) s = .next t →
    readsOnSchedule s.regs.cfg 0 ((newEvents s t).map EvtRecord.event) = true ∧
    ∀ r ∈ newEvents s t,
      (r.event.kind = .code → r.event.v1 < 2 ^ r.event.v2) ∧
      (r.event.kind = .sentinel → r.event.v1 = 257 ∧ tmOf s.regs.cfg = true ∧ (newEvents s t).getLast? = some r)

/-- The round trip (44_decompressor.md R160, which the spec marks as derived and not proved): compress any input whose
bytes are all literals, then decompress what was written, with the input's length, under the same `W0` and byte order
and with `TM` equal to the compressor's `EL`: OK, and exactly the input. -/
def Obligations.RoundTrip : Prop :=
  ∀ (s u : State), Inv s → Configured s → Inv u → Configured u →
    SrcAnswers s → SnkAccepts s → SrcAnswers u → SnkAccepts u →
    w0Of u.regs.cfg = w0Of s.regs.cfg → byteOrderOf u.regs.cfg = byteOrderOf s.regs.cfg → tmOf u.regs.cfg = elOf s.regs.cfg →
    (∀ b ∈ unreadBytes s, b.toNat < clearCode s.regs.cfg) → (unreadBytes s).length < 2 ^ 32 →
    ∃ t, exec .compress s = .next t ∧ codeField t.regs.status = 0 ∧
      (unreadBytes u = t.io.snk.drop s.io.snk.length →
        ∃ v, exec (.decompress (BitVec.ofNat 32 (unreadBytes s).length)) u = .next v ∧
          codeField v.regs.status = 0 ∧ v.io.snk = u.io.snk ++ unreadBytes s ∧
          v.regs.result = BitVec.ofNat 32 (unreadBytes s).length)

end Claims
end

