-- ==== Sys2Proof/Laws/State.lean ====
section
/-! SUPPORT. One lemma for each field and each update of State, true by rfl. -/

namespace Sys2Proof.Machine

@[simp] theorem State.setRegs_regs (s : State) (x : Regs) : (s.setRegs x).regs = x := rfl
@[simp] theorem State.setRegs_bw (s : State) (x : Regs) : (s.setRegs x).bw = s.bw := rfl
@[simp] theorem State.setRegs_br (s : State) (x : Regs) : (s.setRegs x).br = s.br := rfl
@[simp] theorem State.setRegs_c (s : State) (x : Regs) : (s.setRegs x).c = s.c := rfl
@[simp] theorem State.setRegs_d (s : State) (x : Regs) : (s.setRegs x).d = s.d := rfl
@[simp] theorem State.setRegs_io (s : State) (x : Regs) : (s.setRegs x).io = s.io := rfl
@[simp] theorem State.setRegs_port (s : State) (x : Regs) : (s.setRegs x).port = s.port := rfl

@[simp] theorem State.setBw_regs (s : State) (x : BitCache) : (s.setBw x).regs = s.regs := rfl
@[simp] theorem State.setBw_bw (s : State) (x : BitCache) : (s.setBw x).bw = x := rfl
@[simp] theorem State.setBw_br (s : State) (x : BitCache) : (s.setBw x).br = s.br := rfl
@[simp] theorem State.setBw_c (s : State) (x : BitCache) : (s.setBw x).c = s.c := rfl
@[simp] theorem State.setBw_d (s : State) (x : BitCache) : (s.setBw x).d = s.d := rfl
@[simp] theorem State.setBw_io (s : State) (x : BitCache) : (s.setBw x).io = s.io := rfl
@[simp] theorem State.setBw_port (s : State) (x : BitCache) : (s.setBw x).port = s.port := rfl

@[simp] theorem State.setBr_regs (s : State) (x : BitCache) : (s.setBr x).regs = s.regs := rfl
@[simp] theorem State.setBr_bw (s : State) (x : BitCache) : (s.setBr x).bw = s.bw := rfl
@[simp] theorem State.setBr_br (s : State) (x : BitCache) : (s.setBr x).br = x := rfl
@[simp] theorem State.setBr_c (s : State) (x : BitCache) : (s.setBr x).c = s.c := rfl
@[simp] theorem State.setBr_d (s : State) (x : BitCache) : (s.setBr x).d = s.d := rfl
@[simp] theorem State.setBr_io (s : State) (x : BitCache) : (s.setBr x).io = s.io := rfl
@[simp] theorem State.setBr_port (s : State) (x : BitCache) : (s.setBr x).port = s.port := rfl

@[simp] theorem State.setC_regs (s : State) (x : Compressor) : (s.setC x).regs = s.regs := rfl
@[simp] theorem State.setC_bw (s : State) (x : Compressor) : (s.setC x).bw = s.bw := rfl
@[simp] theorem State.setC_br (s : State) (x : Compressor) : (s.setC x).br = s.br := rfl
@[simp] theorem State.setC_c (s : State) (x : Compressor) : (s.setC x).c = x := rfl
@[simp] theorem State.setC_d (s : State) (x : Compressor) : (s.setC x).d = s.d := rfl
@[simp] theorem State.setC_io (s : State) (x : Compressor) : (s.setC x).io = s.io := rfl
@[simp] theorem State.setC_port (s : State) (x : Compressor) : (s.setC x).port = s.port := rfl

@[simp] theorem State.setD_regs (s : State) (x : Decompressor) : (s.setD x).regs = s.regs := rfl
@[simp] theorem State.setD_bw (s : State) (x : Decompressor) : (s.setD x).bw = s.bw := rfl
@[simp] theorem State.setD_br (s : State) (x : Decompressor) : (s.setD x).br = s.br := rfl
@[simp] theorem State.setD_c (s : State) (x : Decompressor) : (s.setD x).c = s.c := rfl
@[simp] theorem State.setD_d (s : State) (x : Decompressor) : (s.setD x).d = x := rfl
@[simp] theorem State.setD_io (s : State) (x : Decompressor) : (s.setD x).io = s.io := rfl
@[simp] theorem State.setD_port (s : State) (x : Decompressor) : (s.setD x).port = s.port := rfl

@[simp] theorem State.setIo_regs (s : State) (x : Streams) : (s.setIo x).regs = s.regs := rfl
@[simp] theorem State.setIo_bw (s : State) (x : Streams) : (s.setIo x).bw = s.bw := rfl
@[simp] theorem State.setIo_br (s : State) (x : Streams) : (s.setIo x).br = s.br := rfl
@[simp] theorem State.setIo_c (s : State) (x : Streams) : (s.setIo x).c = s.c := rfl
@[simp] theorem State.setIo_d (s : State) (x : Streams) : (s.setIo x).d = s.d := rfl
@[simp] theorem State.setIo_io (s : State) (x : Streams) : (s.setIo x).io = x := rfl
@[simp] theorem State.setIo_port (s : State) (x : Streams) : (s.setIo x).port = s.port := rfl

@[simp] theorem State.setPort_regs (s : State) (x : List HostAction) : (s.setPort x).regs = s.regs := rfl
@[simp] theorem State.setPort_bw (s : State) (x : List HostAction) : (s.setPort x).bw = s.bw := rfl
@[simp] theorem State.setPort_br (s : State) (x : List HostAction) : (s.setPort x).br = s.br := rfl
@[simp] theorem State.setPort_c (s : State) (x : List HostAction) : (s.setPort x).c = s.c := rfl
@[simp] theorem State.setPort_d (s : State) (x : List HostAction) : (s.setPort x).d = s.d := rfl
@[simp] theorem State.setPort_io (s : State) (x : List HostAction) : (s.setPort x).io = s.io := rfl
@[simp] theorem State.setPort_port (s : State) (x : List HostAction) : (s.setPort x).port = x := rfl

@[simp] theorem State.setRegs_setRegs (s : State) (x y : Regs) : (s.setRegs x).setRegs y = s.setRegs y := rfl
@[simp] theorem State.setBw_setBw (s : State) (x y : BitCache) : (s.setBw x).setBw y = s.setBw y := rfl
@[simp] theorem State.setBr_setBr (s : State) (x y : BitCache) : (s.setBr x).setBr y = s.setBr y := rfl
@[simp] theorem State.setC_setC (s : State) (x y : Compressor) : (s.setC x).setC y = s.setC y := rfl
@[simp] theorem State.setD_setD (s : State) (x y : Decompressor) : (s.setD x).setD y = s.setD y := rfl
@[simp] theorem State.setIo_setIo (s : State) (x y : Streams) : (s.setIo x).setIo y = s.setIo y := rfl
@[simp] theorem State.setPort_setPort (s : State) (x y : List HostAction) : (s.setPort x).setPort y = s.setPort y := rfl

@[simp] theorem State.setRegs_self (s : State) : s.setRegs s.regs = s := rfl
@[simp] theorem State.setBw_self (s : State) : s.setBw s.bw = s := rfl
@[simp] theorem State.setBr_self (s : State) : s.setBr s.br = s := rfl
@[simp] theorem State.setC_self (s : State) : s.setC s.c = s := rfl
@[simp] theorem State.setD_self (s : State) : s.setD s.d = s := rfl
@[simp] theorem State.setIo_self (s : State) : s.setIo s.io = s := rfl
@[simp] theorem State.setPort_self (s : State) : s.setPort s.port = s := rfl
@[simp] theorem State.reset_regs : State.reset.regs = Regs.reset := rfl
@[simp] theorem State.reset_bw : State.reset.bw = BitCache.zero := rfl
@[simp] theorem State.reset_br : State.reset.br = BitCache.zero := rfl
@[simp] theorem State.reset_c : State.reset.c = Compressor.reset := rfl
@[simp] theorem State.reset_d : State.reset.d = Decompressor.reset := rfl
@[simp] theorem State.reset_io : State.reset.io = Streams.unbound := rfl
@[simp] theorem State.reset_port : State.reset.port = [] := rfl

end Sys2Proof.Machine
end

