-- ==== Sys2Proof/Laws/Sequencing.lean ====
section
/-! SUPPORT. The sequencing rules: what a piece of pseudocode guarantees when it goes on and when it raises, and how the
guarantees of two pieces compose. Every later law is stated with `Res.Meets` or `Res.All`. -/

namespace Sys2Proof.Machine

variable {α β : Type}

/-- The piece does not fault; `post` holds where it goes on and `onRaise` where it raises. -/
def Res.Meets (r : Res α) (post : α → State → Prop) (onRaise : StatusCode → Nat → Nat → State → Prop) : Prop :=
  match r with
  | .ok a s => post a s
  | .raised code i0 i1 s => onRaise code i0 i1 s
  | .fault _ => False

/-- Wherever the piece goes on or raises, `P` holds of the state. -/
def Res.All (r : Res α) (P : State → Prop) : Prop :=
  match r with
  | .ok _ s => P s
  | .raised _ _ _ s => P s
  | .fault _ => True

@[simp] theorem Res.bind_ok (a : α) (s : State) (k : α → State → Res β) : (Res.ok a s).bind k = k a s := rfl

@[simp] theorem Res.bind_raised (code : StatusCode) (i0 i1 : Nat) (s : State) (k : α → State → Res β) :
    (Res.raised code i0 i1 s : Res α).bind k = .raised code i0 i1 s := rfl

@[simp] theorem Res.bind_fault (f : Fault) (k : α → State → Res β) : (Res.fault f : Res α).bind k = .fault f := rfl

@[simp] theorem Res.meets_ok (a : α) (s : State) (P : α → State → Prop) (Q : StatusCode → Nat → Nat → State → Prop) :
    (Res.ok a s).Meets P Q ↔ P a s := Iff.rfl

@[simp] theorem Res.meets_raised (code : StatusCode) (i0 i1 : Nat) (s : State) (P : α → State → Prop)
    (Q : StatusCode → Nat → Nat → State → Prop) :
    (Res.raised code i0 i1 s : Res α).Meets P Q ↔ Q code i0 i1 s := Iff.rfl

@[simp] theorem Res.meets_fault (f : Fault) (P : α → State → Prop) (Q : StatusCode → Nat → Nat → State → Prop) :
    (Res.fault f : Res α).Meets P Q ↔ False := Iff.rfl

@[simp] theorem Res.all_ok (a : α) (s : State) (P : State → Prop) : (Res.ok a s).All P ↔ P s := Iff.rfl

@[simp] theorem Res.all_raised (code : StatusCode) (i0 i1 : Nat) (s : State) (P : State → Prop) :
    (Res.raised code i0 i1 s : Res α).All P ↔ P s := Iff.rfl

@[simp] theorem Res.all_fault (f : Fault) (P : State → Prop) : (Res.fault f : Res α).All P ↔ True := Iff.rfl

/-- Sequencing of guarantees. -/
theorem Res.Meets.bind {r : Res α} {k : α → State → Res β} {P : α → State → Prop} {P' : β → State → Prop}
    {Q : StatusCode → Nat → Nat → State → Prop} (h : r.Meets P Q) (hk : ∀ a s, P a s → (k a s).Meets P' Q) :
    (r.bind k).Meets P' Q := by
  cases r with
  | ok a s => exact hk a s h
  | raised code i0 i1 s => exact h
  | fault f => exact h

/-- Weakening of guarantees. -/
theorem Res.Meets.mono {r : Res α} {P P' : α → State → Prop} {Q Q' : StatusCode → Nat → Nat → State → Prop}
    (h : r.Meets P Q) (hP : ∀ a s, P a s → P' a s) (hQ : ∀ c i j s, Q c i j s → Q' c i j s) : r.Meets P' Q' := by
  cases r with
  | ok a s => exact hP a s h
  | raised code i0 i1 s => exact hQ code i0 i1 s h
  | fault f => exact h

/-- Two guarantees of one piece hold together. -/
theorem Res.Meets.and {r : Res α} {P P' : α → State → Prop} {Q Q' : StatusCode → Nat → Nat → State → Prop}
    (h : r.Meets P Q) (h' : r.Meets P' Q') :
    r.Meets (fun a s => P a s ∧ P' a s) (fun c i j s => Q c i j s ∧ Q' c i j s) := by
  cases r with
  | ok a s => exact ⟨h, h'⟩
  | raised code i0 i1 s => exact ⟨h, h'⟩
  | fault f => exact h

/-- A frame of a piece joins its guarantee. -/
theorem Res.Meets.andAll {r : Res α} {P : α → State → Prop} {Q : StatusCode → Nat → Nat → State → Prop} {R : State → Prop}
    (h : r.Meets P Q) (h' : r.All R) :
    r.Meets (fun a s => P a s ∧ R s) (fun c i j s => Q c i j s ∧ R s) := by
  cases r with
  | ok a s => exact ⟨h, h'⟩
  | raised code i0 i1 s => exact ⟨h, h'⟩
  | fault f => exact h

/-- Frames compose along a transitive relation. -/
theorem Res.All.bind {R : State → State → Prop} (trans : ∀ a b c, R a b → R b c → R a c) {r : Res α} {k : α → State → Res β}
    {s : State} (h : r.All (R s)) (hk : ∀ a t, (k a t).All (R t)) : (r.bind k).All (R s) := by
  cases r with
  | ok a t =>
    have h1 := hk a t
    show (k a t).All (R s)
    cases hr : k a t with
    | ok b u => rw [hr] at h1; exact trans s t u h h1
    | raised code i0 i1 u => rw [hr] at h1; exact trans s t u h h1
    | fault f => trivial
  | raised code i0 i1 t => exact h
  | fault f => trivial

/-- A frame weakened. -/
theorem Res.All.mono {r : Res α} {P P' : State → Prop} (h : r.All P) (hP : ∀ s, P s → P' s) : r.All P' := by
  cases r with
  | ok a s => exact hP s h
  | raised code i0 i1 s => exact hP s h
  | fault f => trivial

end Sys2Proof.Machine
end

