-- ==== Sys2Proof/Laws/Streams.lean ====
section
/-! SUPPORT. What the stream primitives can do (20_memory.md R51, R52, 60_exceptions.md R190), and how the streams can
grow: SRC is only consumed, SNK and EVT are only appended to. -/

namespace Sys2Proof.Machine

/-- How the streams may change during a command: SRC's binding stays and is only consumed, SNK and EVT only grow, the
environment is the same (20_memory.md R51, R52, R59, R61). -/
structure StreamsGrow (a b : Streams) : Prop where
  src : b.src = a.src
  srcPos : a.srcPos ≤ b.srcPos
  snk : a.snk <+: b.snk
  evt : a.evt <+: b.evt
  srcReads : a.srcReads ≤ b.srcReads
  snkWrites : a.snkWrites ≤ b.snkWrites
  script : b.script = a.script
  inRange : a.srcPos ≤ a.src.length → b.srcPos ≤ b.src.length

theorem StreamsGrow.refl (a : Streams) : StreamsGrow a a :=
  ⟨rfl, Nat.le_refl _, List.prefix_refl _, List.prefix_refl _, Nat.le_refl _, Nat.le_refl _, rfl, id⟩

theorem StreamsGrow.trans {a b c : Streams} (h : StreamsGrow a b) (h' : StreamsGrow b c) : StreamsGrow a c :=
  ⟨h'.src.trans h.src, h.srcPos.trans h'.srcPos, h.snk.trans h'.snk, h.evt.trans h'.evt, h.srcReads.trans h'.srcReads,
    h.snkWrites.trans h'.snkWrites, h'.script.trans h.script, fun h0 => h'.inRange (h.inRange h0)⟩

/-- What `MemRead(SRC, 1)` can do (20_memory.md R51): a byte is consumed, or END leaves the position, or a FAIL raises
`IoError(0, 0)` and consumes nothing. -/
theorem memRead_cases (s : State) :
    (∃ b, ioFails s.io.script .src s.io.srcReads = false ∧ s.io.src[s.io.srcPos]? = some b ∧
      memRead s = .ok (some b) (s.setIo { s.io with srcPos := s.io.srcPos + 1, srcReads := s.io.srcReads + 1 })) ∨
    (ioFails s.io.script .src s.io.srcReads = false ∧ s.io.src[s.io.srcPos]? = none ∧
      memRead s = .ok none (s.setIo { s.io with srcReads := s.io.srcReads + 1 })) ∨
    (ioFails s.io.script .src s.io.srcReads = true ∧
      memRead s = .raised .ioError 0 0 (s.setIo { s.io with srcReads := s.io.srcReads + 1 })) := by
  unfold memRead readAnswer
  cases hf : ioFails s.io.script .src s.io.srcReads with
  | true => exact .inr (.inr ⟨rfl, rfl⟩)
  | false =>
    cases hb : s.io.src[s.io.srcPos]? with
    | none => exact .inr (.inl ⟨rfl, rfl, rfl⟩)
    | some b => exact .inl ⟨b, rfl, rfl, rfl⟩

/-- What `MemWrite(SNK, 1, b)` can do (20_memory.md R52): the byte is appended, or a FAIL raises `IoError(1, 0)` and
nothing is. -/
theorem memWrite_cases (b : Byte) (s : State) :
    (ioFails s.io.script .snk s.io.snkWrites = false ∧
      memWrite b s = .ok () (s.setIo { s.io with snk := s.io.snk ++ [b], snkWrites := s.io.snkWrites + 1 })) ∨
    (ioFails s.io.script .snk s.io.snkWrites = true ∧
      memWrite b s = .raised .ioError 1 0 (s.setIo { s.io with snkWrites := s.io.snkWrites + 1 })) := by
  unfold memWrite
  cases hf : ioFails s.io.script .snk s.io.snkWrites with
  | true => exact .inr ⟨rfl, rfl⟩
  | false => exact .inl ⟨rfl, rfl⟩

/-- Only the streams change, and they grow. -/
structure OnlyStreams (s t : State) : Prop where
  rest : t = s.setIo t.io
  grow : StreamsGrow s.io t.io

theorem OnlyStreams.refl (s : State) : OnlyStreams s s := ⟨rfl, .refl _⟩

theorem memRead_only (s : State) : (memRead s).All (OnlyStreams s) := by
  rcases memRead_cases s with ⟨b, -, hb, h⟩ | ⟨-, -, h⟩ | ⟨-, h⟩ <;> rw [h]
  · refine ⟨rfl, rfl, Nat.le_succ _, List.prefix_refl _, List.prefix_refl _, Nat.le_succ _, Nat.le_refl _, rfl, fun _ => ?_⟩
    have := (List.getElem?_eq_some_iff.mp hb).1
    exact this
  · exact ⟨rfl, rfl, Nat.le_refl _, List.prefix_refl _, List.prefix_refl _, Nat.le_succ _, Nat.le_refl _, rfl, id⟩
  · exact ⟨rfl, rfl, Nat.le_refl _, List.prefix_refl _, List.prefix_refl _, Nat.le_succ _, Nat.le_refl _, rfl, id⟩

theorem memWrite_only (b : Byte) (s : State) : (memWrite b s).All (OnlyStreams s) := by
  rcases memWrite_cases b s with ⟨-, h⟩ | ⟨-, h⟩ <;> rw [h]
  · exact ⟨rfl, rfl, Nat.le_refl _, List.prefix_append _ _, List.prefix_refl _, Nat.le_refl _, Nat.le_succ _, rfl, id⟩
  · exact ⟨rfl, rfl, Nat.le_refl _, List.prefix_refl _, List.prefix_refl _, Nat.le_refl _, Nat.le_succ _, rfl, id⟩

/-- What `notify` can do (60_exceptions.md R190): one event with `OBS = 1`, nothing with `OBS = 0`. -/
theorem notify_on {s : State} (h : obsOf s.regs.cfg = true) (u : EvtUnit) (k : EvtKind) (v1 v2 : Nat) :
    notify u k v1 v2 s = s.setIo { s.io with
      evt := s.io.evt ++ [{ event := { unit := u, kind := k, v1 := v1, v2 := v2 }, srcPos := s.io.srcPos,
                            snkLen := s.io.snk.length }] } := by
  simp [notify, h]

theorem notify_off {s : State} (h : obsOf s.regs.cfg = false) (u : EvtUnit) (k : EvtKind) (v1 v2 : Nat) :
    notify u k v1 v2 s = s := by
  simp [notify, h]

theorem notify_only (u : EvtUnit) (k : EvtKind) (v1 v2 : Nat) (s : State) : OnlyStreams s (notify u k v1 v2 s) := by
  cases h : obsOf s.regs.cfg with
  | true =>
    rw [notify_on h]
    exact ⟨rfl, rfl, Nat.le_refl _, List.prefix_refl _, List.prefix_append _ _, Nat.le_refl _, Nat.le_refl _, rfl, id⟩
  | false => rw [notify_off h]; exact .refl s

@[simp] theorem notify_regs (u : EvtUnit) (k : EvtKind) (v1 v2 : Nat) (s : State) : (notify u k v1 v2 s).regs = s.regs := by
  unfold notify; split <;> rfl
@[simp] theorem notify_bw (u : EvtUnit) (k : EvtKind) (v1 v2 : Nat) (s : State) : (notify u k v1 v2 s).bw = s.bw := by
  unfold notify; split <;> rfl
@[simp] theorem notify_br (u : EvtUnit) (k : EvtKind) (v1 v2 : Nat) (s : State) : (notify u k v1 v2 s).br = s.br := by
  unfold notify; split <;> rfl
@[simp] theorem notify_c (u : EvtUnit) (k : EvtKind) (v1 v2 : Nat) (s : State) : (notify u k v1 v2 s).c = s.c := by
  unfold notify; split <;> rfl
@[simp] theorem notify_d (u : EvtUnit) (k : EvtKind) (v1 v2 : Nat) (s : State) : (notify u k v1 v2 s).d = s.d := by
  unfold notify; split <;> rfl
@[simp] theorem notify_port (u : EvtUnit) (k : EvtKind) (v1 v2 : Nat) (s : State) : (notify u k v1 v2 s).port = s.port := by
  unfold notify; split <;> rfl
@[simp] theorem notify_src (u : EvtUnit) (k : EvtKind) (v1 v2 : Nat) (s : State) :
    (notify u k v1 v2 s).io.src = s.io.src := by
  unfold notify; split <;> rfl
@[simp] theorem notify_srcPos (u : EvtUnit) (k : EvtKind) (v1 v2 : Nat) (s : State) :
    (notify u k v1 v2 s).io.srcPos = s.io.srcPos := by
  unfold notify; split <;> rfl
@[simp] theorem notify_snk (u : EvtUnit) (k : EvtKind) (v1 v2 : Nat) (s : State) :
    (notify u k v1 v2 s).io.snk = s.io.snk := by
  unfold notify; split <;> rfl
@[simp] theorem notify_srcReads (u : EvtUnit) (k : EvtKind) (v1 v2 : Nat) (s : State) :
    (notify u k v1 v2 s).io.srcReads = s.io.srcReads := by
  unfold notify; split <;> rfl
@[simp] theorem notify_snkWrites (u : EvtUnit) (k : EvtKind) (v1 v2 : Nat) (s : State) :
    (notify u k v1 v2 s).io.snkWrites = s.io.snkWrites := by
  unfold notify; split <;> rfl
@[simp] theorem notify_script (u : EvtUnit) (k : EvtKind) (v1 v2 : Nat) (s : State) :
    (notify u k v1 v2 s).io.script = s.io.script := by
  unfold notify; split <;> rfl

end Sys2Proof.Machine
end

