-- ==== Sys2Proof/Laws/Frames.lean ====
section
/-! SUPPORT. What each unit leaves alone (00_scope.md R2, 60_exceptions.md R194): BW's, BR's, C's and D's procedures, whether
they go on or raise. -/

namespace Sys2Proof.Machine

/-- BW's procedures touch BW and SNK only (42_bitwriter.md R120). -/
structure WriterFrame (s t : State) : Prop where
  regs : t.regs = s.regs
  br : t.br = s.br
  c : t.c = s.c
  d : t.d = s.d
  port : t.port = s.port
  srcPos : t.io.srcPos = s.io.srcPos
  srcReads : t.io.srcReads = s.io.srcReads
  evt : t.io.evt = s.io.evt
  grow : StreamsGrow s.io t.io

/-- BR's procedures touch BR and SRC's position only (41_bitreader.md R110). -/
structure ReaderFrame (s t : State) : Prop where
  regs : t.regs = s.regs
  bw : t.bw = s.bw
  c : t.c = s.c
  d : t.d = s.d
  port : t.port = s.port
  snk : t.io.snk = s.io.snk
  snkWrites : t.io.snkWrites = s.io.snkWrites
  evt : t.io.evt = s.io.evt
  grow : StreamsGrow s.io t.io

/-- C's procedures touch C, BW and the streams only (43_compressor.md R130). -/
structure CompressFrame (s t : State) : Prop where
  regs : t.regs = s.regs
  br : t.br = s.br
  d : t.d = s.d
  port : t.port = s.port
  grow : StreamsGrow s.io t.io

/-- D's procedures touch D, BR and the streams only (44_decompressor.md R150 to R158). -/
structure DecompressFrame (s t : State) : Prop where
  regs : t.regs = s.regs
  bw : t.bw = s.bw
  c : t.c = s.c
  port : t.port = s.port
  grow : StreamsGrow s.io t.io

theorem WriterFrame.refl (s : State) : WriterFrame s s := ⟨rfl, rfl, rfl, rfl, rfl, rfl, rfl, rfl, .refl _⟩
theorem ReaderFrame.refl (s : State) : ReaderFrame s s := ⟨rfl, rfl, rfl, rfl, rfl, rfl, rfl, rfl, .refl _⟩
theorem CompressFrame.refl (s : State) : CompressFrame s s := ⟨rfl, rfl, rfl, rfl, .refl _⟩
theorem DecompressFrame.refl (s : State) : DecompressFrame s s := ⟨rfl, rfl, rfl, rfl, .refl _⟩

theorem WriterFrame.trans (a b c : State) (h : WriterFrame a b) (h' : WriterFrame b c) : WriterFrame a c :=
  ⟨h'.regs.trans h.regs, h'.br.trans h.br, h'.c.trans h.c, h'.d.trans h.d, h'.port.trans h.port, h'.srcPos.trans h.srcPos,
    h'.srcReads.trans h.srcReads, h'.evt.trans h.evt, h.grow.trans h'.grow⟩

theorem ReaderFrame.trans (a b c : State) (h : ReaderFrame a b) (h' : ReaderFrame b c) : ReaderFrame a c :=
  ⟨h'.regs.trans h.regs, h'.bw.trans h.bw, h'.c.trans h.c, h'.d.trans h.d, h'.port.trans h.port, h'.snk.trans h.snk,
    h'.snkWrites.trans h.snkWrites, h'.evt.trans h.evt, h.grow.trans h'.grow⟩

theorem CompressFrame.trans (a b c : State) (h : CompressFrame a b) (h' : CompressFrame b c) : CompressFrame a c :=
  ⟨h'.regs.trans h.regs, h'.br.trans h.br, h'.d.trans h.d, h'.port.trans h.port, h.grow.trans h'.grow⟩

theorem DecompressFrame.trans (a b c : State) (h : DecompressFrame a b) (h' : DecompressFrame b c) : DecompressFrame a c :=
  ⟨h'.regs.trans h.regs, h'.bw.trans h.bw, h'.c.trans h.c, h'.port.trans h.port, h.grow.trans h'.grow⟩

theorem WriterFrame.compress {s t : State} (h : WriterFrame s t) : CompressFrame s t := ⟨h.regs, h.br, h.d, h.port, h.grow⟩

theorem ReaderFrame.decompress {s t : State} (h : ReaderFrame s t) : DecompressFrame s t :=
  ⟨h.regs, h.bw, h.c, h.port, h.grow⟩

theorem OnlyStreams.compress {s t : State} (h : OnlyStreams s t) : CompressFrame s t := by
  have hr := h.rest
  exact ⟨by rw [hr]; rfl, by rw [hr]; rfl, by rw [hr]; rfl, by rw [hr]; rfl, h.grow⟩

theorem OnlyStreams.decompress {s t : State} (h : OnlyStreams s t) : DecompressFrame s t := by
  have hr := h.rest
  exact ⟨by rw [hr]; rfl, by rw [hr]; rfl, by rw [hr]; rfl, by rw [hr]; rfl, h.grow⟩

/-! ### BW -/

theorem memWrite_writer (b : Byte) (s : State) : (memWrite b s).All (WriterFrame s) := by
  have hg := memWrite_only b s
  rcases memWrite_cases b s with ⟨-, h⟩ | ⟨-, h⟩ <;> rw [h] at hg ⊢ <;>
    exact ⟨rfl, rfl, rfl, rfl, rfl, rfl, rfl, rfl, OnlyStreams.grow hg⟩

theorem setBw_writer (s : State) (b : BitCache) : WriterFrame s (s.setBw b) :=
  ⟨rfl, rfl, rfl, rfl, rfl, rfl, rfl, rfl, .refl _⟩

/-- A frame of the rest of a procedure, after BW alone was set. -/
theorem WriterFrame.after {α : Type} {s : State} {b : BitCache} {r : Res α} (h : r.All (WriterFrame (s.setBw b))) :
    r.All (WriterFrame s) :=
  h.mono fun _ ht => WriterFrame.trans _ _ _ (setBw_writer s b) ht

theorem bwDrainLoop_writer (fuel : Nat) (s : State) : (bwDrainLoop fuel s).All (WriterFrame s) := by
  induction fuel generalizing s with
  | zero => exact .refl s
  | succ n ih =>
    simp only [bwDrainLoop]
    split
    · exact Res.All.bind WriterFrame.trans (memWrite_writer _ s) fun _ t => WriterFrame.after (ih _)
    · exact .refl s

theorem bwDrain_writer (s : State) : (bwDrain s).All (WriterFrame s) := bwDrainLoop_writer _ s

theorem bwWrite_writer (v n : Nat) (s : State) : (bwWrite v n s).All (WriterFrame s) :=
  Res.All.bind WriterFrame.trans (bwDrain_writer s) fun _ _ => WriterFrame.after (bwDrain_writer _)

theorem bwFlush_writer (s : State) : (bwFlush s).All (WriterFrame s) := by
  refine Res.All.bind WriterFrame.trans (bwDrain_writer s) fun _ t => ?_
  split
  · exact Res.All.bind WriterFrame.trans (memWrite_writer _ t) fun _ u => setBw_writer u _
  · exact setBw_writer t _

/-! ### BR -/

theorem memRead_reader (s : State) : (memRead s).All (ReaderFrame s) := by
  have hg := memRead_only s
  rcases memRead_cases s with ⟨b, -, -, h⟩ | ⟨-, -, h⟩ | ⟨-, h⟩ <;> rw [h] at hg ⊢ <;>
    exact ⟨rfl, rfl, rfl, rfl, rfl, rfl, rfl, rfl, OnlyStreams.grow hg⟩

theorem setBr_reader (s : State) (b : BitCache) : ReaderFrame s (s.setBr b) :=
  ⟨rfl, rfl, rfl, rfl, rfl, rfl, rfl, rfl, .refl _⟩

theorem brRefill_reader (n fuel : Nat) (s : State) : (brRefill n fuel s).All (ReaderFrame s) := by
  induction fuel generalizing s with
  | zero => exact .refl s
  | succ k ih =>
    simp only [brRefill]
    split
    · exact .refl s
    · refine Res.All.bind ReaderFrame.trans (memRead_reader s) fun a t => ?_
      cases a with
      | none => exact .refl t
      | some b => exact (ih _).mono fun _ h => ReaderFrame.trans _ _ _ (setBr_reader t _) h

theorem brRead_reader (n : Nat) (s : State) : (brRead n s).All (ReaderFrame s) := by
  refine Res.All.bind ReaderFrame.trans (brRefill_reader n n s) fun e t => ?_
  cases e with
  | filled => exact setBr_reader t _
  | exhausted =>
    show Res.All (if tmOf t.regs.cfg = true then _ else _) _
    split <;> exact ReaderFrame.refl t

/-! ### C -/

theorem setC_compress (s : State) (c : Compressor) : CompressFrame s (s.setC c) := ⟨rfl, rfl, rfl, rfl, .refl _⟩

theorem cWriteCode_compress (v : Nat) (k : EvtKind) (s : State) : (cWriteCode v k s).All (CompressFrame s) :=
  (bwWrite_writer _ _ _).mono fun _ h =>
    CompressFrame.trans _ _ _ (notify_only .c k v s.c.width s).compress h.compress

/-- C's own elements are not touched by writing a code. -/
theorem cWriteCode_keeps (v : Nat) (k : EvtKind) (s : State) : (cWriteCode v k s).All (fun t => t.c = s.c) :=
  (bwWrite_writer _ _ _).mono fun _ h => h.c.trans (notify_c _ _ _ _ _)

theorem cAddTableEntry_compress (key : ByteString) (s : State) : (cAddTableEntry key s).All (CompressFrame s) := by
  unfold cAddTableEntry
  split
  · split
    · exact setC_compress s _
    · exact Res.All.bind CompressFrame.trans (cWriteCode_compress _ _ s) fun _ t => setC_compress t _
  · exact setC_compress s _

theorem cWriteRun_compress (s : State) : (cWriteRun s).All (CompressFrame s) := by
  unfold cWriteRun
  split
  · exact cWriteCode_compress _ _ s
  · exact .refl s

theorem cScanByte_compress (b : Byte) (s : State) : (cScanByte b s).All (CompressFrame s) := by
  unfold cScanByte
  split
  · exact setC_compress s _
  · exact Res.All.bind CompressFrame.trans (cWriteRun_compress s) fun _ t =>
      Res.All.bind CompressFrame.trans (cAddTableEntry_compress _ t) fun _ u => setC_compress u _

theorem cScan_compress (fuel : Nat) (s : State) : (cScan fuel s).All (CompressFrame s) := by
  induction fuel generalizing s with
  | zero =>
    unfold cScan
    refine Res.All.bind CompressFrame.trans ((memRead_only s).mono fun _ h => h.compress) fun a t => ?_
    cases a with
    | none => exact .refl t
    | some b => trivial
  | succ k ih =>
    unfold cScan
    refine Res.All.bind CompressFrame.trans ((memRead_only s).mono fun _ h => h.compress) fun a t => ?_
    cases a with
    | none => exact .refl t
    | some b =>
      refine Res.All.bind CompressFrame.trans ?_ fun _ u => ih u
      exact (cScanByte_compress b _).mono fun _ h => CompressFrame.trans _ _ _ (setC_compress t _) h

theorem cFinish_compress (s : State) : (cFinish s).All (CompressFrame s) := by
  refine Res.All.bind CompressFrame.trans ?_ fun _ t =>
    Res.All.bind CompressFrame.trans (cWriteCode_compress _ _ t) fun _ u =>
      (bwFlush_writer u).mono fun _ h => h.compress
  split
  · exact .refl s
  · exact cWriteRun_compress s

theorem compressAll_compress (s : State) : (compressAll s).All (CompressFrame s) := by
  refine Res.All.bind CompressFrame.trans ?_ fun _ t =>
    Res.All.bind CompressFrame.trans (cScan_compress _ t) fun _ u => cFinish_compress u
  exact (cWriteCode_compress _ _ _).mono fun _ h => CompressFrame.trans _ _ _ (setC_compress s _) h

/-! ### D -/

theorem setD_decompress (s : State) (d : Decompressor) : DecompressFrame s (s.setD d) := ⟨rfl, rfl, rfl, rfl, .refl _⟩

theorem dNextCode_decompress (s : State) : (dNextCode s).All (DecompressFrame s) :=
  Res.All.bind DecompressFrame.trans ((brRead_reader _ s).mono fun _ h => h.decompress) fun _ t =>
    (notify_only _ _ _ _ t).decompress

theorem dEmit_decompress (str : ByteString) (s : State) : (dEmit str s).All (DecompressFrame s) := by
  induction str generalizing s with
  | nil => exact .refl s
  | cons b rest ih =>
    exact Res.All.bind DecompressFrame.trans ((memWrite_only b s).mono fun _ h => h.decompress) fun _ t =>
      (ih _).mono fun _ h => DecompressFrame.trans _ _ _ (setD_decompress t _) h

theorem dAppend_decompress (str : ByteString) (code : Nat) (s : State) : (dAppend str code s).All (DecompressFrame s) := by
  unfold dAppend
  split
  · exact .refl s
  · exact setD_decompress s _

theorem dEntry_decompress (c : Nat) (s : State) : (dEntry c s).All (DecompressFrame s) := by
  unfold dEntry
  split
  · exact DecompressFrame.refl s
  · trivial
  · trivial

theorem dKnown_decompress (code old : Nat) (s : State) : (dKnown code old s).All (DecompressFrame s) :=
  Res.All.bind DecompressFrame.trans (dEntry_decompress _ s) fun _ t =>
    Res.All.bind DecompressFrame.trans (dEmit_decompress _ t) fun _ u =>
      Res.All.bind DecompressFrame.trans (dEntry_decompress _ u) fun _ v =>
        Res.All.bind DecompressFrame.trans (dAppend_decompress _ _ v) fun _ w => setD_decompress w _

theorem dKwKwK_decompress (code old : Nat) (s : State) : (dKwKwK code old s).All (DecompressFrame s) :=
  Res.All.bind DecompressFrame.trans (dEntry_decompress _ s) fun _ t =>
    Res.All.bind DecompressFrame.trans (dEmit_decompress _ t) fun _ u =>
      Res.All.bind DecompressFrame.trans (dAppend_decompress _ _ u) fun _ w => setD_decompress w _

theorem dDataCode_decompress (l : DLabel) (code : Nat) (s : State) : (dDataCode l code s).All (DecompressFrame s) := by
  cases l with
  | code =>
    simp only [dDataCode, dSteadyCode]
    split
    · exact DecompressFrame.refl s
    · split
      · exact dKnown_decompress _ _ s
      · split
        · exact dKwKwK_decompress _ _ s
        · exact DecompressFrame.refl s
  | postClear =>
    simp only [dDataCode, dPostClearCode]
    split
    · exact DecompressFrame.refl s
    · exact Res.All.bind DecompressFrame.trans (dEntry_decompress _ s) fun _ t =>
        Res.All.bind DecompressFrame.trans (dEmit_decompress _ t) fun _ u => setD_decompress u _

theorem dLoop_decompress (limit fuel : Nat) (l : DLabel) (s : State) : (dLoop limit fuel l s).All (DecompressFrame s) := by
  induction fuel generalizing l s with
  | zero => trivial
  | succ k ih =>
    simp only [dLoop]
    refine Res.All.bind DecompressFrame.trans (dNextCode_decompress s) fun code t => ?_
    split
    · exact DecompressFrame.refl t
    · split
      · split
        · exact setD_decompress t _
        · exact (ih _ _).mono fun _ h => DecompressFrame.trans _ _ _ (setD_decompress t _) h
      · refine Res.All.bind DecompressFrame.trans (dDataCode_decompress l code t) fun _ u => ?_
        split
        · exact DecompressFrame.refl u
        · exact ih _ u

theorem decompressAll_decompress (limit : Nat) (s : State) : (decompressAll limit s).All (DecompressFrame s) :=
  (dLoop_decompress _ _ _ _).mono fun _ h => DecompressFrame.trans _ _ _ (setD_decompress s _) h

end Sys2Proof.Machine
end

