-- ==== Sys2Proof/Laws/Bits.lean ====
section
/-! SUPPORT. The bit view of codes, bytes and caches (30_encoding.md R72, R73): how merging, draining, refilling and
extracting act on sequences of stream bits. -/

namespace Sys2Proof.Machine

@[simp] theorem testBit_mask (n i : Nat) : (mask n).testBit i = decide (i < n) := Nat.testBit_two_pow_sub_one n i

theorem testBit_byte (x i : Nat) : (BitVec.ofNat 8 x).toNat.testBit i = (decide (i < 8) && x.testBit i) := by
  rw [BitVec.toNat_ofNat, Nat.testBit_mod_two_pow]

@[simp] theorem codeBits_length (o : ByteOrder) (n v : Nat) : (codeBits o n v).length = n := by cases o <;> simp [codeBits]

@[simp] theorem codeBits_zero (o : ByteOrder) (v : Nat) : codeBits o 0 v = [] := by cases o <;> rfl

/-- Only the low `n` bits of a value matter. -/
theorem codeBits_congr (o : ByteOrder) {n v w : Nat} (h : ∀ i, i < n → v.testBit i = w.testBit i) :
    codeBits o n v = codeBits o n w := by
  cases o with
  | msbFirst =>
    refine List.map_congr_left fun k hk => h _ ?_
    have := List.mem_range.mp hk
    omega
  | lsbFirst => exact List.map_congr_left fun k hk => h _ (List.mem_range.mp hk)

theorem codeBits_split_msb (m n c : Nat) :
    codeBits .msbFirst (m + n) c = codeBits .msbFirst m (c >>> n) ++ codeBits .msbFirst n c := by
  apply List.ext_getElem
  · simp
  · intro i h1 h2
    simp only [codeBits, List.getElem_map, List.getElem_range, List.getElem_append, List.length_map, List.length_range,
      Nat.testBit_shiftRight]
    split <;> (congr 1; omega)

theorem codeBits_split_lsb (m n c : Nat) :
    codeBits .lsbFirst (m + n) c = codeBits .lsbFirst m c ++ codeBits .lsbFirst n (c >>> m) := by
  apply List.ext_getElem
  · simp
  · intro i h1 h2
    simp only [codeBits, List.getElem_map, List.getElem_range, List.getElem_append, List.length_map, List.length_range,
      Nat.testBit_shiftRight]
    split <;> (congr 1; try omega)

theorem testBit_of_lt {x n i : Nat} (h : x < 2 ^ n) (hi : n ≤ i) : x.testBit i = false :=
  Nat.testBit_lt_two_pow (Nat.lt_of_lt_of_le h (Nat.pow_le_pow_right (by decide) hi))

@[simp] theorem streamBits_nil (o : ByteOrder) : streamBits o [] = [] := rfl

theorem streamBits_append (o : ByteOrder) (a b : List Byte) : streamBits o (a ++ b) = streamBits o a ++ streamBits o b := by
  simp [streamBits]

theorem streamBits_cons (o : ByteOrder) (b : Byte) (l : List Byte) :
    streamBits o (b :: l) = codeBits o 8 b.toNat ++ streamBits o l := rfl

@[simp] theorem streamBits_length (o : ByteOrder) (l : List Byte) : (streamBits o l).length = 8 * l.length := by
  induction l with
  | nil => rfl
  | cons b l ih => rw [streamBits_cons, List.length_append, codeBits_length, ih, List.length_cons]; omega

/-- Codes below `2^n` are told apart by their bits, and read back from them. -/
theorem codeOfBits_codeBits (o : ByteOrder) {n v : Nat} (h : v < 2 ^ n) : codeOfBits o (codeBits o n v) = v := by
  induction n generalizing v with
  | zero => cases o <;> simp [codeOfBits] <;> omega
  | succ n ih =>
    cases o with
    | msbFirst =>
      have h1 : v >>> 1 < 2 ^ n := by
        rw [Nat.shiftRight_eq_div_pow]
        omega
      rw [codeBits_split_msb n 1 v]
      have ih1 := ih h1
      simp only [codeOfBits, List.foldl_append] at ih1 ⊢
      rw [ih1]
      have hv : (decide (v % 2 = 1)).toNat = v % 2 := by
        rcases Nat.mod_two_eq_zero_or_one v with h2 | h2 <;> simp [h2]
      simp [codeBits, hv, Nat.shiftRight_eq_div_pow]
      omega
    | lsbFirst =>
      have h1 : v >>> 1 < 2 ^ n := by
        rw [Nat.shiftRight_eq_div_pow]
        omega
      rw [Nat.add_comm n 1, codeBits_split_lsb 1 n v]
      have ih1 := ih h1
      simp only [codeOfBits, List.foldr_append] at ih1 ⊢
      rw [ih1]
      have hv : (decide (v % 2 = 1)).toNat = v % 2 := by
        rcases Nat.mod_two_eq_zero_or_one v with h2 | h2 <;> simp [h2]
      simp [codeBits, hv, Nat.shiftRight_eq_div_pow]
      omega

/-! ### Caches -/

theorem and_mask_lt (x n : Nat) : x &&& mask n < 2 ^ n := by
  unfold mask
  rw [Nat.and_two_pow_sub_one_eq_mod]
  exact Nat.mod_lt _ (Nat.two_pow_pos n)

/-- The merge appends the code's bits (42_bitwriter.md R122). -/
theorem bwMerge_bits (o : ByteOrder) (v n : Nat) {b : BitCache} (h : b.cache < 2 ^ b.bits) :
    pendingBits o (bwMerge o v n b) = pendingBits o b ++ codeBits o n v := by
  cases o with
  | msbFirst =>
    simp only [pendingBits, bwMerge]
    rw [codeBits_split_msb]
    congr 1
    · refine codeBits_congr _ fun i hi => ?_
      simp [Nat.testBit_shiftRight, Nat.testBit_or, Nat.testBit_shiftLeft]
    · refine codeBits_congr _ fun i hi => ?_
      simp [Nat.testBit_or, Nat.testBit_shiftLeft, hi]
  | lsbFirst =>
    simp only [pendingBits, bwMerge]
    rw [codeBits_split_lsb]
    congr 1
    · refine codeBits_congr _ fun i hi => ?_
      simp [Nat.testBit_or, Nat.testBit_shiftLeft, hi]
    · refine codeBits_congr _ fun i hi => ?_
      simp [Nat.testBit_shiftRight, Nat.testBit_or, Nat.testBit_shiftLeft, hi, testBit_of_lt h (Nat.le_add_right _ _)]

/-- The merge leaves nothing above the valid bits (10_state.md R31). -/
theorem bwMerge_lt (o : ByteOrder) (v n : Nat) {b : BitCache} (h : b.cache < 2 ^ b.bits) :
    (bwMerge o v n b).cache < 2 ^ (bwMerge o v n b).bits := by
  have hv : v &&& mask n < 2 ^ n := and_mask_lt v n
  cases o with
  | msbFirst =>
    refine Nat.or_lt_two_pow ?_ (Nat.lt_of_lt_of_le hv (Nat.pow_le_pow_right (by decide) (Nat.le_add_left _ _)))
    rw [Nat.shiftLeft_eq]
    show _ < 2 ^ (b.bits + n)
    rw [Nat.pow_add]
    exact Nat.mul_lt_mul_of_pos_right h (Nat.two_pow_pos n)
  | lsbFirst =>
    refine Nat.or_lt_two_pow (Nat.lt_of_lt_of_le h (Nat.pow_le_pow_right (by decide) (Nat.le_add_right _ _))) ?_
    rw [Nat.shiftLeft_eq]
    show _ < 2 ^ (b.bits + n)
    rw [Nat.pow_add, Nat.mul_comm (2 ^ b.bits)]
    exact Nat.mul_lt_mul_of_pos_right hv (Nat.two_pow_pos b.bits)

theorem bwOutByte_bits (o : ByteOrder) (b : BitCache) (h : 8 ≤ b.bits) :
    codeBits o 8 (bwOutByte o b).toNat ++ pendingBits o (bwDropByte o b) = pendingBits o b := by
  have h255 : (255 : Nat) = mask 8 := rfl
  obtain ⟨k, hk⟩ : ∃ k, b.bits = 8 + k := ⟨b.bits - 8, by omega⟩
  have hk' : b.bits - 8 = k := by omega
  cases o with
  | msbFirst =>
    simp only [pendingBits, bwDropByte, bwOutByte, hk', h255]
    rw [hk, codeBits_split_msb]
    congr 1
    · refine codeBits_congr _ fun i hi => ?_
      simp [testBit_byte, hi, -BitVec.toNat_ofNat]
    · refine codeBits_congr _ fun i hi => ?_
      simp [hi]
  | lsbFirst =>
    simp only [pendingBits, bwDropByte, bwOutByte, hk', h255]
    rw [hk, codeBits_split_lsb]
    congr 1
    · refine codeBits_congr _ fun i hi => ?_
      simp [testBit_byte, hi, -BitVec.toNat_ofNat]
    · refine codeBits_congr _ fun i hi => ?_
      simp [hi]

theorem bwDropByte_lt (o : ByteOrder) (b : BitCache) : (bwDropByte o b).cache < 2 ^ (bwDropByte o b).bits := and_mask_lt _ _

/-- The refill appends the byte's bits (41_bitreader.md R111). -/
theorem brTakeByte_bits (o : ByteOrder) (x : Byte) {b : BitCache} (h : b.cache < 2 ^ b.bits) :
    pendingBits o (brTakeByte o x b) = pendingBits o b ++ codeBits o 8 x.toNat := by
  have hx : ∀ i, 8 ≤ i → x.toNat.testBit i = false := fun i hi => testBit_of_lt x.isLt hi
  cases o with
  | msbFirst =>
    simp only [pendingBits, brTakeByte]
    rw [codeBits_split_msb]
    congr 1
    · refine codeBits_congr _ fun i hi => ?_
      simp [Nat.testBit_shiftRight, Nat.testBit_or, Nat.testBit_shiftLeft, hx]
    · refine codeBits_congr _ fun i hi => ?_
      simp [Nat.testBit_or, Nat.testBit_shiftLeft, hi]
  | lsbFirst =>
    simp only [pendingBits, brTakeByte]
    rw [codeBits_split_lsb]
    congr 1
    · refine codeBits_congr _ fun i hi => ?_
      simp [Nat.testBit_or, Nat.testBit_shiftLeft, hi]
    · refine codeBits_congr _ fun i hi => ?_
      simp [Nat.testBit_shiftRight, Nat.testBit_or, Nat.testBit_shiftLeft, testBit_of_lt h (Nat.le_add_right _ _)]

theorem brTakeByte_lt (o : ByteOrder) (x : Byte) {b : BitCache} (h : b.cache < 2 ^ b.bits) :
    (brTakeByte o x b).cache < 2 ^ (brTakeByte o x b).bits := by
  have hx : x.toNat < 2 ^ 8 := x.isLt
  cases o with
  | msbFirst =>
    refine Nat.or_lt_two_pow ?_ (Nat.lt_of_lt_of_le hx (Nat.pow_le_pow_right (by decide) (Nat.le_add_left _ _)))
    rw [Nat.shiftLeft_eq]
    show _ < 2 ^ (b.bits + 8)
    rw [Nat.pow_add]
    exact Nat.mul_lt_mul_of_pos_right h (Nat.two_pow_pos 8)
  | lsbFirst =>
    refine Nat.or_lt_two_pow (Nat.lt_of_lt_of_le h (Nat.pow_le_pow_right (by decide) (Nat.le_add_right _ _))) ?_
    rw [Nat.shiftLeft_eq]
    show _ < 2 ^ (b.bits + 8)
    rw [Nat.pow_add, Nat.mul_comm (2 ^ b.bits)]
    exact Nat.mul_lt_mul_of_pos_right hx (Nat.two_pow_pos b.bits)

/-- The extraction takes the first `n` of the cached bits (41_bitreader.md R112). -/
theorem brExtract_bits (o : ByteOrder) {n : Nat} {b : BitCache} (h : n ≤ b.bits) :
    codeBits o n (brExtractCode o n b) ++ pendingBits o (brDropCode o n b) = pendingBits o b := by
  obtain ⟨k, hk⟩ : ∃ k, b.bits = n + k := ⟨b.bits - n, by omega⟩
  have hk' : b.bits - n = k := by omega
  cases o with
  | msbFirst =>
    simp only [pendingBits, brDropCode, brExtractCode, hk']
    rw [hk, codeBits_split_msb]
    congr 1
    · refine codeBits_congr _ fun i hi => ?_
      simp [hi]
    · refine codeBits_congr _ fun i hi => ?_
      simp [hi]
  | lsbFirst =>
    simp only [pendingBits, brDropCode, brExtractCode, hk']
    rw [hk, codeBits_split_lsb]
    congr 1
    · refine codeBits_congr _ fun i hi => ?_
      simp [hi]
    · refine codeBits_congr _ fun i hi => ?_
      simp [hi]

theorem brExtractCode_lt (o : ByteOrder) (n : Nat) (b : BitCache) : brExtractCode o n b < 2 ^ n := by
  cases o <;> exact and_mask_lt _ _

theorem brDropCode_lt (o : ByteOrder) (n : Nat) (b : BitCache) : (brDropCode o n b).cache < 2 ^ (brDropCode o n b).bits :=
  and_mask_lt _ _

/-- The flush byte holds the pending bits, then zeros (42_bitwriter.md R125). -/
theorem bwFlushByte_bits (o : ByteOrder) {b : BitCache} (h : b.bits < 8) :
    codeBits o 8 (bwFlushByte o b).toNat = pendingBits o b ++ List.replicate (8 - b.bits) false := by
  have hlt := and_mask_lt b.cache b.bits
  obtain ⟨k, hk⟩ : ∃ k, 8 = b.bits + k := ⟨8 - b.bits, by omega⟩
  have hk' : 8 - b.bits = k := by omega
  have hrep : ∀ o, codeBits o k 0 = List.replicate k false := fun o => by
    cases o <;> simp [codeBits, List.map_const']
  rw [hk', ← hrep o]
  cases o with
  | msbFirst =>
    simp only [pendingBits, bwFlushByte, hk']
    rw [show codeBits .msbFirst 8 = codeBits .msbFirst (b.bits + k) by rw [← hk], codeBits_split_msb]
    congr 1
    · refine codeBits_congr _ fun i hi => ?_
      have : k + i < 8 := by omega
      simp [testBit_byte, Nat.testBit_shiftLeft, this, hi, -BitVec.toNat_ofNat]
    · refine codeBits_congr _ fun i hi => ?_
      simp [testBit_byte, Nat.testBit_shiftLeft, hi, -BitVec.toNat_ofNat]
  | lsbFirst =>
    simp only [pendingBits, bwFlushByte]
    rw [show codeBits .lsbFirst 8 = codeBits .lsbFirst (b.bits + k) by rw [← hk], codeBits_split_lsb]
    congr 1
    · refine codeBits_congr _ fun i hi => ?_
      have : i < 8 := by omega
      simp [testBit_byte, this, hi, -BitVec.toNat_ofNat]
    · refine codeBits_congr _ fun i hi => ?_
      simp [testBit_byte, Nat.testBit_shiftRight, -BitVec.toNat_ofNat]

end Sys2Proof.Machine
end

