-- ==== Sys2Proof/Laws/BitUnits.lean ====
section
/-! SUPPORT. What BW's and BR's primitives can do, said once each: `bw_drain`, `bw_write`, `bw_flush` (42_bitwriter.md R120
to R125) and `br_read` (41_bitreader.md R110 to R117), on sequences of stream bits. -/

namespace Sys2Proof.Machine

/-- An access to SNK from index `k` on answers FAIL. -/
def SnkFailed (s : State) : Prop := ∃ k, s.io.snkWrites ≤ k ∧ ioFails s.io.script .snk k = true

/-- An access to SRC from index `k` on answers FAIL. -/
def SrcFailed (s : State) : Prop := ∃ k, s.io.srcReads ≤ k ∧ ioFails s.io.script .src k = true

theorem not_snkFailed {s : State} (h : SnkAccepts s) : ¬ SnkFailed s := by
  rintro ⟨k, hk, hf⟩
  rw [h k hk] at hf
  cases hf

theorem not_srcFailed {s : State} (h : SrcAnswers s) : ¬ SrcFailed s := by
  rintro ⟨k, hk, hf⟩
  rw [h k hk] at hf
  cases hf

theorem SnkFailed.earlier {s t : State} (g : StreamsGrow s.io t.io) (h : SnkFailed t) : SnkFailed s := by
  obtain ⟨k, hk, hf⟩ := h
  exact ⟨k, g.snkWrites.trans hk, g.script ▸ hf⟩

theorem SrcFailed.earlier {s t : State} (g : StreamsGrow s.io t.io) (h : SrcFailed t) : SrcFailed s := by
  obtain ⟨k, hk, hf⟩ := h
  exact ⟨k, g.srcReads.trans hk, g.script ▸ hf⟩

theorem SnkAccepts.later {s t : State} (g : StreamsGrow s.io t.io) (h : SnkAccepts s) : SnkAccepts t := fun k hk => by
  rw [g.script]
  exact h k (g.snkWrites.trans hk)

theorem SrcAnswers.later {s t : State} (g : StreamsGrow s.io t.io) (h : SrcAnswers s) : SrcAnswers t := fun k hk => by
  rw [g.script]
  exact h k (g.srcReads.trans hk)

theorem CacheSound.mono {m n : Nat} {b : BitCache} (h : CacheSound m b) (hmn : m ≤ n) : CacheSound n b :=
  ⟨h.cache, h.bits.trans hmn⟩

/-- What `bw_drain` can do (42_bitwriter.md R120): it leaves fewer than 8 bits, or a SNK FAIL raises `IoError(1, 0)` with
the refused byte still cached; no written bit is lost either way. -/
theorem bwDrainLoop_meets (fuel : Nat) (s : State) (hf : s.bw.bits / 8 ≤ fuel) (h : CacheSound 19 s.bw) :
    (bwDrainLoop fuel s).Meets
      (fun _ t => CacheSound 7 t.bw ∧ t.bw.bits = s.bw.bits % 8 ∧ writtenBits t = writtenBits s)
      (fun c i j t => c = .ioError ∧ i = 1 ∧ j = 0 ∧ CacheSound 19 t.bw ∧ 8 ≤ t.bw.bits ∧ writtenBits t = writtenBits s ∧
        SnkFailed s) := by
  induction fuel generalizing s with
  | zero =>
    have hb : s.bw.bits < 8 := by omega
    exact ⟨⟨h.cache, by omega⟩, by omega, rfl⟩
  | succ n ih =>
    simp only [bwDrainLoop]
    split
    · rename_i hb
      rcases memWrite_cases (bwOutByte (byteOrderOf s.regs.cfg) s.bw) s with ⟨-, hw⟩ | ⟨hfail, hw⟩ <;> rw [hw]
      · simp only [Res.bind_ok, State.setIo_regs, State.setIo_bw]
        refine (ih _ ?_ ?_).mono ?_ ?_
        · simp only [State.setBw_bw, bwDropByte]
          omega
        · exact ⟨bwDropByte_lt _ _, by simp only [State.setBw_bw, bwDropByte]; have := h.bits; omega⟩
        · rintro _ t ⟨h1, h2, h3⟩
          refine ⟨h1, ?_, ?_⟩
          · rw [h2]
            simp only [State.setBw_bw, bwDropByte]
            omega
          · rw [h3]
            simp only [writtenBits, State.setBw_regs, State.setIo_regs, State.setBw_bw, State.setBw_io, State.setIo_io,
              streamBits_append, List.append_assoc]
            rw [← bwOutByte_bits (byteOrderOf s.regs.cfg) s.bw hb]
            simp [streamBits]
        · rintro c i j t ⟨h1, h2, h3, h4, h5, h6, k, hk, hfk⟩
          refine ⟨h1, h2, h3, h4, h5, ?_, k, Nat.le_of_succ_le hk, hfk⟩
          rw [h6]
          simp only [writtenBits, State.setBw_regs, State.setIo_regs, State.setBw_bw, State.setBw_io, State.setIo_io,
            streamBits_append, List.append_assoc]
          rw [← bwOutByte_bits (byteOrderOf s.regs.cfg) s.bw hb]
          simp [streamBits]
      · exact ⟨rfl, rfl, rfl, h, hb, rfl, _, Nat.le_refl _, hfail⟩
    · exact ⟨⟨h.cache, by omega⟩, by omega, rfl⟩

theorem bwDrain_meets (s : State) (h : CacheSound 19 s.bw) :
    (bwDrain s).Meets
      (fun _ t => CacheSound 7 t.bw ∧ t.bw.bits = s.bw.bits % 8 ∧ writtenBits t = writtenBits s)
      (fun c i j t => c = .ioError ∧ i = 1 ∧ j = 0 ∧ CacheSound 19 t.bw ∧ 8 ≤ t.bw.bits ∧ writtenBits t = writtenBits s ∧
        SnkFailed s) :=
  bwDrainLoop_meets _ s (Nat.le_refl _) h

/-- What `bw_write` can do (42_bitwriter.md R121, R122): the code's `n` bits are appended to the written bits and fewer than
8 stay cached, or a SNK FAIL raises `IoError(1, 0)` before or after the merge. -/
theorem bwWrite_meets (v n : Nat) (hn : n ≤ 12) (s : State) (h : CacheSound 19 s.bw) :
    (bwWrite v n s).Meets
      (fun _ t => CacheSound 7 t.bw ∧ t.bw.bits = (s.bw.bits + n) % 8 ∧
        writtenBits t = writtenBits s ++ codeBits (byteOrderOf s.regs.cfg) n v)
      (fun c i j t => c = .ioError ∧ i = 1 ∧ j = 0 ∧ CacheSound 19 t.bw ∧ 8 ≤ t.bw.bits ∧ SnkFailed s) := by
  have hd := (bwDrain_meets s h).andAll (bwDrain_writer s)
  refine Res.Meets.bind (P := fun _ t => (CacheSound 7 t.bw ∧ t.bw.bits = s.bw.bits % 8 ∧ writtenBits t = writtenBits s) ∧
    WriterFrame s t) (hd.mono (fun _ _ => id) ?_) ?_
  · rintro c i j t ⟨⟨h1, h2, h3, h4, h5, -, h7⟩, -⟩
    exact ⟨h1, h2, h3, h4, h5, h7⟩
  · rintro _ t ⟨⟨h1, h2, h3⟩, hw⟩
    have h19 : CacheSound 19 (bwMerge (byteOrderOf t.regs.cfg) v n t.bw) :=
      ⟨bwMerge_lt _ _ _ h1.cache, by have := h1.bits; simp only [bwMerge]; omega⟩
    have hm : writtenBits (t.setBw (bwMerge (byteOrderOf t.regs.cfg) v n t.bw)) =
        writtenBits t ++ codeBits (byteOrderOf s.regs.cfg) n v := by
      simp only [writtenBits, State.setBw_regs, State.setBw_bw, State.setBw_io, bwMerge_bits _ _ _ h1.cache,
        List.append_assoc, hw.regs]
    refine (bwDrain_meets _ h19).mono ?_ ?_
    · rintro _ u ⟨g1, g2, g3⟩
      refine ⟨g1, ?_, ?_⟩
      · rw [g2]
        simp only [State.setBw_bw, bwMerge]
        omega
      · rw [g3, hm, h3]
    · rintro c i j u ⟨g1, g2, g3, g4, g5, -, g7⟩
      exact ⟨g1, g2, g3, g4, g5, SnkFailed.earlier hw.grow g7⟩

/-- What `bw_flush` can do (42_bitwriter.md R125): the pending bits are padded with zeros to a byte and BW is empty, or a SNK
FAIL raises `IoError(1, 0)`. -/
theorem bwFlush_meets (s : State) (h : CacheSound 19 s.bw) :
    (bwFlush s).Meets
      (fun _ t => t.bw.cache = 0 ∧ t.bw.bits = 0 ∧
        writtenBits t = writtenBits s ++ List.replicate ((8 - s.bw.bits % 8) % 8) false)
      (fun c i j t => c = .ioError ∧ i = 1 ∧ j = 0 ∧ CacheSound 19 t.bw ∧ SnkFailed s) := by
  have hd := (bwDrain_meets s h).andAll (bwDrain_writer s)
  refine Res.Meets.bind (P := fun _ t => (CacheSound 7 t.bw ∧ t.bw.bits = s.bw.bits % 8 ∧ writtenBits t = writtenBits s) ∧
    WriterFrame s t) (hd.mono (fun _ _ => id) ?_) ?_
  · rintro c i j t ⟨⟨h1, h2, h3, h4, h5, -, h7⟩, -⟩
    exact ⟨h1, h2, h3, h4, h7⟩
  · rintro _ t ⟨⟨h1, h2, h3⟩, hw⟩
    have h7 := h1.bits
    split
    · rename_i hb
      rcases memWrite_cases (bwFlushByte (byteOrderOf t.regs.cfg) t.bw) t with ⟨-, hr⟩ | ⟨hfail, hr⟩ <;> rw [hr]
      · refine ⟨rfl, rfl, ?_⟩
        rw [← h3]
        have h8 : (8 - s.bw.bits % 8) % 8 = 8 - t.bw.bits := by omega
        simp only [writtenBits, State.setBw_regs, State.setIo_regs, State.setBw_bw, State.setBw_io, State.setIo_io,
          streamBits_append, List.append_assoc, h8]
        rw [← bwFlushByte_bits (byteOrderOf t.regs.cfg) (by omega : t.bw.bits < 8)]
        simp [streamBits, pendingBits]
      · exact ⟨rfl, rfl, rfl, h1.mono (by omega), SnkFailed.earlier hw.grow ⟨_, Nat.le_refl _, hfail⟩⟩
    · rename_i hb
      have h0 : t.bw.bits = 0 := by omega
      refine ⟨rfl, rfl, ?_⟩
      rw [← h3]
      have h8 : (8 - s.bw.bits % 8) % 8 = 0 := by omega
      simp [writtenBits, pendingBits, h8, h0]

/-! ### BR -/

theorem unreadBits_of_take {s : State} {b : Byte} (h : s.io.src[s.io.srcPos]? = some b) :
    unreadBytes s = b :: s.io.src.drop (s.io.srcPos + 1) := by
  obtain ⟨hlt, hb⟩ := List.getElem?_eq_some_iff.mp h
  rw [unreadBytes, List.drop_eq_getElem_cons hlt, hb]

theorem unreadBytes_of_end {s : State} (h : s.io.src[s.io.srcPos]? = none) : unreadBytes s = [] :=
  List.drop_eq_nil_of_le (List.getElem?_eq_none_iff.mp h)

/-- What the refill can do (41_bitreader.md R111, R113, R117): it fills the cache, or SRC is at END, or a SRC FAIL raises
`IoError(0, 0)`; no unread bit is lost. -/
theorem brRefill_meets (n fuel : Nat) (s : State) (hn : n ≤ 12) (hf : n ≤ s.br.bits + 8 * fuel)
    (h : CacheSound 19 s.br) (hb : n ≤ s.br.bits ∨ s.br.bits < n) :
    (brRefill n fuel s).Meets
      (fun e t => CacheSound 19 t.br ∧ unreadBits t = unreadBits s ∧
        (e = .filled → n ≤ t.br.bits ∧ (t.br = s.br ∨ t.br.bits < n + 8)) ∧
        (e = .exhausted → t.br.bits < n ∧ unreadBytes t = []))
      (fun c i j t => c = .ioError ∧ i = 0 ∧ j = 0 ∧ CacheSound 19 t.br ∧ t.br.bits < n ∧ unreadBits t = unreadBits s ∧
        SrcFailed s) := by
  induction fuel generalizing s with
  | zero => exact ⟨h, rfl, fun _ => ⟨by omega, .inl rfl⟩, fun h => by cases h⟩
  | succ k ih =>
    simp only [brRefill]
    split
    · rename_i hfull
      exact ⟨h, rfl, fun _ => ⟨hfull, .inl rfl⟩, fun h => by cases h⟩
    · rename_i hlow
      rcases memRead_cases s with ⟨b, -, hb, hr⟩ | ⟨-, he, hr⟩ | ⟨hfail, hr⟩ <;> rw [hr]
      · have h19 : CacheSound 19 (brTakeByte (byteOrderOf s.regs.cfg) b s.br) :=
          ⟨brTakeByte_lt _ _ h.cache, by simp only [brTakeByte]; omega⟩
        have hsame : unreadBits ((s.setIo { s.io with srcPos := s.io.srcPos + 1, srcReads := s.io.srcReads + 1 }).setBr
            (brTakeByte (byteOrderOf s.regs.cfg) b s.br)) = unreadBits s := by
          simp only [unreadBits, State.setBr_regs, State.setIo_regs, State.setBr_br, brTakeByte_bits _ _ h.cache,
            unreadBits_of_take hb]
          simp [unreadBytes, streamBits]
        refine (ih _ ?_ h19 ?_).mono ?_ ?_
        · simp only [State.setBr_br, State.setIo_regs, State.setIo_br, brTakeByte]
          omega
        · omega
        · rintro e t ⟨h1, h2, h3, h4⟩
          refine ⟨h1, h2.trans hsame, fun he => ?_, h4⟩
          obtain ⟨h5, h6⟩ := h3 he
          refine ⟨h5, .inr ?_⟩
          rcases h6 with h6 | h6
          · rw [h6]
            simp only [State.setBr_br, State.setIo_regs, State.setIo_br, brTakeByte]
            omega
          · exact h6
        · rintro c i j t ⟨h1, h2, h3, h4, h5, h6, k', hk, hfk⟩
          exact ⟨h1, h2, h3, h4, h5, h6.trans hsame, k', Nat.le_of_succ_le hk, hfk⟩
      · refine ⟨h, rfl, fun h => (by cases h), fun _ => ⟨?_, ?_⟩⟩
        · simp only [State.setIo_br]
          omega
        · exact unreadBytes_of_end he
      · exact ⟨rfl, rfl, rfl, h, by simp only [State.setIo_br]; omega, rfl, _, Nat.le_refl _, hfail⟩

/-- What `br_read(n)` can do (41_bitreader.md R110 to R113, R117): it returns the first `n` unread bits as a code; or the
sentinel 257 (`TM = 1`) or `PrematureEndOfData(n, BR_BITS)` (`TM = 0`) when fewer than `n` bits are left, with every bit
kept; or `IoError(0, 0)` on a SRC FAIL, with every bit kept. -/
theorem brRead_meets (n : Nat) (s : State) (hn : n ≤ 12) (h : CacheSound 11 s.br) :
    (brRead n s).Meets
      (fun r t => CacheSound 11 t.br ∧
        ((r.2 = .code ∧ r.1 < 2 ^ n ∧ unreadBits s = codeBits (byteOrderOf s.regs.cfg) n r.1 ++ unreadBits t) ∨
          (r = (tiffSentinel, .sentinel) ∧ tmOf s.regs.cfg = true ∧ unreadBits t = unreadBits s ∧
            (unreadBits s).length < n)))
      (fun c i j t => CacheSound 11 t.br ∧ unreadBits t = unreadBits s ∧
        ((c = .prematureEndOfData ∧ i = n ∧ j = t.br.bits ∧ tmOf s.regs.cfg = false ∧ (unreadBits s).length < n) ∨
          (c = .ioError ∧ i = 0 ∧ j = 0 ∧ SrcFailed s))) := by
  have hr := (brRefill_meets n n s hn (by omega) (h.mono (by omega)) (by omega)).andAll (brRefill_reader n n s)
  refine Res.Meets.bind (hr.mono (fun _ _ => id) ?_) ?_
  · rintro c i j t ⟨⟨h1, h2, h3, h4, h5, h6, h7⟩, -⟩
    exact ⟨⟨h4.cache, by omega⟩, h6, .inr ⟨h1, h2, h3, h7⟩⟩
  · rintro e t ⟨⟨h1, h2, h3, h4⟩, hw⟩
    cases e with
    | filled =>
      obtain ⟨hfull, hwhy⟩ := h3 rfl
      refine ⟨⟨brDropCode_lt _ _ _, ?_⟩, .inl ⟨rfl, brExtractCode_lt _ _ _, ?_⟩⟩
      · simp only [State.setBr_br, brDropCode]
        rcases hwhy with hs | hs
        · rw [hs]
          have := h.bits
          omega
        · omega
      · rw [← h2]
        simp only [unreadBits, State.setBr_regs, State.setBr_br, hw.regs]
        rw [← List.append_assoc, ← brExtract_bits (byteOrderOf s.regs.cfg) hfull]
        rfl
    | exhausted =>
      obtain ⟨hlow, hend⟩ := h4 rfl
      have hlen : (unreadBits s).length < n := by
        rw [← h2]
        simp [unreadBits, hend, pendingBits, hlow]
      have h11 : CacheSound 11 t.br := ⟨h1.cache, by omega⟩
      show Res.Meets (if tmOf t.regs.cfg = true then _ else _) _ _
      rw [hw.regs]
      split
      · rename_i htm
        exact ⟨h11, .inr ⟨rfl, htm, h2, hlen⟩⟩
      · rename_i htm
        exact ⟨h11, h2, .inl ⟨rfl, rfl, rfl, by simpa using htm, hlen⟩⟩

end Sys2Proof.Machine
end

