-- ==== Sys2Proof/Laws/Flags.lean ====
section
/-! SUPPORT. The fields of STATUS and CFG read back from the words the model packs. -/

namespace Sys2Proof.Machine

theorem statusNumber_le (c : StatusCode) : statusNumber c ≤ 9 := by cases c <;> decide

theorem statusWord_toNat (c : StatusCode) (x y z : Bool) :
    (statusWord c x y z).toNat = statusNumber c + x.toNat * 2 ^ 4 + y.toNat * 2 ^ 5 + z.toNat * 2 ^ 6 := by
  have h := statusNumber_le c
  cases x <;> cases y <;> cases z <;> simp [statusWord, BitVec.toNat_ofNat] <;> omega

@[simp] theorem codeField_statusWord (c : StatusCode) (x y z : Bool) :
    codeField (statusWord c x y z) = statusNumber c := by
  have h := statusNumber_le c
  unfold codeField bitField
  rw [statusWord_toNat]
  cases x <;> cases y <;> cases z <;> simp <;> omega

@[simp] theorem sentinelFlag_statusWord (c : StatusCode) (x y z : Bool) : sentinelFlag (statusWord c x y z) = x := by
  have h := statusNumber_le c
  unfold sentinelFlag bitFlag bitField
  rw [statusWord_toNat]
  cases x <;> cases y <;> cases z <;> simp <;> omega

@[simp] theorem errLatchFlag_statusWord (c : StatusCode) (x y z : Bool) : errLatchFlag (statusWord c x y z) = y := by
  have h := statusNumber_le c
  unfold errLatchFlag bitFlag bitField
  rw [statusWord_toNat]
  cases x <;> cases y <;> cases z <;> simp <;> omega

@[simp] theorem configuredFlag_statusWord (c : StatusCode) (x y z : Bool) : configuredFlag (statusWord c x y z) = z := by
  have h := statusNumber_le c
  unfold configuredFlag bitFlag bitField
  rw [statusWord_toNat]
  cases x <;> cases y <;> cases z <;> simp <;> omega

theorem statusWord_lt (c : StatusCode) (x y z : Bool) : (statusWord c x y z).toNat < 2 ^ 7 := by
  have h := statusNumber_le c
  rw [statusWord_toNat]
  cases x <;> cases y <;> cases z <;> simp <;> omega

theorem statusNumber_eq_zero {c : StatusCode} : statusNumber c = 0 ↔ c = .ok := by cases c <;> decide

theorem cfgWord_toNat {w0 bo : Nat} (hw : w0 < 16) (hb : bo < 2) (x y z : Bool) :
    (cfgWord w0 bo x y z).toNat = w0 + bo * 2 ^ 4 + x.toNat * 2 ^ 5 + y.toNat * 2 ^ 6 + z.toNat * 2 ^ 7 := by
  cases x <;> cases y <;> cases z <;> simp [cfgWord, BitVec.toNat_ofNat] <;> omega

theorem w0Of_cfgWord {w0 bo : Nat} (hw : w0 < 16) (hb : bo < 2) (x y z : Bool) : w0Of (cfgWord w0 bo x y z) = w0 := by
  unfold w0Of bitField
  rw [cfgWord_toNat hw hb]
  cases x <;> cases y <;> cases z <;> simp <;> omega

theorem tmOf_cfgWord {w0 bo : Nat} (hw : w0 < 16) (hb : bo < 2) (x y z : Bool) : tmOf (cfgWord w0 bo x y z) = y := by
  unfold tmOf bitFlag bitField
  rw [cfgWord_toNat hw hb]
  cases x <;> cases y <;> cases z <;> simp <;> omega

theorem elOf_cfgWord {w0 bo : Nat} (hw : w0 < 16) (hb : bo < 2) (x y z : Bool) : elOf (cfgWord w0 bo x y z) = x := by
  unfold elOf bitFlag bitField
  rw [cfgWord_toNat hw hb]
  cases x <;> cases y <;> cases z <;> simp <;> omega

theorem obsOf_cfgWord {w0 bo : Nat} (hw : w0 < 16) (hb : bo < 2) (x y z : Bool) : obsOf (cfgWord w0 bo x y z) = z := by
  unfold obsOf bitFlag bitField
  rw [cfgWord_toNat hw hb]
  cases x <;> cases y <;> cases z <;> simp <;> omega

theorem orderOf_cfgWord {w0 bo : Nat} (hw : w0 < 16) (hb : bo < 2) (x y z : Bool) :
    byteOrderOf (cfgWord w0 bo x y z) = if bo = 1 then .lsbFirst else .msbFirst := by
  have hbo : bo = 0 ∨ bo = 1 := by omega
  unfold byteOrderOf bitFlag bitField
  rw [cfgWord_toNat hw hb]
  rcases hbo with rfl | rfl <;> cases x <;> cases y <;> cases z <;> simp <;> omega

end Sys2Proof.Machine
end

