-- ==== Sys2Proof/Laws/Tables.lean ====
section
/-! SUPPORT. The laws of the code tables: read after write, the canonical form, the codes an insertion lists, and the
literal table. -/

namespace Sys2Proof.Machine

@[simp] theorem tableGet_put_same (c : Nat) (v : ByteString) (t : CodeTable) : tableGet c (tablePut c v t) = some v := by
  induction t with
  | nil => simp [tablePut, tableGet]
  | cons e t ih =>
    obtain ⟨k, w⟩ := e
    simp only [tablePut]
    split
    · rename_i h
      simp [tableGet, Nat.ne_of_lt h, ih]
    · split <;> simp [tableGet]

theorem tableGet_put_other {c c' : Nat} (h : c' ≠ c) (v : ByteString) (t : CodeTable) :
    tableGet c' (tablePut c v t) = tableGet c' t := by
  induction t with
  | nil => simp [tablePut, tableGet, h.symm]
  | cons e t ih =>
    obtain ⟨k, w⟩ := e
    simp only [tablePut]
    split
    · simp [tableGet, ih]
    · split
      · rename_i hk
        simp [tableGet, h.symm, hk]
      · simp [tableGet, h.symm]

/-- Every code of the table is below `c`. -/
theorem tablePut_above {c : Nat} {t : CodeTable} (h : ∀ e ∈ t, e.1 < c) (v : ByteString) : tablePut c v t = t ++ [(c, v)] := by
  induction t with
  | nil => rfl
  | cons e t ih =>
    obtain ⟨k, w⟩ := e
    have hk : k < c := h (k, w) (by simp)
    simp [tablePut, hk, ih fun e he => h e (by simp [he])]

theorem mem_tablePut {c : Nat} {v : ByteString} {t : CodeTable} {e : Nat × ByteString} (h : e ∈ tablePut c v t) :
    e = (c, v) ∨ e ∈ t := by
  induction t with
  | nil => simpa [tablePut] using h
  | cons a t ih =>
    obtain ⟨k, w⟩ := a
    simp only [tablePut] at h
    split at h
    · rcases List.mem_cons.mp h with rfl | h
      · simp
      · rcases ih h with rfl | h <;> simp [*]
    · split at h
      · rcases List.mem_cons.mp h with rfl | h <;> simp [*]
      · rcases List.mem_cons.mp h with rfl | h
        · simp
        · exact .inr h

/-- An insertion keeps the canonical form. -/
theorem codesRising_put (c : Nat) (v : ByteString) {t : CodeTable} (h : codesRising t = true) :
    codesRising (tablePut c v t) = true := by
  induction t with
  | nil => rfl
  | cons a t ih =>
    obtain ⟨k, w⟩ := a
    simp only [codesRising, Bool.and_eq_true, List.all_eq_true, decide_eq_true_eq] at h
    obtain ⟨hk, ht⟩ := h
    simp only [tablePut]
    split
    · rename_i hlt
      simp only [codesRising, Bool.and_eq_true, List.all_eq_true, decide_eq_true_eq]
      refine ⟨fun e he => ?_, ih ht⟩
      rcases mem_tablePut he with rfl | he
      · exact hlt
      · exact hk e he
    · split
      · rename_i hkc
        simp only [codesRising, Bool.and_eq_true, List.all_eq_true, decide_eq_true_eq]
        exact ⟨fun e he => hkc ▸ hk e he, ht⟩
      · rename_i h1 h2
        simp only [codesRising, Bool.and_eq_true, List.all_eq_true, decide_eq_true_eq]
        refine ⟨fun e he => ?_, fun e he => hk e he, ht⟩
        rcases List.mem_cons.mp he with rfl | he
        · show c < k
          omega
        · have := hk e he
          omega

/-- The canonical form as the codes' order. -/
theorem codesRising_iff (t : CodeTable) : codesRising t = true ↔ (t.map Prod.fst).Pairwise (· < ·) := by
  induction t with
  | nil => simp [codesRising]
  | cons a t ih =>
    obtain ⟨k, w⟩ := a
    simp only [codesRising, Bool.and_eq_true, List.all_eq_true, decide_eq_true_eq, ih, List.map_cons, List.pairwise_cons,
      List.mem_map]
    constructor
    · rintro ⟨h, h'⟩
      exact ⟨by rintro _ ⟨e, he, rfl⟩; exact h e he, h'⟩
    · rintro ⟨h, h'⟩
      exact ⟨fun e he => h _ ⟨e, he, rfl⟩, h'⟩

/-- A read finds an entry that is listed. -/
theorem tableGet_mem {c : Nat} {v : ByteString} {t : CodeTable} (h : tableGet c t = some v) : (c, v) ∈ t := by
  induction t with
  | nil => simp [tableGet] at h
  | cons a t ih =>
    obtain ⟨k, w⟩ := a
    simp only [tableGet] at h
    split at h
    · rename_i hk
      simp_all
    · simp [ih h]

/-- A listed code has an entry. -/
theorem tableGet_of_code {c : Nat} {t : CodeTable} (h : c ∈ t.map Prod.fst) : ∃ v, tableGet c t = some v := by
  induction t with
  | nil => simp at h
  | cons a t ih =>
    obtain ⟨k, w⟩ := a
    by_cases hk : k = c
    · exact ⟨w, by simp [tableGet, hk]⟩
    · obtain ⟨v, hv⟩ := ih (by simpa [Ne.symm hk] using h)
      exact ⟨v, by simp [tableGet, hk, hv]⟩

/-- A code that is not listed has none. -/
theorem tableGet_eq_none {c : Nat} {t : CodeTable} (h : c ∉ t.map Prod.fst) : tableGet c t = none := by
  cases hg : tableGet c t with
  | none => rfl
  | some v => exact absurd (List.mem_map.mpr ⟨_, tableGet_mem hg, rfl⟩) h

/-- A string found by key is listed under the code found. -/
theorem tableCodeOf_mem {key : ByteString} {c : Nat} {t : CodeTable} (h : tableCodeOf key t = some c) : (c, key) ∈ t := by
  induction t with
  | nil => simp [tableCodeOf] at h
  | cons a t ih =>
    obtain ⟨k, w⟩ := a
    simp only [tableCodeOf] at h
    split at h
    · simp_all
    · simp [ih h]

/-- A string is found by key exactly when it is a key. -/
theorem tableCodeOf_isSome (key : ByteString) (t : CodeTable) :
    (tableCodeOf key t).isSome = true ↔ key ∈ t.map Prod.snd := by
  induction t with
  | nil => simp [tableCodeOf]
  | cons a t ih =>
    obtain ⟨k, w⟩ := a
    simp only [tableCodeOf, List.map_cons, List.mem_cons]
    split
    · rename_i h
      simp [h]
    · rename_i h
      rw [ih]
      simp [Ne.symm h]

theorem tableCodeOf_eq_none (key : ByteString) (t : CodeTable) : tableCodeOf key t = none ↔ key ∉ t.map Prod.snd := by
  rw [← tableCodeOf_isSome, Option.not_isSome_iff_eq_none]

/-- The codes of the literal table (43_compressor.md R131, 44_decompressor.md R151). -/
theorem literalTable_codes (n : Nat) : (literalTable n).map Prod.fst = List.range n := by
  simp [literalTable, Function.comp_def]

theorem mem_literalTable {n : Nat} {e : Nat × ByteString} :
    e ∈ literalTable n ↔ e.1 < n ∧ e.2 = [BitVec.ofNat 8 e.1] := by
  obtain ⟨k, v⟩ := e
  simp only [literalTable, List.mem_map, List.mem_range, Prod.mk.injEq]
  constructor
  · rintro ⟨x, hx, rfl, rfl⟩
    exact ⟨hx, rfl⟩
  · rintro ⟨h, rfl⟩
    exact ⟨k, h, rfl, rfl⟩

theorem codesRising_literalTable (n : Nat) : codesRising (literalTable n) = true := by
  rw [codesRising_iff, literalTable_codes]
  exact List.pairwise_lt_range

/-- Every literal entry is there (43_compressor.md R131, 44_decompressor.md R151). -/
theorem tableGet_literalTable {n x : Nat} (h : x < n) : tableGet x (literalTable n) = some [BitVec.ofNat 8 x] := by
  obtain ⟨v, hv⟩ := tableGet_of_code (c := x) (t := literalTable n) (by simpa [literalTable_codes] using h)
  have h2 : v = [BitVec.ofNat 8 x] := (mem_literalTable.mp (tableGet_mem hv)).2
  rw [hv, h2]

end Sys2Proof.Machine
end

