-- ==== Sys2Proof/Laws/Compressor.lean ====
section
/-! SUPPORT. What C's procedures can do (43_compressor.md R131 to R136): they keep 10_state.md R32, never fault, and raise
only as R136 and R138 say. -/

namespace Sys2Proof.Machine

/-! ### Legal parameters -/

theorem CfgLegal.clear_le {cfg : Word} (h : CfgLegal cfg) : clearCode cfg ≤ 256 :=
  (Nat.pow_le_pow_right (by decide) h.w0_high : 2 ^ w0Of cfg ≤ 2 ^ 8)

theorem CfgLegal.clear_ge {cfg : Word} (h : CfgLegal cfg) : 4 ≤ clearCode cfg :=
  (Nat.pow_le_pow_right (by decide) h.w0_low : 2 ^ 2 ≤ 2 ^ w0Of cfg)

theorem CfgLegal.widen_w0 {cfg : Word} (h : CfgLegal cfg) : widen (w0Of cfg) = w0Of cfg + 1 := by
  have := h.w0_high
  exact if_pos (by simp only [maxWidth]; omega)

theorem two_pow_succ_w0 (cfg : Word) : 2 ^ (w0Of cfg + 1) = 2 * clearCode cfg := by
  rw [Nat.pow_succ, Nat.mul_comm]; rfl

theorem toNat_le_one (b : Bool) : b.toNat ≤ 1 := by cases b <;> decide

theorem CfgLegal.limit_first {cfg : Word} (h : CfgLegal cfg) (flag : Bool) :
    firstFree cfg < effectiveLimit (w0Of cfg + 1) flag := by
  have h4 := h.clear_ge
  have hf := toNat_le_one flag
  simp only [effectiveLimit, firstFree, two_pow_succ_w0]
  omega

theorem effectiveLimit_le (w : Nat) (flag : Bool) : effectiveLimit w flag ≤ 2 ^ w := Nat.sub_le _ _

theorem effectiveLimit_succ (w : Nat) (flag : Bool) (hw : 1 ≤ w) : effectiveLimit w flag + 1 ≤ effectiveLimit (w + 1) flag := by
  have hf := toNat_le_one flag
  have h2 : 2 ≤ 2 ^ w := (Nat.pow_le_pow_right (by decide) hw : 2 ^ 1 ≤ 2 ^ w)
  simp only [effectiveLimit, Nat.pow_succ]
  omega

theorem pow_le_tableSize {w : Nat} (h : w ≤ maxWidth) : 2 ^ w ≤ tableSize :=
  (Nat.pow_le_pow_right (by decide) h : 2 ^ w ≤ 2 ^ 12)

/-! ### The dictionary -/

theorem assignedCodes_first (cfg : Word) : assignedCodes cfg (firstFree cfg) = List.range (clearCode cfg) := by
  simp [assignedCodes]

theorem assignedCodes_succ {cfg : Word} {n : Nat} (h : firstFree cfg ≤ n) :
    assignedCodes cfg (n + 1) = assignedCodes cfg n ++ [n] := by
  have h1 : n + 1 - firstFree cfg = (n - firstFree cfg) + 1 := by omega
  have h2 : firstFree cfg + (n - firstFree cfg) = n := by omega
  simp [assignedCodes, h1, List.range'_concat, h2]

theorem mem_assignedCodes {cfg : Word} {n c : Nat} (h : firstFree cfg ≤ n) :
    c ∈ assignedCodes cfg n ↔ c < clearCode cfg ∨ (firstFree cfg ≤ c ∧ c < n) := by
  simp only [assignedCodes, List.mem_append, List.mem_range, List.mem_range'_1]
  omega

theorem assigned_below {cfg : Word} {t : CodeTable} {n : Nat} (h : firstFree cfg ≤ n)
    (ha : t.map Prod.fst = assignedCodes cfg n) : ∀ e ∈ t, e.1 < n := by
  intro e he
  have hm : e.1 ∈ assignedCodes cfg n := ha ▸ List.mem_map.mpr ⟨e, he, rfl⟩
  rcases (mem_assignedCodes h).mp hm with h1 | h1
  · simp only [firstFree] at h
    omega
  · exact h1.2

/-- The string a key of C_DICT is found under has a code C may write at the current width (10_state.md R32). -/
theorem CompressorSound.code_lt {cfg : Word} {c : Compressor} (h : CompressorSound cfg c) {key : ByteString} {code : Nat}
    (hk : tableCodeOf key c.dict = some code) : code < 2 ^ c.width :=
  Nat.lt_of_lt_of_le (assigned_below h.codes_low h.assigned _ (tableCodeOf_mem hk))
    (h.codes_high.trans (effectiveLimit_le _ _))

/-- The clear gives a sound compressor (43_compressor.md R131). -/
theorem clearedCompressor_sound {cfg : Word} (h : CfgLegal cfg) (c : Compressor) (hr : c.run.length ≤ c.pos) :
    CompressorSound cfg (clearedCompressor cfg c) where
  width_low := by simp [clearedCompressor, h.widen_w0]
  width_high := by have := h.w0_high; simp only [clearedCompressor, h.widen_w0, maxWidth]; omega
  codes_low := Nat.le_refl _
  codes_high := by
    simp only [clearedCompressor, h.widen_w0]
    exact Nat.le_of_lt (h.limit_first _)
  assigned := by simp [clearedCompressor, literalTable_codes, assignedCodes_first]
  distinct := by
    simp only [clearedCompressor, literalTable, List.map_map]
    refine List.Nodup.map_on ?_ List.nodup_range
    intro x hx y hy hxy
    have h256 := h.clear_le
    have hx := List.mem_range.mp hx
    have hy := List.mem_range.mp hy
    have := congrArg (fun l : List Byte => (l.map BitVec.toNat)) hxy
    simp [BitVec.toNat_ofNat] at this
    omega
  literal := fun x hx => tableGet_literalTable hx
  prefixed := fun e he hf => by
    have := (mem_literalTable.mp he).1
    simp only [firstFree] at hf
    omega
  run_counted := hr

/-- The insertion of a new string at the cursor keeps a sound compressor (43_compressor.md R134). -/
theorem cInsert_sound {cfg : Word} {c : Compressor} (h : CompressorSound cfg c) {key : ByteString} {w : Nat}
    (hnew : key ∉ c.dict.map Prod.snd) (hlen : 1 < key.length) (hpre : key.dropLast ∈ c.dict.map Prod.snd)
    (hw : c.width ≤ w) (hw12 : w ≤ maxWidth) (hroom : c.codes + 1 ≤ effectiveLimit w (elOf cfg)) :
    CompressorSound cfg (cInsert key w c) := by
  have happ : tablePut c.codes key c.dict = c.dict ++ [(c.codes, key)] :=
    tablePut_above (assigned_below h.codes_low h.assigned) key
  exact
    { width_low := h.width_low.trans hw
      width_high := hw12
      codes_low := Nat.le_succ_of_le h.codes_low
      codes_high := hroom
      assigned := by
        simp only [cInsert, happ, List.map_append, h.assigned, assignedCodes_succ h.codes_low]
        rfl
      distinct := by
        simp only [cInsert, happ, List.map_append, List.map_cons, List.map_nil]
        refine List.Nodup.append h.distinct (List.nodup_singleton _) ?_
        simpa [List.disjoint_singleton] using hnew
      literal := fun x hx => by
        have hne : x ≠ c.codes := by
          have := h.codes_low
          simp only [firstFree] at this
          omega
        simp only [cInsert]
        rw [tableGet_put_other hne]
        exact h.literal x hx
      prefixed := fun e he hf => by
        simp only [cInsert, happ, List.map_append] at he ⊢
        rcases List.mem_append.mp he with he | he
        · obtain ⟨h1, h2⟩ := h.prefixed e he hf
          exact ⟨h1, List.mem_append.mpr (.inl h2)⟩
        · rw [List.mem_singleton] at he
          subst he
          exact ⟨hlen, List.mem_append.mpr (.inl hpre)⟩
      run_counted := h.run_counted }

/-! ### The procedures -/

/-- C is sound, BW holds at most `most` bits, and the run is a key or empty when `A` holds. -/
structure CodingSound (cfg : Word) (most : Nat) (A : Prop) (s : State) : Prop where
  cfg_eq : s.regs.cfg = cfg
  c : CompressorSound cfg s.c
  bw : CacheSound most s.bw
  keyed : A → s.c.run = [] ∨ s.c.run ∈ s.c.dict.map Prod.snd

/-- How C can raise: `IoError(1, 0)` after a SNK FAIL, `IoError(0, 0)` after a SRC FAIL, or DictionaryLookupFailure, which
needs `A` to fail; C stays sound (43_compressor.md R136, R138, 60_exceptions.md R184). -/
def CodingRaise (cfg : Word) (A : Prop) (s : State) (code : StatusCode) (i0 i1 : Nat) (t : State) : Prop :=
  t.regs.cfg = cfg ∧ CompressorSound cfg t.c ∧ CacheSound 19 t.bw ∧ (7 < t.bw.bits → code = .ioError) ∧
    ((code = .ioError ∧ i0 = 1 ∧ i1 = 0 ∧ SnkFailed s) ∨ (code = .ioError ∧ i0 = 0 ∧ i1 = 0 ∧ SrcFailed s) ∨
      (code = .dictionaryLookupFailure ∧ i0 = t.c.run.length ∧ i1 = t.c.pos ∧ t.c.run ∉ t.c.dict.map Prod.snd ∧ ¬ A))

theorem CodingRaise.earlier {cfg : Word} {A : Prop} {s t u : State} {code : StatusCode} {i0 i1 : Nat}
    (g : StreamsGrow s.io t.io) (h : CodingRaise cfg A t code i0 i1 u) : CodingRaise cfg A s code i0 i1 u := by
  obtain ⟨h1, h2, h3, h4, h5⟩ := h
  refine ⟨h1, h2, h3, h4, ?_⟩
  rcases h5 with ⟨a, b, c, d⟩ | ⟨a, b, c, d⟩ | h5
  · exact .inl ⟨a, b, c, d.earlier g⟩
  · exact .inr (.inl ⟨a, b, c, d.earlier g⟩)
  · exact .inr (.inr h5)

/-- Writing a code at the current width (43_compressor.md R135). -/
theorem cWriteCode_meets {cfg : Word} {A : Prop} (v : Nat) (k : EvtKind) (s : State) (h : CodingSound cfg 7 A s) :
    (cWriteCode v k s).Meets
      (fun _ t => CodingSound cfg 7 A t ∧ t.c = s.c ∧ CompressFrame s t ∧
        t.io.srcPos = s.io.srcPos ∧ t.io.srcReads = s.io.srcReads ∧
        writtenBits t = writtenBits s ++ codeBits (byteOrderOf cfg) s.c.width v)
      (CodingRaise cfg A s) := by
  have hg : StreamsGrow s.io (notify .c k v s.c.width s).io := (notify_only .c k v s.c.width s).grow
  have hw12 : s.c.width ≤ 12 := h.c.width_high
  have hm := (bwWrite_meets v s.c.width hw12 (notify .c k v s.c.width s)
    (by rw [notify_bw]; exact h.bw.mono (by omega))).andAll (bwWrite_writer v s.c.width (notify .c k v s.c.width s))
  refine hm.mono ?_ ?_
  · rintro _ t ⟨⟨h1, -, h3⟩, hf⟩
    have hc : t.c = s.c := hf.c.trans (notify_c _ _ _ _ _)
    refine ⟨⟨hf.regs ▸ (notify_regs .c k v s.c.width s) ▸ h.cfg_eq, hc ▸ h.c, h1, hc ▸ h.keyed⟩, hc,
      CompressFrame.trans _ _ _ (notify_only .c k v s.c.width s).compress hf.compress,
      hf.srcPos.trans (notify_srcPos _ _ _ _ _), hf.srcReads.trans (notify_srcReads _ _ _ _ _), ?_⟩
    rw [h3]
    simp only [writtenBits, notify_regs, notify_bw, notify_snk, h.cfg_eq]
  · rintro c i j t ⟨⟨h1, h2, h3, h4, h5, h6⟩, hf⟩
    have hc : t.c = s.c := hf.c.trans (notify_c _ _ _ _ _)
    refine ⟨hf.regs ▸ (notify_regs .c k v s.c.width s) ▸ h.cfg_eq, hc ▸ h.c, h4, fun _ => h1,
      .inl ⟨h1, h2, h3, h6.earlier hg⟩⟩

/-- The clear keeps the coding sound (43_compressor.md R131). -/
theorem cClearTable_sound {cfg : Word} (hl : CfgLegal cfg) {A : Prop} {most : Nat} {s : State} (hcfg : s.regs.cfg = cfg)
    (hr : s.c.run.length ≤ s.c.pos) (hb : CacheSound most s.bw) (hk : s.c.run = []) :
    CodingSound cfg most A (cClearTable s) where
  cfg_eq := hcfg
  c := by
    simp only [cClearTable, State.setC_c, hcfg]
    exact clearedCompressor_sound hl s.c hr
  bw := hb
  keyed := fun _ => .inl hk

/-- Adding a table entry (43_compressor.md R134). -/
theorem cAddTableEntry_meets {cfg : Word} (hl : CfgLegal cfg) {A : Prop} (key : ByteString) (s : State)
    (h : CodingSound cfg 7 A s) (hnew : key ∉ s.c.dict.map Prod.snd) (hlen : 1 < key.length)
    (hpre : key.dropLast ∈ s.c.dict.map Prod.snd) :
    (cAddTableEntry key s).Meets
      (fun _ t => t.regs.cfg = cfg ∧ CompressorSound cfg t.c ∧ CacheSound 7 t.bw ∧ t.c.run = s.c.run ∧ t.c.pos = s.c.pos ∧
        t.io.srcPos = s.io.srcPos)
      (CodingRaise cfg A s) := by
  unfold cAddTableEntry
  split
  · rename_i hlim
    split
    · rename_i hw
      refine ⟨h.cfg_eq, ?_, h.bw, rfl, rfl, rfl⟩
      have h1 : 1 ≤ s.c.width := by have := h.c.width_low; omega
      refine cInsert_sound h.c hnew hlen hpre (Nat.le_succ _) hw ?_
      rw [hlim, h.cfg_eq]
      exact effectiveLimit_succ _ _ h1
    · refine Res.Meets.bind (cWriteCode_meets (clearCode s.regs.cfg) .clear s h) ?_
      rintro _ t ⟨h1, h2, h3, h4, -, -⟩
      refine ⟨h1.cfg_eq, ?_, h1.bw, by simp [cClearTable, clearedCompressor, h2], by simp [cClearTable, clearedCompressor, h2], h4⟩
      simp only [cClearTable, State.setC_c, h1.cfg_eq]
      exact clearedCompressor_sound hl _ h1.c.run_counted
  · rename_i hlim
    refine ⟨h.cfg_eq, ?_, h.bw, rfl, rfl, rfl⟩
    refine cInsert_sound h.c hnew hlen hpre (Nat.le_refl _) h.c.width_high ?_
    have := h.c.codes_high
    rw [← h.cfg_eq] at this ⊢
    omega

/-- Writing the current run (43_compressor.md R136, R138). -/
theorem cWriteRun_meets {cfg : Word} {A : Prop} (s : State) (h : CodingSound cfg 7 A s)
    (hk : A → s.c.run ∈ s.c.dict.map Prod.snd) :
    (cWriteRun s).Meets
      (fun _ t => CodingSound cfg 7 A t ∧ t.c = s.c ∧ CompressFrame s t ∧ t.io.srcPos = s.io.srcPos ∧
        s.c.run ∈ s.c.dict.map Prod.snd)
      (CodingRaise cfg A s) := by
  unfold cWriteRun
  split
  · rename_i code hcode
    refine (cWriteCode_meets code .data s h).mono ?_ (fun _ _ _ _ => id)
    rintro _ t ⟨h1, h2, h3, h4, -, -⟩
    exact ⟨h1, h2, h3, h4, List.mem_map.mpr ⟨_, tableCodeOf_mem hcode, rfl⟩⟩
  · rename_i hnone
    have hno := (tableCodeOf_eq_none _ _).mp hnone
    exact ⟨h.cfg_eq, h.c, h.bw.mono (by omega), fun h7 => by have := h.bw.bits; omega,
      .inr (.inr ⟨rfl, rfl, rfl, hno, fun ha => hno (hk ha)⟩)⟩

/-- One iteration of SCAN (43_compressor.md R136). -/
theorem cScanByte_meets {cfg : Word} (hl : CfgLegal cfg) {A : Prop} (b : Byte) (s : State) (h : CodingSound cfg 7 A s)
    (hpos : s.c.run.length < s.c.pos) (hb : A → b.toNat < clearCode cfg) :
    (cScanByte b s).Meets (fun _ t => CodingSound cfg 7 A t ∧ t.io.srcPos = s.io.srcPos) (CodingRaise cfg A s) := by
  unfold cScanByte
  have hlit : ∀ {c : Compressor}, CompressorSound cfg c → A → [b] ∈ c.dict.map Prod.snd := fun hc ha => by
    have hm := tableGet_mem (hc.literal b.toNat (hb ha))
    rw [BitVec.ofNat_toNat, BitVec.setWidth_eq] at hm
    exact List.mem_map.mpr ⟨_, hm, rfl⟩
  split
  · rename_i hkey
    have hkey := (tableCodeOf_isSome _ _).mp hkey
    refine ⟨⟨h.cfg_eq, ?_, h.bw, fun _ => .inr hkey⟩, rfl⟩
    have hc := h.c
    exact ⟨hc.width_low, hc.width_high, hc.codes_low, hc.codes_high, hc.assigned, hc.distinct, hc.literal, hc.prefixed,
      by simp only [State.setC_c, List.length_append, List.length_singleton]; omega⟩
  · rename_i hkey
    have hkey : s.c.run ++ [b] ∉ s.c.dict.map Prod.snd := fun hm => hkey ((tableCodeOf_isSome _ _).mpr hm)
    have hrun : A → s.c.run ∈ s.c.dict.map Prod.snd := fun ha => by
      rcases h.keyed ha with h0 | h0
      · exact absurd (hlit h.c ha) (by simpa [h0] using hkey)
      · exact h0
    refine Res.Meets.bind (cWriteRun_meets s h hrun) ?_
    rintro _ t ⟨h1, h2, h3, h4, h5⟩
    have hne : s.c.run ≠ [] := by
      intro h0
      rw [h0] at h5
      obtain ⟨e, he, hnil⟩ := List.mem_map.mp h5
      have hcode : e.1 ∈ assignedCodes cfg s.c.codes := h.c.assigned ▸ List.mem_map.mpr ⟨e, he, rfl⟩
      rcases (mem_assignedCodes h.c.codes_low).mp hcode with hlt | hge
      · have hg := h.c.literal e.1 hlt
        have hpw := (codesRising_iff s.c.dict).mpr (by
          rw [h.c.assigned]
          simp only [assignedCodes]
          refine List.pairwise_append.mpr ⟨List.pairwise_lt_range, List.pairwise_lt_range', ?_⟩
          intro x hx y hy
          have := List.mem_range.mp hx
          have := (List.mem_range'_1.mp hy).1
          simp only [firstFree] at this
          omega)
        have hm := tableGet_mem hg
        have hinj := List.inj_on_of_nodup_map (f := Prod.fst) (l := s.c.dict)
          (((codesRising_iff _).mp hpw).imp fun hxy => Nat.ne_of_lt hxy) he hm rfl
        rw [hinj] at hnil
        simp at hnil
      · have := (h.c.prefixed e he hge.1).1
        rw [hnil] at this
        simp at this
    have hlen : 1 < (s.c.run ++ [b]).length := by
      have := List.length_pos_iff.mpr hne
      simp only [List.length_append, List.length_singleton]
      omega
    refine Res.Meets.bind ((cAddTableEntry_meets hl (s.c.run ++ [b]) t h1 (h2 ▸ hkey) hlen
      (by simpa [h2] using h5)).mono (fun _ _ => id) fun _ _ _ _ hr => hr.earlier h3.grow) ?_
    rintro _ u ⟨g1, g2, g3, g4, g5, g6⟩
    have hkeyed : A → [b] ∈ u.c.dict.map Prod.snd := hlit g2
    refine ⟨⟨g1, ?_, g3, fun ha => .inr (hkeyed ha)⟩, g6.trans h4⟩
    refine ⟨g2.width_low, g2.width_high, g2.codes_low, g2.codes_high, g2.assigned, g2.distinct, g2.literal, g2.prefixed, ?_⟩
    simp only [State.setC_c, List.length_singleton, g5, h2]
    omega

/-- SCAN (43_compressor.md R136): it ends at END with C sound. -/
theorem cScan_meets {cfg : Word} (hl : CfgLegal cfg) {A : Prop} (fuel : Nat) (s : State) (h : CodingSound cfg 7 A s)
    (hf : s.io.src.length - s.io.srcPos ≤ fuel) (hb : A → ∀ b ∈ unreadBytes s, b.toNat < clearCode cfg) :
    (cScan fuel s).Meets (fun _ t => CodingSound cfg 7 A t ∧ unreadBytes t = []) (CodingRaise cfg A s) := by
  induction fuel generalizing s with
  | zero =>
    unfold cScan
    rcases memRead_cases s with ⟨b, -, hb, hr⟩ | ⟨-, he, hr⟩ | ⟨hfail, hr⟩ <;> rw [hr]
    · have := (List.getElem?_eq_some_iff.mp hb).1
      omega
    · exact ⟨⟨h.cfg_eq, h.c, h.bw, h.keyed⟩, unreadBytes_of_end he⟩
    · exact ⟨h.cfg_eq, h.c, h.bw.mono (by omega), fun h7 => by have := h.bw.bits; simp only [State.setIo_bw] at h7; omega,
        .inr (.inl ⟨rfl, rfl, rfl, _, Nat.le_refl _, hfail⟩)⟩
  | succ k ih =>
    unfold cScan
    rcases memRead_cases s with ⟨b, -, hb', hr⟩ | ⟨-, he, hr⟩ | ⟨hfail, hr⟩ <;> rw [hr]
    · have hun := unreadBits_of_take hb'
      simp only [Res.bind_ok]
      have h0 : CodingSound cfg 7 A ((s.setIo { s.io with srcPos := s.io.srcPos + 1, srcReads := s.io.srcReads + 1 }).setC
          { s.c with pos := s.c.pos + 1 }) := by
        have hc := h.c
        exact ⟨h.cfg_eq, ⟨hc.width_low, hc.width_high, hc.codes_low, hc.codes_high, hc.assigned, hc.distinct, hc.literal,
          hc.prefixed, Nat.le_succ_of_le hc.run_counted⟩, h.bw, h.keyed⟩
      have hg0 : StreamsGrow s.io ((s.setIo { s.io with srcPos := s.io.srcPos + 1, srcReads := s.io.srcReads + 1 }).setC
          { s.c with pos := s.c.pos + 1 }).io := by
        have ho := memRead_only s
        rw [hr] at ho
        have hg : StreamsGrow s.io { s.io with srcPos := s.io.srcPos + 1, srcReads := s.io.srcReads + 1 } :=
          OnlyStreams.grow ho
        exact hg
      have hstep := (cScanByte_meets hl b _ h0 (Nat.lt_succ_of_le h.c.run_counted)
        fun ha => hb ha b (by rw [hun]; simp)).andAll (cScanByte_compress b _)
      refine Res.Meets.bind (hstep.mono (fun _ _ => id) fun _ _ _ _ hr' => hr'.1.earlier hg0) ?_
      rintro _ u ⟨⟨g1, g2⟩, g3⟩
      have hsrc : u.io.src = s.io.src := g3.grow.src.trans hg0.src
      have hsp : u.io.srcPos = s.io.srcPos + 1 := g2
      refine (ih u g1 ?_ ?_).mono (fun _ _ => id) fun _ _ _ _ hr' => hr'.earlier (hg0.trans g3.grow)
      · rw [hsrc, hsp]
        omega
      · intro ha x hx
        refine hb ha x ?_
        rw [hun]
        rw [unreadBytes, hsrc, hsp] at hx
        exact List.mem_cons_of_mem _ hx
    · exact ⟨⟨h.cfg_eq, h.c, h.bw, h.keyed⟩, unreadBytes_of_end he⟩
    · exact ⟨h.cfg_eq, h.c, h.bw.mono (by omega), fun h7 => by have := h.bw.bits; simp only [State.setIo_bw] at h7; omega,
        .inr (.inl ⟨rfl, rfl, rfl, _, Nat.le_refl _, hfail⟩)⟩

/-- FINISH (43_compressor.md R136): BW is empty afterwards (R140). -/
theorem cFinish_meets {cfg : Word} {A : Prop} (s : State) (h : CodingSound cfg 7 A s) :
    (cFinish s).Meets
      (fun _ t => t.regs.cfg = cfg ∧ CompressorSound cfg t.c ∧ t.bw.cache = 0 ∧ t.bw.bits = 0 ∧ t.io.srcPos = s.io.srcPos ∧
        (A → t.c.run = [] ∨ t.c.run ∈ t.c.dict.map Prod.snd) ∧ (s.c.run = [] ∨ s.c.run ∈ s.c.dict.map Prod.snd) ∧ t.c = s.c)
      (CodingRaise cfg A s) := by
  have hstart : (if s.c.run = [] then Res.ok () s else cWriteRun s).Meets
      (fun _ t => CodingSound cfg 7 A t ∧ t.c = s.c ∧ CompressFrame s t ∧ t.io.srcPos = s.io.srcPos ∧
        (s.c.run = [] ∨ s.c.run ∈ s.c.dict.map Prod.snd)) (CodingRaise cfg A s) := by
    split
    · rename_i h0
      exact ⟨h, rfl, .refl s, rfl, .inl h0⟩
    · rename_i h0
      refine (cWriteRun_meets s h fun ha => (h.keyed ha).resolve_left h0).mono ?_ (fun _ _ _ _ => id)
      rintro _ t ⟨h1, h2, h3, h4, h5⟩
      exact ⟨h1, h2, h3, h4, .inr h5⟩
  refine Res.Meets.bind hstart ?_
  rintro _ t ⟨h1, h2, h3, h4, h5⟩
  refine Res.Meets.bind ((cWriteCode_meets (eoiCode t.regs.cfg) .eoi t h1).mono (fun _ _ => id)
    fun _ _ _ _ hr => hr.earlier h3.grow) ?_
  rintro _ u ⟨g1, g2, g3, g4, -, -⟩
  refine ((bwFlush_meets u (g1.bw.mono (by omega))).andAll (bwFlush_writer u)).mono ?_ ?_
  · rintro _ v ⟨⟨k1, k2, -⟩, kf⟩
    exact ⟨kf.regs ▸ g1.cfg_eq, kf.c ▸ g1.c, k1, k2, kf.srcPos.trans (g4.trans h4), kf.c ▸ g1.keyed, h5,
      kf.c.trans (g2.trans h2)⟩
  · rintro c i j v ⟨⟨k1, k2, k3, k4, k5⟩, kf⟩
    exact ⟨kf.regs ▸ g1.cfg_eq, kf.c ▸ g1.c, k4, fun _ => k1, .inl ⟨k1, k2, k3, k5.earlier (h3.grow.trans g3.grow)⟩⟩

/-- `compress()` from a fresh session (43_compressor.md R136, R137): it consumes SRC to END and leaves BW empty, or raises as
R136 says; with no input byte at or above CLEAR no lookup fails (R138). -/
theorem compressAll_meets {cfg : Word} (hl : CfgLegal cfg) {A : Prop} (s : State) (hcfg : s.regs.cfg = cfg)
    (hrun : s.c.run = []) (hbw : CacheSound 7 s.bw) (hb : A → ∀ b ∈ unreadBytes s, b.toNat < clearCode cfg) :
    (compressAll s).Meets
      (fun _ t => t.regs.cfg = cfg ∧ CompressorSound cfg t.c ∧ t.bw.cache = 0 ∧ t.bw.bits = 0 ∧ unreadBytes t = [])
      (CodingRaise cfg A s) := by
  have h0 : CodingSound cfg 7 A (cClearTable s) :=
    cClearTable_sound hl hcfg (by simp [hrun]) hbw hrun
  refine Res.Meets.bind (cWriteCode_meets (A := A) _ .clear _ h0) ?_
  rintro _ t ⟨h1, -, h3, h4, -, -⟩
  have hsrc : t.io.src = s.io.src := h3.grow.src
  have hun : unreadBytes t = unreadBytes s := by rw [unreadBytes, hsrc, h4]; rfl
  have hscan := (cScan_meets hl _ t h1 (Nat.le_refl _) (fun ha x hx => hb ha x (hun ▸ hx))).andAll
    (cScan_compress _ t)
  refine Res.Meets.bind (hscan.mono (fun _ _ => id) fun _ _ _ _ hr => hr.1.earlier h3.grow) ?_
  rintro _ u ⟨⟨g1, g2⟩, g3⟩
  refine ((cFinish_meets u g1).andAll (cFinish_compress u)).mono ?_ ?_
  · rintro _ v ⟨⟨k1, k2, k3, k4, k5, -, -, -⟩, kf⟩
    refine ⟨k1, k2, k3, k4, ?_⟩
    rw [unreadBytes, kf.grow.src, k5]
    exact g2
  · rintro c i j v ⟨hr, -⟩
    exact hr.earlier (h3.grow.trans g3.grow)

end Sys2Proof.Machine
end

