-- ==== Sys2Proof/Laws/Decompressor.lean ====
section
/-! SUPPORT. What D's procedures can do (44_decompressor.md R150 to R158): they keep 10_state.md R33, never fault, read no
absent entry, and stay within the bound of 70_reset_and_hazards.md R211. -/

namespace Sys2Proof.Machine

/-- The count of written bytes plays no part in R33. -/
theorem DecompressorSound.written {cfg : Word} {d : Decompressor} (h : DecompressorSound cfg d) (n : Nat) :
    DecompressorSound cfg { d with written := n } :=
  ⟨h.width_low, h.width_high, h.codes_low, h.codes_high, h.codes_width, h.grown, h.assigned, h.literal, h.entry, h.old⟩

/-- Neither does `D_OLD`, beyond its own range. -/
theorem DecompressorSound.withOld {cfg : Word} {d : Decompressor} (h : DecompressorSound cfg d) {o : Option Nat}
    (ho : ∀ c, o = some c → c < tableSize ∧ c ≠ clearCode cfg ∧ c ≠ eoiCode cfg) :
    DecompressorSound cfg { d with old := o } :=
  ⟨h.width_low, h.width_high, h.codes_low, h.codes_high, h.codes_width, h.grown, h.assigned, h.literal, h.entry, ho⟩

/-- The clear gives a sound decompressor (44_decompressor.md R151). -/
theorem clearedDecompressor_sound {cfg : Word} (h : CfgLegal cfg) (d : Decompressor)
    (ho : ∀ c, d.old = some c → c < tableSize ∧ c ≠ clearCode cfg ∧ c ≠ eoiCode cfg) :
    DecompressorSound cfg (clearedDecompressor cfg d) where
  width_low := by simp [clearedDecompressor, h.widen_w0]
  width_high := by have := h.w0_high; simp only [clearedDecompressor, h.widen_w0, maxWidth]; omega
  codes_low := Nat.le_refl _
  codes_high := by have := h.clear_le; simp only [clearedDecompressor, firstFree, tableSize]; omega
  codes_width := by
    simp only [clearedDecompressor, h.widen_w0]
    exact (Nat.le_of_lt (h.limit_first false)).trans (effectiveLimit_le _ _)
  grown := fun _ => by
    simp only [clearedDecompressor, h.widen_w0]
    exact h.limit_first _
  assigned := by simp [clearedDecompressor, literalTable_codes, assignedCodes_first]
  literal := fun x hx => tableGet_literalTable hx
  entry := fun e he => by
    obtain ⟨h1, h2⟩ := mem_literalTable.mp he
    refine ⟨by simp [h2], fun hf => ?_⟩
    simp only [firstFree] at hf
    omega
  old := ho

/-- Growing the table keeps a sound decompressor (44_decompressor.md R155). -/
theorem dGrow_sound {cfg : Word} {d : Decompressor} (h : DecompressorSound cfg d) {str : ByteString} (hne : str ≠ [])
    (hlen : str.length ≤ d.codes - clearCode cfg) (hroom : d.codes < tableSize) :
    DecompressorSound cfg (dGrow (tmOf cfg) str d) := by
  have happ : tablePut d.codes str d.table = d.table ++ [(d.codes, str)] :=
    tablePut_above (assigned_below h.codes_low h.assigned) str
  have hw1 : 1 ≤ d.width := by have := h.width_low; omega
  have hwide := effectiveLimit_succ d.width (tmOf cfg) hw1
  exact
    { width_low := by
        simp only [dGrow]
        have := h.width_low
        split <;> omega
      width_high := by
        simp only [dGrow]
        have := h.width_high
        split
        · rename_i hg
          exact hg.2
        · exact this
      codes_low := Nat.le_succ_of_le h.codes_low
      codes_high := hroom
      codes_width := by
        simp only [dGrow]
        split
        · rename_i hg
          rw [hg.1]
          exact (Nat.le_succ _).trans (hwide.trans (effectiveLimit_le _ _))
        · by_cases hw : d.width < maxWidth
          · exact (Nat.succ_le_of_lt (h.grown hw)).trans (effectiveLimit_le _ _)
          · have : d.width = 12 := Nat.le_antisymm h.width_high (Nat.not_lt.mp hw)
            rw [this]
            exact hroom
      grown := by
        simp only [dGrow]
        split
        · rename_i hg
          intro _
          rw [hg.1]
          exact hwide
        · rename_i hg
          intro hw
          have := h.grown hw
          simp only [not_and] at hg
          have : d.codes + 1 ≠ effectiveLimit d.width (tmOf cfg) := fun he => hg he hw
          omega
      assigned := by
        simp only [dGrow, happ, List.map_append, h.assigned, assignedCodes_succ h.codes_low]
        rfl
      literal := fun x hx => by
        have hx' : x ≠ d.codes := by
          have := h.codes_low
          simp only [firstFree] at this
          omega
        simp only [dGrow]
        rw [tableGet_put_other hx']
        exact h.literal x hx
      entry := fun e he => by
        simp only [dGrow, happ] at he
        rcases List.mem_append.mp he with he | he
        · exact h.entry e he
        · rw [List.mem_singleton] at he
          subst he
          exact ⟨hne, fun _ => hlen⟩
      old := h.old }

/-- A code that the table has an entry for. -/
def Known (cfg : Word) (codes c : Nat) : Prop := c < clearCode cfg ∨ (firstFree cfg ≤ c ∧ c < codes)

/-- A known code's entry is there and not empty, and its length is bounded (10_state.md R33). -/
theorem DecompressorSound.known {cfg : Word} {d : Decompressor} (h : DecompressorSound cfg d) {c : Nat}
    (hc : Known cfg d.codes c) :
    ∃ b rest, tableGet c d.table = some (b :: rest) ∧ (b :: rest).length + 1 ≤ d.codes - clearCode cfg := by
  have hlow := h.codes_low
  simp only [firstFree] at hlow
  rcases hc with hc | hc
  · exact ⟨_, [], h.literal c hc, by simp only [List.length_singleton]; omega⟩
  · obtain ⟨v, hv⟩ := tableGet_of_code (c := c) (t := d.table)
      (by rw [h.assigned]; exact (mem_assignedCodes h.codes_low).mpr (.inr hc))
    obtain ⟨h1, h2⟩ := h.entry _ (tableGet_mem hv)
    cases v with
    | nil => exact absurd rfl h1
    | cons b rest =>
      refine ⟨b, rest, hv, ?_⟩
      have := h2 hc.1
      simp only [firstFree] at hc
      simp only at this
      omega

theorem dEntry_known {cfg : Word} {s : State} (h : DecompressorSound cfg s.d) {c : Nat} (hc : Known cfg s.d.codes c) :
    ∃ b rest, dEntry c s = .ok (b :: rest) s ∧ (b :: rest).length + 1 ≤ s.d.codes - clearCode cfg := by
  obtain ⟨b, rest, h1, h2⟩ := h.known hc
  exact ⟨b, rest, by simp [dEntry, h1], h2⟩

/-- What `d_emit` can do (44_decompressor.md R158): the whole string is appended and counted, or a SNK FAIL raises
`IoError(1, 0)` with the accepted bytes counted. -/
theorem dEmit_meets (str : ByteString) (s : State) :
    (dEmit str s).Meets
      (fun _ t => t.io.snk = s.io.snk ++ str ∧ t.d = { s.d with written := s.d.written + str.length } ∧ t.br = s.br ∧
        t.io.srcPos = s.io.srcPos ∧ t.io.evt = s.io.evt)
      (fun c i j t => c = .ioError ∧ i = 1 ∧ j = 0 ∧ (∃ n, n < str.length ∧ t.io.snk = s.io.snk ++ str.take n ∧
        t.d = { s.d with written := s.d.written + n }) ∧ t.br = s.br ∧ SnkFailed s) := by
  induction str generalizing s with
  | nil => exact ⟨by simp, rfl, rfl, rfl, rfl⟩
  | cons b rest ih =>
    simp only [dEmit]
    rcases memWrite_cases b s with ⟨-, hr⟩ | ⟨hfail, hr⟩ <;> rw [hr]
    · refine (ih _).mono ?_ ?_
      · rintro _ t ⟨h1, h2, h3, h4, h5⟩
        refine ⟨by simpa using h1, ?_, h3, h4, h5⟩
        rw [h2]
        simp [Nat.add_assoc, Nat.add_comm 1]
      · rintro c i j t ⟨h1, h2, h3, ⟨n, h4, h5, h6⟩, h7, k, hk, hfk⟩
        refine ⟨h1, h2, h3, ⟨n + 1, Nat.succ_lt_succ h4, by simpa using h5, ?_⟩, h7, k, Nat.le_of_succ_le hk, hfk⟩
        rw [h6]
        simp [Nat.add_assoc, Nat.add_comm 1]
    · exact ⟨rfl, rfl, rfl, ⟨0, by simp, by simp, rfl⟩, rfl, _, Nat.le_refl _, hfail⟩

/-- D is sound at a label: at CODE a held `D_OLD` is a known code, at POSTCLEAR the table is cleared. -/
structure DecodingSound (cfg : Word) (label : DLabel) (s : State) : Prop where
  cfg_eq : s.regs.cfg = cfg
  d : DecompressorSound cfg s.d
  br : CacheSound 11 s.br
  old : label = .code → ∀ c, s.d.old = some c → Known cfg s.d.codes c

/-- How D can raise (44_decompressor.md R157): D and BR stay sound, nothing is rolled back (60_exceptions.md R184). -/
def DecodingRaise (cfg : Word) (s : State) (code : StatusCode) (i0 i1 : Nat) (t : State) : Prop :=
  t.regs.cfg = cfg ∧ DecompressorSound cfg t.d ∧ CacheSound 11 t.br ∧
    ((code = .ioError ∧ i0 = 1 ∧ i1 = 0 ∧ SnkFailed s) ∨ (code = .ioError ∧ i0 = 0 ∧ i1 = 0 ∧ SrcFailed s) ∨
      (code = .prematureEndOfData ∧ tmOf cfg = false ∧ i1 = t.br.bits) ∨
      (code = .corruptStreamCode ∧ i1 = t.d.codes) ∨ (code = .tableOverflow ∧ i0 = tableSize ∧ t.d.codes = tableSize))

theorem DecodingRaise.earlier {cfg : Word} {s t u : State} {code : StatusCode} {i0 i1 : Nat} (g : StreamsGrow s.io t.io)
    (h : DecodingRaise cfg t code i0 i1 u) : DecodingRaise cfg s code i0 i1 u := by
  obtain ⟨h1, h2, h3, h4⟩ := h
  refine ⟨h1, h2, h3, ?_⟩
  rcases h4 with ⟨a, b, c, d⟩ | ⟨a, b, c, d⟩ | h4
  · exact .inl ⟨a, b, c, d.earlier g⟩
  · exact .inr (.inl ⟨a, b, c, d.earlier g⟩)
  · exact .inr (.inr h4)

theorem sentinel_is_eoi {cfg : Word} (hl : CfgLegal cfg) (h : tmOf cfg = true) : tiffSentinel = eoiCode cfg := by
  simp [eoiCode, clearCode, hl.tiff h, tiffSentinel]

/-- What `d_next_code` can do (44_decompressor.md R156): a code of the current width, or the sentinel, which is EOI. -/
theorem dNextCode_meets {cfg : Word} (hl : CfgLegal cfg) {label : DLabel} (s : State) (h : DecodingSound cfg label s) :
    (dNextCode s).Meets
      (fun code t => DecodingSound cfg label t ∧ t.d = s.d ∧ t.io.snk = s.io.snk ∧ StreamsGrow s.io t.io ∧
        ((code < tableSize ∧ (unreadBits t).length < (unreadBits s).length) ∨ code = eoiCode cfg))
      (DecodingRaise cfg s) := by
  have hw : s.d.width ≤ 12 := h.d.width_high
  have hw1 : 1 ≤ s.d.width := by have := h.d.width_low; omega
  refine Res.Meets.bind (((brRead_meets s.d.width s hw h.br).andAll (brRead_reader _ s)).mono (fun _ _ => id) ?_) ?_
  · rintro c i j t ⟨⟨h1, h2, h3⟩, hf⟩
    refine ⟨hf.regs ▸ h.cfg_eq, hf.d ▸ h.d, h1, ?_⟩
    rcases h3 with ⟨a, b, c, d, -⟩ | ⟨a, b, c, d⟩
    · exact .inr (.inr (.inl ⟨a, h.cfg_eq ▸ d, c⟩))
    · exact .inr (.inl ⟨a, b, c, d⟩)
  · rintro ⟨v, kind⟩ t ⟨⟨h1, h2⟩, hf⟩
    refine ⟨⟨?_, ?_, ?_, ?_⟩, ?_, ?_, ?_, ?_⟩
    · rw [notify_regs, hf.regs]
      exact h.cfg_eq
    · rw [notify_d, hf.d]
      exact h.d
    · rw [notify_br]
      exact h1
    · rw [notify_d, hf.d]
      exact h.old
    · rw [notify_d, hf.d]
    · rw [notify_snk, hf.snk]
    · exact hf.grow.trans (notify_only _ _ _ _ t).grow
    · rcases h2 with ⟨-, hv, hb⟩ | ⟨he, htm, -, -⟩
      · refine .inl ⟨Nat.lt_of_lt_of_le hv (pow_le_tableSize hw), ?_⟩
        have hlen := congrArg List.length hb
        simp only [List.length_append, codeBits_length] at hlen
        have : (unreadBits (notify .d (readEvtKind kind) v t.d.width t)).length = (unreadBits t).length := by
          simp [unreadBits, unreadBytes]
        simp only at this ⊢
        omega
      · cases he
        exact .inr (sentinel_is_eoi hl (h.cfg_eq ▸ htm))

theorem known_ne_reserved {cfg : Word} {codes c : Nat} (h : Known cfg codes c) (hc : codes ≤ tableSize)
    (hl : CfgLegal cfg) : c < tableSize ∧ c ≠ clearCode cfg ∧ c ≠ eoiCode cfg := by
  have h256 := hl.clear_le
  have ht : tableSize = 4096 := rfl
  rcases h with h | h
  · refine ⟨by omega, by omega, by simp only [eoiCode]; omega⟩
  · simp only [firstFree] at h
    refine ⟨by omega, by omega, by simp only [eoiCode]; omega⟩

/-- The end of a data code: append the entry, then `D_OLD <- code` (44_decompressor.md R153 to R155). -/
theorem dAppend_setOld_meets {cfg : Word} (hl : CfgLegal cfg) (str : ByteString) (code : Nat) (s : State)
    (h : DecodingSound cfg .code s) (hne : str ≠ []) (hlen : str.length ≤ s.d.codes - clearCode cfg)
    (hcode : Known cfg (s.d.codes + 1) code) :
    ((dAppend str code s).bind fun _ t => Res.ok () (dSetOld code t)).Meets
      (fun _ t => DecodingSound cfg .code t ∧ unreadBits t = unreadBits s ∧ StreamsGrow s.io t.io) (DecodingRaise cfg s) := by
  unfold dAppend
  split
  · rename_i hfull
    have heq : s.d.codes = tableSize := Nat.le_antisymm h.d.codes_high hfull
    exact ⟨h.cfg_eq, h.d, h.br, .inr (.inr (.inr (.inr ⟨rfl, heq, heq⟩)))⟩
  · rename_i hroom
    have hg := dGrow_sound h.d hne hlen (Nat.not_le.mp hroom)
    rw [h.cfg_eq]
    refine ⟨⟨h.cfg_eq, ?_, h.br, ?_⟩, rfl, .refl _⟩
    · refine hg.withOld fun c hc => ?_
      cases hc
      exact known_ne_reserved hcode hg.codes_high hl
    · rintro - c hc
      cases hc
      exact hcode

/-- A data code at a label (44_decompressor.md R150, R152 to R154). -/
theorem dDataCode_meets {cfg : Word} (hl : CfgLegal cfg) (label : DLabel) (code : Nat) (s : State)
    (h : DecodingSound cfg label s) (hclear : code ≠ clearCode cfg) (heoi : code ≠ eoiCode cfg) :
    (dDataCode label code s).Meets
      (fun _ t => DecodingSound cfg .code t ∧ unreadBits t = unreadBits s ∧ StreamsGrow s.io t.io) (DecodingRaise cfg s) := by
  have hemit : ∀ (l : DLabel) (str : ByteString) (t : State), DecodingSound cfg l t → StreamsGrow s.io t.io →
      (dEmit str t).Meets
        (fun _ u => DecodingSound cfg l u ∧ unreadBits u = unreadBits t ∧ StreamsGrow t.io u.io ∧ u.d.codes = t.d.codes ∧
          u.d.table = t.d.table)
        (DecodingRaise cfg s) := by
    intro l str t ht hg
    refine ((dEmit_meets str t).andAll (dEmit_decompress str t)).mono ?_ ?_
    · rintro _ u ⟨⟨-, h2, h3, h4, -⟩, hf⟩
      refine ⟨⟨hf.regs ▸ ht.cfg_eq, ?_, h3 ▸ ht.br, ?_⟩, ?_, hf.grow, by rw [h2], by rw [h2]⟩
      · rw [h2]
        exact ht.d.written _
      · rw [h2]
        exact ht.old
      · simp only [unreadBits, unreadBytes, hf.regs, h3, h4, hf.grow.src]
    · rintro c i j u ⟨⟨h1, h2, h3, ⟨n, -, -, h6⟩, h7, h8⟩, hf⟩
      refine ⟨hf.regs ▸ ht.cfg_eq, ?_, h7 ▸ ht.br, .inl ⟨h1, h2, h3, h8.earlier hg⟩⟩
      rw [h6]
      exact ht.d.written _
  cases label with
  | postClear =>
    simp only [dDataCode, dPostClearCode]
    split
    · exact ⟨h.cfg_eq, h.d, h.br, .inr (.inr (.inr (.inl ⟨rfl, rfl⟩)))⟩
    · rename_i hlit
      rw [h.cfg_eq, Nat.not_le] at hlit
      obtain ⟨b, rest, hent, -⟩ := dEntry_known h.d (.inl hlit : Known cfg s.d.codes code)
      rw [hent, Res.bind_ok]
      refine Res.Meets.bind (hemit .postClear (b :: rest) s h (.refl _)) ?_
      rintro _ t ⟨h1, h2, h3, h4, -⟩
      refine ⟨⟨h1.cfg_eq, ?_, h1.br, ?_⟩, h2, h3⟩
      · refine h1.d.withOld fun c hc => ?_
        cases hc
        exact known_ne_reserved (.inl hlit : Known cfg t.d.codes code) h1.d.codes_high hl
      · rintro - c hc
        cases hc
        exact .inl hlit
  | code =>
    simp only [dDataCode, dSteadyCode]
    split
    · exact ⟨h.cfg_eq, h.d, h.br, .inr (.inr (.inr (.inl ⟨rfl, rfl⟩)))⟩
    · rename_i old hold
      have hko := h.old rfl old hold
      obtain ⟨ob, orest, hoent, holen⟩ := dEntry_known h.d hko
      split
      · rename_i hlt
        have hkc : Known cfg s.d.codes code := by
          simp only [eoiCode] at heoi
          by_cases hc : code < clearCode cfg
          · exact .inl hc
          · exact .inr ⟨by simp only [firstFree]; omega, hlt⟩
        obtain ⟨cb, crest, hcent, -⟩ := dEntry_known h.d hkc
        simp only [dKnown]
        rw [hcent, Res.bind_ok]
        refine Res.Meets.bind (hemit .code (cb :: crest) s h (.refl _)) ?_
        rintro _ t ⟨h1, h2, h3, h4, h5⟩
        have hoent' : dEntry old t = .ok (ob :: orest) t := by
          simp only [dEntry] at hoent ⊢
          rw [h5]
          cases hg : tableGet old s.d.table with
          | none => rw [hg] at hoent; cases hoent
          | some v =>
            rw [hg] at hoent
            cases v with
            | nil => cases hoent
            | cons x y =>
              simp only [Res.ok.injEq, and_true] at hoent
              simp only [hoent]
        rw [hoent', Res.bind_ok]
        refine (dAppend_setOld_meets hl _ code t h1 (by simp [withFirstOf]) ?_ ?_).mono ?_
          (fun _ _ _ _ hr => hr.earlier h3)
        · rw [h4]
          simpa [withFirstOf] using holen
        · rw [h4]
          exact hkc.imp id fun hc => ⟨hc.1, Nat.lt_succ_of_lt hc.2⟩
        · rintro _ u ⟨g1, g2, g3⟩
          exact ⟨g1, g2.trans h2, h3.trans g3⟩
      · split
        · rename_i hge heq
          simp only [dKwKwK]
          rw [hoent, Res.bind_ok]
          refine Res.Meets.bind (hemit .code _ s h (.refl _)) ?_
          rintro _ t ⟨h1, h2, h3, h4, -⟩
          refine (dAppend_setOld_meets hl _ code t h1 (by simp [withFirstOf]) ?_ ?_).mono ?_
            (fun _ _ _ _ hr => hr.earlier h3)
          · rw [h4]
            simpa [withFirstOf] using holen
          · rw [h4]
            exact .inr ⟨heq ▸ h.d.codes_low, by omega⟩
          · rintro _ u ⟨g1, g2, g3⟩
            exact ⟨g1, g2.trans h2, h3.trans g3⟩
        · exact ⟨h.cfg_eq, h.d, h.br, .inr (.inr (.inr (.inl ⟨rfl, rfl⟩)))⟩

/-- The loops CODE and POSTCLEAR (44_decompressor.md R150), within the bound of 70_reset_and_hazards.md R211. -/
theorem dLoop_meets {cfg : Word} (hl : CfgLegal cfg) (limit fuel : Nat) (label : DLabel) (s : State)
    (h : DecodingSound cfg label s) (hf : (unreadBits s).length < fuel) :
    (dLoop limit fuel label s).Meets
      (fun _ t => t.regs.cfg = cfg ∧ DecompressorSound cfg t.d ∧ CacheSound 11 t.br) (DecodingRaise cfg s) := by
  induction fuel generalizing label s with
  | zero => omega
  | succ k ih =>
    simp only [dLoop]
    refine Res.Meets.bind (dNextCode_meets hl s h) ?_
    rintro code t ⟨h1, h2, -, hg, h3⟩
    rw [h1.cfg_eq]
    split
    · exact ⟨h1.cfg_eq, h1.d, h1.br⟩
    · rename_i heoi
      have hlen := (h3.resolve_right heoi).2
      split
      · have hclr : DecompressorSound cfg (dClearTable t).d := by
          simp only [dClearTable, State.setD_d, h1.cfg_eq]
          exact clearedDecompressor_sound hl _ h1.d.old
        split
        · exact ⟨h1.cfg_eq, hclr, h1.br⟩
        · refine (ih .postClear (dClearTable t) ⟨h1.cfg_eq, hclr, h1.br, fun hc => by cases hc⟩ ?_).mono (fun _ _ => id)
            fun _ _ _ _ hr => hr.earlier hg
          have : (unreadBits (dClearTable t)).length = (unreadBits t).length := rfl
          omega
      · rename_i hclear
        refine Res.Meets.bind ((dDataCode_meets hl label code t h1 hclear heoi).mono (fun _ _ => id)
          fun _ _ _ _ hr => hr.earlier hg) ?_
        rintro _ u ⟨g1, g2, g3⟩
        split
        · exact ⟨g1.cfg_eq, g1.d, g1.br⟩
        · refine (ih .code u g1 ?_).mono (fun _ _ => id) fun _ _ _ _ hr => hr.earlier (hg.trans g3)
          rw [g2]
          omega

/-- `decompress(L)` from a fresh session (44_decompressor.md R150, R157): it never faults and keeps D and BR sound. -/
theorem decompressAll_meets {cfg : Word} (hl : CfgLegal cfg) (limit : Nat) (s : State) (hcfg : s.regs.cfg = cfg)
    (hold : s.d.old = none) (hbr : CacheSound 11 s.br) :
    (decompressAll limit s).Meets
      (fun _ t => t.regs.cfg = cfg ∧ DecompressorSound cfg t.d ∧ CacheSound 11 t.br) (DecodingRaise cfg s) := by
  refine dLoop_meets hl limit (dMaxReads s) .code (dClearTable s) ⟨hcfg, ?_, hbr, ?_⟩ ?_
  · simp only [dClearTable, State.setD_d, hcfg]
    exact clearedDecompressor_sound hl _ (by simp [hold])
  · intro _ c hc
    simp [dClearTable, clearedDecompressor, hold] at hc
  · simp [unreadBits, unreadBytes, dClearTable, pendingBits, dMaxReads]

end Sys2Proof.Machine
end

