-- ==== Sys2Proof/Laws/Commands.lean ====
section
/-! SUPPORT. The end of a command and its first check (60_exceptions.md R181, R182), said once: what a raise and a return
write, and how a guarantee of a command's pseudocode becomes one of its end. -/

namespace Sys2Proof.Machine

/-! ### A raise and a return write four registers and nothing else (60_exceptions.md R181, R184) -/

@[simp] theorem takeRaise_bw (b : Bool) (c : StatusCode) (i j : Nat) (s : State) : (takeRaise b c i j s).bw = s.bw := rfl
@[simp] theorem takeRaise_br (b : Bool) (c : StatusCode) (i j : Nat) (s : State) : (takeRaise b c i j s).br = s.br := rfl
@[simp] theorem takeRaise_c (b : Bool) (c : StatusCode) (i j : Nat) (s : State) : (takeRaise b c i j s).c = s.c := rfl
@[simp] theorem takeRaise_d (b : Bool) (c : StatusCode) (i j : Nat) (s : State) : (takeRaise b c i j s).d = s.d := rfl
@[simp] theorem takeRaise_io (b : Bool) (c : StatusCode) (i j : Nat) (s : State) : (takeRaise b c i j s).io = s.io := rfl
@[simp] theorem takeRaise_port (b : Bool) (c : StatusCode) (i j : Nat) (s : State) : (takeRaise b c i j s).port = s.port := rfl
@[simp] theorem takeReturn_bw (r : Returned) (s : State) : (takeReturn r s).bw = s.bw := rfl
@[simp] theorem takeReturn_br (r : Returned) (s : State) : (takeReturn r s).br = s.br := rfl
@[simp] theorem takeReturn_c (r : Returned) (s : State) : (takeReturn r s).c = s.c := rfl
@[simp] theorem takeReturn_d (r : Returned) (s : State) : (takeReturn r s).d = s.d := rfl
@[simp] theorem takeReturn_io (r : Returned) (s : State) : (takeReturn r s).io = s.io := rfl
@[simp] theorem takeReturn_port (r : Returned) (s : State) : (takeReturn r s).port = s.port := rfl

/-- The registers after a raise. -/
@[simp] theorem takeRaise_regs (b : Bool) (c : StatusCode) (i j : Nat) (s : State) :
    (takeRaise b c i j s).regs = raisedRegs (configuredFlag s.regs.status && !b) c i j s.regs := rfl

/-- The registers after a return. -/
@[simp] theorem takeReturn_regs (r : Returned) (s : State) :
    (takeReturn r s).regs = returnedRegs r.result r.sentinel s.regs := rfl

@[simp] theorem endCommand_ok (b : Bool) (r : Returned) (s : State) : endCommand b (.ok r s) = .next (takeReturn r s) := rfl

@[simp] theorem endCommand_raised (b : Bool) (c : StatusCode) (i j : Nat) (s : State) :
    endCommand b (.raised c i j s) = .next (takeRaise b c i j s) := rfl

@[simp] theorem endCommand_fault (b : Bool) (f : Fault) : endCommand b (.fault f) = .fault f := rfl

/-- A command that answers a next state returned or raised. -/
theorem endCommand_next {b : Bool} {r : Res Returned} {t : State} (h : endCommand b r = .next t) :
    (∃ x s, r = .ok x s ∧ t = takeReturn x s) ∨ (∃ c i j s, r = .raised c i j s ∧ t = takeRaise b c i j s) := by
  cases r with
  | ok x s => exact .inl ⟨x, s, rfl, (Host.Outcome.next.inj h).symm⟩
  | raised c i j s => exact .inr ⟨c, i, j, s, rfl, (Host.Outcome.next.inj h).symm⟩
  | fault f => cases h

/-- A guarantee of the pseudocode is one of the command's next state. -/
theorem endCommand_meets {b : Bool} {r : Res Returned} {P : Returned → State → Prop}
    {Q : StatusCode → Nat → Nat → State → Prop} {Z : State → Prop} (h : r.Meets P Q)
    (hok : ∀ x s, P x s → Z (takeReturn x s)) (hraise : ∀ c i j s, Q c i j s → Z (takeRaise b c i j s)) :
    ∃ t, endCommand b r = .next t ∧ Z t := by
  cases r with
  | ok x s => exact ⟨_, rfl, hok x s h⟩
  | raised c i j s => exact ⟨_, rfl, hraise c i j s h⟩
  | fault f => exact h.elim

/-- A frame of the pseudocode is one of the command's next state. -/
theorem endCommand_all {b : Bool} {r : Res Returned} {P Z : State → Prop} {t : State} (h : r.All P)
    (ht : endCommand b r = .next t) (hok : ∀ x s, P s → Z (takeReturn x s))
    (hraise : ∀ c i j s, P s → Z (takeRaise b c i j s)) : Z t := by
  rcases endCommand_next ht with ⟨x, s, rfl, rfl⟩ | ⟨c, i, j, s, rfl, rfl⟩
  · exact hok x s h
  · exact hraise c i j s h

@[simp] theorem whenConfigured_on {op : Nat} {s : State} {body : State → Res Returned} (h : Configured s) :
    whenConfigured op s body = body s := if_pos h

theorem whenConfigured_off {op : Nat} {s : State} {body : State → Res Returned} (h : configuredFlag s.regs.status = false) :
    whenConfigured op s body = .raised .notConfigured op 0 s := if_neg (by simp [h])

/-! ### STATUS stays within 10_state.md R22 and 60_exceptions.md R180 -/

theorem statusSound_raise (b : Bool) {c : StatusCode} (st : Word) : StatusSound (statusAfterRaise b c st) where
  reserved := statusWord_lt _ _ _ _
  code := by simp [statusAfterRaise, statusNumber_le]
  latched := fun _ => by simp [statusAfterRaise]
  sentinel := fun h => by simp [statusAfterRaise] at h

theorem statusSound_return (x : Bool) (st : Word) : StatusSound (statusAfterReturn x st) where
  reserved := statusWord_lt _ _ _ _
  code := by simp [statusAfterReturn, statusNumber]
  latched := fun h => by simp [statusAfterReturn, statusNumber] at h
  sentinel := fun _ => by simp [statusAfterReturn, statusNumber]

/-! ### The stores keep their canonical form -/

theorem memory_wf_iff (s : State) :
    Memory.wf s = true ↔ codesRising s.c.dict = true ∧ codesRising s.d.table = true := by
  simp [Memory.wf]

theorem cClearTable_wf {s : State} (h : Memory.wf s = true) : Memory.wf (cClearTable s) = true :=
  (memory_wf_iff _).mpr ⟨codesRising_literalTable _, ((memory_wf_iff s).mp h).2⟩

theorem cInsert_wf {s : State} (h : Memory.wf s = true) (key : ByteString) (w : Nat) :
    Memory.wf (s.setC (cInsert key w s.c)) = true :=
  (memory_wf_iff _).mpr ⟨codesRising_put _ _ ((memory_wf_iff s).mp h).1, ((memory_wf_iff s).mp h).2⟩

theorem dClearTable_wf {s : State} (h : Memory.wf s = true) : Memory.wf (dClearTable s) = true :=
  (memory_wf_iff _).mpr ⟨((memory_wf_iff s).mp h).1, codesRising_literalTable _⟩

theorem dGrow_wf {s : State} (h : Memory.wf s = true) (tm : Bool) (str : ByteString) :
    Memory.wf (s.setD (dGrow tm str s.d)) = true :=
  (memory_wf_iff _).mpr ⟨((memory_wf_iff s).mp h).1, codesRising_put _ _ ((memory_wf_iff s).mp h).2⟩

theorem reset_wf : Memory.wf State.reset = true := rfl

/-- The codes that R32 and R33 say a table lists are in canonical form. -/
theorem codesRising_assigned {cfg : Word} {t : CodeTable} {n : Nat} (h : t.map Prod.fst = assignedCodes cfg n) :
    codesRising t = true := by
  rw [codesRising_iff, h, assignedCodes]
  refine List.pairwise_append.mpr ⟨List.pairwise_lt_range, List.pairwise_lt_range', ?_⟩
  intro x hx y hy
  have := List.mem_range.mp hx
  have := (List.mem_range'_1.mp hy).1
  simp only [firstFree] at this
  omega

end Sys2Proof.Machine
end

