-- ==== Sys2Proof/Laws/Fetch.lean ====
section
/-! SUPPORT. What taking the next action from the command port can do: the words of a command, with the resets that wait for
its end (30_encoding.md R80, 70_reset_and_hazards.md R200). -/

namespace Sys2Proof.Machine

@[simp] theorem deferReset_command (w0 w1 : Word) (rest : List HostAction) :
    deferReset (.command w0 w1 rest) = .command w0 w1 (.reset :: rest) := rfl
@[simp] theorem deferReset_awaiting : deferReset .awaitingOperand = .awaitingOperand := rfl
@[simp] theorem deferReset_interrupted : deferReset .interrupted = .interrupted := rfl

/-- Resets before the operand word go behind the command. -/
theorem fetchOperand_word (w0 w1 : Word) (k : Nat) (rest : List HostAction) :
    fetchOperand w0 (List.replicate k .reset ++ .word w1 :: rest) = .command w0 w1 (List.replicate k .reset ++ rest) := by
  induction k with
  | zero => rfl
  | succ k ih => simp [List.replicate_succ, fetchOperand, ih]

/-- With nothing but resets on the port the operand word is still awaited. -/
theorem fetchOperand_awaiting (w0 : Word) (k : Nat) : fetchOperand w0 (List.replicate k .reset) = .awaitingOperand := by
  induction k with
  | zero => rfl
  | succ k ih => simp [List.replicate_succ, fetchOperand, ih]

/-- Everything that can stand behind the first word of a two-word command: its operand word, nothing, or a binding, each after
some resets. -/
theorem fetchOperand_cases (w0 : Word) (port : List HostAction) :
    (∃ k w1 rest, port = List.replicate k .reset ++ .word w1 :: rest ∧
      fetchOperand w0 port = .command w0 w1 (List.replicate k .reset ++ rest)) ∨
    (∃ k, port = List.replicate k .reset ∧ fetchOperand w0 port = .awaitingOperand) ∨
    (∃ k rest bytes, (port = List.replicate k .reset ++ .bindSrc bytes :: rest ∨
      port = List.replicate k .reset ++ .bindSnk bytes :: rest) ∧ fetchOperand w0 port = .interrupted) := by
  induction port with
  | nil => exact .inr (.inl ⟨0, rfl, rfl⟩)
  | cons a port ih =>
    cases a with
    | word w1 => exact .inl ⟨0, w1, port, rfl, rfl⟩
    | bindSrc bytes => exact .inr (.inr ⟨0, port, bytes, .inl rfl, rfl⟩)
    | bindSnk bytes => exact .inr (.inr ⟨0, port, bytes, .inr rfl, rfl⟩)
    | reset =>
      rcases ih with ⟨k, w1, rest, rfl, h⟩ | ⟨k, rfl, h⟩ | ⟨k, rest, bytes, hp, h⟩
      · exact .inl ⟨k + 1, w1, rest, by simp [List.replicate_succ], by simp [List.replicate_succ, fetchOperand, h]⟩
      · exact .inr (.inl ⟨k + 1, by simp [List.replicate_succ], by simp [fetchOperand, h]⟩)
      · refine .inr (.inr ⟨k + 1, rest, bytes, ?_, by simp [fetchOperand, h]⟩)
        rcases hp with rfl | rfl
        · exact .inl (by simp [List.replicate_succ])
        · exact .inr (by simp [List.replicate_succ])

end Sys2Proof.Machine
end

