-- ==== Sys2Proof/Laws/PerInstr.lean ====
section
/-! SUPPORT. Statements about every instruction, one lemma for each constructor: an encoded instruction has exactly the words
that its opcode announces (30_encoding.md R80). -/

namespace Sys2Proof.Laws.WordCount

/-- The encoding of `i` has as many words as the opcode of its first word says (30_encoding.md R80). -/
def Statement (i : Instr) : Prop := (encode i).length = commandWords (encodeWord i)

/-- The low byte of `op + 256 * x`, taken as a word, is `op`. -/
theorem opcode_low {op x : Nat} (h : op < 256) : opcodeOf (BitVec.ofNat 32 (op + x * 256)) = op := by
  simp only [opcodeOf, bitField, BitVec.toNat_ofNat]
  omega

theorem config (w0 bo : Nat) (el tm obs : Bool) : Statement (.config w0 bo el tm obs) := by
  have h : opcodeOf (encodeWord (.config w0 bo el tm obs)) = 1 := by
    have := opcode_low (op := 1) (x := w0 + bo * 16 + el.toNat * 64 + tm.toNat * 128 + obs.toNat * 256) (by decide)
    rw [← this, encodeWord]
    congr 2
    omega
  simp [Statement, commandWords, h, encode, encodeOperands]

theorem bwwrite (value n : Nat) : Statement (.bwwrite value n) := by
  have h : opcodeOf (encodeWord (.bwwrite value n)) = 16 := by
    have := opcode_low (op := 16) (x := n + value * 16) (by decide)
    rw [← this, encodeWord]
    congr 2
    omega
  simp [Statement, commandWords, h, encode, encodeOperands]

theorem bwflush : Statement .bwflush := by
  have h : opcodeOf 0x11#32 = 0x11 := by decide
  simp [Statement, commandWords, encode, encodeOperands, encodeWord, h]

theorem brread (n : Nat) : Statement (.brread n) := by
  have h : opcodeOf (encodeWord (.brread n)) = 32 := opcode_low (op := 32) (x := n) (by decide)
  simp [Statement, commandWords, h, encode, encodeOperands]

theorem brreset : Statement .brreset := by
  have h : opcodeOf 0x21#32 = 0x21 := by decide
  simp [Statement, commandWords, encode, encodeOperands, encodeWord, h]

theorem compress : Statement .compress := by
  have h : opcodeOf 0x30#32 = 0x30 := by decide
  simp [Statement, commandWords, encode, encodeOperands, encodeWord, h]

theorem decompress (len : Word) : Statement (.decompress len) := by
  have h : opcodeOf 0x40#32 = 0x40 := by decide
  simp [Statement, commandWords, encode, encodeOperands, encodeWord, h]

end Sys2Proof.Laws.WordCount
end

