-- ==== Sys2Proof/Tests/Slice0.lean ====
section
/-! SUPPORT. Tests: every expected result is one of the spec's own, from its encoding table or its test vectors, and the witnesses
meet the hypotheses of the statements. -/

namespace Sys2Proof.Tests

open Sys2Proof Sys2Proof.Machine

/-! ### WellFormed: each check refuses an ill-formed term -/

theorem test_wellFormed_config_w0 : (Instr.config 16 0 false false false).wellFormed = false := by decide
theorem test_wellFormed_config_bo : (Instr.config 8 4 false false false).wellFormed = false := by decide
theorem test_wellFormed_bwwrite_value : (Instr.bwwrite 4096 12).wellFormed = false := by decide
theorem test_wellFormed_bwwrite_n : (Instr.bwwrite 0 16).wellFormed = false := by decide
theorem test_wellFormed_brread_n : (Instr.brread 16).wellFormed = false := by decide
theorem test_wellFormed_accepts : (Instr.bwwrite 4095 15).wellFormed = true := by decide
theorem test_legal_config_bo : (Instr.config 8 2 false false false).legalOperands = false := by decide
theorem test_legal_config_w0 : (Instr.config 9 0 false false false).legalOperands = false := by decide
theorem test_legal_config_tiff : (Instr.config 4 0 false true false).legalOperands = false := by decide
theorem test_legal_brread_n : (Instr.brread 13).legalOperands = false := by decide

/-! ### Decoding: the words of 30_encoding.md R87, written out from R81's formats -/

/-- CONFIG w0=8, LSB, obs=1: bit 16 is OBS, bit 12 is BO, bits 11:8 are 8, the opcode is 0x01. -/
theorem test_decode_config : decode 0b0000_0000_0000_0001_0001_1000_0000_0001#32 0#32 = .ok (.config 8 1 false false true) := by
  decide +kernel
/-- CONFIG w0=8, early=1, tiff=1: bit 14 is EL, bit 15 is TM. -/
theorem test_decode_config_flags : decode 0x0000C801#32 0#32 = .ok (.config 8 0 true true false) := by decide +kernel
/-- BWWRITE 0xABC, 12: VALUE in bits 23:12, N in bits 11:8. -/
theorem test_decode_bwwrite : decode 0b0000_0000_1010_1011_1100_1100_0001_0000#32 0#32 = .ok (.bwwrite 0xABC 12) := by
  decide +kernel
theorem test_decode_bwflush : decode 0b0001_0001#32 0#32 = .ok .bwflush := by decide +kernel
/-- BRREAD 9: N in bits 11:8. -/
theorem test_decode_brread : decode 0b1001_0010_0000#32 0#32 = .ok (.brread 9) := by decide +kernel
theorem test_decode_brreset : decode 0b0010_0001#32 0#32 = .ok .brreset := by decide +kernel
theorem test_decode_compress : decode 0b0011_0000#32 0#32 = .ok .compress := by decide +kernel
/-- DECOMPRESS 5: two words. -/
theorem test_decode_decompress : decode 0b0100_0000#32 5#32 = .ok (.decompress 5#32) := by decide +kernel
/-- The same two words, numbered as the opcode table numbers them: the second word is bits 63:32. -/
theorem test_decodeTableWord : decodeTableWord 64 0x0000000500000040 = some (.decompress 5#32) := by decide +kernel
/-- With no bits for the operand word it is 0. -/
theorem test_decodeTableWord_short : decodeTableWord 32 0x40 = some (.decompress 0#32) := by decide +kernel

/-- 95_test_vectors.md V-X-4 to V-X-9 and V-CFG-14: illegal words. -/
theorem test_decode_illegal :
    decode 0xFF#32 0#32 = .illegal .unknownOpcode ∧ decode 0#32 0#32 = .illegal .unknownOpcode ∧
    decode 0x130#32 0#32 = .illegal .reservedBits ∧ decode 0x1020#32 0#32 = .illegal .reservedBits ∧
    decode 0x01000010#32 0#32 = .illegal .reservedBits ∧ decode 0x140#32 5#32 = .illegal .reservedBits ∧
    decode 0x00020801#32 0#32 = .illegal .reservedBits := by decide +kernel

/-! ### Small states -/

/-- A configured block with this CFG, these caches, this unread SRC, an empty SNK, and FAIL at exactly these accesses. -/
def bench (cfg : Word) (bw br : BitCache) (src : List Byte) (fails : List (StreamPort × Nat)) : State :=
  { regs := { Regs.reset with cfg := cfg, status := 0x40#32 }
    bw := bw, br := br
    c := clearedCompressor cfg Compressor.reset
    d := clearedDecompressor cfg Decompressor.reset
    io := { Streams.unbound with src := src, script := some fails }
    port := [] }

/-- The same with empty caches and no FAIL. -/
def ready (cfg : Word) (src : List Byte) : State := bench cfg BitCache.zero BitCache.zero src []

/-- The state a command leads to. -/
def after (i : Instr) (s : State) : State :=
  match exec i s with
  | .next t => t
  | .fault _ => s
  | .refused _ => s

/-- A cache of so many bits. -/
def held (bits cache count : Nat) : BitCache := { cache := cache, bits := bits, count := BitVec.ofNat 32 count }

/-- STATUS, ERRINFO0, ERRINFO1, RESULT. -/
def ended (s : State) : Word × Word × Word × Word := (s.regs.status, s.regs.errinfo0, s.regs.errinfo1, s.regs.result)

/-! ### One command each, from 95_test_vectors.md -/

/-- V-CFG-2: CONFIG w0=8, LSB gives CFG 0x18, widths 9, cursors 258. -/
theorem test_config : let t := after (.config 8 1 false false false) State.reset
    (t.regs.cfg, t.regs.status, t.c.width, t.c.codes, t.d.width, t.d.codes) = (0x18#32, 0x40#32, 9, 258, 9, 258) := by
  decide +kernel
/-- V-CFG-11: `BO = 3` and `W0 = 9`: the `BO` check comes first. -/
theorem test_config_error : ended (after (.config 9 3 false false false) State.reset) = (0x21#32, 3#32, 0#32, 0#32) := by
  decide +kernel

/-- V-BR-1, the last read: MSBFirst, 12 bits from BR (3, 5, 2). -/
theorem test_brread_msb : let t := after (.brread 12) (bench 0x08#32 .zero (held 3 5 2) [0x5E#8, 0x00#8] [])
    (t.regs.result, t.br) = (0xABC#32, held 7 0 4) := by decide +kernel
/-- V-BR-7, LSBFirst, the second read: 12 bits from BR (7, 9, 1). -/
theorem test_brread_lsb : let t := after (.brread 12) (bench 0x18#32 .zero (held 7 9 1) [0x34#8, 0x56#8] [])
    (t.regs.result, t.br) = (2569#32, held 3 1 2) := by decide +kernel

/-- V-BR-8: BRRESET drops BR's four bits. -/
theorem test_brreset : let t := after .brreset (bench 0x08#32 .zero (held 4 5 1) [] [])
    (t.br, t.regs.status) = (held 0 0 1, 0x40#32) := by decide +kernel
/-- V-X-1: unconfigured, a command ends with NotConfigured and its opcode. -/
theorem test_brreset_unconfigured : ended (after .brreset State.reset) = (0x29#32, 0x21#32, 0#32, 0#32) := by decide +kernel

/-- V-BW-6, MSBFirst: 19 bits in the cache before the drain. -/
theorem test_bwwrite_msb : let t := after (.bwwrite 0xABC 12) (bench 0x08#32 (held 7 127 0) .zero [] [])
    (t.io.snk, t.bw) = ([0xFF#8, 0x57#8], held 3 4 2) := by decide +kernel
/-- V-BW-7: SNK refuses the first byte. -/
theorem test_bwwrite_sink_fails : let t := after (.bwwrite 0x1FF 9) (bench 0x08#32 .zero .zero [] [(.snk, 0)])
    (t.io.snk, t.bw, ended t) = ([], held 9 0x1FF 0, (0x66#32, 1#32, 0#32, 0#32)) := by decide +kernel

/-- V-BW-6, MSBFirst: the flush left-aligns the fragment. -/
theorem test_bwflush_msb : let t := after .bwflush (bench 0x08#32 (held 3 4 2) .zero [] [])
    (t.io.snk, t.bw) = ([0x80#8], held 0 0 3) := by decide +kernel
/-- V-BW-6, LSBFirst: as it is. -/
theorem test_bwflush_lsb : let t := after .bwflush (bench 0x18#32 (held 3 5 2) .zero [] [])
    (t.io.snk, t.bw) = ([0x05#8], held 0 0 3) := by decide +kernel

/-- V-C-10, `EL = 0`: ten zero bytes at `W0 = 2`, MSBFirst. -/
theorem test_compress : let t := after .compress (ready 0x02#32 (List.replicate 10 0#8))
    (t.io.snk, t.c.codes, t.regs.result) = ([0x83#8, 0x78#8, 0x50#8], 9, 3#32) := by decide +kernel
/-- V-C-11: an input byte at or above CLEAR. -/
theorem test_compress_lookup_failure : let t := after .compress (ready 0x04#32 [1#8, 2#8, 0x20#8])
    (t.io.snk, t.bw, t.c.run, t.c.codes) = ([0x80#8], held 7 0x22 1, [0x20#8], 20) ∧
      ended t = (0x62#32, 1#32, 3#32, 0#32) := by decide +kernel

/-- V-D-18 on V-C-8: `W0 = 4`, LSBFirst. -/
theorem test_decompress : let t := after (.decompress 6#32) (ready 0x14#32 [0x30#8, 0x88#8, 0x21#8, 0x47#8, 0x04#8])
    (t.io.snk, t.d.codes, t.br, t.regs.result) = ([1#8, 2#8, 3#8, 1#8, 2#8, 3#8], 22, held 2 1 4, 6#32) := by decide +kernel
/-- V-D-11: a code one beyond the cursor. -/
theorem test_decompress_corrupt :
    let t := after (.decompress 100#32) (ready 0x08#32 [0x80#8, 0x10#8, 0x60#8, 0x70#8, 0x10#8])
    (t.io.snk, t.d.old, ended t) = ([0x41#8], some 65, (0x63#32, 259#32, 258#32, 0#32)) := by decide +kernel

/-- The word of CONFIG w0=8 runs as the first command after reset. -/
theorem test_step_after_reset :
    (match step (State.reset.withFetchWord 32 0x801) with
      | .next t => (t.regs.cfg, t.regs.status)
      | .fault _ => (0#32, 0#32)
      | .refused _ => (0#32, 0#32)) = (0x08#32, 0x40#32) := by decide +kernel

/-- 70_reset_and_hazards.md R200: a reset asserted between the words of DECOMPRESS takes effect after it: the command fails with
NotConfigured first, and the reset is what the port holds next. -/
theorem test_reset_inside_command :
    (match step (State.reset.setPort [.word 0x40#32, .reset, .word 5#32]) with
      | .next t => (t.regs.status, t.port)
      | .fault _ => (0#32, [])
      | .refused _ => (0#32, [])) = (0x29#32, [.reset]) := by decide +kernel

/-! ### The hypotheses of the statements can be met -/

/-- The four settings the witnesses use: `W0 = 8` with either byte order, `W0 = 8` with `TM = 1`, and `W0 = 2`. -/
theorem legal_msb : CfgLegal 0x08#32 := ⟨by decide, by decide, by decide, by decide⟩
theorem legal_lsb : CfgLegal 0x18#32 := ⟨by decide, by decide, by decide, by decide⟩
theorem legal_tiff : CfgLegal 0x48#32 := ⟨by decide, by decide, by decide, by decide⟩
theorem legal_small : CfgLegal 0x02#32 := ⟨by decide, by decide, by decide, by decide⟩
theorem legal_observed : CfgLegal 0x82#32 := ⟨by decide, by decide, by decide, by decide⟩

theorem status_configured : StatusSound 0x40#32 := ⟨by decide, by decide, by decide, by decide⟩
theorem status_latched : StatusSound 0x66#32 := ⟨by decide, by decide, by decide, by decide⟩

/-- A bench state is sound when its CFG is legal and its caches are. -/
theorem bench_sound {cfg : Word} (hl : CfgLegal cfg) {bw br : BitCache} (hbw : CacheSound 7 bw) (hbr : CacheSound 11 br)
    (src : List Byte) (fails : List (StreamPort × Nat)) : Inv (bench cfg bw br src fails) where
  cfg := .inr hl
  status := status_configured
  configured := fun _ => hl
  bw := hbw.mono (by decide)
  bw_latched := fun h => absurd hbw.bits (by simpa [bench] using h)
  br := hbr
  stores := (memory_wf_iff _).mpr
    ⟨codesRising_assigned (clearedCompressor_sound hl Compressor.reset (Nat.le_refl _)).assigned,
      codesRising_assigned (clearedDecompressor_sound hl Decompressor.reset (fun c h => by simp [Decompressor.reset] at h)).assigned⟩
  src_pos := Nat.zero_le _
  unconstructed := fun h => absurd hl.w0_low (by
    have h : cfg = 0#32 := h
    subst h
    decide)
  compressor := fun _ => clearedCompressor_sound hl Compressor.reset (Nat.le_refl _)
  decompressor := fun _ => clearedDecompressor_sound hl Decompressor.reset (fun c h => by simp [Decompressor.reset] at h)

theorem zero_sound (n : Nat) : CacheSound n BitCache.zero := ⟨by decide, Nat.zero_le _⟩

theorem ready_sound {cfg : Word} (hl : CfgLegal cfg) (src : List Byte) : Inv (ready cfg src) :=
  bench_sound hl (zero_sound _) (zero_sound _) src []

theorem bench_configured (cfg : Word) (bw br : BitCache) (src : List Byte) (fails : List (StreamPort × Nat)) :
    Configured (bench cfg bw br src fails) := by
  show configuredFlag 0x40#32 = true
  decide

theorem ready_answers (cfg : Word) (src : List Byte) : SrcAnswers (ready cfg src) := fun _ _ => rfl
theorem ready_accepts (cfg : Word) (src : List Byte) : SnkAccepts (ready cfg src) := fun _ _ => rfl

/-- A command leads to a next state: decided by running it. -/
def runs (i : Instr) (s : State) : Bool :=
  match exec i s with
  | .next _ => true
  | .fault _ => false
  | .refused _ => false

theorem exec_of_runs {i : Instr} {s : State} (h : runs i s = true) : exec i s = .next (after i s) := by
  unfold runs at h
  unfold after
  split at h
  · rename_i h'
    rw [h']
  · cases h
  · cases h

theorem witness_HostActionsBetweenCommands :
    (State.reset.setPort [.reset]).port = .reset :: [] ∧
    (State.reset.setPort [.bindSrc [1#8]]).port = .bindSrc [1#8] :: [] ∧
    (State.reset.setPort [.bindSnk [1#8]]).port = .bindSnk [1#8] :: [] := ⟨rfl, rfl, rfl⟩

theorem witness_IdleBlockWaits :
    State.reset.port = [] ∧ opcodeOf 0x40#32 = 0x40 ∧
    (State.reset.setPort [.word 0x40#32]).port = .word 0x40#32 :: List.replicate 0 .reset ∧
    (State.reset.setPort [.word 0x40#32, .reset]).port = .word 0x40#32 :: List.replicate 1 .reset :=
  ⟨rfl, by decide, rfl, rfl⟩

/-- With no reset between the words of DECOMPRESS, and with one. -/
theorem witness_StepRunsDecodedCommand :
    ((State.reset.setPort [.word 0x30#32]).port = .word 0x30#32 :: [] ∧ opcodeOf 0x30#32 ≠ 0x40 ∧
      decode 0x30#32 0#32 = .ok .compress) ∧
    ((State.reset.setPort [.word 0x40#32, .word 5#32]).port = .word 0x40#32 :: (List.replicate 0 .reset ++ .word 5#32 :: []) ∧
      (State.reset.setPort [.word 0x40#32, .reset, .word 5#32]).port =
        .word 0x40#32 :: (List.replicate 1 .reset ++ .word 5#32 :: []) ∧
      opcodeOf 0x40#32 = 0x40 ∧ decode 0x40#32 5#32 = .ok (.decompress 5#32)) :=
  ⟨⟨rfl, by decide, by decide +kernel⟩, rfl, rfl, by decide, by decide +kernel⟩

theorem witness_EncodedCommandRuns :
    (Instr.decompress 5#32).wellFormed = true ∧
    (State.reset.setPort [.word 0x40#32, .word 5#32]).port = (encode (.decompress 5#32)).map HostAction.word ++ [] :=
  ⟨rfl, rfl⟩

theorem witness_IllegalWordEndsCommand :
    ((State.reset.setPort [.word 0xFF#32]).port = .word 0xFF#32 :: [] ∧ opcodeOf 0xFF#32 ≠ 0x40 ∧
      decode 0xFF#32 0#32 = .illegal .unknownOpcode) ∧
    ((State.reset.setPort [.word 0x140#32, .reset, .word 5#32]).port =
        .word 0x140#32 :: (List.replicate 1 .reset ++ .word 5#32 :: []) ∧
      opcodeOf 0x140#32 = 0x40 ∧ decode 0x140#32 5#32 = .illegal .reservedBits) :=
  ⟨⟨rfl, by decide, by decide +kernel⟩, rfl, by decide, by decide +kernel⟩

/-- The fields at their largest values. -/
theorem witness_DecodeReadsFields :
    ((0x0001FF01#32 : Word).extractLsb' 0 8 = 0x01#8 ∧ (0x0001FF01#32 : Word).extractLsb' 17 15 = 0#15) ∧
    ((0x00FFFF10#32 : Word).extractLsb' 0 8 = 0x10#8 ∧ (0x00FFFF10#32 : Word).extractLsb' 24 8 = 0#8) ∧
    ((0x00000F20#32 : Word).extractLsb' 0 8 = 0x20#8 ∧ (0x00000F20#32 : Word).extractLsb' 12 20 = 0#20) := by decide

theorem witness_DecodeOfEncode : (Instr.bwwrite 4095 15).wellFormed = true := by decide

theorem witness_EncodeOfDecode : decode 0x00FFFF10#32 0#32 = .ok (.bwwrite 4095 15) := by decide +kernel

theorem witness_StepKeepsSound :
    Inv ((ready 0x02#32 []).setPort [.word 0x21#32]) ∧ ∃ t, step ((ready 0x02#32 []).setPort [.word 0x21#32]) = .next t := by
  have h := ready_sound legal_small []
  exact ⟨⟨h.cfg, h.status, h.configured, h.bw, h.bw_latched, h.br, h.stores, h.src_pos, h.unconstructed, h.compressor,
    h.decompressor⟩, _, rfl⟩

theorem witness_SoundMachineNeverStops : Inv (ready 0x02#32 []) ∧ ¬ BindingInsideCommand (ready 0x02#32 []).port := by
  refine ⟨ready_sound legal_small [], ?_⟩
  rintro ⟨w, k, rest, bytes, -, h | h⟩ <;> exact absurd h (by simp [ready, bench])

/-- A binding right behind the first word, and one behind a reset that waits. -/
theorem witness_SoundMachineNeverStops_refusal :
    BindingInsideCommand ((ready 0x02#32 []).setPort [.word 0x40#32, .bindSrc []]).port ∧
    BindingInsideCommand ((ready 0x02#32 []).setPort [.word 0x40#32, .reset, .bindSnk []]).port :=
  ⟨⟨0x40#32, 0, [], [], by decide, .inl rfl⟩, 0x40#32, 1, [], [], by decide, .inr rfl⟩

theorem witness_CfgOnlyByConfig :
    (isConfig .brreset = false ∧ ∃ t, exec .brreset (ready 0x02#32 []) = .next t) ∧
    ∃ t, step (State.reset.setPort [.word 0x801#32]) = .next t ∧ t.regs.cfg ≠ (State.reset.setPort [.word 0x801#32]).regs.cfg :=
  ⟨⟨rfl, _, rfl⟩, after (.config 8 0 false false false) State.reset, rfl, by decide +kernel⟩

/-- Every command has a next state: the hypothesis of the statements about any command. -/
theorem witness_exec : ∀ i ∈ [Instr.config 2 0 false false true, .bwwrite 5 3, .bwflush, .brread 4, .brreset, .compress, .decompress 1#32],
    runs i (ready 0x82#32 [0x80#8, 0x10#8, 0x00#8]) = true := by decide +kernel

theorem witness_TablesStayCanonical :
    Memory.wf (ready 0x02#32 []) = true ∧ (∃ t, exec .compress (ready 0x02#32 []) = .next t) ∧
    ∃ t, step (ready 0x02#32 []) = .next t :=
  ⟨(ready_sound legal_small []).stores, ⟨_, exec_of_runs (by decide +kernel)⟩, _, rfl⟩

/-- Two states that differ in OBS. -/
theorem witness_ObserverDoesNotMatter :
    hideObserver (ready 0x82#32 []) = hideObserver ((ready 0x82#32 []).setRegs { (ready 0x82#32 []).regs with cfg := 0x02#32 }) := by
  decide +kernel

theorem witness_ConfigConstructs :
    ((1 : Nat) ≤ 1 ∧ 2 ≤ 2 ∧ 2 ≤ 8 ∧ (false = true → 2 = 8)) ∧ ((0 : Nat) ≤ 1 ∧ 2 ≤ 8 ∧ 8 ≤ 8 ∧ (true = true → 8 = 8)) := by decide

theorem witness_ConfigErrorsInOrder :
    (1 < 2) ∧ (1 ≤ 1 ∧ (1 < 2 ∨ 8 < 1)) ∧ (1 ≤ 1 ∧ (9 < 2 ∨ 8 < 9)) ∧ (0 ≤ 1 ∧ 2 ≤ 7 ∧ 7 < 8 ∧ true = true) := by decide

theorem witness_FailedConfigDisables :
    exec (.config 9 0 false false false) State.reset = .next (after (.config 9 0 false false false) State.reset) ∧
    codeField (after (.config 9 0 false false false) State.reset).regs.status ≠ 0 := ⟨rfl, by decide +kernel⟩

theorem witness_NotConfiguredGate : isConfig .compress = false ∧ configuredFlag State.reset.regs.status = false := by decide

theorem witness_InvalidWidthIsRejected : Configured (ready 0x08#32 []) ∧ (13 = 0 ∨ 12 < 13) ∧ (0 = 0 ∨ 12 < 0) :=
  ⟨bench_configured _ _ _ _ _, by decide, by decide⟩

/-- BR (7, 18, 1) and two bytes in SRC: N = 12 (95_test_vectors.md V-BR-7). -/
theorem witness_BrreadReturnsNextBits :
    Inv (bench 0x08#32 .zero (held 7 18 1) [0x34#8, 0x56#8] []) ∧ Configured (bench 0x08#32 .zero (held 7 18 1) [0x34#8, 0x56#8] []) ∧
    1 ≤ 12 ∧ 12 ≤ 12 ∧ 12 ≤ (unreadBits (bench 0x08#32 .zero (held 7 18 1) [0x34#8, 0x56#8] [])).length ∧
    ReadsAnswered (bench 0x08#32 .zero (held 7 18 1) [0x34#8, 0x56#8] [])
      (refillBytes (bench 0x08#32 .zero (held 7 18 1) [0x34#8, 0x56#8] []) 12) :=
  ⟨bench_sound legal_msb (zero_sound _) ⟨by decide, by decide⟩ _ _, bench_configured _ _ _ _ _, by decide, by decide,
    by decide +kernel, fun _ _ => rfl⟩

/-- With `TM = 0` and with `TM = 1` (95_test_vectors.md V-BR-6). -/
theorem witness_BrreadPastEnd :
    (Inv (ready 0x08#32 [0xA5#8]) ∧ Configured (ready 0x08#32 [0xA5#8]) ∧ tmOf 0x08#32 = false) ∧
    (Inv (ready 0x48#32 [0xA5#8]) ∧ Configured (ready 0x48#32 [0xA5#8]) ∧ tmOf 0x48#32 = true) ∧
    1 ≤ 12 ∧ 12 ≤ 12 ∧ (unreadBits (ready 0x08#32 [0xA5#8])).length < 12 ∧ (unreadBits (ready 0x48#32 [0xA5#8])).length < 12 ∧
    ReadsAnswered (ready 0x08#32 [0xA5#8]) 2 ∧ ReadsAnswered (ready 0x48#32 [0xA5#8]) 2 :=
  ⟨⟨ready_sound legal_msb _, bench_configured _ _ _ _ _, by decide⟩,
    ⟨ready_sound legal_tiff _, bench_configured _ _ _ _ _, by decide⟩, by decide, by decide, by decide +kernel,
    by decide +kernel, fun _ _ => rfl, fun _ _ => rfl⟩

/-- FAIL at the first access, and in place of END after the last byte. -/
theorem witness_BrreadSourceFails :
    (Inv (bench 0x08#32 .zero .zero [] [(.src, 0)]) ∧ Configured (bench 0x08#32 .zero .zero [] [(.src, 0)]) ∧ 1 ≤ 1 ∧ 1 ≤ 12 ∧
      0 ≤ (unreadBytes (bench 0x08#32 .zero .zero [] [(.src, 0)])).length ∧ 0 + 8 * 0 < 1 ∧
      ReadFailsAt (bench 0x08#32 .zero .zero [] [(.src, 0)]) 0) ∧
    (Inv (bench 0x08#32 .zero .zero [0xA5#8] [(.src, 1)]) ∧ Configured (bench 0x08#32 .zero .zero [0xA5#8] [(.src, 1)]) ∧ 1 ≤ 12 ∧
      12 ≤ 12 ∧ 1 ≤ (unreadBytes (bench 0x08#32 .zero .zero [0xA5#8] [(.src, 1)])).length ∧ 0 + 8 * 1 < 12 ∧
      ReadFailsAt (bench 0x08#32 .zero .zero [0xA5#8] [(.src, 1)]) 1) := by
  refine ⟨⟨bench_sound legal_msb (zero_sound _) (zero_sound _) _ _, bench_configured _ _ _ _ _, by decide, by decide, Nat.zero_le _,
    by decide, fun j hj => absurd hj (Nat.not_lt_zero j), by decide +kernel⟩,
    bench_sound legal_msb (zero_sound _) (zero_sound _) _ _, bench_configured _ _ _ _ _, by decide, by decide, by decide +kernel,
    by decide, ?_, by decide +kernel⟩
  intro j hj
  obtain rfl : j = 0 := by omega
  decide +kernel

theorem witness_BrresetDiscards : Configured (ready 0x08#32 []) := bench_configured _ _ _ _ _

/-- 19 bits before the drain (95_test_vectors.md V-BW-6). -/
theorem witness_BwwriteAppendsCode :
    Inv (bench 0x18#32 (held 7 127 0) .zero [] []) ∧ Configured (bench 0x18#32 (held 7 127 0) .zero [] []) ∧ 1 ≤ 12 ∧ 12 ≤ 12 ∧
    WritesAccepted (bench 0x18#32 (held 7 127 0) .zero [] []) ((7 + 12) / 8) :=
  ⟨bench_sound legal_lsb ⟨by decide, by decide⟩ (zero_sound _) _ _, bench_configured _ _ _ _ _, by decide, by decide,
    fun _ _ => rfl⟩

/-- A state after an earlier failure: BW still holds (9, 0x1FF, 0) and ERRLATCH is set (95_test_vectors.md V-BW-7). -/
def latched (fails : List (StreamPort × Nat)) : State :=
  (bench 0x08#32 (held 9 0x1FF 0) .zero [] fails).setRegs { Regs.reset with cfg := 0x08#32, status := 0x66#32, errinfo0 := 1#32 }

theorem nine_sound : CacheSound 19 (held 9 0x1FF 0) := ⟨by decide, by decide⟩

theorem latched_configured (fails : List (StreamPort × Nat)) : Configured (latched fails) := by
  show configuredFlag 0x66#32 = true
  decide

theorem latched_sound (fails : List (StreamPort × Nat)) : Inv (latched fails) := by
  have h := bench_sound legal_msb (zero_sound 7) (zero_sound 11) [] fails
  exact ⟨.inr legal_msb, status_latched, fun _ => legal_msb, nine_sound,
    fun _ => by show errLatchFlag 0x66#32 = true; decide, h.br, h.stores, h.src_pos,
    fun h0 => absurd (show (0x08#32 : Word) = 0#32 from h0) (by decide), h.compressor, h.decompressor⟩

/-- SNK refuses a byte of the code being written, or again a byte that an earlier failure left. -/
theorem witness_BwwriteSinkFails :
    (Inv (bench 0x08#32 .zero .zero [] [(.snk, 0)]) ∧ Configured (bench 0x08#32 .zero .zero [] [(.snk, 0)]) ∧ 1 ≤ 9 ∧ 9 ≤ 12 ∧
      0 < (0 + 9) / 8 ∧ WriteFailsAt (bench 0x08#32 .zero .zero [] [(.snk, 0)]) 0) ∧
    (Inv (latched [(.snk, 0)]) ∧ Configured (latched [(.snk, 0)]) ∧ 1 ≤ 1 ∧ 1 ≤ 12 ∧ 0 < (9 + 1) / 8 ∧ 0 < 9 / 8 ∧
      WriteFailsAt (latched [(.snk, 0)]) 0) :=
  ⟨⟨bench_sound legal_msb (zero_sound _) (zero_sound _) _ _, bench_configured _ _ _ _ _, by decide, by decide, by decide,
    fun j hj => absurd hj (Nat.not_lt_zero j), by decide +kernel⟩,
    latched_sound _, latched_configured _, by decide, by decide, by decide, by decide, fun j hj => absurd hj (Nat.not_lt_zero j), by decide +kernel⟩

/-- Nine pending bits: one whole byte and one bit. -/
theorem witness_BwflushPadsWithZeros :
    Inv (latched []) ∧ Configured (latched []) ∧ WritesAccepted (latched []) ((9 + 7) / 8) :=
  ⟨latched_sound _, latched_configured _, fun _ _ => rfl⟩

/-- SNK accepts the whole byte and refuses the partial one. -/
theorem witness_BwflushSinkFails :
    Inv (latched [(.snk, 1)]) ∧ Configured (latched [(.snk, 1)]) ∧ 1 < (9 + 7) / 8 ∧ WriteFailsAt (latched [(.snk, 1)]) 1 := by
  refine ⟨latched_sound _, latched_configured _, by decide, ?_, by decide +kernel⟩
  intro j hj
  obtain rfl : j = 0 := by omega
  decide +kernel

/-- 95_test_vectors.md L1-5. -/
theorem witness_PackingInverse :
    Inv (ready 0x18#32 []) ∧ Configured (ready 0x18#32 []) ∧ SrcAnswers (ready 0x18#32 []) ∧ SnkAccepts (ready 0x18#32 []) ∧
    (ready 0x18#32 []).bw.bits = 0 ∧ (ready 0x18#32 []).br.bits = 0 ∧ (ready 0x18#32 []).io.snk = [] ∧
    ∀ p ∈ [(5, 3), (0x1FF, 9), (1, 1), (0xABC, 12)], 1 ≤ p.2 ∧ p.2 ≤ 12 ∧ p.1 < 2 ^ p.2 :=
  ⟨ready_sound legal_lsb _, bench_configured _ _ _ _ _, ready_answers _ _, ready_accepts _ _, rfl, rfl, rfl, by decide⟩

/-! ### A dictionary filled to a given cursor -/

/-- C after `k` insertions of ever longer runs of zero bytes, each at the width that 43_compressor.md R134 gives it. -/
def zeroRuns (cfg : Word) : Nat → Compressor
  | 0 => clearedCompressor cfg Compressor.reset
  | k + 1 =>
    cInsert (List.replicate (k + 2) 0#8)
      (if (zeroRuns cfg k).codes = effectiveLimit (zeroRuns cfg k).width (elOf cfg) then (zeroRuns cfg k).width + 1
        else (zeroRuns cfg k).width)
      (zeroRuns cfg k)

/-- The strings of the dictionary are the literals and the runs of zeros. -/
theorem zeroRuns_strings (cfg : Word) (k : Nat) : ∀ v ∈ (zeroRuns cfg k).dict.map Prod.snd,
    v.length = 1 ∨ ∃ n, n ≤ k + 1 ∧ v = List.replicate n 0#8 := by
  induction k with
  | zero =>
    intro v hv
    obtain ⟨e, he, rfl⟩ := List.mem_map.mp hv
    left
    rw [(mem_literalTable.mp he).2]
    rfl
  | succ k ih =>
    intro v hv
    obtain ⟨e, he, rfl⟩ := List.mem_map.mp hv
    rcases mem_tablePut he with h | h
    · exact .inr ⟨k + 2, Nat.le_refl _, by rw [h]⟩
    · rcases ih e.2 (List.mem_map.mpr ⟨e, h, rfl⟩) with h1 | ⟨n, hn, h1⟩
      · exact .inl h1
      · exact .inr ⟨n, by omega, h1⟩

theorem zeroRuns_sound {cfg : Word} (hl : CfgLegal cfg) (hel : elOf cfg = false) (k : Nat) (hk : firstFree cfg + k ≤ 4096) :
    CompressorSound cfg (zeroRuns cfg k) ∧ (zeroRuns cfg k).codes = firstFree cfg + k ∧
      List.replicate (k + 1) 0#8 ∈ (zeroRuns cfg k).dict.map Prod.snd := by
  induction k with
  | zero =>
    refine ⟨clearedCompressor_sound hl _ (Nat.le_refl _), rfl, ?_⟩
    have := hl.clear_ge
    refine List.mem_map.mpr ⟨(0, [0#8]), ?_, rfl⟩
    exact mem_literalTable.mpr ⟨by simp only; omega, rfl⟩
  | succ k ih =>
    obtain ⟨h, hc, hin⟩ := ih (by omega)
    have hlim := h.codes_high
    have hnew : List.replicate (k + 2) 0#8 ∉ (zeroRuns cfg k).dict.map Prod.snd := by
      intro hm
      rcases zeroRuns_strings cfg k _ hm with h1 | ⟨n, hn, h1⟩
      · simp at h1
      · have := congrArg List.length h1
        simp at this
        omega
    have happ : tablePut (zeroRuns cfg k).codes (List.replicate (k + 2) 0#8) (zeroRuns cfg k).dict =
        (zeroRuns cfg k).dict ++ [((zeroRuns cfg k).codes, List.replicate (k + 2) 0#8)] :=
      tablePut_above (assigned_below h.codes_low h.assigned) _
    refine ⟨?_, by simp [zeroRuns, cInsert, hc]; omega, by simp [zeroRuns, cInsert, happ]⟩
    refine cInsert_sound h hnew (by simp) (by simpa [List.dropLast_replicate] using hin) ?_ ?_ ?_
    · split <;> omega
    · have hw := h.width_high
      split
      · rename_i he
        rcases Nat.lt_or_ge (zeroRuns cfg k).width maxWidth with hlt | hge
        · omega
        · have h12 : (zeroRuns cfg k).width = 12 := Nat.le_antisymm hw hge
          rw [h12, hel] at he
          simp [effectiveLimit] at he
          omega
      · exact hw
    · split
      · rename_i he
        have := effectiveLimit_succ (zeroRuns cfg k).width (elOf cfg) (by have := h.width_low; omega)
        omega
      · omega

/-- A bench state with that compressor. -/
def filled (cfg : Word) (k : Nat) : State := (ready cfg []).setC (zeroRuns cfg k)

theorem filled_sound {cfg : Word} (hl : CfgLegal cfg) (hel : elOf cfg = false) (k : Nat) (hk : firstFree cfg + k ≤ 4096) :
    Inv (filled cfg k) := by
  have h := ready_sound hl []
  have hc := (zeroRuns_sound hl hel k hk).1
  exact ⟨h.cfg, h.status, h.configured, h.bw, h.bw_latched, h.br,
    (memory_wf_iff _).mpr ⟨codesRising_assigned hc.assigned, ((memory_wf_iff _).mp h.stores).2⟩, h.src_pos,
    fun h0 => absurd hl.w0_low (by
      have h0 : cfg = 0#32 := h0
      subst h0
      decide),
    fun _ => hc, h.decompressor⟩

theorem filled_new (cfg : Word) (k : Nat) : tableCodeOf [1#8, 1#8] (filled cfg k).c.dict = none := by
  rw [tableCodeOf_eq_none]
  intro hm
  rcases zeroRuns_strings cfg k _ hm with h | ⟨n, -, h⟩
  · cases h
  · have := congrArg List.head? h
    cases n <;> simp [List.replicate_succ] at this

/-- Below the limit; at the limit at width 3; and the full dictionary, at the limit at width 12. -/
theorem witness_AddTableEntryEffect (k : Nat) (hk : firstFree 0x02#32 + k ≤ 4096) :
    Inv (filled 0x02#32 k) ∧ Configured (filled 0x02#32 k) ∧ (filled 0x02#32 k).bw.bits ≤ 7 ∧
    tableCodeOf [1#8, 1#8] (filled 0x02#32 k).c.dict = none ∧ SnkAccepts (filled 0x02#32 k) :=
  ⟨filled_sound legal_small (by decide) k hk, bench_configured 0x02#32 .zero .zero [] [], Nat.zero_le _, filled_new _ _, fun _ _ => rfl⟩

theorem witness_AddTableEntryEffect_below :
    firstFree 0x02#32 + 0 ≤ 4096 ∧ (filled 0x02#32 0).c.codes ≠ 2 ^ (filled 0x02#32 0).c.width - (elOf 0x02#32).toNat := by
  decide +kernel

theorem witness_AddTableEntryEffect_widening :
    firstFree 0x02#32 + 2 ≤ 4096 ∧ (filled 0x02#32 2).c.codes = 2 ^ (filled 0x02#32 2).c.width - (elOf 0x02#32).toNat ∧
    (filled 0x02#32 2).c.width < 12 := by decide +kernel

theorem filled_full (k : Nat) (hk : firstFree 0x02#32 + k = 4096) :
    (filled 0x02#32 k).c.codes = 2 ^ (filled 0x02#32 k).c.width - (elOf 0x02#32).toNat ∧ (filled 0x02#32 k).c.width = 12 := by
  have hel : elOf 0x02#32 = false := by decide
  obtain ⟨h, hc, -⟩ := zeroRuns_sound legal_small hel k (by omega)
  have hw : (zeroRuns 0x02#32 k).width = 12 := by
    have h1 := h.width_high
    have h2 := h.codes_high
    rw [hc, hk, hel] at h2
    simp only [effectiveLimit, Bool.toNat_false, maxWidth] at h1 h2
    rcases Nat.lt_or_ge (zeroRuns 0x02#32 k).width 12 with hlt | hge
    · have : 2 ^ (zeroRuns 0x02#32 k).width ≤ 2 ^ 11 := Nat.pow_le_pow_right (by decide) (by omega)
      omega
    · omega
  refine ⟨?_, hw⟩
  show (zeroRuns 0x02#32 k).codes = 2 ^ (zeroRuns 0x02#32 k).width - (elOf 0x02#32).toNat
  rw [hc, hw, hk, hel]
  decide

theorem witness_AddTableEntryEffect_full :
    (filled 0x02#32 4090).c.codes = 2 ^ (filled 0x02#32 4090).c.width - (elOf 0x02#32).toNat ∧
    (filled 0x02#32 4090).c.width = 12 := filled_full 4090 (by decide)

/-! ### COMPRESS -/

theorem witness_CompressEmptyInput :
    Inv (ready 0x08#32 []) ∧ Configured (ready 0x08#32 []) ∧ unreadBytes (ready 0x08#32 []) = [] ∧ ReadsAnswered (ready 0x08#32 []) 1 ∧
    WritesAccepted (ready 0x08#32 []) ((2 * (w0Of 0x08#32 + 1) + 7) / 8) ∧ w0Of 0x08#32 = 8 ∧ byteOrderOf 0x08#32 = .msbFirst :=
  ⟨ready_sound legal_msb _, bench_configured _ _ _ _ _, rfl, fun _ _ => rfl, fun _ _ => rfl, by decide, by decide⟩

theorem witness_CompressCompletes :
    Inv (ready 0x02#32 [0#8, 3#8]) ∧ Configured (ready 0x02#32 [0#8, 3#8]) ∧ SrcAnswers (ready 0x02#32 [0#8, 3#8]) ∧
    SnkAccepts (ready 0x02#32 [0#8, 3#8]) ∧ ∀ b ∈ unreadBytes (ready 0x02#32 [0#8, 3#8]), b.toNat < clearCode 0x02#32 :=
  ⟨ready_sound legal_small _, bench_configured _ _ _ _ _, ready_answers _ _, ready_accepts _ _, by decide +kernel⟩

/-- The byte that is no literal comes first, comes last, or has a byte after it. -/
theorem witness_CompressLookupFailure : ∀ c ∈ [([4#8, 1#8], 0), ([1#8, 4#8], 1), ([1#8, 4#8, 2#8], 1)],
    Inv (ready 0x02#32 c.1) ∧ Configured (ready 0x02#32 c.1) ∧ SrcAnswers (ready 0x02#32 c.1) ∧ SnkAccepts (ready 0x02#32 c.1) ∧
    (unreadBytes (ready 0x02#32 c.1))[c.2]? = some 4#8 ∧ clearCode 0x02#32 ≤ (4#8 : Byte).toNat ∧
    ∀ x ∈ (unreadBytes (ready 0x02#32 c.1)).take c.2, x.toNat < clearCode 0x02#32 := by
  intro c hc
  refine ⟨ready_sound legal_small _, bench_configured _ _ _ _ _, ready_answers _ _, ready_accepts _ _, ?_, by decide, ?_⟩
  · revert c
    decide +kernel
  · revert c
    decide +kernel

/-- An input of literals, and one with a byte that is none. -/
theorem witness_KeysBelowClear :
    (∀ src ∈ [[0#8, 3#8], [1#8, 4#8]], Inv (ready 0x02#32 src) ∧ Configured (ready 0x02#32 src) ∧
      exec .compress (ready 0x02#32 src) = .next (after .compress (ready 0x02#32 src))) ∧
    ∀ b ∈ unreadBytes (ready 0x02#32 [0#8, 3#8]), b.toNat < clearCode 0x02#32 := by
  refine ⟨fun src hs => ⟨ready_sound legal_small _, bench_configured _ _ _ _ _, exec_of_runs ?_⟩, by decide +kernel⟩
  revert src
  decide +kernel

theorem witness_CompressEarlyFailures :
    (Inv (bench 0x08#32 .zero .zero [] [(.snk, 0)]) ∧ Configured (bench 0x08#32 .zero .zero [] [(.snk, 0)]) ∧ 7 ≤ w0Of 0x08#32 ∧
      WriteFailsAt (bench 0x08#32 .zero .zero [] [(.snk, 0)]) 0) ∧
    (Inv (bench 0x02#32 .zero .zero [] [(.src, 0)]) ∧ Configured (bench 0x02#32 .zero .zero [] [(.src, 0)]) ∧
      WritesAccepted (bench 0x02#32 .zero .zero [] [(.src, 0)]) 1 ∧ ReadFailsAt (bench 0x02#32 .zero .zero [] [(.src, 0)]) 0) := by
  refine ⟨⟨bench_sound legal_msb (zero_sound _) (zero_sound _) _ _, bench_configured _ _ _ _ _, by decide,
    fun j hj => absurd hj (Nat.not_lt_zero j), by decide +kernel⟩,
    bench_sound legal_small (zero_sound _) (zero_sound _) _ _, bench_configured _ _ _ _ _, ?_,
    fun j hj => absurd hj (Nat.not_lt_zero j), by decide +kernel⟩
  intro j hj
  obtain rfl : j = 0 := by omega
  decide +kernel

theorem witness_CompressIsAFreshSession : Configured (ready 0x08#32 []) := bench_configured _ _ _ _ _

theorem witness_CompressFollowsSchedule :
    Inv (ready 0x82#32 [0#8]) ∧ Configured (ready 0x82#32 [0#8]) ∧ obsOf 0x82#32 = true ∧
    exec .compress (ready 0x82#32 [0#8]) = .next (after .compress (ready 0x82#32 [0#8])) ∧
    codeField (after .compress (ready 0x82#32 [0#8])).regs.status = 0 :=
  ⟨ready_sound legal_observed _, bench_configured _ _ _ _ _, by decide, exec_of_runs (by decide +kernel), by decide +kernel⟩

/-! ### DECOMPRESS -/

/-- D with a cursor, a previous code 0 and the entries given. -/
def coding (codes : Nat) (table : CodeTable) : State :=
  (ready 0x02#32 []).setD { width := 12, codes := codes, table := table, old := some 0, written := 0 }

/-- Room for one entry, and a full table. -/
theorem witness_KnownCodeEffect : ∀ n ∈ [4095, 4096],
    (coding n [(0, [0#8])]).d.old = some 0 ∧ 0 < (coding n [(0, [0#8])]).d.codes ∧ (coding n [(0, [0#8])]).d.codes ≤ 4096 ∧
    tableGet 0 (coding n [(0, [0#8])]).d.table = some (0#8 :: []) ∧ ([0#8] : ByteString) ≠ [] ∧
    WritesAccepted (coding n [(0, [0#8])]) 1 := by
  intro n hn
  refine ⟨rfl, ?_, ?_, rfl, by decide, fun _ _ => rfl⟩
  · revert n
    decide
  · revert n
    decide

theorem witness_CursorCodeEffect :
    (coding 4095 [(0, [0#8])]).d.old = some 0 ∧ tableGet 0 (coding 4095 [(0, [0#8])]).d.table = some (0#8 :: []) ∧
    (4095 = (coding 4095 [(0, [0#8])]).d.codes ∧ 4095 < 4096 ∧ WritesAccepted (coding 4095 [(0, [0#8])]) 2) ∧
    (coding 4094 [(0, [0#8])]).d.codes < 4095 := ⟨rfl, rfl, ⟨rfl, by decide, fun _ _ => rfl⟩, by decide⟩

theorem witness_AppendGrowsTable : 4096 ≤ (coding 4096 []).d.codes ∧ (coding 4095 []).d.codes < 4096 := by decide

/-- An empty SRC; and at `W0 = 2`, MSBFirst, the byte 90 is CLEAR, CLEAR and two bits more. -/
theorem witness_DecompressSourceRunsOut : ∀ c ∈ [(0x08#32, [], 0, 0#32), (0x48#32, [], 0, 0#32), (0x02#32, [0x90#8], 2, 1#32)],
    Inv (ready c.1 c.2.1) ∧ Configured (ready c.1 c.2.1) ∧ (c.2.2.1 = 0 ∨ c.2.2.2 ≠ 0#32) ∧
    c.2.2.1 * (w0Of c.1 + 1) ≤ 8 * (unreadBytes (ready c.1 c.2.1)).length ∧
    8 * (unreadBytes (ready c.1 c.2.1)).length < (c.2.2.1 + 1) * (w0Of c.1 + 1) ∧
    (∀ j, j < c.2.2.1 → sourceCode (ready c.1 c.2.1) (j * (w0Of c.1 + 1)) (w0Of c.1 + 1) = clearCode c.1) ∧
    ReadsAnswered (ready c.1 c.2.1) ((unreadBytes (ready c.1 c.2.1)).length + 1) := by
  intro c hc
  refine ⟨ready_sound ?_ _, bench_configured _ _ _ _ _, ?_, ?_, ?_, ?_, fun _ _ => rfl⟩
  · simp only [List.mem_cons, List.not_mem_nil, or_false] at hc
    rcases hc with rfl | rfl | rfl
    · exact legal_msb
    · exact legal_tiff
    · exact legal_small
  all_goals revert c; decide +kernel

/-- At `W0 = 2`, MSBFirst: a first byte A0 is EOI, 80 is CLEAR, 20 is the literal 1, C0 is the code 6. -/
theorem witness_DecompressFirstCode : ∀ c ∈ [(0xA0#8, 5, 7#32), (0x80#8, 4, 0#32), (0x20#8, 1, 7#32), (0xC0#8, 6, 7#32)],
    Inv (ready 0x02#32 [c.1]) ∧ Configured (ready 0x02#32 [c.1]) ∧ w0Of 0x02#32 + 1 ≤ 8 * (unreadBytes (ready 0x02#32 [c.1])).length ∧
    ReadsAnswered (ready 0x02#32 [c.1]) ((w0Of 0x02#32 + 8) / 8) ∧ c.2.1 = sourceCode (ready 0x02#32 [c.1]) 0 (w0Of 0x02#32 + 1) ∧
    (c.2.1 = eoiCode 0x02#32 ∨ (c.2.1 = clearCode 0x02#32 ∧ c.2.2 = 0#32) ∨
      (c.2.1 ≠ clearCode 0x02#32 ∧ c.2.1 ≠ eoiCode 0x02#32)) := by
  intro c hc
  refine ⟨ready_sound legal_small _, bench_configured _ _ _ _ _, ?_, fun _ _ => rfl, ?_, ?_⟩ <;> revert c <;> decide +kernel

/-- At `W0 = 2`, MSBFirst: CLEAR, then the literal 3, EOI, or the code 6; and CLEAR, CLEAR, then EOI or the literal 1. -/
theorem witness_DecompressPostClearCode : ∀ c ∈ [([0x8C#8], 0, 3), ([0x94#8], 0, 5), ([0x98#8], 0, 6), ([0x92#8, 0x80#8], 1, 5),
      ([0x90#8, 0x80#8], 1, 1)],
    Inv (ready 0x02#32 c.1) ∧ Configured (ready 0x02#32 c.1) ∧ 1#32 ≠ 0#32 ∧ SrcAnswers (ready 0x02#32 c.1) ∧
    SnkAccepts (ready 0x02#32 c.1) ∧ (c.2.1 + 2) * (w0Of 0x02#32 + 1) ≤ 8 * (unreadBytes (ready 0x02#32 c.1)).length ∧
    (∀ j, j ≤ c.2.1 → sourceCode (ready 0x02#32 c.1) (j * (w0Of 0x02#32 + 1)) (w0Of 0x02#32 + 1) = clearCode 0x02#32) ∧
    c.2.2 = sourceCode (ready 0x02#32 c.1) ((c.2.1 + 1) * (w0Of 0x02#32 + 1)) (w0Of 0x02#32 + 1) ∧
    c.2.2 ≠ clearCode 0x02#32 := by
  intro c hc
  refine ⟨ready_sound legal_small _, bench_configured _ _ _ _ _, by decide, fun _ _ => rfl, fun _ _ => rfl, ?_, ?_, ?_, ?_⟩ <;>
    revert c <;> decide +kernel

theorem witness_DecompressIsAFreshSession : Configured (ready 0x08#32 []) := bench_configured _ _ _ _ _

/-- A whole DECOMPRESS with events: the stream of V-C-10 with `EL = 0`. -/
theorem witness_Decompress :
    Inv (ready 0x82#32 [0x83#8, 0x78#8, 0x50#8]) ∧ Configured (ready 0x82#32 [0x83#8, 0x78#8, 0x50#8]) ∧ obsOf 0x82#32 = true ∧
    exec (.decompress 100#32) (ready 0x82#32 [0x83#8, 0x78#8, 0x50#8]) =
      .next (after (.decompress 100#32) (ready 0x82#32 [0x83#8, 0x78#8, 0x50#8])) ∧
    codeField (after (.decompress 100#32) (ready 0x82#32 [0x83#8, 0x78#8, 0x50#8])).regs.status = 0 :=
  ⟨ready_sound legal_observed _, bench_configured _ _ _ _ _, by decide, exec_of_runs (by decide +kernel), by decide +kernel⟩

/-- COMPRESS and DECOMPRESS with events: three codes and more each. -/
theorem witness_CodeEventsBracketTheirBytes :
    (Inv (ready 0x82#32 [0#8, 1#8]) ∧ Configured (ready 0x82#32 [0#8, 1#8]) ∧
      exec .compress (ready 0x82#32 [0#8, 1#8]) = .next (after .compress (ready 0x82#32 [0#8, 1#8])) ∧
      (newEvents (ready 0x82#32 [0#8, 1#8]) (after .compress (ready 0x82#32 [0#8, 1#8]))).length = 4) ∧
    ((newEvents (ready 0x82#32 [0x83#8, 0x78#8, 0x50#8])
        (after (.decompress 100#32) (ready 0x82#32 [0x83#8, 0x78#8, 0x50#8]))).map fun r => (r.event.v1, r.srcPos, r.snkLen)) =
      [(4, 1, 0), (0, 1, 0), (6, 2, 1), (7, 2, 3), (8, 2, 6), (5, 3, 10)] :=
  ⟨⟨ready_sound legal_observed _, bench_configured _ _ _ _ _, exec_of_runs (by decide +kernel), by decide +kernel⟩,
    by decide +kernel⟩

/-- A corrupt code with an event: the code read is 7, the cursor 6. -/
theorem witness_ErrorCausesAndInfo_corrupt :
    exec (.decompress 9#32) (ready 0x82#32 [0x83#8, 0x80#8]) = .next (after (.decompress 9#32) (ready 0x82#32 [0x83#8, 0x80#8])) ∧
    ended (after (.decompress 9#32) (ready 0x82#32 [0x83#8, 0x80#8])) = (0x63#32, 7#32, 6#32, 0#32) :=
  ⟨exec_of_runs (by decide +kernel), by decide +kernel⟩

/-- The hypotheses of DecompressStopsForAReason, BudgetOvershootIsBounded and DecompressFollowsSchedule with `W0 = 8`. -/
theorem witness_Decompress_w0_8 :
    Inv (ready 0x08#32 [0x80#8, 0x40#8, 0x40#8]) ∧ Configured (ready 0x08#32 [0x80#8, 0x40#8, 0x40#8]) ∧ w0Of 0x08#32 = 8 ∧
    exec (.decompress 0#32) (ready 0x08#32 [0x80#8, 0x40#8, 0x40#8]) =
      .next (after (.decompress 0#32) (ready 0x08#32 [0x80#8, 0x40#8, 0x40#8])) :=
  ⟨ready_sound legal_msb _, bench_configured _ _ _ _ _, by decide, exec_of_runs (by decide +kernel)⟩

/-- Ten zero bytes at `W0 = 2`, and the stream that V-C-10 gives for them. -/
theorem witness_RoundTrip :
    Inv (ready 0x02#32 (List.replicate 10 0#8)) ∧ Configured (ready 0x02#32 (List.replicate 10 0#8)) ∧
    Inv (ready 0x02#32 [0x83#8, 0x78#8, 0x50#8]) ∧ Configured (ready 0x02#32 [0x83#8, 0x78#8, 0x50#8]) ∧
    SrcAnswers (ready 0x02#32 (List.replicate 10 0#8)) ∧ SnkAccepts (ready 0x02#32 (List.replicate 10 0#8)) ∧
    SrcAnswers (ready 0x02#32 [0x83#8, 0x78#8, 0x50#8]) ∧ SnkAccepts (ready 0x02#32 [0x83#8, 0x78#8, 0x50#8]) ∧
    tmOf 0x02#32 = elOf 0x02#32 ∧
    (∀ b ∈ unreadBytes (ready 0x02#32 (List.replicate 10 0#8)), b.toNat < clearCode 0x02#32) ∧
    (unreadBytes (ready 0x02#32 (List.replicate 10 0#8))).length < 2 ^ 32 ∧
    exec .compress (ready 0x02#32 (List.replicate 10 0#8)) = .next (after .compress (ready 0x02#32 (List.replicate 10 0#8))) ∧
    unreadBytes (ready 0x02#32 [0x83#8, 0x78#8, 0x50#8]) =
      (after .compress (ready 0x02#32 (List.replicate 10 0#8))).io.snk.drop (ready 0x02#32 (List.replicate 10 0#8)).io.snk.length :=
  ⟨ready_sound legal_small _, bench_configured _ _ _ _ _, ready_sound legal_small _, bench_configured _ _ _ _ _, ready_answers _ _,
    ready_accepts _ _, ready_answers _ _, ready_accepts _ _, by decide, by decide +kernel, by decide +kernel,
    exec_of_runs (by decide +kernel), by decide +kernel⟩

end Sys2Proof.Tests
end

section
/-! SUPPORT. The frame of each whole command (00_scope.md R2, 60_exceptions.md R194): the frames of the units' procedures
carried through the configuration check and the command's end. -/

namespace Sys2Proof.Machine

/-- `t` is `u` with at most STATUS, ERRINFO0, ERRINFO1 and RESULT rewritten: all that the end of a command does
(60_exceptions.md R181, R184). -/
structure SameButOutcome (u t : State) : Prop where
  cfg : t.regs.cfg = u.regs.cfg
  expectedLen : t.regs.expectedLen = u.regs.expectedLen
  bw : t.bw = u.bw
  br : t.br = u.br
  c : t.c = u.c
  d : t.d = u.d
  io : t.io = u.io
  port : t.port = u.port

theorem takeReturn_sameButOutcome (r : Returned) (u : State) : SameButOutcome u (takeReturn r u) :=
  ⟨rfl, rfl, rfl, rfl, rfl, rfl, rfl, rfl⟩

theorem takeRaise_sameButOutcome (b : Bool) (c : StatusCode) (i j : Nat) (u : State) :
    SameButOutcome u (takeRaise b c i j u) :=
  ⟨rfl, rfl, rfl, rfl, rfl, rfl, rfl, rfl⟩

/-- A command's next state is its pseudocode's last one, but for the outcome registers. -/
theorem endCommand_sameButOutcome {b : Bool} {r : Res Returned} {P : State → Prop} {t : State}
    (ht : endCommand b r = .next t) (h : r.All P) : ∃ u, P u ∧ SameButOutcome u t :=
  endCommand_all (Z := fun t => ∃ u, P u ∧ SameButOutcome u t) h ht
    (fun r u hu => ⟨u, hu, takeReturn_sameButOutcome r u⟩)
    (fun c i j u hu => ⟨u, hu, takeRaise_sameButOutcome b c i j u⟩)

/-- Computing a value from the last state keeps a frame. -/
theorem Res.All.bind_pure {α β : Type} {r : Res α} {P : State → Prop} (h : r.All P) (f : α → State → β) :
    (r.bind fun a s => .ok (f a s) s).All P := by
  cases r with
  | ok a s => exact h
  | raised code i0 i1 s => exact h
  | fault f => trivial

/-- A frame that holds of the unchanged state and of the body holds of the checked body. -/
theorem whenConfigured_all {op : Nat} {s : State} {body : State → Res Returned} {P : State → Prop} (hs : P s)
    (hbody : (body s).All P) : (whenConfigured op s body).All P := by
  unfold whenConfigured
  split
  · exact hbody
  · exact hs

theorem configured_io (cfg : Word) (s : State) : (configured cfg s).io = s.io := rfl

/-- No stream access was made: SRC's position, SNK and the access counts stay (20_memory.md R51, R52); EVT may grow. -/
structure NoAccess (s t : State) : Prop where
  srcPos : t.io.srcPos = s.io.srcPos
  snk : t.io.snk = s.io.snk
  srcReads : t.io.srcReads = s.io.srcReads
  snkWrites : t.io.snkWrites = s.io.snkWrites

theorem NoAccess.refl (s : State) : NoAccess s s := ⟨rfl, rfl, rfl, rfl⟩

/-- The INIT events are no stream accesses, and neither is the construction (40_config.md R102, R103). -/
theorem notifyInit_configured_noAccess (cfg : Word) (s : State) : NoAccess s (notifyInit (configured cfg s)) := by
  constructor <;> simp [notifyInit, configured_io]

theorem execConfig_frame {w0 bo : Nat} {el tm obs : Bool} {s t : State}
    (h : execConfig w0 bo el tm obs s = .next t) : ∃ u, NoAccess s u ∧ SameButOutcome u t := by
  refine endCommand_sameButOutcome h ?_
  split_ifs
  · exact NoAccess.refl s
  · exact NoAccess.refl s
  · exact NoAccess.refl s
  · exact notifyInit_configured_noAccess _ s

theorem execBwwrite_frame {value n : Nat} {s t : State} (h : execBwwrite value n s = .next t) :
    ∃ u, WriterFrame s u ∧ SameButOutcome u t := by
  refine endCommand_sameButOutcome h (whenConfigured_all (.refl s) ?_)
  split
  · exact WriterFrame.refl s
  · exact (bwWrite_writer value n s).bind_pure _

theorem execBwflush_frame {s t : State} (h : execBwflush s = .next t) : ∃ u, WriterFrame s u ∧ SameButOutcome u t :=
  endCommand_sameButOutcome h (whenConfigured_all (.refl s) ((bwFlush_writer s).bind_pure _))

theorem execBrread_frame {n : Nat} {s t : State} (h : execBrread n s = .next t) :
    ∃ u, ReaderFrame s u ∧ SameButOutcome u t := by
  refine endCommand_sameButOutcome h (whenConfigured_all (.refl s) ?_)
  split
  · exact ReaderFrame.refl s
  · exact (brRead_reader n s).bind_pure _

/-- BRRESET keeps, beside what every reader command keeps, the streams and BR_COUNT (41_bitreader.md R114). -/
theorem execBrreset_frame {s t : State} (h : execBrreset s = .next t) :
    ∃ u, (ReaderFrame s u ∧ u.io = s.io ∧ u.br.count = s.br.count) ∧ SameButOutcome u t :=
  endCommand_sameButOutcome h (whenConfigured_all ⟨.refl s, rfl, rfl⟩
    ((Res.all_ok _ _ _).mpr ⟨setBr_reader s _, rfl, rfl⟩))

theorem freshCompress_compress (s : State) : CompressFrame s (freshCompress s) := ⟨rfl, rfl, rfl, rfl, .refl _⟩

theorem execCompress_frame {s t : State} (h : execCompress s = .next t) :
    ∃ u, CompressFrame s u ∧ SameButOutcome u t := by
  have hall : (compressAll (freshCompress s)).All (CompressFrame s) :=
    (compressAll_compress _).mono fun _ hu => CompressFrame.trans _ _ _ (freshCompress_compress s) hu
  exact endCommand_sameButOutcome h (whenConfigured_all (.refl s) (hall.bind_pure _))

/-- DECOMPRESS has D's frame from its fresh session on, unless the block was not configured and it began none. -/
theorem execDecompress_frame {len : Word} {s t : State} (h : execDecompress len s = .next t) :
    ∃ u, (u = s ∨ DecompressFrame (freshDecompress len s) u) ∧ SameButOutcome u t := by
  have hall : (decompressAll len.toNat (freshDecompress len s)).All
      (fun u => u = s ∨ DecompressFrame (freshDecompress len s) u) :=
    (decompressAll_decompress _ _).mono fun _ => .inr
  exact endCommand_sameButOutcome h (whenConfigured_all (.inl rfl) (hall.bind_pure _))

/-- Settles O21: each command has its unit's frame up to the outcome registers, one arm for each command. -/
theorem unitsAreIndependent : Obligations.UnitsAreIndependent := by
  intro i s t h
  cases i with
  | config w0 bo el tm obs =>
    obtain ⟨u, hf, he⟩ := execConfig_frame h
    simp [he.io, hf.srcPos, hf.snk, hf.srcReads, hf.snkWrites]
  | bwwrite value n =>
    obtain ⟨u, hf, he⟩ := execBwwrite_frame h
    simp [he.br, he.c, he.d, he.expectedLen, he.io, hf.br, hf.c, hf.d, hf.regs, hf.srcPos, hf.srcReads]
  | bwflush =>
    obtain ⟨u, hf, he⟩ := execBwflush_frame h
    simp [he.br, he.c, he.d, he.expectedLen, he.io, hf.br, hf.c, hf.d, hf.regs, hf.srcPos, hf.srcReads]
  | brread n =>
    obtain ⟨u, hf, he⟩ := execBrread_frame h
    simp [he.bw, he.c, he.d, he.expectedLen, he.io, hf.bw, hf.c, hf.d, hf.regs, hf.snk, hf.snkWrites]
  | brreset =>
    obtain ⟨u, ⟨hf, hio, hcount⟩, he⟩ := execBrreset_frame h
    simp [he.bw, he.br, he.c, he.d, he.expectedLen, he.io, hf.bw, hf.c, hf.d, hf.regs, hio, hcount]
  | compress =>
    obtain ⟨u, hf, he⟩ := execCompress_frame h
    simp [he.br, he.d, he.expectedLen, hf.br, hf.d, hf.regs]
  | decompress len =>
    obtain ⟨u, rfl | hf, he⟩ := execDecompress_frame h
    · exact ⟨he.bw, he.c⟩
    · exact ⟨he.bw.trans hf.bw, he.c.trans hf.c⟩

end Sys2Proof.Machine
end

section
/-! SUPPORT. A raise always carries an error (60_exceptions.md R180, R181): no procedure of any unit raises with code OK. -/

namespace Sys2Proof.Machine

/-- Where the piece raises, the status is not OK. -/
def Res.RaisesError {α : Type} (r : Res α) : Prop :=
  match r with
  | .ok _ _ => True
  | .raised code _ _ _ => code ≠ .ok
  | .fault _ => True

@[simp] theorem Res.raisesError_ok {α : Type} (a : α) (s : State) : (Res.ok a s).RaisesError := trivial

@[simp] theorem Res.raisesError_raised {α : Type} (code : StatusCode) (i0 i1 : Nat) (s : State) :
    (Res.raised code i0 i1 s : Res α).RaisesError ↔ code ≠ .ok := Iff.rfl

@[simp] theorem Res.raisesError_fault {α : Type} (f : Fault) : (Res.fault f : Res α).RaisesError := trivial

theorem Res.RaisesError.bind {α β : Type} {r : Res α} {k : α → State → Res β} (h : r.RaisesError)
    (hk : ∀ a s, (k a s).RaisesError) : (r.bind k).RaisesError := by
  cases r with
  | ok a s => exact hk a s
  | raised code i0 i1 s => exact h
  | fault f => trivial

theorem memRead_raisesError (s : State) : (memRead s).RaisesError := by
  rcases memRead_cases s with ⟨b, -, -, h⟩ | ⟨-, -, h⟩ | ⟨-, h⟩ <;> simp [h]

theorem memWrite_raisesError (b : Byte) (s : State) : (memWrite b s).RaisesError := by
  rcases memWrite_cases b s with ⟨-, h⟩ | ⟨-, h⟩ <;> simp [h]

/-! ### BW -/

theorem bwDrainLoop_raisesError (fuel : Nat) (s : State) : (bwDrainLoop fuel s).RaisesError := by
  induction fuel generalizing s with
  | zero => trivial
  | succ n ih =>
    simp only [bwDrainLoop]
    split
    · exact (memWrite_raisesError _ s).bind fun _ _ => ih _
    · trivial

theorem bwWrite_raisesError (v n : Nat) (s : State) : (bwWrite v n s).RaisesError :=
  (bwDrainLoop_raisesError _ s).bind fun _ _ => bwDrainLoop_raisesError _ _

theorem bwFlush_raisesError (s : State) : (bwFlush s).RaisesError := by
  refine (bwDrainLoop_raisesError _ s).bind fun _ t => ?_
  split
  · exact (memWrite_raisesError _ t).bind fun _ _ => trivial
  · trivial

/-! ### BR -/

theorem brRefill_raisesError (n fuel : Nat) (s : State) : (brRefill n fuel s).RaisesError := by
  induction fuel generalizing s with
  | zero => trivial
  | succ k ih =>
    simp only [brRefill]
    split
    · trivial
    · refine (memRead_raisesError s).bind fun answer t => ?_
      cases answer with
      | none => trivial
      | some b => exact ih _

theorem brRead_raisesError (n : Nat) (s : State) : (brRead n s).RaisesError := by
  refine (brRefill_raisesError n n s).bind fun ending t => ?_
  cases ending with
  | filled => trivial
  | exhausted => cases htm : tmOf t.regs.cfg <;> simp

/-! ### C -/

theorem cWriteCode_raisesError (v : Nat) (kind : EvtKind) (s : State) : (cWriteCode v kind s).RaisesError :=
  bwWrite_raisesError _ _ _

theorem cAddTableEntry_raisesError (key : ByteString) (s : State) : (cAddTableEntry key s).RaisesError := by
  unfold cAddTableEntry
  split
  · split
    · trivial
    · exact (cWriteCode_raisesError _ _ s).bind fun _ _ => trivial
  · trivial

theorem cWriteRun_raisesError (s : State) : (cWriteRun s).RaisesError := by
  unfold cWriteRun
  split
  · exact cWriteCode_raisesError _ _ s
  · simp

theorem cScanByte_raisesError (b : Byte) (s : State) : (cScanByte b s).RaisesError := by
  unfold cScanByte
  split
  · trivial
  · exact (cWriteRun_raisesError s).bind fun _ t => (cAddTableEntry_raisesError _ t).bind fun _ _ => trivial

theorem cScan_raisesError (fuel : Nat) (s : State) : (cScan fuel s).RaisesError := by
  induction fuel generalizing s with
  | zero =>
    unfold cScan
    refine (memRead_raisesError s).bind fun answer t => ?_
    cases answer <;> trivial
  | succ k ih =>
    unfold cScan
    refine (memRead_raisesError s).bind fun answer t => ?_
    cases answer with
    | none => trivial
    | some b => exact (cScanByte_raisesError b _).bind fun _ u => ih u

theorem cFinish_raisesError (s : State) : (cFinish s).RaisesError := by
  refine Res.RaisesError.bind ?_ fun _ t => (cWriteCode_raisesError _ _ t).bind fun _ u => bwFlush_raisesError u
  split
  · trivial
  · exact cWriteRun_raisesError s

theorem compressAll_raisesError (s : State) : (compressAll s).RaisesError :=
  (cWriteCode_raisesError _ _ _).bind fun _ t => (cScan_raisesError _ t).bind fun _ u => cFinish_raisesError u

/-! ### D -/

theorem dNextCode_raisesError (s : State) : (dNextCode s).RaisesError :=
  (brRead_raisesError _ s).bind fun _ _ => trivial

theorem dEmit_raisesError (str : ByteString) (s : State) : (dEmit str s).RaisesError := by
  induction str generalizing s with
  | nil => trivial
  | cons b rest ih => exact (memWrite_raisesError b s).bind fun _ _ => ih _

theorem dAppend_raisesError (str : ByteString) (code : Nat) (s : State) : (dAppend str code s).RaisesError := by
  unfold dAppend
  split
  · simp
  · trivial

theorem dEntry_raisesError (c : Nat) (s : State) : (dEntry c s).RaisesError := by
  unfold dEntry
  split <;> trivial

theorem dKnown_raisesError (code old : Nat) (s : State) : (dKnown code old s).RaisesError :=
  (dEntry_raisesError _ s).bind fun _ t => (dEmit_raisesError _ t).bind fun _ u =>
    (dEntry_raisesError _ u).bind fun _ v => (dAppend_raisesError _ _ v).bind fun _ _ => trivial

theorem dKwKwK_raisesError (code old : Nat) (s : State) : (dKwKwK code old s).RaisesError :=
  (dEntry_raisesError _ s).bind fun _ t => (dEmit_raisesError _ t).bind fun _ u =>
    (dAppend_raisesError _ _ u).bind fun _ _ => trivial

theorem dSteadyCode_raisesError (code : Nat) (s : State) : (dSteadyCode code s).RaisesError := by
  unfold dSteadyCode
  split
  · simp
  · split
    · exact dKnown_raisesError _ _ s
    · split
      · exact dKwKwK_raisesError _ _ s
      · simp

theorem dPostClearCode_raisesError (code : Nat) (s : State) : (dPostClearCode code s).RaisesError := by
  unfold dPostClearCode
  split
  · simp
  · exact (dEntry_raisesError _ s).bind fun _ t => (dEmit_raisesError _ t).bind fun _ _ => trivial

theorem dDataCode_raisesError (label : DLabel) (code : Nat) (s : State) : (dDataCode label code s).RaisesError := by
  cases label with
  | code => exact dSteadyCode_raisesError code s
  | postClear => exact dPostClearCode_raisesError code s

theorem dLoop_raisesError (limit fuel : Nat) (label : DLabel) (s : State) : (dLoop limit fuel label s).RaisesError := by
  induction fuel generalizing label s with
  | zero => trivial
  | succ k ih =>
    simp only [dLoop]
    refine (dNextCode_raisesError s).bind fun code t => ?_
    split
    · trivial
    · split
      · split
        · trivial
        · exact ih _ _
      · refine (dDataCode_raisesError label code t).bind fun _ u => ?_
        split
        · trivial
        · exact ih _ u

theorem decompressAll_raisesError (limit : Nat) (s : State) : (decompressAll limit s).RaisesError :=
  dLoop_raisesError _ _ _ _

end Sys2Proof.Machine
end

section
/-! SUPPORT. How a command ends, said once for every command: the registers its pseudocode leaves, what it returns, and that
a raise carries an error (10_state.md R22 to R25, 60_exceptions.md R181, R182). -/

namespace Sys2Proof.Machine

/-- The registers of a command's pseudocode where it raises: the ones it began with, and DECOMPRESS has loaded EXPECTED_LEN
once it has passed the configuration check (44_decompressor.md R157). -/
def regsAtRaise (i : Instr) (s : State) : Regs :=
  match i with
  | .decompress len => if configuredFlag s.regs.status then { s.regs with expectedLen := len } else s.regs
  | .config _ _ _ _ _ => s.regs
  | .bwwrite _ _ => s.regs
  | .bwflush => s.regs
  | .brread _ => s.regs
  | .brreset => s.regs
  | .compress => s.regs

/-- The registers of a command's pseudocode where it returns: CONFIG has loaded CFG, set CONFIGURED, cleared ERRLATCH and
zeroed EXPECTED_LEN (40_config.md R100, R102). -/
def regsAtReturn (i : Instr) (s : State) : Regs :=
  match i with
  | .config w0 bo el tm obs =>
    { s.regs with cfg := cfgWord w0 bo el tm obs, status := statusConfigured, expectedLen := 0#32 }
  | i => regsAtRaise i s

/-- What a command that ended with the pseudocode's state `u` may return (10_state.md R22, R24, 41_bitreader.md R113). -/
def MayReturn (i : Instr) (s : State) (r : Returned) (u : State) : Prop :=
  match i with
  | .brread _ =>
    r.result.toNat ≤ 4095 ∧ (r.sentinel = true → r.result = BitVec.ofNat 32 tiffSentinel ∧ tmOf s.regs.cfg = true)
  | .compress => r = { result := u.bw.count, sentinel := false }
  | .decompress _ => r = { result := BitVec.ofNat 32 u.d.written, sentinel := false }
  | .config _ _ _ _ _ => r = returnedNothing
  | .bwwrite _ _ => r = returnedNothing
  | .bwflush => r = returnedNothing
  | .brreset => r = returnedNothing

/-- The two ends of a command (60_exceptions.md R181): a return, or a raise with an error, which CONFIG's own raise joins
with clearing CONFIGURED. -/
inductive CommandEnd (i : Instr) (s : State) : State → Prop
  | returned (r : Returned) (u : State) (hregs : u.regs = regsAtReturn i s) (hr : MayReturn i s r u) :
      CommandEnd i s (takeReturn r u)
  | raised (code : StatusCode) (i0 i1 : Nat) (u : State) (hregs : u.regs = regsAtRaise i s) (hcode : code ≠ .ok) :
      CommandEnd i s (takeRaise (isConfig i) code i0 i1 u)

/-- A command refused by the configuration check has loaded nothing. -/
theorem regsAtRaise_off {s : State} (h : configuredFlag s.regs.status = false) (i : Instr) : regsAtRaise i s = s.regs := by
  cases i with
  | decompress len => simp [regsAtRaise, h]
  | _ => rfl

theorem regsAtReturn_of_not_config {i : Instr} (hi : isConfig i = false) (s : State) : regsAtReturn i s = regsAtRaise i s := by
  cases i with
  | config w0 bo el tm obs => cases hi
  | _ => rfl

@[simp] theorem regsAtRaise_status (i : Instr) (s : State) : (regsAtRaise i s).status = s.regs.status := by
  cases i with
  | decompress len => simp only [regsAtRaise]; split <;> rfl
  | _ => rfl

/-- Only a CONFIG that returns clears ERRLATCH before its end. -/
@[simp] theorem regsAtReturn_errLatch (i : Instr) (s : State) :
    errLatchFlag (regsAtReturn i s).status = (!isConfig i && errLatchFlag s.regs.status) := by
  cases i with
  | config w0 bo el tm obs => exact errLatchFlag_statusWord _ _ _ _
  | _ => simp [regsAtReturn, isConfig]

/-- Only a CONFIG that returns sets CONFIGURED. -/
@[simp] theorem regsAtReturn_configured (i : Instr) (s : State) :
    configuredFlag (regsAtReturn i s).status = (isConfig i || configuredFlag s.regs.status) := by
  cases i with
  | config w0 bo el tm obs => exact configuredFlag_statusWord _ _ _ _
  | _ => simp [regsAtReturn, isConfig]

/-- Every raise leaves a code other than OK in STATUS. -/
theorem codeField_raised_ne_zero {code : StatusCode} (h : code ≠ .ok) (b : Bool) (i0 i1 : Nat) (s : State) :
    codeField (takeRaise b code i0 i1 s).regs.status ≠ 0 := by
  simpa [raisedRegs, statusNumber_eq_zero] using h

/-- Every return leaves OK in STATUS. -/
theorem codeField_returned (r : Returned) (s : State) : codeField (takeReturn r s).regs.status = 0 := by
  simp [returnedRegs, statusNumber]

/-- The end of a command that is not CONFIG: it is enough to say how its body ends when the block is configured. -/
theorem commandEnd_of_body {i : Instr} (hi : isConfig i = false) {op : Nat} {s t : State} {body : State → Res Returned}
    (ht : endCommand false (whenConfigured op s body) = .next t)
    (hregs : Configured s → (body s).All fun u => u.regs = regsAtRaise i s) (herr : (body s).RaisesError)
    (hret : ∀ r u, body s = .ok r u → MayReturn i s r u) : CommandEnd i s t := by
  cases hc : configuredFlag s.regs.status with
  | false =>
    rw [whenConfigured_off hc] at ht
    cases ht
    exact hi ▸ .raised .notConfigured op 0 s (regsAtRaise_off hc i).symm (by decide)
  | true =>
    rw [whenConfigured_on hc] at ht
    have hall := hregs hc
    rcases endCommand_next ht with ⟨r, u, hb, rfl⟩ | ⟨code, i0, i1, u, hb, rfl⟩
    · rw [hb] at hall
      exact .returned r u (hall.trans (regsAtReturn_of_not_config hi s).symm) (hret r u hb)
    · rw [hb] at hall herr
      exact hi ▸ .raised code i0 i1 u hall herr

/-- Where a piece and its returned value go on, the piece went on. -/
theorem Res.bind_pure_eq_ok {α β : Type} {r : Res α} {f : α → State → β} {x : β} {u : State}
    (h : (r.bind fun a s => .ok (f a s) s) = .ok x u) : ∃ a, r = .ok a u ∧ x = f a u := by
  cases r with
  | ok a s => cases h; exact ⟨a, rfl, rfl⟩
  | raised code i0 i1 s => cases h
  | fault f => cases h

/-- What `br_read(n)` returns from any state (41_bitreader.md R112, R113): a code of `n` bits, or with `TM = 1` the
sentinel 257. -/
theorem brRead_ok {n : Nat} {s u : State} {r : Nat × ReadKind} (h : brRead n s = .ok r u) :
    (r.1 < 2 ^ n ∧ r.2 = .code) ∨ (r = (tiffSentinel, .sentinel) ∧ tmOf s.regs.cfg = true) := by
  have hframe := brRefill_reader n n s
  unfold brRead at h
  cases hfill : brRefill n n s with
  | ok ending t =>
    rw [hfill] at h hframe
    cases ending with
    | filled =>
      cases h
      exact .inl ⟨brExtractCode_lt _ _ _, rfl⟩
    | exhausted =>
      have hregs : t.regs = s.regs := ReaderFrame.regs hframe
      cases htm : tmOf t.regs.cfg with
      | true =>
        simp only [Res.bind_ok, htm, if_true] at h
        cases h
        exact .inr ⟨rfl, hregs ▸ htm⟩
      | false => simp [htm] at h
  | raised code i0 i1 t => rw [hfill] at h; cases h
  | fault f => rw [hfill] at h; cases h

theorem execConfig_end {w0 bo : Nat} {el tm obs : Bool} {s t : State} (h : execConfig w0 bo el tm obs s = .next t) :
    CommandEnd (.config w0 bo el tm obs) s t := by
  unfold execConfig at h
  split_ifs at h
  · cases h
    exact .raised .unknownByteOrder bo 0 s rfl (by decide)
  · cases h
    exact .raised .invalidArgument w0 1 s rfl (by decide)
  · cases h
    exact .raised .invalidArgument w0 3 s rfl (by decide)
  · cases h
    exact .returned returnedNothing _ (by simp only [notifyInit, notify_regs]; rfl) rfl

theorem execBwwrite_end {value n : Nat} {s t : State} (h : execBwwrite value n s = .next t) :
    CommandEnd (.bwwrite value n) s t := by
  refine commandEnd_of_body rfl h (fun _ => ?_) ?_ fun r u hr => ?_
  · split
    · rfl
    · exact ((bwWrite_writer value n s).mono fun _ => WriterFrame.regs).bind_pure _
  · split
    · simp
    · exact (bwWrite_raisesError value n s).bind fun _ _ => trivial
  · split at hr
    · cases hr
    · exact (Res.bind_pure_eq_ok hr).elim fun _ h => h.2

theorem execBwflush_end {s t : State} (h : execBwflush s = .next t) : CommandEnd .bwflush s t :=
  commandEnd_of_body rfl h (fun _ => ((bwFlush_writer s).mono fun _ => WriterFrame.regs).bind_pure _)
    ((bwFlush_raisesError s).bind fun _ _ => trivial) fun _ _ hr => (Res.bind_pure_eq_ok hr).elim fun _ h => h.2

theorem execBrread_end {n : Nat} {s t : State} (h : execBrread n s = .next t) : CommandEnd (.brread n) s t := by
  refine commandEnd_of_body rfl h (fun _ => ?_) ?_ fun r u hr => ?_
  · split
    · rfl
    · exact ((brRead_reader n s).mono fun _ => ReaderFrame.regs).bind_pure _
  · split
    · simp
    · exact (brRead_raisesError n s).bind fun _ _ => trivial
  · split at hr
    · cases hr
    · rename_i hn
      obtain ⟨⟨v, kind⟩, hread, rfl⟩ := Res.bind_pure_eq_ok hr
      rcases brRead_ok hread with ⟨hv, hk⟩ | ⟨heq, htm⟩
      · have hv12 : v < 2 ^ 12 := hv.trans_le (Nat.pow_le_pow_right (by decide) (by omega))
        have hmod : v % 2 ^ 32 ≤ v := Nat.mod_le _ _
        refine ⟨?_, ?_⟩
        · rw [BitVec.toNat_ofNat]
          omega
        · obtain rfl : kind = .code := hk
          exact fun h => by cases h
      · cases heq
        exact ⟨by decide, fun _ => ⟨rfl, htm⟩⟩

theorem execBrreset_end {s t : State} (h : execBrreset s = .next t) : CommandEnd .brreset s t :=
  commandEnd_of_body rfl h (fun _ => rfl) trivial fun _ _ hr => by cases hr; rfl

theorem execCompress_end {s t : State} (h : execCompress s = .next t) : CommandEnd .compress s t :=
  commandEnd_of_body rfl h (fun _ => ((compressAll_compress _).mono fun _ hf => hf.regs).bind_pure _)
    ((compressAll_raisesError _).bind fun _ _ => trivial) fun _ _ hr => (Res.bind_pure_eq_ok hr).elim fun _ h => h.2

theorem execDecompress_end {len : Word} {s t : State} (h : execDecompress len s = .next t) :
    CommandEnd (.decompress len) s t := by
  refine commandEnd_of_body rfl h (fun hc => ?_) ((decompressAll_raisesError _ _).bind fun _ _ => trivial)
    fun _ _ hr => (Res.bind_pure_eq_ok hr).elim fun _ h => h.2
  have hfresh : (freshDecompress len s).regs = regsAtRaise (.decompress len) s := (if_pos hc).symm
  exact ((decompressAll_decompress _ _).mono fun _ hf => hf.regs.trans hfresh).bind_pure _

/-- How every command ends. -/
theorem exec_end {i : Instr} {s t : State} (h : exec i s = .next t) : CommandEnd i s t := by
  cases i with
  | config w0 bo el tm obs => exact execConfig_end h
  | bwwrite value n => exact execBwwrite_end h
  | bwflush => exact execBwflush_end h
  | brread n => exact execBrread_end h
  | brreset => exact execBrreset_end h
  | compress => exact execCompress_end h
  | decompress len => exact execDecompress_end h

/-- Only BRREAD returns SENTINEL, with RESULT 257 and `TM = 1`. -/
theorem MayReturn.sentinel {i : Instr} {s u : State} {r : Returned} (h : MayReturn i s r u) (hs : r.sentinel = true) :
    ∃ n, i = .brread n ∧ r.result = 257#32 ∧ tmOf s.regs.cfg = true := by
  cases i with
  | brread n => exact ⟨n, rfl, h.2 hs⟩
  | _ => cases h; cases hs

end Sys2Proof.Machine
end

section
/-! The obligations of 10_state.md. -/

namespace Sys2Proof.Machine

/-- Settles O16: both ends of a command write STATUS from its fields (R181), so every clause is read off the word written. -/
theorem statusRule : Obligations.StatusRule := by
  intro i s t h
  cases exec_end h with
  | returned r u hregs hr =>
    refine ⟨statusWord_lt _ _ _ _, ?_, ?_, ?_, fun hs => ?_⟩
    · exact (codeField_returned r u).trans_le (Nat.zero_le 9)
    · simp [returnedRegs, hregs, statusNumber]
    · cases hi : isConfig i <;> simp [returnedRegs, hregs, hi, statusNumber]
    · obtain ⟨n, hi, hres, htm⟩ := hr.sentinel (by simpa [returnedRegs] using hs)
      exact ⟨n, hi, codeField_returned r u, hres, htm⟩
  | raised code i0 i1 u hregs hcode =>
    have hne := codeField_raised_ne_zero hcode (isConfig i) i0 i1 u
    refine ⟨statusWord_lt _ _ _ _, ?_, ?_, ?_, fun hs => ?_⟩
    · simp [raisedRegs, statusNumber_le]
    · exact ⟨fun _ => .inl hne, fun _ => by simp [raisedRegs]⟩
    · cases hi : isConfig i <;> simp [raisedRegs, hregs, statusNumber_eq_zero, hcode]
    · simp [raisedRegs] at hs

/-- Settles O17: a return zeroes ERRINFO and leaves what the command returned, an error zeroes RESULT. -/
theorem resultRule : Obligations.ResultRule := by
  intro i s t h
  cases exec_end h with
  | returned r u hregs hr =>
    refine ⟨fun _ => ⟨rfl, rfl⟩, fun hne => absurd (codeField_returned r u) hne, fun _ => ?_⟩
    cases i with
    | brread n => exact hr.1
    | _ => cases hr; rfl
  | raised code i0 i1 u hregs hcode =>
    have hne := codeField_raised_ne_zero hcode (isConfig i) i0 i1 u
    exact ⟨fun h0 => absurd h0 hne, fun _ => rfl, fun h0 => absurd h0 hne⟩

/-- Settles O55: neither end writes EXPECTED_LEN, so it is what the command's pseudocode left. -/
theorem expectedLenRule : Obligations.ExpectedLenRule := by
  intro i s t h
  cases exec_end h with
  | returned r u hregs hr =>
    have hlen : (takeReturn r u).regs.expectedLen = (regsAtReturn i s).expectedLen :=
      (takeReturn_sameButOutcome r u).expectedLen.trans (congrArg Regs.expectedLen hregs)
    cases i with
    | config w0 bo el tm obs => exact hlen.trans (if_pos (codeField_returned r u)).symm
    | decompress len => exact hlen.trans (apply_ite Regs.expectedLen _ _ _)
    | _ => exact hlen
  | raised code i0 i1 u hregs hcode =>
    have hlen : (takeRaise (isConfig i) code i0 i1 u).regs.expectedLen = (regsAtRaise i s).expectedLen :=
      (takeRaise_sameButOutcome _ code i0 i1 u).expectedLen.trans (congrArg Regs.expectedLen hregs)
    cases i with
    | config w0 bo el tm obs => exact hlen.trans (if_neg (codeField_raised_ne_zero hcode _ i0 i1 u)).symm
    | decompress len => exact hlen.trans (apply_ite Regs.expectedLen _ _ _)
    | _ => exact hlen

/-- Settles O1: each register, cache and table at its line of R35, and no entry of either table. -/
theorem resetStateValues : Obligations.ResetStateValues :=
  ⟨rfl, rfl, rfl, rfl, rfl, rfl, rfl, rfl, rfl, rfl, rfl, rfl, rfl, rfl, rfl, fun _ => rfl, rfl, rfl, rfl, rfl,
    fun _ => rfl, rfl, rfl⟩

end Sys2Proof.Machine
end

section
/-! SUPPORT. Sequences of codes through BW and BR (20_memory.md R55): what BWWRITE, BWFLUSH and BRREAD do to the bits of the
streams when no access is refused, and runs of them over a list of codes. -/

namespace Sys2Proof.Machine

/-- A piece that never raises goes on. -/
theorem Res.Meets.returns {α : Type} {r : Res α} {P : α → State → Prop} (h : r.Meets P fun _ _ _ _ => False) :
    ∃ a t, r = .ok a t ∧ P a t := by
  cases r with
  | ok a t => exact ⟨a, t, rfl, h⟩
  | raised code i0 i1 t => exact h.elim
  | fault f => exact h.elim

/-- A return keeps CONFIGURED (60_exceptions.md R181). -/
theorem Configured.takeReturn {s u : State} (h : Configured s) (hregs : u.regs = s.regs) (r : Returned) :
    Configured (takeReturn r u) := by
  simpa [Configured, returnedRegs, hregs] using h

/-- BWWRITE past its checks is `bw_write` (42_bitwriter.md R124). -/
theorem exec_bwwrite_of_legal {v n : Nat} {s : State} (h : Configured s) (hlow : 1 ≤ n) (hhigh : n ≤ 12) :
    exec (.bwwrite v n) s = endCommand false ((bwWrite v n s).bind fun _ u => .ok returnedNothing u) := by
  have hlegal : ¬(n < 1 ∨ 12 < n) := by omega
  simp only [exec, execBwwrite, whenConfigured_on h, if_neg hlegal]

/-- BWFLUSH past its check is `bw_flush` (42_bitwriter.md R126). -/
theorem exec_bwflush_of_configured {s : State} (h : Configured s) :
    exec .bwflush s = endCommand false ((bwFlush s).bind fun _ u => .ok returnedNothing u) := by
  simp only [exec, execBwflush, whenConfigured_on h]

/-- BRREAD past its checks is `br_read` (41_bitreader.md R115). -/
theorem exec_brread_of_legal {n : Nat} {s : State} (h : Configured s) (hlow : 1 ≤ n) (hhigh : n ≤ 12) :
    exec (.brread n) s = endCommand false ((brRead n s).bind fun r u =>
      .ok { result := BitVec.ofNat 32 r.1, sentinel := isSentinel r.2 } u) := by
  have hlegal : ¬(n < 1 ∨ 12 < n) := by omega
  simp only [exec, execBrread, whenConfigured_on h, if_neg hlegal]

/-- The bits of codes, each with its width, written one after another (30_encoding.md R72, R73). -/
def packedBits (order : ByteOrder) (codes : List (Nat × Nat)) : List Bool :=
  codes.flatMap fun p => codeBits order p.2 p.1

@[simp] theorem packedBits_nil (order : ByteOrder) : packedBits order [] = [] := rfl

@[simp] theorem packedBits_cons (order : ByteOrder) (p : Nat × Nat) (codes : List (Nat × Nat)) :
    packedBits order (p :: codes) = codeBits order p.2 p.1 ++ packedBits order codes := rfl

/-! ### Packing -/

/-- BW's commands complete from here: the block is configured and SNK accepts every byte. -/
structure CanPack (s : State) : Prop where
  configured : Configured s
  cache : CacheSound 19 s.bw
  accepts : SnkAccepts s

/-- What the commands of BW leave for those of BR, and that they only append to the streams (42_bitwriter.md R120). -/
structure PackFrame (s t : State) : Prop where
  cfg : t.regs.cfg = s.regs.cfg
  br : t.br = s.br
  grow : StreamsGrow s.io t.io

theorem PackFrame.trans {a b c : State} (h : PackFrame a b) (h' : PackFrame b c) : PackFrame a c :=
  ⟨h'.cfg.trans h.cfg, h'.br.trans h.br, h.grow.trans h'.grow⟩

theorem WriterFrame.pack {s u : State} (h : WriterFrame s u) (r : Returned) : PackFrame s (takeReturn r u) :=
  ⟨(takeReturn_sameButOutcome r u).cfg.trans (congrArg Regs.cfg h.regs), h.br, h.grow⟩

/-- A piece of BW that returned leaves BW able to go on. -/
theorem CanPack.takeReturn {s u : State} (h : CanPack s) (hw : WriterFrame s u) (hc : CacheSound 19 u.bw) (r : Returned) :
    CanPack (takeReturn r u) :=
  ⟨h.configured.takeReturn hw.regs r, hc, h.accepts.later hw.grow⟩

/-- BWWRITE appends its code to the written bits (42_bitwriter.md R121, R122). -/
theorem execBwwrite_packs {v n : Nat} {s : State} (h : CanPack s) (hlow : 1 ≤ n) (hhigh : n ≤ 12) :
    ∃ t, exec (.bwwrite v n) s = .next t ∧ CanPack t ∧ PackFrame s t ∧
      writtenBits t = writtenBits s ++ codeBits (byteOrderOf s.regs.cfg) n v := by
  have hwrite := ((bwWrite_meets v n hhigh s h.cache).andAll (bwWrite_writer v n s)).mono (fun _ _ => id)
    fun _ _ _ _ hraise => not_snkFailed h.accepts hraise.1.2.2.2.2.2
  obtain ⟨_, u, hu, ⟨hc, -, hbits⟩, hw⟩ := hwrite.returns
  refine ⟨takeReturn returnedNothing u, ?_, h.takeReturn hw (hc.mono (by decide)) _, hw.pack _, hbits⟩
  simp [exec_bwwrite_of_legal h.configured hlow hhigh, hu]

/-- BWFLUSH completes the written bits to whole bytes, all in SNK (42_bitwriter.md R125). -/
theorem execBwflush_packs {s : State} (h : CanPack s) :
    ∃ t pad, exec .bwflush s = .next t ∧ CanPack t ∧ PackFrame s t ∧
      streamBits (byteOrderOf s.regs.cfg) t.io.snk = writtenBits s ++ pad := by
  have hflush := ((bwFlush_meets s h.cache).andAll (bwFlush_writer s)).mono (fun _ _ => id)
    fun _ _ _ _ hraise => not_snkFailed h.accepts hraise.1.2.2.2.2
  obtain ⟨_, u, hu, ⟨hcache, hempty, hbits⟩, hw⟩ := hflush.returns
  have hc : CacheSound 19 u.bw := ⟨by simp [hcache], by simp [hempty]⟩
  have hsnk : writtenBits u = streamBits (byteOrderOf s.regs.cfg) u.io.snk := by
    simp [writtenBits, pendingBits, hempty, hw.regs]
  refine ⟨takeReturn returnedNothing u, _, ?_, h.takeReturn hw hc _, hw.pack _, hsnk.symm.trans hbits⟩
  simp [exec_bwflush_of_configured h.configured, hu]

/-- A list of BWWRITEs and a BWFLUSH put the codes' bits into SNK, one after another. -/
theorem runCommands_packs (codes : List (Nat × Nat)) {s : State} (h : CanPack s)
    (hlegal : ∀ p ∈ codes, 1 ≤ p.2 ∧ p.2 ≤ 12) :
    ∃ t pad, runCommands (codes.map (fun p => .bwwrite p.1 p.2) ++ [.bwflush]) s = .next t ∧ CanPack t ∧ PackFrame s t ∧
      streamBits (byteOrderOf s.regs.cfg) t.io.snk = writtenBits s ++ packedBits (byteOrderOf s.regs.cfg) codes ++ pad := by
  induction codes generalizing s with
  | nil =>
    obtain ⟨t, pad, hexec, ht, hf, hbits⟩ := execBwflush_packs h
    exact ⟨t, pad, by simp [runCommands, hexec], ht, hf, by simp [hbits]⟩
  | cons p codes ih =>
    obtain ⟨hp, hcodes⟩ := List.forall_mem_cons.mp hlegal
    obtain ⟨t, hexec, ht, hf, hbits⟩ := execBwwrite_packs (v := p.1) h hp.1 hp.2
    obtain ⟨u, pad, hrun, hu, hf', hbits'⟩ := ih ht hcodes
    refine ⟨u, pad, by simp [runCommands, hexec, hrun], hu, hf.trans hf', ?_⟩
    rw [hf.cfg] at hbits'
    simp [hbits', hbits]

/-! ### Unpacking -/

/-- BRREAD completes from here: the block is configured and SRC refuses no access. -/
structure CanUnpack (s : State) : Prop where
  configured : Configured s
  cache : CacheSound 11 s.br
  answers : SrcAnswers s

/-- Codes of one width are told apart by their bits. -/
theorem codeBits_inj {o : ByteOrder} {n v w : Nat} (hv : v < 2 ^ n) (hw : w < 2 ^ n)
    (h : codeBits o n v = codeBits o n w) : v = w := by
  rw [← codeOfBits_codeBits o hv, h, codeOfBits_codeBits o hw]

/-- Where the unread bits begin with a code's, `br_read` returns that code (41_bitreader.md R110 to R112): neither END nor a
FAIL stands in its way. -/
theorem brRead_unpacks {v n : Nat} {s : State} {rest : List Bool} (h : CanUnpack s) (hn : n ≤ 12) (hv : v < 2 ^ n)
    (hbits : unreadBits s = codeBits (byteOrderOf s.regs.cfg) n v ++ rest) :
    ∃ u, brRead n s = .ok (v, .code) u ∧ CacheSound 11 u.br ∧ ReaderFrame s u ∧ unreadBits u = rest := by
  have henough : ¬ (unreadBits s).length < n := by simp [hbits]
  have hread := ((brRead_meets n s hn h.cache).andAll (brRead_reader n s)).mono (fun _ _ => id)
    (Q' := fun _ _ _ _ => False) fun _ _ _ _ ⟨⟨_, _, hwhy⟩, _⟩ => by
      rcases hwhy with ⟨-, -, -, -, hshort⟩ | ⟨-, -, -, hfail⟩
      · exact henough hshort
      · exact not_srcFailed h.answers hfail
  obtain ⟨⟨x, kind⟩, u, hu, ⟨hc, hcode | ⟨-, -, -, hshort⟩⟩, hf⟩ := hread.returns
  · obtain ⟨rfl, hx, hsplit⟩ := hcode
    obtain ⟨hsame, hrest⟩ := List.append_inj (hsplit.symm.trans hbits) (by simp)
    obtain rfl := codeBits_inj hx hv hsame
    exact ⟨u, hu, hc, hf, hrest⟩
  · exact absurd hshort henough

/-- BRREAD returns the code whose bits come next (41_bitreader.md R115). -/
theorem execBrread_unpacks {v n : Nat} {s : State} {rest : List Bool} (h : CanUnpack s) (hlow : 1 ≤ n) (hhigh : n ≤ 12)
    (hv : v < 2 ^ n) (hbits : unreadBits s = codeBits (byteOrderOf s.regs.cfg) n v ++ rest) :
    ∃ t, exec (.brread n) s = .next t ∧ CanUnpack t ∧ t.regs.cfg = s.regs.cfg ∧ unreadBits t = rest ∧
      codeField t.regs.status = 0 ∧ sentinelFlag t.regs.status = false ∧ t.regs.result.toNat = v := by
  obtain ⟨u, hu, hc, hf, hrest⟩ := brRead_unpacks h hhigh hv hbits
  have hv12 : v < 2 ^ 12 := hv.trans_le (Nat.pow_le_pow_right (by decide) hhigh)
  have hcfg : u.regs.cfg = s.regs.cfg := congrArg Regs.cfg hf.regs
  refine ⟨takeReturn { result := BitVec.ofNat 32 v, sentinel := false } u, ?_,
    ⟨h.configured.takeReturn hf.regs _, hc, h.answers.later hf.grow⟩, hcfg, hrest, codeField_returned _ u, ?_, ?_⟩
  · simp [exec_brread_of_legal h.configured hlow hhigh, hu, isSentinel]
  · simp [returnedRegs]
  · show (BitVec.ofNat 32 v).toNat = v
    rw [BitVec.toNat_ofNat]
    omega

/-- A list of BRREADs reads the codes whose bits come next. -/
theorem readResults_unpacks (codes : List (Nat × Nat)) {s : State} {pad : List Bool} (h : CanUnpack s)
    (hlegal : ∀ p ∈ codes, 1 ≤ p.2 ∧ p.2 ≤ 12 ∧ p.1 < 2 ^ p.2)
    (hbits : unreadBits s = packedBits (byteOrderOf s.regs.cfg) codes ++ pad) :
    readResults (codes.map Prod.snd) s = some (codes.map Prod.fst) := by
  induction codes generalizing s with
  | nil => rfl
  | cons p codes ih =>
    obtain ⟨⟨hlow, hhigh, hv⟩, hcodes⟩ := List.forall_mem_cons.mp hlegal
    rw [packedBits_cons, List.append_assoc] at hbits
    obtain ⟨t, hexec, ht, hcfg, hrest, hok, hcode, hresult⟩ := execBrread_unpacks h hlow hhigh hv hbits
    rw [← hcfg] at hrest
    simp [readResults, hexec, hok, hcode, hresult, ih ht hcodes hrest]

/-- With BR empty, a fresh binding leaves exactly the bits of its bytes unread (20_memory.md R51). -/
theorem unreadBits_bindSource {s : State} (h : s.br.bits = 0) (bytes : List Byte) :
    unreadBits (bindSource bytes s) = streamBits (byteOrderOf s.regs.cfg) bytes := by
  simp [unreadBits, unreadBytes, bindSource, hostAct, pendingBits, h]

end Sys2Proof.Machine
end

section
/-! SUPPORT. The accesses to SRC and SNK that the pseudocode makes, each accounted for (20_memory.md R51, R52): an access moves
at most one byte, and one that is answered FAIL is the last before `IoError`. -/

namespace Sys2Proof.Machine

/-- The streams grow, and each access consumes or appends at most one byte (20_memory.md R59). -/
structure ByteByAccess (a b : Streams) : Prop extends StreamsGrow a b where
  srcBytes : b.srcPos + a.srcReads ≤ a.srcPos + b.srcReads
  snkBytes : b.snk.length + a.snkWrites ≤ a.snk.length + b.snkWrites

theorem ByteByAccess.trans {a b c : Streams} (h : ByteByAccess a b) (h' : ByteByAccess b c) : ByteByAccess a c where
  toStreamsGrow := h.toStreamsGrow.trans h'.toStreamsGrow
  srcBytes := by
    have := h.srcBytes
    have := h'.srcBytes
    omega
  snkBytes := by
    have := h.snkBytes
    have := h'.snkBytes
    omega

/-- None of the accesses between `a` and `b` was answered FAIL. -/
structure Answered (a b : Streams) : Prop extends ByteByAccess a b where
  reads : ∀ k, a.srcReads ≤ k → k < b.srcReads → ioFails a.script .src k = false
  writes : ∀ k, a.snkWrites ≤ k → k < b.snkWrites → ioFails a.script .snk k = false

/-- Streams that grew with no access made. -/
theorem Answered.of_no_access {a b : Streams} (h : StreamsGrow a b) (hpos : b.srcPos = a.srcPos) (hsnk : b.snk = a.snk)
    (hreads : b.srcReads = a.srcReads) (hwrites : b.snkWrites = a.snkWrites) : Answered a b :=
  ⟨⟨h, by rw [hpos, hreads], by rw [hsnk, hwrites]⟩, fun k _ _ => by omega, fun k _ _ => by omega⟩

theorem Answered.refl (a : Streams) : Answered a a := .of_no_access (.refl a) rfl rfl rfl rfl

theorem Answered.trans {a b c : Streams} (h : Answered a b) (h' : Answered b c) : Answered a c where
  toByteByAccess := h.toByteByAccess.trans h'.toByteByAccess
  reads := fun k hk hkc => by
    rcases Nat.lt_or_ge k b.srcReads with hlt | hge
    · exact h.reads k hk hlt
    · exact h.script ▸ h'.reads k hge hkc
  writes := fun k hk hkc => by
    rcases Nat.lt_or_ge k b.snkWrites with hlt | hge
    · exact h.writes k hk hlt
    · exact h.script ▸ h'.writes k hge hkc

/-- A SRC access that fails comes after those that were answered. -/
theorem Answered.le_failed_read {a b : Streams} (h : Answered a b) {k : Nat} (hk : a.srcReads ≤ k)
    (hf : ioFails a.script .src k = true) : b.srcReads ≤ k :=
  Nat.le_of_not_lt fun hlt => by simp [h.reads k hk hlt] at hf

/-- A SNK access that fails comes after those that were answered. -/
theorem Answered.le_failed_write {a b : Streams} (h : Answered a b) {k : Nat} (hk : a.snkWrites ≤ k)
    (hf : ioFails a.script .snk k = true) : b.snkWrites ≤ k :=
  Nat.le_of_not_lt fun hlt => by simp [h.writes k hk hlt] at hf

/-- One access answered FAIL, with the number by which ERRINFO0 names its stream: 0 is SRC (41_bitreader.md R117), 1 is SNK
(42_bitwriter.md R120). -/
inductive Refused (a : Streams) : Nat → Streams → Prop
  | read (h : ioFails a.script .src a.srcReads = true) : Refused a 0 { a with srcReads := a.srcReads + 1 }
  | write (h : ioFails a.script .snk a.snkWrites = true) : Refused a 1 { a with snkWrites := a.snkWrites + 1 }

/-- A refused access moves no byte. -/
theorem Refused.byteByAccess {a b : Streams} {i0 : Nat} (h : Refused a i0 b) : ByteByAccess a b := by
  have hrefl := StreamsGrow.refl a
  cases h with
  | read => exact ⟨{ hrefl with srcReads := Nat.le_succ _ }, Nat.le_succ _, Nat.le_refl _⟩
  | write => exact ⟨{ hrefl with snkWrites := Nat.le_succ _ }, Nat.le_refl _, Nat.le_succ _⟩

/-- The accesses before a raise of `code(i0, _)`: `IoError` comes right after the one access that was refused, any other raise
after accesses that were all answered. -/
inductive RaiseAccounted (a : Streams) : StatusCode → Nat → Streams → Prop
  | refused {u b : Streams} {i0 : Nat} (h : Answered a u) (hr : Refused u i0 b) : RaiseAccounted a .ioError i0 b
  | answered {code : StatusCode} {i0 : Nat} {b : Streams} (hcode : code ≠ .ioError) (h : Answered a b) :
      RaiseAccounted a code i0 b

theorem RaiseAccounted.earlier {a b c : Streams} {code : StatusCode} {i0 : Nat} (g : Answered a b)
    (h : RaiseAccounted b code i0 c) : RaiseAccounted a code i0 c := by
  cases h with
  | refused h hr => exact .refused (g.trans h) hr
  | answered hcode h => exact .answered hcode (g.trans h)

/-- The accesses a piece makes from the streams `a` on are accounted for where it goes on and where it raises. -/
def Res.Accounted {α : Type} (r : Res α) (a : Streams) : Prop :=
  match r with
  | .ok _ t => Answered a t.io
  | .raised code i0 _ t => RaiseAccounted a code i0 t.io
  | .fault _ => True

theorem Res.Accounted.earlier {α : Type} {r : Res α} {a b : Streams} (g : Answered a b) (h : r.Accounted b) :
    r.Accounted a := by
  cases r with
  | ok x t => exact g.trans h
  | raised code i0 i1 t => exact RaiseAccounted.earlier g h
  | fault f => trivial

theorem Res.Accounted.bind {α β : Type} {r : Res α} {k : α → State → Res β} {a : Streams} (h : r.Accounted a)
    (hk : ∀ x t, (k x t).Accounted t.io) : (r.bind k).Accounted a := by
  cases r with
  | ok x t => exact (hk x t).earlier h
  | raised code i0 i1 t => exact h
  | fault f => trivial

/-- A step that makes no access. -/
theorem Res.accounted_ok {α : Type} (x : α) (s : State) : (Res.ok x s).Accounted s.io := Answered.refl _

/-- A raise that no access caused. -/
theorem Res.accounted_raised {α : Type} {code : StatusCode} (hcode : code ≠ .ioError) (i0 i1 : Nat) (s : State) :
    (Res.raised code i0 i1 s : Res α).Accounted s.io := .answered hcode (.refl _)

theorem memRead_accounted (s : State) : (memRead s).Accounted s.io := by
  have hgrow := memRead_only s
  rcases memRead_cases s with ⟨b, hans, -, h⟩ | ⟨hans, -, h⟩ | ⟨hfail, h⟩ <;> rw [h] at hgrow ⊢
  · refine ⟨⟨OnlyStreams.grow hgrow, by simp only [State.setIo_io]; omega, Nat.le_refl _⟩, fun k hk hlt => ?_,
      fun k hk hlt => absurd hlt (Nat.not_lt.mpr hk)⟩
    rwa [Nat.eq_of_le_of_lt_succ hk hlt]
  · refine ⟨⟨OnlyStreams.grow hgrow, Nat.le_succ _, Nat.le_refl _⟩, fun k hk hlt => ?_,
      fun k hk hlt => absurd hlt (Nat.not_lt.mpr hk)⟩
    rwa [Nat.eq_of_le_of_lt_succ hk hlt]
  · exact .refused (.refl _) (.read hfail)

theorem memWrite_accounted (b : Byte) (s : State) : (memWrite b s).Accounted s.io := by
  have hgrow := memWrite_only b s
  rcases memWrite_cases b s with ⟨hans, h⟩ | ⟨hfail, h⟩ <;> rw [h] at hgrow ⊢
  · refine ⟨⟨OnlyStreams.grow hgrow, Nat.le_refl _, ?_⟩, fun k hk hlt => absurd hlt (Nat.not_lt.mpr hk),
      fun k hk hlt => ?_⟩
    · simp only [State.setIo_io, List.length_append, List.length_singleton]
      omega
    · rwa [Nat.eq_of_le_of_lt_succ hk hlt]
  · exact .refused (.refl _) (.write hfail)

/-- An event is no access (60_exceptions.md R190). -/
theorem notify_answered (u : EvtUnit) (k : EvtKind) (v1 v2 : Nat) (s : State) : Answered s.io (notify u k v1 v2 s).io :=
  .of_no_access (notify_only u k v1 v2 s).grow (notify_srcPos ..) (notify_snk ..) (notify_srcReads ..) (notify_snkWrites ..)

/-! ### BW -/

theorem bwDrainLoop_accounted (fuel : Nat) (s : State) : (bwDrainLoop fuel s).Accounted s.io := by
  induction fuel generalizing s with
  | zero => exact Res.accounted_ok _ s
  | succ n ih =>
    simp only [bwDrainLoop]
    split
    · exact (memWrite_accounted _ s).bind fun _ _ => ih _
    · exact Res.accounted_ok _ s

theorem bwWrite_accounted (v n : Nat) (s : State) : (bwWrite v n s).Accounted s.io :=
  (bwDrainLoop_accounted _ s).bind fun _ _ => bwDrainLoop_accounted _ _

theorem bwFlush_accounted (s : State) : (bwFlush s).Accounted s.io := by
  refine (bwDrainLoop_accounted _ s).bind fun _ t => ?_
  split
  · exact (memWrite_accounted _ t).bind fun _ u => Res.accounted_ok _ (u.setBw _)
  · exact Res.accounted_ok _ (t.setBw _)

/-! ### BR -/

theorem brRefill_accounted (n fuel : Nat) (s : State) : (brRefill n fuel s).Accounted s.io := by
  induction fuel generalizing s with
  | zero => exact Res.accounted_ok _ s
  | succ k ih =>
    simp only [brRefill]
    split
    · exact Res.accounted_ok _ s
    · refine (memRead_accounted s).bind fun answer t => ?_
      cases answer with
      | none => exact Res.accounted_ok _ t
      | some b => exact ih _

theorem brRead_accounted (n : Nat) (s : State) : (brRead n s).Accounted s.io := by
  refine (brRefill_accounted n n s).bind fun ending t => ?_
  cases ending with
  | filled => exact Res.accounted_ok _ (t.setBr _)
  | exhausted =>
    show Res.Accounted (if tmOf t.regs.cfg = true then _ else _) _
    split
    · exact Res.accounted_ok _ t
    · exact Res.accounted_raised (by decide) _ _ t

/-! ### C -/

theorem cWriteCode_accounted (v : Nat) (kind : EvtKind) (s : State) : (cWriteCode v kind s).Accounted s.io :=
  (bwWrite_accounted _ _ _).earlier (notify_answered ..)

theorem cAddTableEntry_accounted (key : ByteString) (s : State) : (cAddTableEntry key s).Accounted s.io := by
  unfold cAddTableEntry
  split
  · split
    · exact Res.accounted_ok _ (s.setC _)
    · exact (cWriteCode_accounted _ _ s).bind fun _ t => Res.accounted_ok _ (cClearTable t)
  · exact Res.accounted_ok _ (s.setC _)

theorem cWriteRun_accounted (s : State) : (cWriteRun s).Accounted s.io := by
  unfold cWriteRun
  split
  · exact cWriteCode_accounted _ _ s
  · exact Res.accounted_raised (by decide) _ _ s

theorem cScanByte_accounted (b : Byte) (s : State) : (cScanByte b s).Accounted s.io := by
  unfold cScanByte
  split
  · exact Res.accounted_ok _ (s.setC _)
  · exact (cWriteRun_accounted s).bind fun _ t =>
      (cAddTableEntry_accounted _ t).bind fun _ u => Res.accounted_ok _ (u.setC _)

theorem cScan_accounted (fuel : Nat) (s : State) : (cScan fuel s).Accounted s.io := by
  induction fuel generalizing s with
  | zero =>
    unfold cScan
    refine (memRead_accounted s).bind fun answer t => ?_
    cases answer with
    | none => exact Res.accounted_ok _ t
    | some b => trivial
  | succ k ih =>
    unfold cScan
    refine (memRead_accounted s).bind fun answer t => ?_
    cases answer with
    | none => exact Res.accounted_ok _ t
    | some b => exact (cScanByte_accounted b (t.setC _)).bind fun _ u => ih u

theorem cFinish_accounted (s : State) : (cFinish s).Accounted s.io := by
  refine Res.Accounted.bind ?_ fun _ t => (cWriteCode_accounted _ _ t).bind fun _ u => bwFlush_accounted u
  split
  · exact Res.accounted_ok _ s
  · exact cWriteRun_accounted s

theorem compressAll_accounted (s : State) : (compressAll s).Accounted s.io :=
  (cWriteCode_accounted _ _ (cClearTable s)).bind fun _ t => (cScan_accounted _ t).bind fun _ u => cFinish_accounted u

/-! ### D -/

theorem dNextCode_accounted (s : State) : (dNextCode s).Accounted s.io :=
  (brRead_accounted _ s).bind fun _ _ => notify_answered ..

theorem dEmit_accounted (str : ByteString) (s : State) : (dEmit str s).Accounted s.io := by
  induction str generalizing s with
  | nil => exact Res.accounted_ok _ s
  | cons b rest ih => exact (memWrite_accounted b s).bind fun _ _ => ih _

theorem dAppend_accounted (str : ByteString) (code : Nat) (s : State) : (dAppend str code s).Accounted s.io := by
  unfold dAppend
  split
  · exact Res.accounted_raised (by decide) _ _ s
  · exact Res.accounted_ok _ (s.setD _)

theorem dEntry_accounted (c : Nat) (s : State) : (dEntry c s).Accounted s.io := by
  unfold dEntry
  split
  · exact Res.accounted_ok _ s
  · trivial
  · trivial

theorem dKnown_accounted (code old : Nat) (s : State) : (dKnown code old s).Accounted s.io :=
  (dEntry_accounted _ s).bind fun _ t => (dEmit_accounted _ t).bind fun _ u => (dEntry_accounted _ u).bind fun _ v =>
    (dAppend_accounted _ _ v).bind fun _ w => Res.accounted_ok _ (dSetOld code w)

theorem dKwKwK_accounted (code old : Nat) (s : State) : (dKwKwK code old s).Accounted s.io :=
  (dEntry_accounted _ s).bind fun _ t => (dEmit_accounted _ t).bind fun _ u => (dAppend_accounted _ _ u).bind fun _ v =>
    Res.accounted_ok _ (dSetOld code v)

theorem dSteadyCode_accounted (code : Nat) (s : State) : (dSteadyCode code s).Accounted s.io := by
  unfold dSteadyCode
  split
  · exact Res.accounted_raised (by decide) _ _ s
  · split
    · exact dKnown_accounted _ _ s
    · split
      · exact dKwKwK_accounted _ _ s
      · exact Res.accounted_raised (by decide) _ _ s

theorem dPostClearCode_accounted (code : Nat) (s : State) : (dPostClearCode code s).Accounted s.io := by
  unfold dPostClearCode
  split
  · exact Res.accounted_raised (by decide) _ _ s
  · exact (dEntry_accounted _ s).bind fun _ t => (dEmit_accounted _ t).bind fun _ u => Res.accounted_ok _ (dSetOld code u)

theorem dDataCode_accounted (label : DLabel) (code : Nat) (s : State) : (dDataCode label code s).Accounted s.io := by
  cases label with
  | code => exact dSteadyCode_accounted code s
  | postClear => exact dPostClearCode_accounted code s

theorem dLoop_accounted (limit fuel : Nat) (label : DLabel) (s : State) : (dLoop limit fuel label s).Accounted s.io := by
  induction fuel generalizing label s with
  | zero => trivial
  | succ k ih =>
    simp only [dLoop]
    refine (dNextCode_accounted s).bind fun code t => ?_
    split
    · exact Res.accounted_ok _ t
    · split
      · split
        · exact Res.accounted_ok _ (dClearTable t)
        · exact ih _ (dClearTable t)
      · refine (dDataCode_accounted label code t).bind fun _ u => ?_
        split
        · exact Res.accounted_ok _ u
        · exact ih _ u

theorem decompressAll_accounted (limit : Nat) (s : State) : (decompressAll limit s).Accounted s.io :=
  dLoop_accounted _ _ _ (dClearTable s)

/-! ### Whole commands -/

/-- How a command's accesses and its outcome go together: all were answered and the status is not IoError, or the last was
refused and the status is IoError with the stream in ERRINFO0. -/
inductive AccessEnd (a : Streams) (t : State) : Prop
  | answered (hcode : codeField t.regs.status ≠ 6) (h : Answered a t.io)
  | refused (u : Streams) (i0 : Nat) (hcode : codeField t.regs.status = 6) (hinfo : t.regs.errinfo0 = BitVec.ofNat 32 i0)
      (h : Answered a u) (hr : Refused u i0 t.io)

theorem AccessEnd.byteByAccess {a : Streams} {t : State} (h : AccessEnd a t) : ByteByAccess a t.io := by
  cases h with
  | answered hcode h => exact h.toByteByAccess
  | refused u i0 hcode hinfo h hr => exact h.toByteByAccess.trans hr.byteByAccess

/-- IoError names one of the command's accesses that was answered FAIL. -/
theorem AccessEnd.refused_access {a : Streams} {t : State} (h : AccessEnd a t) (hcode : codeField t.regs.status = 6) :
    (∃ k, a.srcReads ≤ k ∧ k < t.io.srcReads ∧ ioFails a.script .src k = true) ∨
      (∃ k, a.snkWrites ≤ k ∧ k < t.io.snkWrites ∧ ioFails a.script .snk k = true) := by
  cases h with
  | answered hne h => exact absurd hcode hne
  | refused u i0 _ _ h hr =>
    generalize t.io = b at hr ⊢
    cases hr with
    | read hfail => exact .inl ⟨u.srcReads, h.srcReads, Nat.lt_succ_self _, h.script ▸ hfail⟩
    | write hfail => exact .inr ⟨u.snkWrites, h.snkWrites, Nat.lt_succ_self _, h.script ▸ hfail⟩

/-- A SRC access that failed was the last one, and the command ended with `IoError(0, 0)` (41_bitreader.md R117). -/
theorem AccessEnd.failed_read {a : Streams} {t : State} (h : AccessEnd a t) {k : Nat} (hk : a.srcReads ≤ k)
    (hlt : k < t.io.srcReads) (hf : ioFails a.script .src k = true) :
    codeField t.regs.status = 6 ∧ k + 1 = t.io.srcReads ∧ t.regs.errinfo0 = 0#32 := by
  cases h with
  | answered hne h => exact absurd (h.le_failed_read hk hf) (Nat.not_le.mpr hlt)
  | refused u i0 hcode hinfo h hr =>
    have hlate := h.le_failed_read hk hf
    generalize t.io = b at hr hlt ⊢
    cases hr with
    | read => exact ⟨hcode, Nat.le_antisymm hlt (Nat.succ_le_succ hlate), hinfo⟩
    | write => exact absurd hlate (Nat.not_le.mpr hlt)

/-- A SNK access that failed was the last one, and the command ended with `IoError(1, 0)` (42_bitwriter.md R120). -/
theorem AccessEnd.failed_write {a : Streams} {t : State} (h : AccessEnd a t) {k : Nat} (hk : a.snkWrites ≤ k)
    (hlt : k < t.io.snkWrites) (hf : ioFails a.script .snk k = true) :
    codeField t.regs.status = 6 ∧ k + 1 = t.io.snkWrites ∧ t.regs.errinfo0 = 1#32 := by
  cases h with
  | answered hne h => exact absurd (h.le_failed_write hk hf) (Nat.not_le.mpr hlt)
  | refused u i0 hcode hinfo h hr =>
    have hlate := h.le_failed_write hk hf
    generalize t.io = b at hr hlt ⊢
    cases hr with
    | read => exact absurd hlate (Nat.not_le.mpr hlt)
    | write => exact ⟨hcode, Nat.le_antisymm hlt (Nat.succ_le_succ hlate), hinfo⟩

theorem statusNumber_eq_six {c : StatusCode} : statusNumber c = 6 ↔ c = .ioError := by cases c <;> decide

theorem endCommand_accessEnd {b : Bool} {r : Res Returned} {a : Streams} {t : State} (h : r.Accounted a)
    (ht : endCommand b r = .next t) : AccessEnd a t := by
  rcases endCommand_next ht with ⟨x, s, rfl, rfl⟩ | ⟨code, i0, i1, s, rfl, rfl⟩
  · exact .answered (by rw [codeField_returned]; decide) h
  · cases h with
    | refused h hr => exact .refused _ i0 (by simp [raisedRegs, statusNumber]) rfl h hr
    | answered hcode h => exact .answered (by simpa [raisedRegs, statusNumber_eq_six] using hcode) h

theorem whenConfigured_accounted {op : Nat} {s : State} {body : State → Res Returned} (hbody : (body s).Accounted s.io) :
    (whenConfigured op s body).Accounted s.io := by
  unfold whenConfigured
  split
  · exact hbody
  · exact Res.accounted_raised (by decide) _ _ s

theorem notifyInit_answered (s : State) : Answered s.io (notifyInit s).io :=
  (notify_answered .c .init _ _ s).trans (notify_answered ..)

theorem execConfig_accessEnd {w0 bo : Nat} {el tm obs : Bool} {s t : State} (h : execConfig w0 bo el tm obs s = .next t) :
    AccessEnd s.io t := by
  refine endCommand_accessEnd ?_ h
  split_ifs
  · exact Res.accounted_raised (by decide) _ _ s
  · exact Res.accounted_raised (by decide) _ _ s
  · exact Res.accounted_raised (by decide) _ _ s
  · exact notifyInit_answered (configured (cfgWord w0 bo el tm obs) s)

theorem execBwwrite_accessEnd {value n : Nat} {s t : State} (h : execBwwrite value n s = .next t) : AccessEnd s.io t := by
  refine endCommand_accessEnd (whenConfigured_accounted ?_) h
  split
  · exact Res.accounted_raised (by decide) _ _ s
  · exact (bwWrite_accounted value n s).bind fun _ u => Res.accounted_ok _ u

theorem execBrread_accessEnd {n : Nat} {s t : State} (h : execBrread n s = .next t) : AccessEnd s.io t := by
  refine endCommand_accessEnd (whenConfigured_accounted ?_) h
  split
  · exact Res.accounted_raised (by decide) _ _ s
  · exact (brRead_accounted n s).bind fun _ u => Res.accounted_ok _ u

/-- Every command accounts for its accesses. -/
theorem exec_accessEnd {i : Instr} {s t : State} (h : exec i s = .next t) : AccessEnd s.io t := by
  cases i with
  | config w0 bo el tm obs => exact execConfig_accessEnd h
  | bwwrite value n => exact execBwwrite_accessEnd h
  | bwflush =>
    exact endCommand_accessEnd
      (whenConfigured_accounted ((bwFlush_accounted s).bind fun _ u => Res.accounted_ok _ u)) h
  | brread n => exact execBrread_accessEnd h
  | brreset => exact endCommand_accessEnd (whenConfigured_accounted (Res.accounted_ok _ (brResetCache s))) h
  | compress =>
    exact endCommand_accessEnd
      (whenConfigured_accounted ((compressAll_accounted (freshCompress s)).bind fun _ u => Res.accounted_ok _ u)) h
  | decompress len =>
    exact endCommand_accessEnd
      (whenConfigured_accounted ((decompressAll_accounted _ (freshDecompress len s)).bind fun _ u => Res.accounted_ok _ u)) h

theorem notifyInit_port (s : State) : (notifyInit s).port = s.port := by simp only [notifyInit, notify_port]

/-- The pending host actions are no command's to change (20_memory.md R60). -/
theorem exec_port {i : Instr} {s t : State} (h : exec i s = .next t) : t.port = s.port := by
  cases i with
  | config w0 bo el tm obs =>
    refine endCommand_all (P := fun u => u.port = s.port) (Z := fun u => u.port = s.port) ?_ h
      (fun _ _ hu => hu) fun _ _ _ _ hu => hu
    split_ifs
    · rfl
    · rfl
    · rfl
    · exact notifyInit_port (configured (cfgWord w0 bo el tm obs) s)
  | bwwrite value n =>
    obtain ⟨u, hf, he⟩ := execBwwrite_frame h
    exact he.port.trans hf.port
  | bwflush =>
    obtain ⟨u, hf, he⟩ := execBwflush_frame h
    exact he.port.trans hf.port
  | brread n =>
    obtain ⟨u, hf, he⟩ := execBrread_frame h
    exact he.port.trans hf.port
  | brreset =>
    obtain ⟨u, ⟨hf, -, -⟩, he⟩ := execBrreset_frame h
    exact he.port.trans hf.port
  | compress =>
    obtain ⟨u, hf, he⟩ := execCompress_frame h
    exact he.port.trans hf.port
  | decompress len =>
    obtain ⟨u, rfl | hf, he⟩ := execDecompress_frame h
    · exact he.port
    · exact he.port.trans hf.port

end Sys2Proof.Machine
end

section
/-! The obligations of 20_memory.md. -/

namespace Sys2Proof.Machine

/-- Settles O40: the run of BWWRITEs leaves the codes' bits in SNK, and with SNK's bytes bound to SRC the BRREADs take the same
bits off again, one code at a time. -/
theorem packingInverse : Obligations.PackingInverse := by
  intro s codes hinv hconf hsrc hsnk hbw hbr hempty hlegal
  obtain ⟨t, pad, hrun, hpack, hframe, hbits⟩ :=
    runCommands_packs codes ⟨hconf, hinv.bw, hsnk⟩ fun p hp => ⟨(hlegal p hp).1, (hlegal p hp).2.1⟩
  have hanswers : SrcAnswers t := hsrc.later hframe.grow
  refine ⟨t, hrun, readResults_unpacks codes (pad := pad) ⟨hpack.configured, hframe.br ▸ hinv.br, hanswers⟩ hlegal ?_⟩
  have hnone : writtenBits s = [] := by simp [writtenBits, pendingBits, hempty, hbw]
  have hcfg : (bindSource t.io.snk t).regs.cfg = s.regs.cfg := hframe.cfg
  rw [unreadBits_bindSource (hframe.br ▸ hbr), hcfg, hframe.cfg, hbits, hnone, List.nil_append]

/-- Settles O19: an access that fails comes after all that were answered, so it can only be the one that ended the command. -/
theorem ioErrorExactlyOnFail : Obligations.IoErrorExactlyOnFail := by
  intro i s t h
  have hend := exec_accessEnd h
  refine ⟨⟨hend.refused_access, ?_⟩, fun k hk hlt hf => (hend.failed_read hk hlt hf).2,
    fun k hk hlt hf => (hend.failed_write hk hlt hf).2⟩
  rintro (⟨k, hk, hlt, hf⟩ | ⟨k, hk, hlt, hf⟩)
  · exact (hend.failed_read hk hlt hf).1
  · exact (hend.failed_write hk hlt hf).1

/-- Settles O20: a command's accesses move one byte each at most and only forward, and no end of a command takes one back. -/
theorem streamsOnlyGrow : Obligations.StreamsOnlyGrow := by
  intro i s t h
  have hio := (exec_accessEnd h).byteByAccess
  have hsrc := hio.srcBytes
  have hsnk := hio.snkBytes
  exact ⟨hio.src, hio.srcPos, hio.snk, hio.evt, by omega, hio.srcReads, by omega, hio.snkWrites, hio.script, exec_port h⟩

end Sys2Proof.Machine
end

section
/-! SUPPORT. The decoder and the encoder, row by row (30_encoding.md R80 to R85): the fields as bit slices, the rows of R82 with
the reserved bits of R81, and which words decode. -/

namespace Sys2Proof

/-! ### Fields -/

theorem bitField_eq_extractLsb' (w : Word) (lo len : Nat) : bitField w lo len = (w.extractLsb' lo len).toNat := by
  rw [bitField, BitVec.extractLsb'_toNat, Nat.shiftRight_eq_div_pow]

theorem bitFlag_eq_getLsbD (w : Word) (k : Nat) : bitFlag w k = w.getLsbD k := by
  rw [bitFlag, bitField, BitVec.getLsbD, Nat.testBit_eq_decide_div_mod_eq, Nat.pow_one]
  rfl

theorem bitField_lt (w : Word) (lo len : Nat) : bitField w lo len < 2 ^ len := Nat.mod_lt _ (Nat.two_pow_pos len)

/-- A flag as the number it stands for in its word. -/
theorem toNat_bitFlag (w : Word) (k : Nat) : (bitFlag w k).toNat = w.toNat / 2 ^ k % 2 := by
  rcases Nat.mod_two_eq_zero_or_one (w.toNat / 2 ^ k) with h | h <;> simp [bitFlag, bitField, h]

theorem bitFlag_of_toNat {w : Word} {k : Nat} {b : Bool} (h : w.toNat / 2 ^ k % 2 = b.toNat) : bitFlag w k = b := by
  cases b <;> simp_all [bitFlag, bitField]

theorem opcodeOf_eq_extractLsb' (w : Word) : opcodeOf w = (w.extractLsb' 0 8).toNat := bitField_eq_extractLsb' w 0 8

theorem reservedClear_iff {w : Word} {lo : Nat} : reservedClear w lo = true ↔ w.toNat < 2 ^ lo := by
  rw [reservedClear, beq_iff_eq, Nat.div_eq_zero_iff_lt (Nat.two_pow_pos lo)]

/-- The reserved bits as a slice of the word. -/
theorem reservedClear_iff_extractLsb' {w : Word} {lo len : Nat} (h : lo + len = 32) :
    reservedClear w lo = true ↔ w.extractLsb' lo len = 0#len := by
  have hlt : w.toNat / 2 ^ lo < 2 ^ len := by
    rw [Nat.div_lt_iff_lt_mul (Nat.two_pow_pos lo), ← Nat.pow_add, Nat.add_comm, h]
    exact w.isLt
  rw [reservedClear, beq_iff_eq, ← BitVec.toNat_inj, ← bitField_eq_extractLsb', bitField, Nat.mod_eq_of_lt hlt]
  rfl

/-! ### The rows of the opcode map -/

/-- `op` is an opcode of 30_encoding.md R82, its format's reserved bits are those from `lo` up (R81), and `i` is the command
that the fields of `w` and the operand word `w1` make. -/
inductive OpcodeRow (w w1 : Word) : (op lo : Nat) → Instr → Prop
  | config : OpcodeRow w w1 0x01 17
      (.config (bitField w 8 4) (bitField w 12 2) (bitFlag w 14) (bitFlag w 15) (bitFlag w 16))
  | bwwrite : OpcodeRow w w1 0x10 24 (.bwwrite (bitField w 12 12) (bitField w 8 4))
  | bwflush : OpcodeRow w w1 0x11 8 .bwflush
  | brread : OpcodeRow w w1 0x20 12 (.brread (bitField w 8 4))
  | brreset : OpcodeRow w w1 0x21 8 .brreset
  | compress : OpcodeRow w w1 0x30 8 .compress
  | decompress : OpcodeRow w w1 0x40 8 (.decompress w1)

/-- A word of a row is decoded by that row's format. -/
theorem OpcodeRow.decode_eq {w w1 : Word} {op lo : Nat} {i : Instr} (h : OpcodeRow w w1 op lo i) (hop : opcodeOf w = op) :
    decode w w1 = decodeFormat w lo i := by
  cases h <;> simp [decode, hop]

/-- Every opcode has its row or is outside the map. -/
theorem opcodeRow_or_unknown (w w1 : Word) :
    (∃ lo i, OpcodeRow w w1 (opcodeOf w) lo i) ∨
      (opcodeOf w ∉ [0x01, 0x10, 0x11, 0x20, 0x21, 0x30, 0x40] ∧ decode w w1 = .illegal .unknownOpcode) := by
  by_cases hmem : opcodeOf w ∈ [0x01, 0x10, 0x11, 0x20, 0x21, 0x30, 0x40]
  · left
    simp only [List.mem_cons, List.not_mem_nil, or_false] at hmem
    rcases hmem with h | h | h | h | h | h | h <;> rw [h]
    · exact ⟨_, _, .config⟩
    · exact ⟨_, _, .bwwrite⟩
    · exact ⟨_, _, .bwflush⟩
    · exact ⟨_, _, .brread⟩
    · exact ⟨_, _, .brreset⟩
    · exact ⟨_, _, .compress⟩
    · exact ⟨_, _, .decompress⟩
  · simp only [List.mem_cons, List.not_mem_nil, or_false, not_or] at hmem
    exact .inr ⟨by simp [hmem], by simp [decode, hmem]⟩

theorem decodeFormat_eq_ok {w : Word} {lo : Nat} {i j : Instr} :
    decodeFormat w lo i = .ok j ↔ w.toNat < 2 ^ lo ∧ i = j := by
  rw [← reservedClear_iff, decodeFormat]
  split <;> simp_all

theorem decodeFormat_illegal {w : Word} {lo : Nat} {i : Instr} :
    (∃ why, decodeFormat w lo i = .illegal why) ↔ ¬ reservedClear w lo = true := by
  rw [decodeFormat]
  split <;> simp_all

/-- What decodes, and to what: a word of a row whose reserved bits are clear. -/
theorem decode_eq_ok {w w1 : Word} {i : Instr} :
    decode w w1 = .ok i ↔ ∃ lo, OpcodeRow w w1 (opcodeOf w) lo i ∧ w.toNat < 2 ^ lo := by
  constructor
  · intro h
    rcases opcodeRow_or_unknown w w1 with ⟨lo, j, hrow⟩ | ⟨-, hill⟩
    · rw [hrow.decode_eq rfl, decodeFormat_eq_ok] at h
      obtain ⟨hlt, rfl⟩ := h
      exact ⟨lo, hrow, hlt⟩
    · rw [hill] at h
      cases h
  · rintro ⟨lo, hrow, hlt⟩
    rw [hrow.decode_eq rfl, decodeFormat_eq_ok]
    exact ⟨hlt, rfl⟩

theorem OpcodeRow.decode_ok {w w1 : Word} {op lo : Nat} {i : Instr} (h : OpcodeRow w w1 op lo i) (hop : opcodeOf w = op)
    (hlt : w.toNat < 2 ^ lo) : decode w w1 = .ok i :=
  decode_eq_ok.mpr ⟨lo, hop ▸ h, hlt⟩

/-! ### The encoder -/

/-- CONFIG's word is the sum of its fields (30_encoding.md R81). -/
theorem encodeWord_config_toNat {w0 bo : Nat} (h0 : w0 < 2 ^ 4) (hbo : bo < 2 ^ 2) (el tm obs : Bool) :
    (encodeWord (.config w0 bo el tm obs)).toNat =
      0x01 + w0 * 2 ^ 8 + bo * 2 ^ 12 + el.toNat * 2 ^ 14 + tm.toNat * 2 ^ 15 + obs.toNat * 2 ^ 16 := by
  have hel := el.toNat_lt
  have htm := tm.toNat_lt
  have hobs := obs.toNat_lt
  exact Nat.mod_eq_of_lt (by omega)

/-- BWWRITE's word is the sum of its fields (30_encoding.md R81). -/
theorem encodeWord_bwwrite_toNat {value n : Nat} (hv : value < 2 ^ 12) (hn : n < 2 ^ 4) :
    (encodeWord (.bwwrite value n)).toNat = 0x10 + n * 2 ^ 8 + value * 2 ^ 12 :=
  Nat.mod_eq_of_lt (by omega)

/-- BRREAD's word is the sum of its fields (30_encoding.md R81). -/
theorem encodeWord_brread_toNat {n : Nat} (hn : n < 2 ^ 4) : (encodeWord (.brread n)).toNat = 0x20 + n * 2 ^ 8 :=
  Nat.mod_eq_of_lt (by omega)

/-- CONFIG's fields do not overlap: each is read back from its bits. -/
theorem decode_encodeWord_config {w0 bo : Nat} (h0 : w0 < 2 ^ 4) (hbo : bo < 2 ^ 2) (el tm obs : Bool) (w1 : Word) :
    decode (encodeWord (.config w0 bo el tm obs)) w1 = .ok (.config w0 bo el tm obs) := by
  have hword := encodeWord_config_toNat h0 hbo el tm obs
  have hel := el.toNat_lt
  have htm := tm.toNat_lt
  have hobs := obs.toNat_lt
  generalize encodeWord (.config w0 bo el tm obs) = w at hword ⊢
  have hw0 : bitField w 8 4 = w0 := by rw [bitField, hword]; omega
  have hbo' : bitField w 12 2 = bo := by rw [bitField, hword]; omega
  have hel' : bitFlag w 14 = el := bitFlag_of_toNat (by rw [hword]; omega)
  have htm' : bitFlag w 15 = tm := bitFlag_of_toNat (by rw [hword]; omega)
  have hobs' : bitFlag w 16 = obs := bitFlag_of_toNat (by rw [hword]; omega)
  rw [OpcodeRow.config.decode_ok (w := w) (by rw [opcodeOf, bitField, hword]; omega) (by rw [hword]; omega), hw0, hbo', hel',
    htm', hobs']

/-- BWWRITE's fields do not overlap. -/
theorem decode_encodeWord_bwwrite {value n : Nat} (hv : value < 2 ^ 12) (hn : n < 2 ^ 4) (w1 : Word) :
    decode (encodeWord (.bwwrite value n)) w1 = .ok (.bwwrite value n) := by
  have hword := encodeWord_bwwrite_toNat hv hn
  generalize encodeWord (.bwwrite value n) = w at hword ⊢
  have hv' : bitField w 12 12 = value := by rw [bitField, hword]; omega
  have hn' : bitField w 8 4 = n := by rw [bitField, hword]; omega
  rw [OpcodeRow.bwwrite.decode_ok (w := w) (by rw [opcodeOf, bitField, hword]; omega) (by rw [hword]; omega), hv', hn']

theorem decode_encodeWord_brread {n : Nat} (hn : n < 2 ^ 4) (w1 : Word) :
    decode (encodeWord (.brread n)) w1 = .ok (.brread n) := by
  have hword := encodeWord_brread_toNat hn
  generalize encodeWord (.brread n) = w at hword ⊢
  have hn' : bitField w 8 4 = n := by rw [bitField, hword]; omega
  rw [OpcodeRow.brread.decode_ok (w := w) (by rw [opcodeOf, bitField, hword]; omega) (by rw [hword]; omega), hn']

/-- Decoding an encoded well-formed command gives it back. -/
theorem decode_encode {i : Instr} (h : i.wellFormed = true) (w1 : Word) :
    decode (encodeWord i) ((encodeOperands i).headD w1) = .ok i := by
  cases i with
  | config w0 bo el tm obs =>
    simp only [Instr.wellFormed, Bool.and_eq_true, decide_eq_true_eq] at h
    exact decode_encodeWord_config h.1 h.2 el tm obs w1
  | bwwrite value n =>
    simp only [Instr.wellFormed, Bool.and_eq_true, decide_eq_true_eq] at h
    exact decode_encodeWord_bwwrite h.1 h.2 w1
  | bwflush => exact OpcodeRow.bwflush.decode_ok (by decide) (by decide)
  | brread n => exact decode_encodeWord_brread (of_decide_eq_true h) w1
  | brreset => exact OpcodeRow.brreset.decode_ok (by decide) (by decide)
  | compress => exact OpcodeRow.compress.decode_ok (by decide) (by decide)
  | decompress len => exact OpcodeRow.decompress.decode_ok (w := 0x40#32) (by decide) (by decide)

/-- A one-word encoding that the encoder gives decodes to its command. -/
theorem encode_and_decode_one {i : Instr} {w : Word} (hwf : i.wellFormed = true) (h : encode i = [w]) :
    encode i = [w] ∧ decode w 0#32 = .ok i := by
  obtain ⟨rfl, hops⟩ := List.cons.inj h
  exact ⟨h, by simpa [hops] using decode_encode hwf 0#32⟩

/-- Every field of a row fits the bits it was read from. -/
theorem OpcodeRow.wellFormed {w w1 : Word} {op lo : Nat} {i : Instr} (h : OpcodeRow w w1 op lo i) : i.wellFormed = true := by
  cases h <;> simp [Instr.wellFormed, bitField_lt, -Nat.reducePow]

/-- With the reserved bits clear, a word is the sum of its opcode and its fields. -/
theorem OpcodeRow.encodeWord_eq {w w1 : Word} {op lo : Nat} {i : Instr} (h : OpcodeRow w w1 op lo i) (hop : opcodeOf w = op)
    (hlt : w.toNat < 2 ^ lo) : encodeWord i = w := by
  have hlow : w.toNat % 256 = op := by rw [← hop, opcodeOf, bitField]; omega
  apply BitVec.eq_of_toNat_eq
  cases h with
  | config =>
    rw [encodeWord_config_toNat (bitField_lt ..) (bitField_lt ..)]
    simp only [bitField, toNat_bitFlag]
    omega
  | bwwrite =>
    rw [encodeWord_bwwrite_toNat (bitField_lt ..) (bitField_lt ..), bitField, bitField]
    omega
  | brread =>
    rw [encodeWord_brread_toNat (bitField_lt ..), bitField]
    omega
  | _ => simp only [encodeWord, BitVec.toNat_ofNat]; omega

/-- A row's operand words: DECOMPRESS alone has one (30_encoding.md R80, R84). -/
theorem OpcodeRow.encodeOperands_eq {w w1 : Word} {op lo : Nat} {i : Instr} (h : OpcodeRow w w1 op lo i) :
    encodeOperands i = if op = 0x40 then [w1] else [] := by
  cases h <;> rfl

/-- An encoded command has the words that its opcode announces (30_encoding.md R80). -/
theorem encode_length (i : Instr) : (encode i).length = commandWords (encodeWord i) := by
  cases i with
  | config w0 bo el tm obs => exact Laws.WordCount.config w0 bo el tm obs
  | bwwrite value n => exact Laws.WordCount.bwwrite value n
  | bwflush => exact Laws.WordCount.bwflush
  | brread n => exact Laws.WordCount.brread n
  | brreset => exact Laws.WordCount.brreset
  | compress => exact Laws.WordCount.compress
  | decompress len => exact Laws.WordCount.decompress len

end Sys2Proof
end

section
/-! SUPPORT. A step at a port whose head is a command word (30_encoding.md R80, 60_exceptions.md R182): the words it takes, and
what it does with a word that decodes and with one that does not. -/

namespace Sys2Proof.Machine

theorem commandWords_eq_two {w : Word} : commandWords w = 2 ↔ opcodeOf w = 0x40 := by
  unfold commandWords
  split <;> simp_all

theorem fetch_one_word {w : Word} (h : opcodeOf w ≠ 0x40) (rest : List HostAction) :
    fetch (.word w :: rest) = .command w 0#32 rest := by
  rw [fetch, if_neg (commandWords_eq_two.not.mpr h)]

theorem fetch_two_words {w : Word} (h : opcodeOf w = 0x40) (w1 : Word) (k : Nat) (rest : List HostAction) :
    fetch (.word w :: (List.replicate k .reset ++ .word w1 :: rest)) = .command w w1 (List.replicate k .reset ++ rest) := by
  rw [fetch, if_pos (commandWords_eq_two.mpr h), fetchOperand_word]

theorem step_of_fetch {s : State} {w w1 : Word} {rest : List HostAction} (h : fetch s.port = .command w w1 rest) :
    step s = runCommand w w1 (s.setPort rest) := by
  rw [step, h]

theorem runCommand_of_ok {w w1 : Word} {i : Instr} (h : decode w w1 = .ok i) (s : State) : runCommand w w1 s = exec i s := by
  rw [runCommand, h]

/-- An illegal word raises `IllegalCommand(word0, 0)`, which keeps CONFIGURED (60_exceptions.md R181, R183). -/
theorem runCommand_of_illegal {w w1 : Word} {why : DecodeError} (h : decode w w1 = .illegal why) (s : State) :
    runCommand w w1 s =
      .next (s.setRegs (raisedRegs (configuredFlag s.regs.status) .illegalCommand w.toNat 0 s.regs)) := by
  rw [runCommand, h, ← Bool.and_true (configuredFlag s.regs.status)]
  rfl

/-- A step runs the decoded command on the port without the command's words. -/
theorem step_of_decode {s : State} {w w1 : Word} {rest : List HostAction} {i : Instr}
    (hfetch : fetch s.port = .command w w1 rest) (h : decode w w1 = .ok i) : step s = exec i (s.setPort rest) := by
  rw [step_of_fetch hfetch, runCommand_of_ok h]

/-- The words of an encoded command are what `fetch` takes for it; a one-word command gets operand word 0. -/
theorem fetch_encode (i : Instr) (rest : List HostAction) :
    fetch ((encode i).map HostAction.word ++ rest) = .command (encodeWord i) ((encodeOperands i).headD 0#32) rest := by
  have hlen := encode_length i
  cases hops : encodeOperands i with
  | nil =>
    have hone : opcodeOf (encodeWord i) ≠ 0x40 := fun h => by
      simp [encode, hops, commandWords_eq_two.mpr h] at hlen
    simpa [encode, hops] using fetch_one_word hone rest
  | cons w1 ops =>
    cases i <;> cases hops
    exact fetch_two_words (w := 0x40#32) (by decide) w1 0 rest

end Sys2Proof.Machine
end

section
/-! SUPPORT. The code that a sequence of stream bits stands for (30_encoding.md R72, R73), and how little of SRC BR reads ahead
of it (41_bitreader.md R111). -/

namespace Sys2Proof.Machine

theorem codeOfBits_msb_concat (bits : List Bool) (b : Bool) :
    codeOfBits .msbFirst (bits ++ [b]) = 2 * codeOfBits .msbFirst bits + b.toNat := by
  simp [codeOfBits]

theorem codeOfBits_lsb_cons (b : Bool) (bits : List Bool) :
    codeOfBits .lsbFirst (b :: bits) = b.toNat + 2 * codeOfBits .lsbFirst bits := rfl

theorem codeOfBits_lt (o : ByteOrder) (bits : List Bool) : codeOfBits o bits < 2 ^ bits.length := by
  cases o with
  | msbFirst =>
    induction bits using List.reverseRecOn with
    | nil => decide
    | append_singleton bits b ih =>
      rw [codeOfBits_msb_concat, List.length_append, List.length_singleton, Nat.pow_succ]
      have := b.toNat_lt
      omega
  | lsbFirst =>
    induction bits with
    | nil => decide
    | cons b bits ih =>
      rw [codeOfBits_lsb_cons, List.length_cons, Nat.pow_succ]
      have := b.toNat_lt
      omega

/-- A bit sequence is the bits of its code. -/
theorem codeBits_codeOfBits (o : ByteOrder) (bits : List Bool) : codeBits o bits.length (codeOfBits o bits) = bits := by
  cases o with
  | msbFirst =>
    induction bits using List.reverseRecOn with
    | nil => rfl
    | append_singleton bits b ih =>
      have hshift : (2 * codeOfBits .msbFirst bits + b.toNat) >>> 1 = codeOfBits .msbFirst bits := by
        have := b.toNat_lt
        rw [Nat.shiftRight_eq_div_pow]
        omega
      rw [codeOfBits_msb_concat, List.length_append, List.length_singleton, codeBits_split_msb, hshift, ih]
      cases b <;> simp [codeBits]
  | lsbFirst =>
    induction bits with
    | nil => rfl
    | cons b bits ih =>
      have hshift : (b.toNat + 2 * codeOfBits .lsbFirst bits) >>> 1 = codeOfBits .lsbFirst bits := by
        have := b.toNat_lt
        rw [Nat.shiftRight_eq_div_pow]
        omega
      rw [codeOfBits_lsb_cons, List.length_cons, Nat.add_comm bits.length 1, codeBits_split_lsb, hshift, ih]
      cases b <;> simp [codeBits]

/-- The unread bits from a code on: that code's bits, then the rest. -/
theorem streamBits_drop_eq_code {s : State} {used w : Nat} (h : used + w ≤ 8 * (unreadBytes s).length) :
    (streamBits (byteOrderOf s.regs.cfg) (unreadBytes s)).drop used =
      codeBits (byteOrderOf s.regs.cfg) w (sourceCode s used w) ++
        (streamBits (byteOrderOf s.regs.cfg) (unreadBytes s)).drop (used + w) := by
  rw [← List.drop_drop]
  generalize hbits : (streamBits (byteOrderOf s.regs.cfg) (unreadBytes s)).drop used = bits
  have hlen : (bits.take w).length = w := by
    simp [← hbits]
    omega
  have hcode := codeBits_codeOfBits (byteOrderOf s.regs.cfg) (bits.take w)
  rw [hlen] at hcode
  rw [sourceCode, hbits, hcode, List.take_append_drop]

/-- A code read leaves less than a byte in BR, where BR held less than that and a code (41_bitreader.md R111, R112). -/
theorem brRead_code_leaves_part {n v : Nat} {s u : State} (hn : n ≤ 12) (h : CacheSound 11 s.br) (hb : s.br.bits < n + 8)
    (hread : brRead n s = .ok (v, .code) u) : u.br.bits < 8 := by
  have hfill := brRefill_meets n n s hn (by omega) (h.mono (by decide)) (by omega)
  unfold brRead at hread
  cases hr : brRefill n n s with
  | ok ending t =>
    rw [hr] at hread hfill
    obtain ⟨-, -, hfilled, -⟩ := hfill
    cases ending with
    | filled =>
      cases hread
      obtain ⟨-, hwhy⟩ := hfilled rfl
      simp only [State.setBr_br, brDropCode]
      rcases hwhy with hsame | hlow
      · rw [hsame]; omega
      · omega
    | exhausted =>
      simp only [Res.bind_ok] at hread
      split at hread <;> cases hread
  | raised code i0 i1 t => rw [hr] at hread; cases hread
  | fault f => rw [hr] at hread; cases hread

end Sys2Proof.Machine
end

section
/-! SUPPORT. D's reads at the start of an epoch, when no access is refused (44_decompressor.md R150 to R152, R156): where BR
stands after a number of stream bits, what CLEAR, EOI and a first data code do there, and how DECOMPRESS comes there. -/

namespace Sys2Proof.Machine

/-- D cleared (44_decompressor.md R151), with the given `D_OLD` and `D_WRITTEN`. -/
def clearedWith (cfg : Word) (old : Option Nat) (written : Nat) : Decompressor :=
  { width := widen (w0Of cfg), codes := firstFree cfg, table := literalTable (clearCode cfg), old := old, written := written }

theorem clearedDecompressor_eq (cfg : Word) (d : Decompressor) :
    clearedDecompressor cfg d = clearedWith cfg d.old d.written := rfl

/-- The literals are all that a cleared table holds. -/
theorem tableGet_cleared (cfg : Word) (old : Option Nat) (written c : Nat) :
    tableGet c (clearedWith cfg old written).table = if c < clearCode cfg then some [BitVec.ofNat 8 c] else none := by
  split
  · exact tableGet_literalTable ‹_›
  · exact tableGet_eq_none (by simpa [clearedWith, literalTable_codes] using Nat.not_lt.mp ‹_›)

/-- `t` is reached from the fresh session `s` with `used` stream bits taken: D is cleared but for `D_OLD`, SNK has grown by
`out`, which is what D_WRITTEN counts, and BR holds the rest of the last byte read. -/
structure AtEpochStart (s : State) (used : Nat) (out : ByteString) (old : Option Nat) (t : State) : Prop where
  frame : DecompressFrame s t
  d : t.d = clearedWith s.regs.cfg old out.length
  snk : t.io.snk = s.io.snk ++ out
  cache : CacheSound 7 t.br
  bits : unreadBits t = (streamBits (byteOrderOf s.regs.cfg) (unreadBytes s)).drop used

/-- The bits BR can still return are those it holds and SRC's. -/
theorem unreadBits_length (s : State) : (unreadBits s).length = s.br.bits + 8 * (s.io.src.length - s.io.srcPos) := by
  simp [unreadBits, unreadBytes, pendingBits]

/-- Where BR stands: it has read the bytes that hold the taken bits and keeps the rest of the last one. -/
theorem AtEpochStart.position {s t : State} {used : Nat} {out : ByteString} {old : Option Nat}
    (h : AtEpochStart s used out old t) (hpos : s.io.srcPos ≤ s.io.src.length) (hused : used ≤ 8 * (unreadBytes s).length) :
    t.io.srcPos = s.io.srcPos + (used + 7) / 8 ∧ t.br.bits = 8 * ((used + 7) / 8) - used := by
  have hlen := congrArg List.length h.bits
  rw [unreadBits_length, h.frame.grow.src, List.length_drop, streamBits_length] at hlen
  have hrange := h.frame.grow.inRange hpos
  rw [h.frame.grow.src] at hrange
  have hbits := h.cache.bits
  have hmono := h.frame.grow.srcPos
  have hunread : (unreadBytes s).length = s.io.src.length - s.io.srcPos := List.length_drop
  omega

/-- The clear that begins DECOMPRESS gives the start of an epoch (44_decompressor.md R150, R157). -/
theorem freshDecompress_atEpochStart (len : Word) (s : State) :
    AtEpochStart (freshDecompress len s) 0 [] none (dClearTable (freshDecompress len s)) where
  frame := setD_decompress _ _
  d := rfl
  snk := (List.append_nil _).symm
  cache := ⟨Nat.one_pos, Nat.zero_le 7⟩
  bits := by simp [unreadBits, pendingBits, dClearTable, freshDecompress, unreadBytes, BitCache.zero]

/-- What the fresh session must allow for its reads and writes to complete. -/
structure SessionRuns (s : State) : Prop where
  legal : CfgLegal s.regs.cfg
  configured : Configured s
  answers : SrcAnswers s
  accepts : SnkAccepts s

section
variable {s t : State} {used limit fuel code : Nat} {out : ByteString} {old : Option Nat} {label : DLabel}

/-- The next read takes the code that stands behind the bits taken so far (44_decompressor.md R156). -/
theorem AtEpochStart.next_code (hs : SessionRuns s) (h : AtEpochStart s used out old t)
    (hroom : used + (w0Of s.regs.cfg + 1) ≤ 8 * (unreadBytes s).length) :
    ∃ u, dNextCode t = .ok (sourceCode s used (w0Of s.regs.cfg + 1)) u ∧
      AtEpochStart s (used + (w0Of s.regs.cfg + 1)) out old u := by
  have hwidth : t.d.width = w0Of s.regs.cfg + 1 := by rw [h.d, clearedWith, hs.legal.widen_w0]
  have hn : w0Of s.regs.cfg + 1 ≤ 12 := by have := hs.legal.w0_high; omega
  have hconf : Configured t := by rw [Configured, h.frame.regs]; exact hs.configured
  have hcache : CacheSound 11 t.br := h.cache.mono (by decide)
  have hcode : sourceCode s used (w0Of s.regs.cfg + 1) < 2 ^ (w0Of s.regs.cfg + 1) :=
    (codeOfBits_lt _ _).trans_le (Nat.pow_le_pow_right (by decide) (by simp))
  have hbits := h.bits.trans (streamBits_drop_eq_code hroom)
  rw [← congrArg (fun r => byteOrderOf r.cfg) h.frame.regs] at hbits
  obtain ⟨u, hread, hu, hframe, hrest⟩ := brRead_unpacks ⟨hconf, hcache, hs.answers.later h.frame.grow⟩ hn hcode hbits
  have hpart : u.br.bits < 8 := brRead_code_leaves_part hn hcache (by have := h.cache.bits; omega) hread
  refine ⟨notify .d .code (sourceCode s used (w0Of s.regs.cfg + 1)) u.d.width u, ?_, ?_⟩
  · rw [dNextCode, hwidth, hread]; rfl
  · have hnotify : ∀ v w, unreadBits (notify .d .code v w u) = unreadBits u := fun v w => by simp [unreadBits, unreadBytes]
    exact
      { frame := .trans _ _ _ h.frame (.trans _ _ _ hframe.decompress (notify_only _ _ _ _ u).decompress)
        d := by rw [notify_d, hframe.d, h.d]
        snk := by rw [notify_snk, hframe.snk, h.snk]
        cache := ⟨by rw [notify_br]; exact hu.cache, by rw [notify_br]; omega⟩
        bits := by rw [hnotify, hrest, h.frame.regs] }

/-- A CLEAR at the start of an epoch, with a budget left: D is cleared, as it was, and the post-clear code is read
(44_decompressor.md R150). -/
theorem AtEpochStart.loop_clear (hs : SessionRuns s) (hlimit : 0 < limit) (h : AtEpochStart s used [] none t)
    (hroom : used + (w0Of s.regs.cfg + 1) ≤ 8 * (unreadBytes s).length)
    (hcode : sourceCode s used (w0Of s.regs.cfg + 1) = clearCode s.regs.cfg) :
    ∃ u, dLoop limit (fuel + 1) label t = dLoop limit fuel .postClear u ∧
      AtEpochStart s (used + (w0Of s.regs.cfg + 1)) [] none u := by
  obtain ⟨u, hnext, hu⟩ := h.next_code hs hroom
  have hclear : clearCode s.regs.cfg ≠ eoiCode s.regs.cfg := by simp [eoiCode]
  have hbudget : ¬ limit ≤ u.d.written := by rw [hu.d]; exact Nat.not_le.mpr hlimit
  refine ⟨dClearTable u, ?_, ?_⟩
  · simp only [dLoop, hnext, Res.bind_ok, hcode, hu.frame.regs, if_neg hclear, if_neg hbudget, if_true]
  · exact
      { hu with
        frame := .trans _ _ _ hu.frame (setD_decompress u _)
        d := by rw [dClearTable, State.setD_d, clearedDecompressor_eq, hu.frame.regs, hu.d]; rfl }

/-- Any run of CLEARs at the start of DECOMPRESS acts as one (30_encoding.md R75). -/
theorem AtEpochStart.loop_clears (hs : SessionRuns s) (hlimit : 0 < limit) (h : AtEpochStart s 0 [] none t) (k : Nat)
    (hroom : (k + 1) * (w0Of s.regs.cfg + 1) ≤ 8 * (unreadBytes s).length)
    (hcodes : ∀ j, j ≤ k → sourceCode s (j * (w0Of s.regs.cfg + 1)) (w0Of s.regs.cfg + 1) = clearCode s.regs.cfg) :
    ∃ u, dLoop limit (fuel + (k + 1)) label t = dLoop limit fuel .postClear u ∧
      AtEpochStart s ((k + 1) * (w0Of s.regs.cfg + 1)) [] none u := by
  induction k generalizing fuel with
  | zero =>
    have hcode := hcodes 0 (Nat.le_refl 0)
    rw [Nat.zero_mul] at hcode
    rw [Nat.zero_add, Nat.one_mul] at hroom ⊢
    simpa using h.loop_clear (label := label) hs hlimit (by omega) hcode
  | succ k ih =>
    rw [Nat.succ_mul (k + 1)] at hroom
    obtain ⟨u, hloop, hu⟩ := ih (fuel := fuel + 1) (by omega) fun j hj => hcodes j (Nat.le_succ_of_le hj)
    obtain ⟨v, hlast, hv⟩ := hu.loop_clear (label := .postClear) hs hlimit hroom (hcodes (k + 1) (Nat.le_refl _))
    refine ⟨v, ?_, Nat.succ_mul (k + 1) _ ▸ hv⟩
    rw [← hlast, ← hloop, Nat.add_right_comm fuel 1 (k + 1)]
    rfl

/-- EOI ends the loop at any read (44_decompressor.md R150). -/
theorem AtEpochStart.loop_eoi (hs : SessionRuns s) (h : AtEpochStart s used out old t)
    (hroom : used + (w0Of s.regs.cfg + 1) ≤ 8 * (unreadBytes s).length)
    (hcode : sourceCode s used (w0Of s.regs.cfg + 1) = eoiCode s.regs.cfg) :
    ∃ u, dLoop limit (fuel + 1) label t = .ok () u ∧ AtEpochStart s (used + (w0Of s.regs.cfg + 1)) out old u := by
  obtain ⟨u, hnext, hu⟩ := h.next_code hs hroom
  exact ⟨u, by simp only [dLoop, hnext, Res.bind_ok, hcode, hu.frame.regs, if_true], hu⟩

/-- A post-clear code from FIRST_FREE up raises CorruptStreamCode (44_decompressor.md R152). -/
theorem AtEpochStart.loop_corrupt (hs : SessionRuns s) (h : AtEpochStart s used out old t)
    (hroom : used + (w0Of s.regs.cfg + 1) ≤ 8 * (unreadBytes s).length)
    (hcode : sourceCode s used (w0Of s.regs.cfg + 1) = code) (hfree : firstFree s.regs.cfg ≤ code) :
    ∃ u, dLoop limit (fuel + 1) .postClear t = .raised .corruptStreamCode code (firstFree s.regs.cfg) u ∧
      AtEpochStart s (used + (w0Of s.regs.cfg + 1)) out old u := by
  obtain ⟨u, hnext, hu⟩ := h.next_code hs hroom
  simp only [firstFree] at hfree
  have heoi : code ≠ eoiCode s.regs.cfg := by simp only [eoiCode]; omega
  have hclear : code ≠ clearCode s.regs.cfg := by omega
  have hhigh : clearCode s.regs.cfg ≤ code := by omega
  refine ⟨u, ?_, hu⟩
  simp only [dLoop, hnext, Res.bind_ok, hcode, hu.frame.regs, if_neg heoi, if_neg hclear, dDataCode, dPostClearCode,
    if_pos hhigh, Res.bind_raised, hu.d, clearedWith]

/-- A post-clear literal is emitted and becomes `D_OLD`; the table does not grow (44_decompressor.md R152). -/
theorem AtEpochStart.literal (hs : SessionRuns s) (h : AtEpochStart s used [] none t) (hlit : code < clearCode s.regs.cfg) :
    ∃ u, dPostClearCode code t = .ok () u ∧ AtEpochStart s used [BitVec.ofNat 8 code] (some code) u := by
  have hentry : dEntry code t = .ok [BitVec.ofNat 8 code] t := by
    rw [dEntry, h.d, tableGet_cleared, if_pos hlit]
  have hemit := ((dEmit_meets [BitVec.ofNat 8 code] t).andAll (dEmit_decompress _ t)).mono (fun _ _ => id)
    (Q' := fun _ _ _ _ => False) fun _ _ _ _ ⟨⟨_, _, _, _, _, hfail⟩, _⟩ =>
      not_snkFailed (hs.accepts.later h.frame.grow) hfail
  obtain ⟨_, u, hu, ⟨hsnk, hd, hbr, hpos, -⟩, hframe⟩ := hemit.returns
  refine ⟨dSetOld code u, ?_, ?_⟩
  · have hlow : ¬ clearCode t.regs.cfg ≤ code := by rw [h.frame.regs]; omega
    rw [dPostClearCode, if_neg hlow, hentry, Res.bind_ok, hu, Res.bind_ok]
  · exact
      { frame := .trans _ _ _ h.frame (.trans _ _ _ hframe (setD_decompress u _))
        d := by rw [dSetOld, State.setD_d, hd, h.d]; rfl
        snk := by rw [dSetOld, State.setD_io, hsnk, h.snk, List.append_nil]
        cache := hbr ▸ h.cache
        bits := by
          rw [← h.bits]
          simp [unreadBits, unreadBytes, dSetOld, hframe.regs, hbr, hpos, hframe.grow.src] }

/-- After the literal the budget decides (44_decompressor.md R150, R158). -/
theorem AtEpochStart.loop_literal (hs : SessionRuns s) (h : AtEpochStart s used [] none t)
    (hroom : used + (w0Of s.regs.cfg + 1) ≤ 8 * (unreadBytes s).length)
    (hcode : sourceCode s used (w0Of s.regs.cfg + 1) = code) (hlit : code < clearCode s.regs.cfg) :
    ∃ u, dLoop limit (fuel + 1) .postClear t = (if limit ≤ 1 then .ok () u else dLoop limit fuel .code u) ∧
      AtEpochStart s (used + (w0Of s.regs.cfg + 1)) [BitVec.ofNat 8 code] (some code) u := by
  obtain ⟨v, hnext, hv⟩ := h.next_code hs hroom
  obtain ⟨u, hemit, hu⟩ := hv.literal hs hlit
  have heoi : code ≠ eoiCode s.regs.cfg := by simp only [eoiCode]; omega
  have hclear : code ≠ clearCode s.regs.cfg := by omega
  refine ⟨u, ?_, hu⟩
  simp only [dLoop, hnext, Res.bind_ok, hcode, hv.frame.regs, if_neg heoi, if_neg hclear, dDataCode, hemit, hu.d, clearedWith,
    List.length_singleton]

end

/-! ### The command -/

/-- DECOMPRESS past its check is `decompress(LEN)` on a fresh session (44_decompressor.md R157). -/
theorem exec_decompress_of_configured {len : Word} {s : State} (h : Configured s) :
    exec (.decompress len) s = endCommand false ((decompressAll len.toNat (freshDecompress len s)).bind fun _ u =>
      .ok { result := BitVec.ofNat 32 u.d.written, sentinel := false } u) := by
  simp only [exec, execDecompress, whenConfigured_on h]

theorem exec_decompress_of_ok {len : Word} {s v : State} (h : Configured s)
    (hv : decompressAll len.toNat (freshDecompress len s) = .ok () v) :
    exec (.decompress len) s = .next (takeReturn ⟨BitVec.ofNat 32 v.d.written, false⟩ v) := by
  rw [exec_decompress_of_configured h, hv, Res.bind_ok, endCommand_ok]

theorem exec_decompress_of_raised {len : Word} {s v : State} {code : StatusCode} {i0 i1 : Nat} (h : Configured s)
    (hv : decompressAll len.toNat (freshDecompress len s) = .raised code i0 i1 v) :
    exec (.decompress len) s = .next (takeRaise false code i0 i1 v) := by
  rw [exec_decompress_of_configured h, hv, Res.bind_raised, endCommand_raised]

/-- From a sound, configured state where no access is refused the fresh session's reads and writes complete. -/
theorem freshDecompress_runs {s : State} (hinv : Inv s) (hconf : Configured s) (hsrc : SrcAnswers s) (hsnk : SnkAccepts s)
    (len : Word) : SessionRuns (freshDecompress len s) :=
  ⟨hinv.configured hconf, hconf, hsrc, hsnk⟩

/-- A DECOMPRESS of a stream that begins with `k + 1` CLEARs comes, with fuel left, to the post-clear read behind them. -/
theorem decompressAll_after_clears {s : State} {len : Word} (hs : SessionRuns (freshDecompress len s)) (hlen : len ≠ 0#32)
    (k : Nat) (hroom : (k + 2) * (w0Of s.regs.cfg + 1) ≤ 8 * (unreadBytes s).length)
    (hcodes : ∀ j, j ≤ k → sourceCode s (j * (w0Of s.regs.cfg + 1)) (w0Of s.regs.cfg + 1) = clearCode s.regs.cfg) :
    ∃ fuel u, decompressAll len.toNat (freshDecompress len s) = dLoop len.toNat (fuel + 1) .postClear u ∧
      AtEpochStart (freshDecompress len s) ((k + 1) * (w0Of s.regs.cfg + 1)) [] none u := by
  have hlimit : 0 < len.toNat := Nat.pos_of_ne_zero fun h0 => hlen (BitVec.eq_of_toNat_eq h0)
  have hreads : dMaxReads (freshDecompress len s) = 8 * (unreadBytes s).length + 1 := by
    simp [dMaxReads, freshDecompress, BitCache.zero, unreadBytes]
  have hmany : k + 2 ≤ (k + 2) * (w0Of s.regs.cfg + 1) := Nat.le_mul_of_pos_right _ (Nat.succ_pos _)
  obtain ⟨fuel, hfuel⟩ := Nat.exists_eq_add_of_le' (show k + 2 ≤ dMaxReads (freshDecompress len s) by omega)
  have hclears : (k + 1) * (w0Of s.regs.cfg + 1) ≤ 8 * (unreadBytes s).length :=
    (Nat.mul_le_mul_right _ (Nat.le_succ _)).trans hroom
  obtain ⟨u, hloop, hu⟩ := (freshDecompress_atEpochStart len s).loop_clears (fuel := fuel + 1) (label := .code) hs hlimit k
    hclears hcodes
  refine ⟨fuel, u, ?_, hu⟩
  rw [decompressAll, hfuel, ← hloop]
  congr 1
  omega

/-- What a DECOMPRESS from `s` leaves when it ends at the start of an epoch, with the registers `regs`. -/
structure LeftAtEpochStart (s : State) (regs : Regs) (used : Nat) (out : ByteString) (old : Option Nat) (t : State) : Prop where
  regs : t.regs = regs
  bw : t.bw = s.bw
  c : t.c = s.c
  port : t.port = s.port
  snk : t.io.snk = s.io.snk ++ out
  srcPos : t.io.srcPos = s.io.srcPos + (used + 7) / 8
  bits : t.br.bits = 8 * ((used + 7) / 8) - used
  d : t.d = clearedWith s.regs.cfg old out.length

section
variable {s v : State} {len : Word} {used : Nat} {out : ByteString} {old : Option Nat}

theorem AtEpochStart.left {t : State} {regs : Regs} (hpos : s.io.srcPos ≤ s.io.src.length)
    (hused : used ≤ 8 * (unreadBytes s).length) (hv : AtEpochStart (freshDecompress len s) used out old v)
    (ht : SameButOutcome v t) (hregs : t.regs = regs) : LeftAtEpochStart s regs used out old t where
  regs := hregs
  bw := ht.bw.trans hv.frame.bw
  c := ht.c.trans hv.frame.c
  port := ht.port.trans hv.frame.port
  snk := ht.io ▸ hv.snk
  srcPos := ht.io ▸ (hv.position hpos hused).1
  bits := ht.br ▸ (hv.position hpos hused).2
  d := ht.d.trans hv.d

/-- A return there gives the number of bytes emitted as RESULT (44_decompressor.md R157). -/
theorem AtEpochStart.returned (hinv : Inv s) (hconf : Configured s) (hused : used ≤ 8 * (unreadBytes s).length)
    (hv : AtEpochStart (freshDecompress len s) used out old v)
    (hend : decompressAll len.toNat (freshDecompress len s) = .ok () v) :
    ∃ t, exec (.decompress len) s = .next t ∧ LeftAtEpochStart s
      { returnedRegs (BitVec.ofNat 32 out.length) false s.regs with expectedLen := len } used out old t := by
  refine ⟨_, exec_decompress_of_ok hconf hend, hv.left hinv.src_pos hused (takeReturn_sameButOutcome _ v) ?_⟩
  rw [takeReturn_regs, hv.frame.regs, hv.d]
  rfl

theorem AtEpochStart.raised {code : StatusCode} {i0 i1 : Nat} (hinv : Inv s) (hconf : Configured s)
    (hused : used ≤ 8 * (unreadBytes s).length) (hv : AtEpochStart (freshDecompress len s) used out old v)
    (hend : decompressAll len.toNat (freshDecompress len s) = .raised code i0 i1 v) :
    ∃ t, exec (.decompress len) s = .next t ∧ LeftAtEpochStart s
      { raisedRegs true code i0 i1 s.regs with expectedLen := len } used out old t := by
  refine ⟨_, exec_decompress_of_raised hconf hend,
    hv.left hinv.src_pos hused (takeRaise_sameButOutcome false code i0 i1 v) ?_⟩
  have hstays : configuredFlag (freshDecompress len s).regs.status = true := hconf
  rw [takeRaise_regs, hv.frame.regs, hstays]
  rfl

end

/-- Where `decompress(LEN)` goes on with the loop from `v`, the command still ends, and it keeps of `v` what D's procedures keep
(44_decompressor.md R150 to R158). -/
theorem exec_decompress_goes_on {s v : State} {len : Word} (hinv : Inv s) (hconf : Configured s) {limit fuel : Nat}
    {label : DLabel} (hv : decompressAll len.toNat (freshDecompress len s) = dLoop limit fuel label v) :
    ∃ u t, exec (.decompress len) s = .next t ∧ DecompressFrame v u ∧ SameButOutcome u t := by
  have hmeets := decompressAll_meets (hinv.configured hconf) len.toNat (freshDecompress len s) rfl rfl
    ⟨Nat.one_pos, Nat.zero_le 11⟩
  have hframe := dLoop_decompress limit fuel label v
  rw [← hv] at hframe
  cases hend : decompressAll len.toNat (freshDecompress len s) with
  | ok a u => exact ⟨u, _, exec_decompress_of_ok hconf hend, by rwa [hend] at hframe, takeReturn_sameButOutcome _ u⟩
  | raised code i0 i1 u =>
    exact ⟨u, _, exec_decompress_of_raised hconf hend, by rwa [hend] at hframe, takeRaise_sameButOutcome _ code i0 i1 u⟩
  | fault f =>
    rw [hend] at hmeets
    exact hmeets.elim

end Sys2Proof.Machine
end

section
/-! The obligations of 30_encoding.md. -/

namespace Sys2Proof.Machine

/-- Settles O9: the fields of R81 do not overlap, so each is read back from the word. -/
theorem decodeOfEncode : Obligations.DecodeOfEncode := fun _ w1 h => decode_encode h w1

/-- Settles O10: a word that decodes is of a row of R82 and has no reserved bit set, so its opcode and fields are all of it. -/
theorem encodeOfDecode : Obligations.EncodeOfDecode := by
  intro w w1 i h
  obtain ⟨lo, hrow, hlt⟩ := decode_eq_ok.mp h
  refine ⟨hrow.wellFormed, ?_⟩
  rw [encode, hrow.encodeWord_eq rfl hlt, hrow.encodeOperands_eq]
  split <;> rfl

/-- Settles O5: the block takes exactly the encoded words, and they decode to the command. -/
theorem encodedCommandRuns : Obligations.EncodedCommandRuns := by
  intro s i rest hwf hport
  exact step_of_decode (hport ▸ fetch_encode i rest) (decode_encode hwf 0#32)

/-- Settles O4: one word is taken, or two when the opcode is 0x40, with the resets between them put behind. -/
theorem stepRunsDecodedCommand : Obligations.StepRunsDecodedCommand := by
  intro s w w1 k rest i
  refine ⟨fun hport hop hdec => ?_, fun hport hop hdec => ?_⟩
  · exact step_of_decode (hport ▸ fetch_one_word hop rest) hdec
  · exact step_of_decode (hport ▸ fetch_two_words hop w1 k rest) hdec

/-- Settles O6: the words are taken as for a legal command, then IllegalCommand is raised. -/
theorem illegalWordEndsCommand : Obligations.IllegalWordEndsCommand := by
  intro s w w1 k rest why
  refine ⟨fun hport hop hdec => ?_, fun hport hop hdec => ?_⟩
  · rw [step_of_fetch (hport ▸ fetch_one_word hop rest), runCommand_of_illegal hdec]
    rfl
  · rw [step_of_fetch (hport ▸ fetch_two_words hop w1 k rest), runCommand_of_illegal hdec]
    rfl

/-- Settles O7: outside the map of R82 every word is illegal, and in a row exactly those with a reserved bit set. -/
theorem illegalWordsExactly : Obligations.IllegalWordsExactly := by
  intro w w1
  rw [← opcodeOf_eq_extractLsb']
  rcases opcodeRow_or_unknown w w1 with ⟨lo, i, hrow⟩ | ⟨hop, hill⟩
  · rw [hrow.decode_eq rfl, decodeFormat_illegal]
    generalize opcodeOf w = op at hrow
    cases hrow with
    | config => simp [reservedClear_iff_extractLsb' (w := w) (show 17 + 15 = 32 from rfl)]
    | bwwrite => simp [reservedClear_iff_extractLsb' (w := w) (show 24 + 8 = 32 from rfl)]
    | brread => simp [reservedClear_iff_extractLsb' (w := w) (show 12 + 20 = 32 from rfl)]
    | _ => simp [reservedClear_iff_extractLsb' (w := w) (show 8 + 24 = 32 from rfl)]
  · exact ⟨fun _ => .inl hop, fun _ => ⟨_, hill⟩⟩

/-- Settles O8: the decoder's fields are slices of the word; the words without fields decode by their row. -/
theorem decodeReadsFields : Obligations.DecodeReadsFields := by
  intro w w1
  have opcode {b : Byte} (h : w.extractLsb' 0 8 = b) : opcodeOf w = b.toNat := by rw [opcodeOf_eq_extractLsb', h]
  have clear {lo len : Nat} (hlen : lo + len = 32) (h : w.extractLsb' lo len = 0#len) : w.toNat < 2 ^ lo :=
    reservedClear_iff.mp ((reservedClear_iff_extractLsb' hlen).mpr h)
  simp only [← bitField_eq_extractLsb', ← bitFlag_eq_getLsbD]
  refine ⟨fun hop h => ?_, fun hop h => ?_, fun hop h => ?_, ?_, ?_, ?_, ?_⟩
  · exact OpcodeRow.config.decode_ok (opcode hop) (clear rfl h)
  · exact OpcodeRow.bwwrite.decode_ok (opcode hop) (clear rfl h)
  · exact OpcodeRow.brread.decode_ok (opcode hop) (clear rfl h)
  · rintro rfl; exact OpcodeRow.bwflush.decode_ok (by decide) (by decide)
  · rintro rfl; exact OpcodeRow.brreset.decode_ok (by decide) (by decide)
  · rintro rfl; exact OpcodeRow.compress.decode_ok (by decide) (by decide)
  · rintro rfl; exact OpcodeRow.decompress.decode_ok (by decide) (by decide)

/-- Settles O11: each example is encoded by evaluation and decoded because the decoder inverts the encoder. -/
theorem encodingExamples : Obligations.EncodingExamples :=
  ⟨encode_and_decode_one rfl rfl, encode_and_decode_one rfl rfl, encode_and_decode_one rfl rfl, encode_and_decode_one rfl rfl,
    encode_and_decode_one rfl rfl, encode_and_decode_one rfl rfl, encode_and_decode_one rfl rfl, encode_and_decode_one rfl rfl,
    encode_and_decode_one rfl rfl, encode_and_decode_one rfl rfl, encode_and_decode_one rfl rfl, encode_and_decode_one rfl rfl,
    encode_and_decode_one rfl rfl, rfl, decode_encode (i := .decompress 5#32) rfl 0#32⟩

/-- What is left at the start of an epoch, as a statement about the post-clear read says it. -/
theorem LeftAtEpochStart.postClear {s t : State} {regs : Regs} {used : Nat} {out : ByteString} {old : Option Nat} {P : Prop}
    (hwidth : widen (w0Of s.regs.cfg) = w0Of s.regs.cfg + 1) (h : LeftAtEpochStart s regs used out old t) :
    t.bw = s.bw ∧ t.c = s.c ∧ t.port = s.port ∧ s.io.snk ++ out <+: t.io.snk ∧
      (P → t.regs = regs ∧ t.io.snk = s.io.snk ++ out ∧ t.io.srcPos = s.io.srcPos + (used + 7) / 8 ∧
        t.br.bits = 8 * ((used + 7) / 8) - used ∧ t.d.old = old ∧ t.d.written = out.length ∧
        t.d.codes = firstFree s.regs.cfg ∧ t.d.width = w0Of s.regs.cfg + 1 ∧
        ∀ c, tableGet c t.d.table = if c < clearCode s.regs.cfg then some [BitVec.ofNat 8 c] else none) := by
  refine ⟨h.bw, h.c, h.port, h.snk ▸ List.prefix_rfl, fun _ => ⟨h.regs, h.snk, h.srcPos, h.bits, ?_⟩⟩
  rw [h.d]
  exact ⟨rfl, rfl, rfl, hwidth, tableGet_cleared _ _ _⟩

/-- Settles O54: the run of CLEARs comes to the post-clear read, and the code read there decides between EOI, CorruptStreamCode
and a literal, which ends the command or lets it go on. -/
theorem decompressPostClearCode : Obligations.DecompressPostClearCode := by
  intro s len k code hinv hconf hlen hsrc hsnk hroom hclears hcode hne
  have hs := freshDecompress_runs hinv hconf hsrc hsnk len
  obtain ⟨fuel, u, hloop, hu⟩ := decompressAll_after_clears hs hlen k hroom hclears
  have hused : (k + 1) * (w0Of s.regs.cfg + 1) + (w0Of s.regs.cfg + 1) = (k + 2) * (w0Of s.regs.cfg + 1) :=
    (Nat.succ_mul (k + 1) _).symm
  have hnext := hused.trans_le hroom
  have hwidth := (hinv.configured hconf).widen_w0
  rcases Nat.lt_or_ge code (clearCode s.regs.cfg) with hlit | hhigh
  · obtain ⟨v, hlast, hv⟩ := hu.loop_literal (limit := len.toNat) (fuel := fuel) hs hnext hcode.symm hlit
    simp only [if_pos hlit]
    by_cases hone : len.toNat ≤ 1
    · obtain ⟨t, hexec, ht⟩ := (hused ▸ hv).returned hinv hconf hroom (by rw [hloop, hlast, if_pos hone])
      exact ⟨t, hexec, ht.postClear hwidth⟩
    · obtain ⟨w, t, hexec, hw, ht⟩ := exec_decompress_goes_on hinv hconf (hloop.trans (hlast.trans (if_neg hone)))
      refine ⟨t, hexec, ht.bw.trans (hw.bw.trans hv.frame.bw), ht.c.trans (hw.c.trans hv.frame.c),
        ht.port.trans (hw.port.trans hv.frame.port), ht.io ▸ hv.snk ▸ hw.grow.snk, ?_⟩
      rintro (hhigh | rfl)
      · exact absurd hlit (Nat.not_lt.mpr hhigh)
      · exact absurd (Nat.le_refl 1) hone
  · simp only [if_neg (Nat.not_lt.mpr hhigh)]
    by_cases heoi : code = eoiCode s.regs.cfg
    · obtain ⟨v, hlast, hv⟩ := hu.loop_eoi (limit := len.toNat) (fuel := fuel) (label := .postClear) hs hnext
        (hcode.symm.trans heoi)
      obtain ⟨t, hexec, ht⟩ := (hused ▸ hv).returned hinv hconf hroom (hloop.trans hlast)
      rw [if_pos heoi]
      exact ⟨t, hexec, ht.postClear hwidth⟩
    · have hfree : firstFree s.regs.cfg ≤ code := by
        simp only [eoiCode] at heoi
        simp only [firstFree]
        omega
      obtain ⟨v, hlast, hv⟩ := hu.loop_corrupt (limit := len.toNat) (fuel := fuel) hs hnext hcode.symm hfree
      obtain ⟨t, hexec, ht⟩ := (hused ▸ hv).raised hinv hconf hroom (hloop.trans hlast)
      rw [if_neg heoi]
      exact ⟨t, hexec, ht.postClear hwidth⟩

end Sys2Proof.Machine
end

section
/-! SUPPORT. CONFIG said once (40_config.md R100 to R103): the checks that can fail, what a failed and what a successful one
leaves; and the configuration check that every other command begins with (60_exceptions.md R182). -/

namespace Sys2Proof.Machine

/-! ### The checks of CONFIG -/

/-- The first check of 40_config.md R100 that fails, with the status and the ERRINFO it reports. -/
inductive ConfigFault (w0 bo : Nat) (tm : Bool) : StatusCode → Nat → Nat → Prop
  | byteOrder (hbo : 1 < bo) : ConfigFault w0 bo tm .unknownByteOrder bo 0
  | width (hbo : bo ≤ 1) (hw : w0 < 2 ∨ 8 < w0) : ConfigFault w0 bo tm .invalidArgument w0 1
  | tiff (hbo : bo ≤ 1) (hlow : 2 ≤ w0) (hhigh : w0 < 8) (htm : tm = true) : ConfigFault w0 bo tm .invalidArgument w0 3

/-- The fields pass every check of 40_config.md R100. -/
structure ConfigFieldsLegal (w0 bo : Nat) (tm : Bool) : Prop where
  bo_le : bo ≤ 1
  w0_low : 2 ≤ w0
  w0_high : w0 ≤ 8
  tiff : tm = true → w0 = 8

/-- Either the fields are legal or some check is the first to fail. -/
theorem configFieldsLegal_or_fault (w0 bo : Nat) (tm : Bool) :
    ConfigFieldsLegal w0 bo tm ∨ ∃ code i0 i1, ConfigFault w0 bo tm code i0 i1 := by
  by_cases hbo : bo ≤ 1
  · by_cases hw : w0 < 2 ∨ 8 < w0
    · exact .inr ⟨_, _, _, .width hbo hw⟩
    · by_cases htm : tm = true → w0 = 8
      · exact .inl ⟨hbo, by omega, by omega, htm⟩
      · obtain ⟨htm, hne⟩ := Classical.not_imp.mp htm
        exact .inr ⟨_, _, _, .tiff hbo (by omega) (by omega) htm⟩
  · exact .inr ⟨_, _, _, .byteOrder (Nat.lt_of_not_le hbo)⟩

theorem ConfigFault.code_ne_ok {w0 bo i0 i1 : Nat} {tm : Bool} {code : StatusCode} (h : ConfigFault w0 bo tm code i0 i1) :
    code ≠ .ok := by
  cases h <;> decide

/-- A raise of CONFIG clears CONFIGURED (40_config.md R101). -/
theorem takeRaise_of_config (code : StatusCode) (i0 i1 : Nat) (s : State) :
    takeRaise true code i0 i1 s = s.setRegs (raisedRegs false code i0 i1 s.regs) := by
  rw [takeRaise, statusAfterRaise, Bool.not_true, Bool.and_false]
  rfl

/-- A CONFIG whose fields fail a check reports it and writes nothing but the outcome registers. -/
theorem exec_config_of_fault {w0 bo i0 i1 : Nat} {tm : Bool} {code : StatusCode} (h : ConfigFault w0 bo tm code i0 i1)
    (el obs : Bool) (s : State) :
    exec (.config w0 bo el tm obs) s = .next (s.setRegs (raisedRegs false code i0 i1 s.regs)) := by
  rw [← takeRaise_of_config]
  simp only [exec, execConfig]
  cases h with
  | byteOrder hbo => rw [if_pos hbo, endCommand_raised]
  | width hbo hw => rw [if_neg (Nat.not_lt.mpr hbo), if_pos hw, endCommand_raised]
  | tiff hbo hlow hhigh htm =>
    rw [if_neg (Nat.not_lt.mpr hbo), if_neg (by omega), if_pos ⟨htm, hhigh.ne⟩, endCommand_raised]

/-- The state at the end of a CONFIG with legal fields. -/
def afterConfig (w0 bo : Nat) (el tm obs : Bool) (s : State) : State :=
  takeReturn returnedNothing (notifyInit (configured (cfgWord w0 bo el tm obs) s))

theorem exec_config_of_legal {w0 bo : Nat} {tm : Bool} (h : ConfigFieldsLegal w0 bo tm) (el obs : Bool) (s : State) :
    exec (.config w0 bo el tm obs) s = .next (afterConfig w0 bo el tm obs s) := by
  obtain ⟨hbo, hlow, hhigh, htm⟩ := h
  have hw : ¬ (w0 < 2 ∨ 8 < w0) := by omega
  have htiff : ¬ (tm = true ∧ w0 ≠ 8) := fun ⟨ht, hne⟩ => hne (htm ht)
  simp only [exec, execConfig]
  rw [if_neg (Nat.not_lt.mpr hbo), if_neg hw, if_neg htiff, endCommand_ok, afterConfig]

/-- What a CONFIG can do: it fails a check, or its fields are legal. -/
theorem exec_config_cases {w0 bo : Nat} {el tm obs : Bool} {s t : State} (h : exec (.config w0 bo el tm obs) s = .next t) :
    (∃ code i0 i1, ConfigFault w0 bo tm code i0 i1 ∧ t = s.setRegs (raisedRegs false code i0 i1 s.regs)) ∨
      (ConfigFieldsLegal w0 bo tm ∧ t = afterConfig w0 bo el tm obs s) := by
  rcases configFieldsLegal_or_fault w0 bo tm with hlegal | ⟨code, i0, i1, hfault⟩
  · exact .inr ⟨hlegal, Host.Outcome.next.inj (h.symm.trans (exec_config_of_legal hlegal el obs s))⟩
  · exact .inl ⟨code, i0, i1, hfault, Host.Outcome.next.inj (h.symm.trans (exec_config_of_fault hfault el obs s))⟩

/-! ### What a successful CONFIG leaves -/

/-- The INIT events of a successful CONFIG with this CFG, C's first (40_config.md R103). -/
def initEvents (cfg : Word) (io : Streams) : List EvtRecord :=
  if obsOf cfg then
    [{ event := { unit := .c, kind := .init, v1 := clearCode cfg, v2 := eoiCode cfg }, srcPos := io.srcPos,
       snkLen := io.snk.length },
     { event := { unit := .d, kind := .init, v1 := clearCode cfg, v2 := eoiCode cfg }, srcPos := io.srcPos,
       snkLen := io.snk.length }]
  else []

/-- `notifyInit` changes EVT alone. -/
theorem notifyInit_eq (s : State) :
    notifyInit s = s.setIo { s.io with evt := s.io.evt ++ initEvents s.regs.cfg s.io } := by
  cases hobs : obsOf s.regs.cfg with
  | true => simp [notifyInit, notify_on, initEvents, hobs]
  | false =>
    rw [notifyInit, notify_off hobs, notify_off hobs, initEvents, hobs, if_neg Bool.false_ne_true, List.append_nil]
    rfl

theorem ConfigFieldsLegal.cfgWord_fields {w0 bo : Nat} {tm : Bool} (h : ConfigFieldsLegal w0 bo tm) : w0 < 16 ∧ bo < 2 :=
  ⟨h.w0_high.trans_lt (by decide), Nat.lt_succ_of_le h.bo_le⟩

section
variable (w0 bo : Nat) (el tm obs : Bool) (s : State)

@[simp] theorem afterConfig_regs : (afterConfig w0 bo el tm obs s).regs =
    { cfg := cfgWord w0 bo el tm obs, status := 0x40#32, errinfo0 := 0#32, errinfo1 := 0#32, result := 0#32,
      expectedLen := 0#32 } := by
  have hstatus : statusAfterReturn false statusConfigured = 0x40#32 := by decide
  rw [← hstatus, afterConfig, notifyInit_eq]
  rfl

@[simp] theorem afterConfig_bw : (afterConfig w0 bo el tm obs s).bw = BitCache.zero := by
  rw [afterConfig, takeReturn_bw, notifyInit_eq]
  rfl

@[simp] theorem afterConfig_br : (afterConfig w0 bo el tm obs s).br = BitCache.zero := by
  rw [afterConfig, takeReturn_br, notifyInit_eq]
  rfl

@[simp] theorem afterConfig_c : (afterConfig w0 bo el tm obs s).c =
    { width := widen (w0Of (cfgWord w0 bo el tm obs)), codes := firstFree (cfgWord w0 bo el tm obs),
      dict := literalTable (clearCode (cfgWord w0 bo el tm obs)), run := [], pos := 0 } := by
  rw [afterConfig, takeReturn_c, notifyInit_eq]
  rfl

@[simp] theorem afterConfig_d :
    (afterConfig w0 bo el tm obs s).d = clearedWith (cfgWord w0 bo el tm obs) none 0 := by
  rw [afterConfig, takeReturn_d, notifyInit_eq]
  rfl

@[simp] theorem afterConfig_port : (afterConfig w0 bo el tm obs s).port = s.port := by
  rw [afterConfig, takeReturn_port, notifyInit_eq]
  rfl

@[simp] theorem afterConfig_io : (afterConfig w0 bo el tm obs s).io =
    { s.io with evt := s.io.evt ++ initEvents (cfgWord w0 bo el tm obs) s.io } := by
  rw [afterConfig, takeReturn_io, notifyInit_eq]
  rfl

end

/-- The literal table read by key: each one-byte string has its byte as code (43_compressor.md R131). -/
theorem tableCodeOf_literalTable {n : Nat} (hn : n ≤ 2 ^ 8) (key : ByteString) (code : Nat) :
    tableCodeOf key (literalTable n) = some code ↔ code < n ∧ key = [BitVec.ofNat 8 code] := by
  constructor
  · exact fun h => mem_literalTable.mp (tableCodeOf_mem h)
  · rintro ⟨hlt, rfl⟩
    have hkey : [BitVec.ofNat 8 code] ∈ (literalTable n).map Prod.snd :=
      List.mem_map.mpr ⟨(code, [BitVec.ofNat 8 code]), mem_literalTable.mpr ⟨hlt, rfl⟩, rfl⟩
    obtain ⟨found, hfound⟩ := Option.isSome_iff_exists.mp ((tableCodeOf_isSome _ _).mpr hkey)
    obtain ⟨hflt, hsame⟩ := mem_literalTable.mp (tableCodeOf_mem hfound)
    have hnat : code % 2 ^ 8 = found % 2 ^ 8 := by simpa [← BitVec.toNat_inj] using hsame
    rw [Nat.mod_eq_of_lt (hlt.trans_le hn), Nat.mod_eq_of_lt (hflt.trans_le hn)] at hnat
    rw [hfound, hnat]

/-! ### The configuration check of the other commands -/

/-- Every command but CONFIG begins with the configuration check, which reports its opcode (60_exceptions.md R182). -/
theorem exec_eq_whenConfigured {i : Instr} (h : isConfig i = false) :
    ∃ body, ∀ s, exec i s = endCommand false (whenConfigured (opcodeOfInstr i) s body) := by
  cases i with
  | config w0 bo el tm obs => cases h
  | bwwrite value n =>
    have hop : opcodeOfInstr (.bwwrite value n) = 0x10 :=
      (congrArg (opcodeOf ∘ BitVec.ofNat 32) (by omega)).trans
        (Laws.WordCount.opcode_low (op := 0x10) (x := n + value * 16) (by decide))
    exact ⟨_, fun s => by rw [hop]; rfl⟩
  | bwflush => exact ⟨_, fun _ => rfl⟩
  | brread n =>
    have hop : opcodeOfInstr (.brread n) = 0x20 := Laws.WordCount.opcode_low (op := 0x20) (x := n) (by decide)
    exact ⟨_, fun s => by rw [hop]; rfl⟩
  | brreset => exact ⟨_, fun _ => rfl⟩
  | compress => exact ⟨_, fun _ => rfl⟩
  | decompress len =>
    have hop : opcodeOfInstr (.decompress len) = 0x40 := Laws.WordCount.opcode_low (op := 0x40) (x := 0) (by decide)
    exact ⟨_, fun s => by rw [hop]; rfl⟩

/-- With CONFIGURED clear such a command writes nothing but the outcome registers (60_exceptions.md R183). -/
theorem exec_unconfigured {i : Instr} {s : State} (hi : isConfig i = false) (hs : configuredFlag s.regs.status = false) :
    exec i s = .next (s.setRegs (raisedRegs false .notConfigured (opcodeOfInstr i) 0 s.regs)) := by
  obtain ⟨body, hexec⟩ := exec_eq_whenConfigured hi
  rw [hexec, whenConfigured_off hs, endCommand_raised, takeRaise, statusAfterRaise, hs, Bool.false_and]
  rfl

end Sys2Proof.Machine
end

section
/-! SUPPORT. What a step can do, said once (10_state.md R30, 60_exceptions.md R182), and which commands write CFG (40_config.md
R104). -/

namespace Sys2Proof.Machine

/-- Behind a command word the block takes that command, waits for its operand word, or meets a binding. -/
theorem fetch_word_cases (w : Word) (behind : List HostAction) :
    (∃ w1 rest, fetch (.word w :: behind) = .command w w1 rest) ∨ fetch (.word w :: behind) = .awaitingOperand ∨
      fetch (.word w :: behind) = .interrupted := by
  by_cases hop : opcodeOf w = 0x40
  · rw [fetch, if_pos (commandWords_eq_two.mpr hop)]
    rcases fetchOperand_cases w behind with ⟨k, w1, rest, -, hf⟩ | ⟨k, -, hf⟩ | ⟨k, rest, bytes, -, hf⟩
    · exact .inl ⟨w1, _, hf⟩
    · exact .inr (.inl hf)
    · exact .inr (.inr hf)
  · exact .inl ⟨0#32, behind, fetch_one_word hop behind⟩

/-- What a step that answers a next state has done: nothing, the command whose word stands at the head of the port, or the
binding or reset that stands there. -/
theorem step_cases {s t : State} (h : step s = .next t) :
    t = s ∨
      (∃ w w1 behind rest, s.port = .word w :: behind ∧ fetch s.port = .command w w1 rest ∧
        runCommand w w1 (s.setPort rest) = .next t) ∨
      ∃ a rest, s.port = a :: rest ∧ t = hostAct a (s.setPort rest) := by
  rw [step] at h
  cases hport : s.port with
  | nil =>
    rw [hport] at h
    exact .inl (Host.Outcome.next.inj h).symm
  | cons a behind =>
    rw [hport] at h
    cases a with
    | word w =>
      rcases fetch_word_cases w behind with ⟨w1, rest, hf⟩ | hf | hf
      · rw [hf] at h
        exact .inr (.inl ⟨w, w1, behind, rest, rfl, hf, h⟩)
      · rw [hf] at h
        exact .inl (Host.Outcome.next.inj h).symm
      · rw [hf] at h
        cases h
    | bindSrc bytes => exact .inr (.inr ⟨_, behind, rfl, (Host.Outcome.next.inj h).symm⟩)
    | bindSnk bytes => exact .inr (.inr ⟨_, behind, rfl, (Host.Outcome.next.inj h).symm⟩)
    | reset => exact .inr (.inr ⟨_, behind, rfl, (Host.Outcome.next.inj h).symm⟩)

/-- Only the reset among the host's actions clears a register. -/
theorem hostAct_regs {a : HostAction} (h : a ≠ .reset) (s : State) : (hostAct a s).regs = s.regs := by
  cases a with
  | reset => exact absurd rfl h
  | _ => rfl

@[simp] theorem regsAtRaise_cfg (i : Instr) (s : State) : (regsAtRaise i s).cfg = s.regs.cfg := by
  cases i with
  | decompress len => simp only [regsAtRaise]; split <;> rfl
  | _ => rfl

/-- A command that changed CFG is a CONFIG that returned. -/
theorem exec_changes_cfg {i : Instr} {s t : State} (h : exec i s = .next t) (hcfg : t.regs.cfg ≠ s.regs.cfg) :
    isConfig i = true ∧ codeField t.regs.status = 0 := by
  cases exec_end h with
  | returned r u hregs hr =>
    refine ⟨?_, codeField_returned r u⟩
    by_contra hi
    rw [(takeReturn_sameButOutcome r u).cfg, hregs, regsAtReturn_of_not_config (Bool.eq_false_iff.mpr hi),
      regsAtRaise_cfg] at hcfg
    exact hcfg rfl
  | raised code i0 i1 u hregs hcode =>
    rw [(takeRaise_sameButOutcome _ code i0 i1 u).cfg, hregs, regsAtRaise_cfg] at hcfg
    exact absurd rfl hcfg

/-- CONFIG's row of the opcode map is the first (30_encoding.md R82). -/
theorem opcodeRow_of_isConfig {w w1 : Word} {op lo : Nat} {i : Instr} (h : OpcodeRow w w1 op lo i)
    (hi : isConfig i = true) : op = 0x01 := by
  cases h with
  | config => rfl
  | _ => cases hi

/-- A command's words that changed CFG are those of a CONFIG that returned. -/
theorem runCommand_changes_cfg {w w1 : Word} {s t : State} (h : runCommand w w1 s = .next t)
    (hcfg : t.regs.cfg ≠ s.regs.cfg) : opcodeOf w = 0x01 ∧ codeField t.regs.status = 0 := by
  cases hdec : decode w w1 with
  | ok i =>
    rw [runCommand_of_ok hdec] at h
    obtain ⟨lo, hrow, -⟩ := decode_eq_ok.mp hdec
    obtain ⟨hi, hcode⟩ := exec_changes_cfg h hcfg
    exact ⟨opcodeRow_of_isConfig hrow hi, hcode⟩
  | illegal why =>
    rw [runCommand_of_illegal hdec] at h
    cases h
    exact absurd rfl hcfg

end Sys2Proof.Machine
end

section
/-! SUPPORT. An induction over C's and D's procedures, packaged once: a relation between two states that composes, and that
BW's and BR's frames, the units' updates and the events of the procedures meet, holds from a procedure's start to its end. -/

namespace Sys2Proof.Machine

/-- `R` composes, and it relates the states before and after every primitive of C and D, events of the kinds in `may`
included. -/
structure PrimitivesMeet (may : EvtUnit → EvtKind → Prop) (R : State → State → Prop) : Prop where
  trans : ∀ a b c, R a b → R b c → R a c
  writer : ∀ s t, WriterFrame s t → R s t
  reader : ∀ s t, ReaderFrame s t → R s t
  setC : ∀ s c, R s (s.setC c)
  setD : ∀ s d, R s (s.setD d)
  event : ∀ u k v1 v2 s, may u k → R s (notify u k v1 v2 s)

/-- The kinds of C's events outside its construction (60_exceptions.md R190). -/
def CompressKind (u : EvtUnit) (k : EvtKind) : Prop := u = .c ∧ (k = .clear ∨ k = .data ∨ k = .eoi)

/-- The kinds of D's events outside its construction (60_exceptions.md R190). -/
def DecompressKind (u : EvtUnit) (k : EvtKind) : Prop := u = .d ∧ (k = .code ∨ k = .sentinel)

section
variable {may : EvtUnit → EvtKind → Prop} {R : State → State → Prop} (hR : PrimitivesMeet may R)
include hR

theorem PrimitivesMeet.refl (s : State) : R s s := hR.writer s s (.refl s)

theorem PrimitivesMeet.read (s : State) : (memRead s).All (R s) := (memRead_reader s).mono fun _ h => hR.reader _ _ h

theorem PrimitivesMeet.write (b : Byte) (s : State) : (memWrite b s).All (R s) :=
  (memWrite_writer b s).mono fun _ h => hR.writer _ _ h

/-- The rest of a procedure after a step that meets the relation. -/
theorem PrimitivesMeet.after {α : Type} {s t : State} {r : Res α} (hst : R s t) (h : r.All (R t)) : r.All (R s) :=
  h.mono fun _ hu => hR.trans _ _ _ hst hu

end

/-! ### C -/

section
variable {R : State → State → Prop} (hR : PrimitivesMeet CompressKind R)
include hR

theorem PrimitivesMeet.cWriteCode (v : Nat) {kind : EvtKind} (hk : CompressKind .c kind) (s : State) :
    (cWriteCode v kind s).All (R s) :=
  hR.after (hR.event .c kind v s.c.width s hk) ((bwWrite_writer _ _ _).mono fun _ h => hR.writer _ _ h)

theorem PrimitivesMeet.cAddTableEntry (key : ByteString) (s : State) : (cAddTableEntry key s).All (R s) := by
  unfold Machine.cAddTableEntry
  split
  · split
    · exact hR.setC s _
    · exact Res.All.bind hR.trans (hR.cWriteCode _ ⟨rfl, .inl rfl⟩ s) fun _ t => hR.setC t _
  · exact hR.setC s _

theorem PrimitivesMeet.cWriteRun (s : State) : (cWriteRun s).All (R s) := by
  unfold Machine.cWriteRun
  split
  · exact hR.cWriteCode _ ⟨rfl, .inr (.inl rfl)⟩ s
  · exact hR.refl s

theorem PrimitivesMeet.cScanByte (b : Byte) (s : State) : (cScanByte b s).All (R s) := by
  unfold Machine.cScanByte
  split
  · exact hR.setC s _
  · exact Res.All.bind hR.trans (hR.cWriteRun s) fun _ t =>
      Res.All.bind hR.trans (hR.cAddTableEntry _ t) fun _ u => hR.setC u _

theorem PrimitivesMeet.cScan (fuel : Nat) (s : State) : (cScan fuel s).All (R s) := by
  induction fuel generalizing s with
  | zero =>
    unfold Machine.cScan
    refine Res.All.bind hR.trans (hR.read s) fun answer t => ?_
    cases answer with
    | none => exact hR.refl t
    | some b => trivial
  | succ k ih =>
    unfold Machine.cScan
    refine Res.All.bind hR.trans (hR.read s) fun answer t => ?_
    cases answer with
    | none => exact hR.refl t
    | some b => exact Res.All.bind hR.trans (hR.after (hR.setC t _) (hR.cScanByte b _)) fun _ u => ih u

theorem PrimitivesMeet.cFinish (s : State) : (cFinish s).All (R s) := by
  refine Res.All.bind hR.trans ?_ fun _ t => Res.All.bind hR.trans (hR.cWriteCode _ ⟨rfl, .inr (.inr rfl)⟩ t) fun _ u =>
    (bwFlush_writer u).mono fun _ h => hR.writer _ _ h
  split
  · exact hR.refl s
  · exact hR.cWriteRun s

theorem PrimitivesMeet.compressAll (s : State) : (compressAll s).All (R s) :=
  Res.All.bind hR.trans (hR.after (hR.setC s _) (hR.cWriteCode _ ⟨rfl, .inl rfl⟩ _)) fun _ t =>
    Res.All.bind hR.trans (hR.cScan _ t) fun _ u => hR.cFinish u

/-- COMPRESS, from its check to its end, up to the outcome registers. -/
theorem PrimitivesMeet.execCompress {s t : State} (h : execCompress s = .next t) : ∃ u, R s u ∧ SameButOutcome u t :=
  have hfresh : R s (freshCompress s) := hR.trans _ _ _ (hR.writer _ _ (setBw_writer s _)) (hR.setC _ _)
  endCommand_sameButOutcome h
    (whenConfigured_all (hR.refl s) ((hR.after hfresh (hR.compressAll _)).bind_pure _))

end

/-! ### D -/

section
variable {R : State → State → Prop} (hR : PrimitivesMeet DecompressKind R)
include hR

theorem PrimitivesMeet.dNextCode (s : State) : (dNextCode s).All (R s) := by
  refine Res.All.bind hR.trans ((brRead_reader _ s).mono fun _ h => hR.reader _ _ h) fun r t => hR.event _ _ _ _ t ⟨rfl, ?_⟩
  cases r.2 with
  | code => exact .inl rfl
  | sentinel => exact .inr rfl

theorem PrimitivesMeet.dEmit (str : ByteString) (s : State) : (dEmit str s).All (R s) := by
  induction str generalizing s with
  | nil => exact hR.refl s
  | cons b rest ih => exact Res.All.bind hR.trans (hR.write b s) fun _ t => hR.after (hR.setD t _) (ih _)

theorem PrimitivesMeet.dAppend (str : ByteString) (code : Nat) (s : State) : (dAppend str code s).All (R s) := by
  unfold Machine.dAppend
  split
  · exact hR.refl s
  · exact hR.setD s _

theorem PrimitivesMeet.dEntry (c : Nat) (s : State) : (dEntry c s).All (R s) := by
  unfold Machine.dEntry
  split
  · exact hR.refl s
  · trivial
  · trivial

theorem PrimitivesMeet.dKnown (code old : Nat) (s : State) : (dKnown code old s).All (R s) :=
  Res.All.bind hR.trans (hR.dEntry _ s) fun _ t => Res.All.bind hR.trans (hR.dEmit _ t) fun _ u =>
    Res.All.bind hR.trans (hR.dEntry _ u) fun _ v => Res.All.bind hR.trans (hR.dAppend _ _ v) fun _ w => hR.setD w _

theorem PrimitivesMeet.dKwKwK (code old : Nat) (s : State) : (dKwKwK code old s).All (R s) :=
  Res.All.bind hR.trans (hR.dEntry _ s) fun _ t => Res.All.bind hR.trans (hR.dEmit _ t) fun _ u =>
    Res.All.bind hR.trans (hR.dAppend _ _ u) fun _ v => hR.setD v _

theorem PrimitivesMeet.dSteadyCode (code : Nat) (s : State) : (dSteadyCode code s).All (R s) := by
  unfold Machine.dSteadyCode
  split
  · exact hR.refl s
  · split
    · exact hR.dKnown _ _ s
    · split
      · exact hR.dKwKwK _ _ s
      · exact hR.refl s

theorem PrimitivesMeet.dPostClearCode (code : Nat) (s : State) : (dPostClearCode code s).All (R s) := by
  unfold Machine.dPostClearCode
  split
  · exact hR.refl s
  · exact Res.All.bind hR.trans (hR.dEntry _ s) fun _ t => Res.All.bind hR.trans (hR.dEmit _ t) fun _ u => hR.setD u _

theorem PrimitivesMeet.dDataCode (label : DLabel) (code : Nat) (s : State) : (dDataCode label code s).All (R s) := by
  cases label with
  | code => exact hR.dSteadyCode code s
  | postClear => exact hR.dPostClearCode code s

theorem PrimitivesMeet.dLoop (limit fuel : Nat) (label : DLabel) (s : State) : (dLoop limit fuel label s).All (R s) := by
  induction fuel generalizing label s with
  | zero => trivial
  | succ k ih =>
    refine Res.All.bind hR.trans (hR.dNextCode s) fun code t => ?_
    split
    · exact hR.refl t
    · split
      · split
        · exact hR.setD t _
        · exact hR.after (hR.setD t _) (ih _ _)
      · refine Res.All.bind hR.trans (hR.dDataCode label code t) fun _ u => ?_
        split
        · exact hR.refl u
        · exact ih _ u

theorem PrimitivesMeet.decompressAll (limit : Nat) (s : State) : (decompressAll limit s).All (R s) :=
  hR.after (hR.setD s _) (hR.dLoop _ _ _ _)

/-- DECOMPRESS, from its check to its end, up to the outcome registers; that loading EXPECTED_LEN meets the relation is the
caller's to say. -/
theorem PrimitivesMeet.execDecompress {len : Word} {s t : State} (hlen : R s (s.setRegs { s.regs with expectedLen := len }))
    (h : execDecompress len s = .next t) : ∃ u, R s u ∧ SameButOutcome u t :=
  have hfresh : R s (freshDecompress len s) :=
    hR.trans _ _ _ hlen (hR.trans _ _ _ (hR.reader _ _ (setBr_reader _ _)) (hR.setD _ _))
  endCommand_sameButOutcome h
    (whenConfigured_all (hR.refl s) ((hR.after hfresh (hR.decompressAll _ _)).bind_pure _))

end

end Sys2Proof.Machine
end

section
/-! SUPPORT. The events a command puts on EVT (60_exceptions.md R190). -/

namespace Sys2Proof.Machine

/-- CFG stays, and EVT grows by events of the kinds in `may` alone, by none with `OBS = 0` (60_exceptions.md R190). -/
structure EmitsOnly (may : EvtUnit → EvtKind → Prop) (s t : State) : Prop where
  cfg : t.regs.cfg = s.regs.cfg
  evt : ∃ new, t.io.evt = s.io.evt ++ new ∧ ∀ r ∈ new, obsOf s.regs.cfg = true ∧ may r.event.unit r.event.kind

theorem EmitsOnly.of_same_evt {may : EvtUnit → EvtKind → Prop} {s t : State} (hcfg : t.regs.cfg = s.regs.cfg)
    (hevt : t.io.evt = s.io.evt) : EmitsOnly may s t :=
  ⟨hcfg, [], by simp [hevt]⟩

theorem EmitsOnly.trans {may : EvtUnit → EvtKind → Prop} {a b c : State} (h : EmitsOnly may a b) (h' : EmitsOnly may b c) :
    EmitsOnly may a c := by
  obtain ⟨hcfg, new, hevt, hnew⟩ := h
  obtain ⟨hcfg', new', hevt', hnew'⟩ := h'
  refine ⟨hcfg'.trans hcfg, new ++ new', by rw [hevt', hevt, List.append_assoc], fun r hr => ?_⟩
  rcases List.mem_append.mp hr with hr | hr
  · exact hnew r hr
  · exact hcfg ▸ hnew' r hr

theorem notify_emitsOnly {may : EvtUnit → EvtKind → Prop} {u : EvtUnit} {k : EvtKind} (h : may u k) (v1 v2 : Nat)
    (s : State) : EmitsOnly may s (notify u k v1 v2 s) := by
  cases hobs : obsOf s.regs.cfg with
  | true =>
    rw [notify_on hobs]
    refine ⟨rfl, _, rfl, fun r hr => ?_⟩
    rw [List.mem_singleton.mp hr]
    exact ⟨hobs, h⟩
  | false =>
    rw [notify_off hobs]
    exact .of_same_evt rfl rfl

theorem emitsOnly_primitives (may : EvtUnit → EvtKind → Prop) : PrimitivesMeet may (EmitsOnly may) where
  trans _ _ _ := EmitsOnly.trans
  writer _ _ h := .of_same_evt (congrArg Regs.cfg h.regs) h.evt
  reader _ _ h := .of_same_evt (congrArg Regs.cfg h.regs) h.evt
  setC _ _ := .of_same_evt rfl rfl
  setD _ _ := .of_same_evt rfl rfl
  event _ _ v1 v2 s h := notify_emitsOnly h v1 v2 s

/-- The end of a command emits nothing. -/
theorem EmitsOnly.outcome {may : EvtUnit → EvtKind → Prop} {s u t : State} (h : EmitsOnly may s u) (he : SameButOutcome u t) :
    EmitsOnly may s t :=
  h.trans (.of_same_evt he.cfg (congrArg Streams.evt he.io))

/-- The kinds of events a command may emit; CONFIG's are exact, so it has none here (40_config.md R103, 60_exceptions.md R190). -/
def eventKinds : Instr → EvtUnit → EvtKind → Prop
  | .compress => CompressKind
  | .decompress _ => DecompressKind
  | .config _ _ _ _ _ => fun _ _ => False
  | .bwwrite _ _ => fun _ _ => False
  | .bwflush => fun _ _ => False
  | .brread _ => fun _ _ => False
  | .brreset => fun _ _ => False

/-- Every command but CONFIG emits only events of its own kinds. -/
theorem exec_emitsOnly {i : Instr} {s t : State} (hi : isConfig i = false) (h : exec i s = .next t) :
    EmitsOnly (eventKinds i) s t := by
  cases i with
  | config w0 bo el tm obs => cases hi
  | bwwrite value n =>
    obtain ⟨u, hf, he⟩ := execBwwrite_frame h
    exact ((emitsOnly_primitives _).writer s u hf).outcome he
  | bwflush =>
    obtain ⟨u, hf, he⟩ := execBwflush_frame h
    exact ((emitsOnly_primitives _).writer s u hf).outcome he
  | brread n =>
    obtain ⟨u, hf, he⟩ := execBrread_frame h
    exact ((emitsOnly_primitives _).reader s u hf).outcome he
  | brreset =>
    obtain ⟨u, ⟨hf, -, -⟩, he⟩ := execBrreset_frame h
    exact ((emitsOnly_primitives _).reader s u hf).outcome he
  | compress =>
    obtain ⟨u, hu, he⟩ := (emitsOnly_primitives CompressKind).execCompress h
    exact hu.outcome he
  | decompress len =>
    have hlen : EmitsOnly DecompressKind s (s.setRegs { s.regs with expectedLen := len }) := .of_same_evt rfl rfl
    obtain ⟨u, hu, he⟩ := (emitsOnly_primitives DecompressKind).execDecompress hlen h
    exact hu.outcome he

/-- The new events are the ones appended. -/
theorem newEvents_of_append {s t : State} {new : List EvtRecord} (h : t.io.evt = s.io.evt ++ new) : newEvents s t = new := by
  rw [newEvents, h, List.drop_left]

theorem EmitsOnly.kind {may : EvtUnit → EvtKind → Prop} {s t : State} (h : EmitsOnly may s t) :
    ∀ r ∈ newEvents s t, may r.event.unit r.event.kind := by
  obtain ⟨-, new, hevt, hnew⟩ := h
  exact newEvents_of_append hevt ▸ fun r hr => (hnew r hr).2

theorem EmitsOnly.unobserved {may : EvtUnit → EvtKind → Prop} {s t : State} (h : EmitsOnly may s t)
    (hobs : obsOf t.regs.cfg = false) : newEvents s t = [] := by
  obtain ⟨hcfg, new, hevt, hnew⟩ := h
  rw [newEvents_of_append hevt]
  refine List.eq_nil_iff_forall_not_mem.mpr fun r hr => ?_
  exact Bool.false_ne_true ((hcfg ▸ hobs).symm.trans (hnew r hr).1)

/-- The new events of a successful CONFIG. -/
theorem newEvents_afterConfig (w0 bo : Nat) (el tm obs : Bool) (s : State) :
    newEvents s (afterConfig w0 bo el tm obs s) = initEvents (cfgWord w0 bo el tm obs) s.io :=
  newEvents_of_append (congrArg Streams.evt (afterConfig_io w0 bo el tm obs s))

/-- A command that may emit no kind of event emits none. -/
theorem EmitsOnly.nothing {s t : State} (h : EmitsOnly (fun _ _ => False) s t) : newEvents s t = [] :=
  List.eq_nil_iff_forall_not_mem.mpr h.kind

end Sys2Proof.Machine
end

section
/-! The obligations of 40_config.md. -/

namespace Sys2Proof.Machine

/-- Settles O28: the three checks, in their order, each from its own hypotheses. -/
theorem configErrorsInOrder : Obligations.ConfigErrorsInOrder := fun s _ _ el _ obs =>
  ⟨fun hbo => exec_config_of_fault (.byteOrder hbo) el obs s,
    fun hbo hw => exec_config_of_fault (.width hbo hw) el obs s,
    fun hbo hlow hhigh htm => exec_config_of_fault (.tiff hbo hlow hhigh htm) el obs s⟩

/-- Settles O29: a CONFIG that ended with an error failed a check, and with CONFIGURED cleared the next command's own
configuration check fails. -/
theorem failedConfigDisables : Obligations.FailedConfigDisables := by
  intro s t w0 bo el tm obs h hcode
  rcases exec_config_cases h with ⟨code, i0, i1, hfault, rfl⟩ | ⟨-, rfl⟩
  · refine ⟨rfl, rfl, rfl, rfl, rfl, rfl, rfl, rfl, configuredFlag_statusWord _ _ _ _, errLatchFlag_statusWord _ _ _ _, ?_,
      fun i hi => exec_unconfigured hi (configuredFlag_statusWord _ _ _ _)⟩
    cases hfault with
    | byteOrder hbo => exact .inl ⟨codeField_statusWord _ _ _ _, rfl, rfl⟩
    | width hbo hw => exact .inr ⟨codeField_statusWord _ _ _ _, rfl, .inl rfl⟩
    | tiff hbo hlow hhigh htm => exact .inr ⟨codeField_statusWord _ _ _ _, rfl, .inr rfl⟩
  · rw [afterConfig_regs] at hcode
    exact absurd (show codeField 0x40#32 = 0 by decide) hcode

/-- Settles O27: the units are read off the end state, with the code space and the width that the fields of CFG give. -/
theorem configConstructs : Obligations.ConfigConstructs := by
  intro s w0 bo el tm obs hbo hlow hhigh htm
  have hlegal : ConfigFieldsLegal w0 bo tm := ⟨hbo, hlow, hhigh, htm⟩
  obtain ⟨hw16, hbo2⟩ := hlegal.cfgWord_fields
  have hw0 := w0Of_cfgWord hw16 hbo2 el tm obs
  have hclear : clearCode (cfgWord w0 bo el tm obs) = 2 ^ w0 := congrArg (2 ^ ·) hw0
  have hfree : firstFree (cfgWord w0 bo el tm obs) = 2 ^ w0 + 2 := congrArg (· + 2) hclear
  have hwidth : widen (w0Of (cfgWord w0 bo el tm obs)) = w0 + 1 := hw0.symm ▸ if_pos (hhigh.trans_lt (by decide))
  have hkeys := tableCodeOf_literalTable (Nat.pow_le_pow_right (by decide) hhigh)
  have hentries := hclear ▸ tableGet_cleared (cfgWord w0 bo el tm obs) none 0
  refine ⟨_, exec_config_of_legal hlegal el obs s, ?_⟩
  simp only [afterConfig_regs, afterConfig_bw, afterConfig_br, afterConfig_c, afterConfig_d, afterConfig_port, afterConfig_io,
    initEvents, obsOf_cfgWord hw16 hbo2, eoiCode, hclear, true_and, and_true]
  refine ⟨rfl, rfl, hwidth, hfree, hkeys, hwidth, hfree, rfl, rfl, hentries, ?_⟩
  rw [cfgWord_toNat hw16 hbo2]
  omega

/-- Settles O15: a command that changes CFG is a CONFIG that returned, so a step that does took its word or a reset. -/
theorem cfgOnlyByConfig : Obligations.CfgOnlyByConfig := by
  refine ⟨fun i s t hi h => ?_, fun s t h hcfg => ?_⟩
  · by_contra hcfg
    exact Bool.false_ne_true (hi.symm.trans (exec_changes_cfg h hcfg).1)
  · rcases step_cases h with rfl | ⟨w, w1, behind, rest, hport, -, hrun⟩ | ⟨a, rest, hport, rfl⟩
    · exact absurd rfl hcfg
    · obtain ⟨hop, hcode⟩ := runCommand_changes_cfg hrun hcfg
      exact ⟨behind, .inr ⟨w, hport, BitVec.eq_of_toNat_eq ((opcodeOf_eq_extractLsb' w).symm.trans hop), hcode⟩⟩
    · by_cases ha : a = .reset
      · exact ⟨rest, .inl (ha ▸ hport)⟩
      · exact absurd (congrArg Regs.cfg (hostAct_regs ha (s.setPort rest))) hcfg

/-- Settles O23: CONFIG's events are read off its end state; every other command's are of its unit's kinds. -/
theorem whoEmitsEvents : Obligations.WhoEmitsEvents := by
  intro i s t h
  cases i with
  | config w0 bo el tm obs =>
    rcases exec_config_cases h with ⟨code, i0, i1, hfault, rfl⟩ | ⟨-, rfl⟩
    · have hnone : newEvents s (s.setRegs (raisedRegs false code i0 i1 s.regs)) = [] :=
        newEvents_of_append (List.append_nil _).symm
      refine ⟨fun _ => hnone, fun _ => hnone, fun hcode => absurd hcode ?_⟩
      exact takeRaise_of_config code i0 i1 s ▸ codeField_raised_ne_zero hfault.code_ne_ok true i0 i1 s
    · simp only [newEvents_afterConfig, afterConfig_regs]
      refine ⟨fun hobs => if_neg (Bool.eq_false_iff.mp hobs), fun hcode => absurd (by decide) hcode, fun _ hobs => ?_⟩
      rw [initEvents, if_pos hobs]
      rfl
  | compress => exact ⟨(exec_emitsOnly rfl h).unobserved, (exec_emitsOnly rfl h).kind⟩
  | decompress len => exact ⟨(exec_emitsOnly rfl h).unobserved, (exec_emitsOnly rfl h).kind⟩
  | _ => exact ⟨(exec_emitsOnly rfl h).unobserved, (exec_emitsOnly rfl h).nothing⟩

end Sys2Proof.Machine
end

section
/-! SUPPORT. What BR's refill and `br_read` leave, exactly (41_bitreader.md R110 to R113, R117): how many bytes were taken, how
many accesses were made, and how many bits are gone. -/

namespace Sys2Proof.Machine

/-- From `s` to `t` BR made `accesses` accesses to SRC, took `bytes` bytes from it and gave away `bits` bits; nothing else
changed (41_bitreader.md R110 to R112). -/
structure BrMoved (s : State) (bytes accesses bits : Nat) (t : State) : Prop where
  regs : t.regs = s.regs
  bw : t.bw = s.bw
  c : t.c = s.c
  d : t.d = s.d
  port : t.port = s.port
  io : t.io = { s.io with srcPos := s.io.srcPos + bytes, srcReads := s.io.srcReads + accesses }
  cache : t.br.cache < 2 ^ t.br.bits
  held : t.br.bits + bits = s.br.bits + 8 * bytes
  count : t.br.count = s.br.count + BitVec.ofNat 32 bytes
  unread : unreadBits t = (unreadBits s).drop bits

theorem BrMoved.refl {s : State} (h : s.br.cache < 2 ^ s.br.bits) : BrMoved s 0 0 0 s :=
  ⟨rfl, rfl, rfl, rfl, rfl, rfl, h, rfl, (BitVec.add_zero _).symm, rfl⟩

theorem BrMoved.trans {s t u : State} {m a k m' a' k' : Nat} (h : BrMoved s m a k t) (h' : BrMoved t m' a' k' u) :
    BrMoved s (m + m') (a + a') (k + k') u where
  regs := h'.regs.trans h.regs
  bw := h'.bw.trans h.bw
  c := h'.c.trans h.c
  d := h'.d.trans h.d
  port := h'.port.trans h.port
  io := by simp [h'.io, h.io, Nat.add_assoc]
  cache := h'.cache
  held := by have := h.held; have := h'.held; omega
  count := by rw [h'.count, h.count, BitVec.add_assoc, BitVec.ofNat_add]
  unread := by rw [h'.unread, h.unread, List.drop_drop]

/-- The bytes taken are the next ones of SRC. -/
theorem BrMoved.unreadBytes_eq {s t : State} {m a k : Nat} (h : BrMoved s m a k t) :
    unreadBytes t = (unreadBytes s).drop m := by
  simp [unreadBytes, h.io, List.drop_drop]

theorem unreadBits_length_bytes (s : State) : (unreadBits s).length = s.br.bits + 8 * (unreadBytes s).length := by
  simp [unreadBits, pendingBits]

/-- Where `k` bits are there to be read, the refill takes no more bytes than SRC has (41_bitreader.md R111). -/
theorem refillBytes_le {s : State} {n : Nat} (h : n ≤ (unreadBits s).length) :
    refillBytes s n ≤ (unreadBytes s).length := by
  rw [unreadBits_length_bytes] at h
  rw [refillBytes]
  omega

/-! ### The refill -/

theorem brRefill_of_full {n : Nat} {s : State} (h : n ≤ s.br.bits) (fuel : Nat) :
    brRefill n fuel s = .ok .filled s := by
  cases fuel with
  | zero => rfl
  | succ k => exact if_pos h

/-- An access that gives no byte changes the count of accesses alone. -/
theorem access_moved {s : State} (hcache : s.br.cache < 2 ^ s.br.bits) :
    BrMoved s 0 1 0 (s.setIo { s.io with srcReads := s.io.srcReads + 1 }) :=
  ⟨rfl, rfl, rfl, rfl, rfl, rfl, hcache, rfl, (BitVec.add_zero _).symm, rfl⟩

/-- A byte taken follows the bits held (41_bitreader.md R111). -/
theorem brTakeByte_moved {s : State} {b : Byte} (hcache : s.br.cache < 2 ^ s.br.bits)
    (hb : s.io.src[s.io.srcPos]? = some b) :
    BrMoved s 1 1 0 ((s.setIo { s.io with srcPos := s.io.srcPos + 1, srcReads := s.io.srcReads + 1 }).setBr
      (brTakeByte (byteOrderOf s.regs.cfg) b s.br)) := by
  refine ⟨rfl, rfl, rfl, rfl, rfl, rfl, brTakeByte_lt _ _ hcache, rfl, rfl, ?_⟩
  rw [List.drop_zero, unreadBits, unreadBits, unreadBits_of_take hb, streamBits_cons, ← List.append_assoc,
    ← brTakeByte_bits _ _ hcache]
  rfl

/-- While bits are wanting and SRC answers with a byte, the refill takes it and goes on (41_bitreader.md R111). -/
theorem brRefill_of_byte {n : Nat} {s : State} (fuel : Nat) (hcache : s.br.cache < 2 ^ s.br.bits) (hlow : s.br.bits < n)
    (hmore : unreadBytes s ≠ []) (hans : ioFails s.io.script .src s.io.srcReads = false) :
    ∃ t, brRefill n (fuel + 1) s = brRefill n fuel t ∧ BrMoved s 1 1 0 t := by
  rcases memRead_cases s with ⟨b, -, hb, hread⟩ | ⟨-, hend, -⟩ | ⟨hfail, -⟩
  · exact ⟨_, by rw [brRefill, if_neg (Nat.not_le.mpr hlow), hread]; rfl, brTakeByte_moved hcache hb⟩
  · exact absurd (unreadBytes_of_end hend) hmore
  · simp [hans] at hfail

/-- END ends the refill (41_bitreader.md R113). -/
theorem brRefill_of_end {n : Nat} {s : State} (fuel : Nat) (hcache : s.br.cache < 2 ^ s.br.bits) (hlow : s.br.bits < n)
    (hend : unreadBytes s = []) (hans : ioFails s.io.script .src s.io.srcReads = false) :
    ∃ t, brRefill n (fuel + 1) s = .ok .exhausted t ∧ BrMoved s 0 1 0 t := by
  rcases memRead_cases s with ⟨b, -, hb, -⟩ | ⟨-, -, hread⟩ | ⟨hfail, -⟩
  · simp [unreadBits_of_take hb] at hend
  · exact ⟨_, by rw [brRefill, if_neg (Nat.not_le.mpr hlow), hread]; rfl, access_moved hcache⟩
  · simp [hans] at hfail

/-- A FAIL raises `IoError(0, 0)` with the bits held kept (41_bitreader.md R117). -/
theorem brRefill_of_fail {n : Nat} {s : State} (fuel : Nat) (hcache : s.br.cache < 2 ^ s.br.bits) (hlow : s.br.bits < n)
    (hfail : ioFails s.io.script .src s.io.srcReads = true) :
    ∃ t, brRefill n (fuel + 1) s = .raised .ioError 0 0 t ∧ BrMoved s 0 1 0 t := by
  rcases memRead_cases s with ⟨b, hans, -, -⟩ | ⟨hans, -, -⟩ | ⟨-, hread⟩
  · simp [hans] at hfail
  · simp [hans] at hfail
  · exact ⟨_, by rw [brRefill, if_neg (Nat.not_le.mpr hlow), hread]; rfl, access_moved hcache⟩

/-- The refill takes `m` bytes one after another while each is needed and SRC has it (41_bitreader.md R111). -/
theorem brRefill_takes {n : Nat} {s : State} (fuel m : Nat) (hcache : s.br.cache < 2 ^ s.br.bits)
    (hneed : ∀ i, i < m → s.br.bits + 8 * i < n) (hmore : m ≤ (unreadBytes s).length) (hans : ReadsAnswered s m) :
    ∃ t, brRefill n (fuel + m) s = brRefill n fuel t ∧ BrMoved s m m 0 t := by
  induction m generalizing fuel with
  | zero => exact ⟨s, rfl, .refl hcache⟩
  | succ m ih =>
    obtain ⟨t, hloop, ht⟩ := ih (fuel + 1) (fun i hi => hneed i (Nat.lt_succ_of_lt hi)) (Nat.le_of_succ_le hmore)
      fun j hj => hans j (Nat.lt_succ_of_lt hj)
    have hlow : t.br.bits < n := by have := ht.held; have := hneed m (Nat.lt_succ_self m); omega
    have hbyte : unreadBytes t ≠ [] := by
      rw [ht.unreadBytes_eq]
      exact List.ne_nil_of_length_pos (by rw [List.length_drop]; omega)
    have hanswer : ioFails t.io.script .src t.io.srcReads = false := by rw [ht.io]; exact hans m (Nat.lt_succ_self m)
    obtain ⟨u, hlast, hu⟩ := brRefill_of_byte fuel ht.cache hlow hbyte hanswer
    refine ⟨u, ?_, ht.trans hu⟩
    rw [← hlast, ← hloop, Nat.add_right_comm fuel 1 m]
    rfl

/-! ### `br_read` -/

/-- The extraction splits the unread bits after the code (41_bitreader.md R112). -/
theorem unreadBits_extract {n : Nat} {s : State} (h : n ≤ s.br.bits) :
    unreadBits s = codeBits (byteOrderOf s.regs.cfg) n (brExtractCode (byteOrderOf s.regs.cfg) n s.br) ++
      unreadBits (s.setBr (brDropCode (byteOrderOf s.regs.cfg) n s.br)) := by
  rw [unreadBits, ← brExtract_bits _ h, List.append_assoc]
  rfl

/-- The code returned is that of the next `n` unread bits. -/
theorem brExtractCode_eq {n : Nat} {s : State} (h : n ≤ s.br.bits) :
    brExtractCode (byteOrderOf s.regs.cfg) n s.br = codeOfBits (byteOrderOf s.regs.cfg) ((unreadBits s).take n) := by
  rw [unreadBits_extract h, List.take_left' (codeBits_length _ _ _), codeOfBits_codeBits _ (brExtractCode_lt _ _ _)]

theorem brDropCode_moved {n : Nat} {s : State} (h : n ≤ s.br.bits) :
    BrMoved s 0 0 n (s.setBr (brDropCode (byteOrderOf s.regs.cfg) n s.br)) :=
  ⟨rfl, rfl, rfl, rfl, rfl, rfl, brDropCode_lt _ _ _, Nat.sub_add_cancel h, (BitVec.add_zero _).symm,
    by rw [unreadBits_extract h, List.drop_left' (codeBits_length _ _ _)]⟩

/-- `br_read(n)` with enough bits (41_bitreader.md R110 to R112). -/
theorem brRead_of_enough {n : Nat} {s : State} (hcache : s.br.cache < 2 ^ s.br.bits) (henough : n ≤ (unreadBits s).length)
    (hans : ReadsAnswered s (refillBytes s n)) :
    ∃ t, brRead n s = .ok (codeOfBits (byteOrderOf s.regs.cfg) ((unreadBits s).take n), .code) t ∧
      BrMoved s (refillBytes s n) (refillBytes s n) n t := by
  obtain ⟨fuel, hfuel⟩ : ∃ fuel, n = fuel + refillBytes s n := ⟨n - refillBytes s n, by rw [refillBytes]; omega⟩
  obtain ⟨t, hloop, ht⟩ := brRefill_takes (n := n) fuel (refillBytes s n) hcache
    (fun i hi => by rw [refillBytes] at hi; omega) (refillBytes_le henough) hans
  have hfull : n ≤ t.br.bits := by
    have := ht.held
    rw [refillBytes] at this
    omega
  have hfill : brRefill n n s = .ok .filled t := by
    rw [← brRefill_of_full hfull fuel, ← hloop, ← hfuel]
  refine ⟨_, ?_, by simpa only [Nat.add_zero, Nat.zero_add] using ht.trans (brDropCode_moved hfull)⟩
  rw [brRead, hfill, Res.bind_ok, brExtractCode_eq hfull, ht.unread, ht.regs]
  rfl

/-- `br_read(n)` past the end of SRC: every byte left is taken and every bit kept (41_bitreader.md R113). -/
theorem brRead_past_end {n : Nat} {s : State} (hcache : s.br.cache < 2 ^ s.br.bits) (hshort : (unreadBits s).length < n)
    (hans : ReadsAnswered s ((unreadBytes s).length + 1)) :
    ∃ t, brRead n s = (if tmOf s.regs.cfg then .ok (tiffSentinel, .sentinel) t
        else .raised .prematureEndOfData n (unreadBits s).length t) ∧
      BrMoved s (unreadBytes s).length ((unreadBytes s).length + 1) 0 t := by
  have hbits := unreadBits_length_bytes s
  obtain ⟨fuel, hfuel⟩ : ∃ fuel, n = fuel + 1 + (unreadBytes s).length := ⟨n - (unreadBytes s).length - 1, by omega⟩
  obtain ⟨t, hloop, ht⟩ := brRefill_takes (n := n) (fuel + 1) (unreadBytes s).length hcache (fun i hi => by omega)
    (Nat.le_refl _) fun j hj => hans j (Nat.lt_succ_of_lt hj)
  have hheld : t.br.bits = (unreadBits s).length := ht.held.trans hbits.symm
  have hanswer : ioFails t.io.script .src t.io.srcReads = false := by rw [ht.io]; exact hans _ (Nat.lt_succ_self _)
  obtain ⟨u, hlast, hu⟩ := brRefill_of_end fuel ht.cache (hheld ▸ hshort) (by rw [ht.unreadBytes_eq, List.drop_length]) hanswer
  have hfill : brRefill n n s = .ok .exhausted u := by rw [← hlast, ← hloop, ← hfuel]
  have hsu := ht.trans hu
  refine ⟨u, ?_, hsu⟩
  have hkept : u.br.bits = (unreadBits s).length := hsu.held.trans hbits.symm
  rw [brRead, hfill, Res.bind_ok, ← hsu.regs, ← hkept]

/-- `br_read(n)` when SRC fails after `j` bytes: they are kept in the cache (41_bitreader.md R117). -/
theorem brRead_of_fail {n j : Nat} {s : State} (hcache : s.br.cache < 2 ^ s.br.bits) (hmore : j ≤ (unreadBytes s).length)
    (hneed : s.br.bits + 8 * j < n) (hfail : ReadFailsAt s j) :
    ∃ t, brRead n s = .raised .ioError 0 0 t ∧ BrMoved s j (j + 1) 0 t := by
  obtain ⟨hans, hrefused⟩ := hfail
  obtain ⟨fuel, hfuel⟩ : ∃ fuel, n = fuel + 1 + j := ⟨n - j - 1, by omega⟩
  obtain ⟨t, hloop, ht⟩ := brRefill_takes (n := n) (fuel + 1) j hcache (fun i hi => by omega) hmore hans
  obtain ⟨u, hlast, hu⟩ := brRefill_of_fail (n := n) fuel ht.cache (by have := ht.held; omega) (by rw [ht.io]; exact hrefused)
  have hfill : brRefill n n s = .raised .ioError 0 0 u := by rw [← hlast, ← hloop, ← hfuel]
  exact ⟨u, by rw [brRead, hfill, Res.bind_raised], ht.trans hu⟩

/-! ### The ends of BR's commands -/

/-- A raise of a configured command, other than CONFIG's own, keeps CONFIGURED (60_exceptions.md R181). -/
theorem takeRaise_of_configured {s : State} (h : Configured s) (code : StatusCode) (i0 i1 : Nat) :
    takeRaise false code i0 i1 s = s.setRegs (raisedRegs true code i0 i1 s.regs) := by
  rw [takeRaise, statusAfterRaise, show configuredFlag s.regs.status = true from h]
  rfl

/-- BRREAD that raises. -/
theorem exec_brread_of_raised {n i0 i1 : Nat} {code : StatusCode} {s u : State} (hconf : Configured s) (hlow : 1 ≤ n)
    (hhigh : n ≤ 12) (hu : brRead n s = .raised code i0 i1 u) (hregs : u.regs = s.regs) :
    exec (.brread n) s = .next (u.setRegs (raisedRegs true code i0 i1 s.regs)) := by
  have hkeeps : Configured u := by rw [Configured, hregs]; exact hconf
  rw [exec_brread_of_legal hconf hlow hhigh, hu, Res.bind_raised, endCommand_raised, takeRaise_of_configured hkeeps, hregs]

/-- BRREAD that returns. -/
theorem exec_brread_of_ok {n v : Nat} {kind : ReadKind} {s u : State} (hconf : Configured s) (hlow : 1 ≤ n)
    (hhigh : n ≤ 12) (hu : brRead n s = .ok (v, kind) u) (hregs : u.regs = s.regs) :
    exec (.brread n) s = .next (u.setRegs (returnedRegs (BitVec.ofNat 32 v) (isSentinel kind) s.regs)) := by
  rw [exec_brread_of_legal hconf hlow hhigh, hu, Res.bind_ok, endCommand_ok, ← hregs]
  rfl

/-- Registers that keep CFG leave the unread bits as they are. -/
theorem unreadBits_setRegs {s : State} {r : Regs} (h : r.cfg = s.regs.cfg) : unreadBits (s.setRegs r) = unreadBits s := by
  simp only [unreadBits, State.setRegs_regs, h]
  rfl

end Sys2Proof.Machine
end

section
/-! The obligations of 41_bitreader.md on BR's commands. -/

namespace Sys2Proof.Machine

/-- Settles O31: both commands check `N` before they touch their unit. -/
theorem invalidWidthIsRejected : Obligations.InvalidWidthIsRejected := by
  intro s n value hconf hn
  have hbad : n < 1 ∨ 12 < n := by omega
  rw [← takeRaise_of_configured hconf]
  constructor
  · simp only [exec, execBrread, whenConfigured_on hconf, if_pos hbad, endCommand_raised]
  · simp only [exec, execBwwrite, whenConfigured_on hconf, if_pos hbad, endCommand_raised]

/-- Settles O35: past the configuration check BRRESET always returns. -/
theorem brresetDiscards : Obligations.BrresetDiscards := by
  intro s hconf
  rw [exec, execBrreset, whenConfigured_on hconf, endCommand_ok]
  rfl

/-- Settles O32: the refill takes the bytes the cache is short of, and the extraction takes `N` bits off. -/
theorem brreadReturnsNextBits : Obligations.BrreadReturnsNextBits := by
  intro s n hinv hconf hlow hhigh henough hans
  obtain ⟨u, hread, hu⟩ := brRead_of_enough hinv.br.cache henough hans
  exact ⟨_, exec_brread_of_ok hconf hlow hhigh hread hu.regs, rfl,
    (unreadBits_setRegs (congrArg Regs.cfg hu.regs).symm).trans hu.unread, Nat.eq_sub_of_add_eq hu.held, hu.count, hu.io,
    hu.bw, hu.c, hu.d, hu.port⟩

/-- Settles O33: END comes after all the bytes left were taken, and TM decides between the sentinel and the error. -/
theorem brreadPastEnd : Obligations.BrreadPastEnd := by
  intro s n hinv hconf hlow hhigh hshort hans
  obtain ⟨u, hread, hu⟩ := brRead_past_end hinv.br.cache hshort hans
  have hcfg : s.regs.cfg = u.regs.cfg := (congrArg Regs.cfg hu.regs).symm
  have hend : s.io.srcPos + (unreadBytes s).length = s.io.src.length := by
    rw [unreadBytes, List.length_drop]
    exact Nat.add_sub_cancel' hinv.src_pos
  have hheld : u.br.bits = (unreadBits s).length := hu.held.trans (unreadBits_length_bytes s).symm
  have hio := hu.io
  rw [hend, ← Nat.add_assoc] at hio
  cases htm : tmOf s.regs.cfg with
  | true =>
    rw [htm, if_pos rfl] at hread
    exact ⟨_, exec_brread_of_ok hconf hlow hhigh hread hu.regs, rfl, (unreadBits_setRegs hcfg).trans hu.unread, hheld, hu.count,
      hio, hu.bw, hu.c, hu.d, hu.port⟩
  | false =>
    rw [htm, if_neg Bool.false_ne_true] at hread
    exact ⟨_, exec_brread_of_raised hconf hlow hhigh hread hu.regs, rfl, (unreadBits_setRegs hcfg).trans hu.unread, hheld,
      hu.count, hio, hu.bw, hu.c, hu.d, hu.port⟩

/-- Settles O34: the refused access raises at once, behind the bytes taken before it. -/
theorem brreadSourceFails : Obligations.BrreadSourceFails := by
  intro s n j hinv hconf hlow hhigh hmore hneed hfail
  obtain ⟨u, hread, hu⟩ := brRead_of_fail hinv.br.cache hmore hneed hfail
  exact ⟨_, exec_brread_of_raised hconf hlow hhigh hread hu.regs, rfl,
    (unreadBits_setRegs (congrArg Regs.cfg hu.regs).symm).trans hu.unread, hu.held, hu.count, hu.io,
    hu.bw, hu.c, hu.d, hu.port⟩

end Sys2Proof.Machine
end

section
/-! SUPPORT. DECOMPRESS of a SRC that ends at the start of an epoch (44_decompressor.md R150 to R152, R157): D's reads counted
access by access, so that nothing need be known of the environment's answers behind the end of SRC. -/

namespace Sys2Proof.Machine

/-- `t` stands at the start of an epoch and has emitted nothing; each access that BR made since the fresh session `s` took a
byte, and BR_COUNT has counted it (41_bitreader.md R111). -/
structure CountedEpochStart (s : State) (used : Nat) (t : State) : Prop extends AtEpochStart s used [] none t where
  reads : t.io.srcReads + s.io.srcPos = s.io.srcReads + t.io.srcPos
  count : t.br.count = s.br.count + BitVec.ofNat 32 (t.io.srcPos - s.io.srcPos)

/-- The clear that begins DECOMPRESS makes no access. -/
theorem freshDecompress_counted (len : Word) (s : State) :
    CountedEpochStart (freshDecompress len s) 0 (dClearTable (freshDecompress len s)) where
  toAtEpochStart := freshDecompress_atEpochStart len s
  reads := rfl
  count := by rw [dClearTable, State.setD_io, Nat.sub_self]; exact (BitVec.add_zero _).symm

/-- What the fresh session must allow for SRC to be read to its end: every access up to the one that answers END is answered. -/
structure SourceReadable (s : State) : Prop where
  legal : CfgLegal s.regs.cfg
  src_pos : s.io.srcPos ≤ s.io.src.length
  answers : ReadsAnswered s ((unreadBytes s).length + 1)

/-- `u` is reached from the fresh session `s` when SRC has ended inside the code behind `used` stream bits: every byte of SRC
is taken, BR holds the bits of the part read, and D is cleared with nothing emitted. -/
structure RunOut (s : State) (used : Nat) (u : State) : Prop where
  frame : DecompressFrame s u
  d : u.d = clearedWith s.regs.cfg none 0
  snk : u.io.snk = s.io.snk
  srcPos : u.io.srcPos = s.io.src.length
  cache : u.br.cache < 2 ^ u.br.bits
  held : u.br.bits = 8 * (unreadBytes s).length - used
  count : u.br.count = s.br.count + BitVec.ofNat 32 (unreadBytes s).length
  bits : unreadBits u = (streamBits (byteOrderOf s.regs.cfg) (unreadBytes s)).drop used

/-- Where BR took no more bytes than SRC had, it has BR's frame (41_bitreader.md R110). -/
theorem BrMoved.reader {s t : State} {m a k : Nat} (h : BrMoved s m a k t) (hm : m ≤ (unreadBytes s).length) :
    ReaderFrame s t where
  regs := h.regs
  bw := h.bw
  c := h.c
  d := h.d
  port := h.port
  snk := by rw [h.io]
  snkWrites := by rw [h.io]
  evt := by rw [h.io]
  grow := by
    rw [unreadBytes, List.length_drop] at hm
    rw [h.io]
    exact ⟨rfl, Nat.le_add_right _ _, List.prefix_rfl, List.prefix_rfl, Nat.le_add_right _ _, Nat.le_refl _, rfl,
      fun hpos => by simp only; omega⟩

@[simp] theorem notify_unreadBits (u : EvtUnit) (k : EvtKind) (v1 v2 : Nat) (s : State) :
    unreadBits (notify u k v1 v2 s) = unreadBits s := by
  simp [unreadBits, unreadBytes]

/-- An event changes nothing that is said of a SRC that has ended. -/
theorem RunOut.after_event {s u : State} {used : Nat} (h : RunOut s used u) (unit : EvtUnit) (kind : EvtKind) (v1 v2 : Nat) :
    RunOut s used (notify unit kind v1 v2 u) where
  frame := .trans _ _ _ h.frame (notify_only _ _ _ _ u).decompress
  d := (notify_d _ _ _ _ u).trans h.d
  snk := (notify_snk _ _ _ _ u).trans h.snk
  srcPos := (notify_srcPos _ _ _ _ u).trans h.srcPos
  cache := by rw [notify_br]; exact h.cache
  held := by rw [notify_br]; exact h.held
  count := by rw [notify_br]; exact h.count
  bits := (notify_unreadBits _ _ _ _ u).trans h.bits

section
variable {s t u : State} {used limit fuel m : Nat} {label : DLabel}

/-- The bytes of SRC that are left. -/
theorem CountedEpochStart.bytes_left (hs : SourceReadable s) (h : CountedEpochStart s used t) :
    t.io.srcPos + (unreadBytes t).length = s.io.src.length := by
  have hrange := h.frame.grow.inRange hs.src_pos
  rw [unreadBytes, List.length_drop, Nat.add_sub_cancel' hrange, h.frame.grow.src]

/-- The bits that can still be read. -/
theorem CountedEpochStart.bits_left (h : CountedEpochStart s used t) :
    (unreadBits t).length = 8 * (unreadBytes s).length - used := by
  rw [h.bits, List.length_drop, streamBits_length]

/-- The accesses from here to the end of SRC are answered. -/
theorem CountedEpochStart.readsAnswered (hs : SourceReadable s) (h : CountedEpochStart s used t)
    (hm : m ≤ (unreadBytes t).length + 1) : ReadsAnswered t m := by
  intro j hj
  have hreads := h.reads
  have hmono := h.frame.grow.srcPos
  have hleft := h.bytes_left hs
  have hans := hs.answers (t.io.srcPos - s.io.srcPos + j) (by rw [unreadBytes, List.length_drop]; omega)
  rw [h.frame.grow.script]
  convert hans using 2
  omega

theorem CountedEpochStart.width (hs : SourceReadable s) (h : CountedEpochStart s used t) :
    t.d.width = w0Of s.regs.cfg + 1 := by
  rw [h.d, clearedWith, hs.legal.widen_w0]

/-- A read that takes `k` bits, with each access giving a byte and less than a byte left in BR, moves the epoch's start. -/
theorem CountedEpochStart.moved {k : Nat} (h : CountedEpochStart s used t) (hu : BrMoved t m m k u)
    (hm : m ≤ (unreadBytes t).length) (hpart : u.br.bits ≤ 7) : CountedEpochStart s (used + k) u where
  frame := .trans _ _ _ h.frame (hu.reader hm).decompress
  d := hu.d.trans h.d
  snk := (hu.reader hm).snk.trans h.snk
  cache := ⟨hu.cache, hpart⟩
  bits := by rw [hu.unread, h.bits, List.drop_drop]
  reads := by
    rw [hu.io]
    simp only [← Nat.add_assoc, ← h.reads]
    exact Nat.add_right_comm _ _ _
  count := by
    rw [hu.count, h.count, BitVec.add_assoc, ← BitVec.ofNat_add, hu.io, Nat.sub_add_comm h.frame.grow.srcPos]

theorem CountedEpochStart.after_event (h : CountedEpochStart s used t) (unit : EvtUnit) (kind : EvtKind) (v1 v2 : Nat) :
    CountedEpochStart s used (notify unit kind v1 v2 t) where
  frame := .trans _ _ _ h.frame (notify_only _ _ _ _ t).decompress
  d := (notify_d _ _ _ _ t).trans h.d
  snk := (notify_snk _ _ _ _ t).trans h.snk
  cache := (notify_br _ _ _ _ t).symm ▸ h.cache
  bits := (notify_unreadBits _ _ _ _ t).trans h.bits
  reads := by rw [notify_srcReads, notify_srcPos, h.reads]
  count := by rw [notify_br, notify_srcPos, h.count]

/-- A code read at the start of an epoch, every access of it counted (44_decompressor.md R156). -/
theorem CountedEpochStart.next_code (hs : SourceReadable s) (h : CountedEpochStart s used t)
    (hroom : used + (w0Of s.regs.cfg + 1) ≤ 8 * (unreadBytes s).length) :
    ∃ u, dNextCode t = .ok (sourceCode s used (w0Of s.regs.cfg + 1)) u ∧
      CountedEpochStart s (used + (w0Of s.regs.cfg + 1)) u := by
  have henough : w0Of s.regs.cfg + 1 ≤ (unreadBits t).length := by rw [h.bits_left]; omega
  have hbytes := refillBytes_le henough
  obtain ⟨u, hread, hu⟩ := brRead_of_enough h.cache.cache henough (h.readsAnswered hs (Nat.le_succ_of_le hbytes))
  have hpart : u.br.bits ≤ 7 := by
    have hheld := hu.held
    have h7 := h.cache.bits
    rw [refillBytes] at hheld
    omega
  refine ⟨_, ?_, (h.moved hu hbytes hpart).after_event .d .code (sourceCode s used (w0Of s.regs.cfg + 1)) u.d.width⟩
  rw [dNextCode, h.width hs, hread, h.bits, h.frame.regs]
  rfl

/-- Where the access behind the last byte has answered END, SRC has run out. -/
theorem CountedEpochStart.run_out (hs : SourceReadable s) (h : CountedEpochStart s used t)
    (hu : BrMoved t (unreadBytes t).length ((unreadBytes t).length + 1) 0 u) : RunOut s used u := by
  have hframe := hu.reader (Nat.le_refl _)
  have hleft := h.bytes_left hs
  have hmono := h.frame.grow.srcPos
  have hbytes : t.io.srcPos - s.io.srcPos + (unreadBytes t).length = (unreadBytes s).length := by
    have hall : (unreadBytes s).length = s.io.src.length - s.io.srcPos := List.length_drop
    omega
  exact
    { frame := .trans _ _ _ h.frame hframe.decompress
      d := hframe.d.trans h.d
      snk := by rw [hframe.snk, h.snk, List.append_nil]
      srcPos := by rw [hu.io, ← hleft]
      cache := hu.cache
      held := by rw [← h.bits_left, unreadBits_length_bytes]; exact hu.held
      count := by rw [hu.count, h.count, BitVec.add_assoc, ← BitVec.ofNat_add, hbytes]
      bits := hu.unread.trans h.bits }

/-- The read at which SRC ends: with `TM = 1` the sentinel, which ends the loop as EOI does, with `TM = 0` an error
(41_bitreader.md R113, 44_decompressor.md R150). -/
theorem CountedEpochStart.loop_runs_out (hs : SourceReadable s) (h : CountedEpochStart s used t)
    (hshort : 8 * (unreadBytes s).length < used + (w0Of s.regs.cfg + 1)) :
    ∃ u, RunOut s used u ∧ dLoop limit (fuel + 1) label t = if tmOf s.regs.cfg then .ok () u
      else .raised .prematureEndOfData (w0Of s.regs.cfg + 1) (8 * (unreadBytes s).length - used) u := by
  obtain ⟨u, hread, hu⟩ := brRead_past_end (n := w0Of s.regs.cfg + 1) h.cache.cache (by rw [h.bits_left]; omega)
    (h.readsAnswered hs (Nat.le_refl _))
  have hout := h.run_out hs hu
  rw [h.frame.regs, h.bits_left] at hread
  cases htm : tmOf s.regs.cfg with
  | true =>
    rw [htm, if_pos rfl] at hread
    have hnext : dNextCode t = .ok (eoiCode s.regs.cfg) (notify .d .sentinel (eoiCode s.regs.cfg) u.d.width u) := by
      rw [dNextCode, h.width hs, hread, sentinel_is_eoi hs.legal htm]
      rfl
    refine ⟨_, hout.after_event .d .sentinel (eoiCode s.regs.cfg) u.d.width, ?_⟩
    simp only [dLoop, hnext, Res.bind_ok, notify_regs, hout.frame.regs, if_true]
  | false =>
    rw [htm, if_neg Bool.false_ne_true] at hread
    refine ⟨u, hout, ?_⟩
    rw [dLoop, dNextCode, h.width hs, hread]
    rfl

/-- A CLEAR at the start of an epoch, with a budget left, as `AtEpochStart.loop_clear` has it, every access of it counted. -/
theorem CountedEpochStart.loop_clear (hs : SourceReadable s) (hlimit : 0 < limit) (h : CountedEpochStart s used t)
    (hroom : used + (w0Of s.regs.cfg + 1) ≤ 8 * (unreadBytes s).length)
    (hcode : sourceCode s used (w0Of s.regs.cfg + 1) = clearCode s.regs.cfg) :
    ∃ u, dLoop limit (fuel + 1) label t = dLoop limit fuel .postClear u ∧
      CountedEpochStart s (used + (w0Of s.regs.cfg + 1)) u := by
  obtain ⟨u, hnext, hu⟩ := h.next_code hs hroom
  have hclear : clearCode s.regs.cfg ≠ eoiCode s.regs.cfg := by simp [eoiCode]
  have hbudget : ¬ limit ≤ u.d.written := by rw [hu.d]; exact Nat.not_le.mpr hlimit
  refine ⟨dClearTable u, ?_, ?_⟩
  · simp only [dLoop, hnext, Res.bind_ok, hcode, hu.frame.regs, if_neg hclear, if_neg hbudget, if_true]
  · exact
      { hu with
        frame := .trans _ _ _ hu.frame (setD_decompress u _)
        d := by rw [dClearTable, State.setD_d, clearedDecompressor_eq, hu.frame.regs, hu.d]; rfl }

/-- A run of `k` CLEARs, where `k = 0` needs no budget. -/
theorem CountedEpochStart.loop_clears (hs : SourceReadable s) (h : CountedEpochStart s 0 t) (k : Nat)
    (hlimit : k = 0 ∨ 0 < limit) (hroom : k * (w0Of s.regs.cfg + 1) ≤ 8 * (unreadBytes s).length)
    (hcodes : ∀ j, j < k → sourceCode s (j * (w0Of s.regs.cfg + 1)) (w0Of s.regs.cfg + 1) = clearCode s.regs.cfg) :
    ∃ label' u, dLoop limit (fuel + k) label t = dLoop limit fuel label' u ∧
      CountedEpochStart s (k * (w0Of s.regs.cfg + 1)) u := by
  induction k generalizing fuel with
  | zero => exact ⟨label, t, rfl, (Nat.zero_mul _).symm ▸ h⟩
  | succ k ih =>
    have hbudget : 0 < limit := hlimit.resolve_left (Nat.succ_ne_zero k)
    rw [Nat.succ_mul] at hroom
    obtain ⟨label', u, hloop, hu⟩ := ih (fuel := fuel + 1) (.inr hbudget) (by omega)
      fun j hj => hcodes j (Nat.lt_succ_of_lt hj)
    obtain ⟨v, hlast, hv⟩ := hu.loop_clear (fuel := fuel) (label := label') hs hbudget hroom (hcodes k (Nat.lt_succ_self k))
    refine ⟨.postClear, v, ?_, Nat.succ_mul k _ ▸ hv⟩
    rw [← hlast, ← hloop, Nat.add_right_comm fuel 1 k]
    rfl

end

/-! ### The command -/

/-- The end of a command leaves the bits that BR can still return. -/
theorem SameButOutcome.unreadBits_eq {u t : State} (h : SameButOutcome u t) : unreadBits t = unreadBits u := by
  simp only [unreadBits, unreadBytes, h.cfg, h.br, h.io]

/-- How DECOMPRESS ends where SRC has ended: OK and no output with `TM = 1`, the error with `TM = 0` (44_decompressor.md R157). -/
theorem RunOut.command_ends {s v : State} {len : Word} {used i0 i1 : Nat} (hconf : Configured s)
    (hv : RunOut (freshDecompress len s) used v)
    (hend : decompressAll len.toNat (freshDecompress len s) =
      if tmOf s.regs.cfg then .ok () v else .raised .prematureEndOfData i0 i1 v) :
    ∃ t, exec (.decompress len) s = .next t ∧ SameButOutcome v t ∧
      t.regs = (if tmOf s.regs.cfg then { returnedRegs 0#32 false s.regs with expectedLen := len }
        else { raisedRegs true .prematureEndOfData i0 i1 s.regs with expectedLen := len }) := by
  cases htm : tmOf s.regs.cfg with
  | true =>
    rw [htm, if_pos rfl] at hend
    refine ⟨_, exec_decompress_of_ok hconf hend, takeReturn_sameButOutcome _ v, ?_⟩
    rw [takeReturn_regs, hv.frame.regs, hv.d]
    rfl
  | false =>
    rw [htm, if_neg Bool.false_ne_true] at hend
    have hstays : configuredFlag (freshDecompress len s).regs.status = true := hconf
    refine ⟨_, exec_decompress_of_raised hconf hend, takeRaise_sameButOutcome false _ i0 i1 v, ?_⟩
    rw [takeRaise_regs, hv.frame.regs, hstays]
    rfl

end Sys2Proof.Machine
end

section
/-! The obligation of 44_decompressor.md on a SRC that runs out, which `br_read` past END decides (41_bitreader.md R113). -/

namespace Sys2Proof.Machine

/-- Settles O52: the CLEARs are read one by one, and the read behind them meets the end of SRC. -/
theorem decompressSourceRunsOut : Obligations.DecompressSourceRunsOut := by
  intro s len k hinv hconf hlen hroom hshort hcodes hans
  have hlegal := hinv.configured hconf
  have hs : SourceReadable (freshDecompress len s) := ⟨hlegal, hinv.src_pos, hans⟩
  have hlimit : k = 0 ∨ 0 < len.toNat :=
    hlen.imp_right fun hne => Nat.pos_of_ne_zero fun h0 => hne (BitVec.eq_of_toNat_eq h0)
  have hreads : dMaxReads (freshDecompress len s) = 8 * (unreadBytes s).length + 1 := by
    simp [dMaxReads, freshDecompress, BitCache.zero, unreadBytes]
  have hmany : k ≤ k * (w0Of s.regs.cfg + 1) := Nat.le_mul_of_pos_right _ (Nat.succ_pos _)
  obtain ⟨fuel, hfuel⟩ : ∃ fuel, dMaxReads (freshDecompress len s) = fuel + 1 + k :=
    ⟨8 * (unreadBytes s).length - k, by omega⟩
  obtain ⟨label, u, hclears, hu⟩ := (freshDecompress_counted len s).loop_clears (fuel := fuel + 1) (label := .code) hs k
    hlimit hroom hcodes
  obtain ⟨v, hv, hlast⟩ := hu.loop_runs_out (limit := len.toNat) (fuel := fuel) (label := label) hs
    (Nat.succ_mul k _ ▸ hshort)
  obtain ⟨t, hexec, ht, hregs⟩ := hv.command_ends hconf
    (by rw [decompressAll, hfuel, hclears, hlast]; rfl)
  have hcount : v.br.count = BitVec.ofNat 32 (unreadBytes s).length := hv.count.trans (BitVec.zero_add _)
  refine ⟨t, hexec, hregs, ht.io ▸ hv.snk, ht.io ▸ hv.srcPos, ht.br ▸ hv.held, ht.br ▸ hv.cache,
    ht.unreadBits_eq.trans hv.bits, ht.br ▸ hcount, ?_, ?_, ?_, ?_, ht.bw.trans hv.frame.bw, ht.c.trans hv.frame.c,
    ht.port.trans hv.frame.port⟩
  · rw [ht.d, hv.d]; rfl
  · rw [ht.d, hv.d]; exact hlegal.widen_w0
  · rw [ht.d, hv.d]; rfl
  · rw [ht.d, hv.d]; rfl

end Sys2Proof.Machine
end

section
/-! SUPPORT. What BW's drain, `bw_write` and `bw_flush` leave, exactly (42_bitwriter.md R120 to R125): how many bytes SNK took, how
many accesses were made, and which bits were added. -/

namespace Sys2Proof.Machine

/-- From `s` to `t` BW made `accesses` accesses to SNK, which took `bytes` bytes, and the bits `code` were added behind those
written; nothing else changed (42_bitwriter.md R120 to R123). -/
structure BwMoved (s : State) (bytes accesses : Nat) (code : List Bool) (t : State) : Prop extends WriterFrame s t where
  writes : t.io.snkWrites = s.io.snkWrites + accesses
  taken : t.io.snk.length = s.io.snk.length + bytes
  cache : t.bw.cache < 2 ^ t.bw.bits
  held : t.bw.bits + 8 * bytes = s.bw.bits + code.length
  count : t.bw.count = s.bw.count + BitVec.ofNat 32 bytes
  written : writtenBits t = writtenBits s ++ code

theorem BwMoved.trans {s t u : State} {m a m' a' : Nat} {code code' : List Bool} (h : BwMoved s m a code t)
    (h' : BwMoved t m' a' code' u) : BwMoved s (m + m') (a + a') (code ++ code') u where
  toWriterFrame := WriterFrame.trans s t u h.toWriterFrame h'.toWriterFrame
  writes := by rw [h'.writes, h.writes, Nat.add_assoc]
  taken := by rw [h'.taken, h.taken, Nat.add_assoc]
  cache := h'.cache
  held := by have := h.held; have := h'.held; rw [List.length_append]; omega
  count := by rw [h'.count, h.count, BitVec.add_assoc, BitVec.ofNat_add]
  written := by rw [h'.written, h.written, List.append_assoc]

theorem BwMoved.held_nothing_added {s t : State} {m a : Nat} (h : BwMoved s m a [] t) : t.bw.bits + 8 * m = s.bw.bits :=
  h.held

theorem BwMoved.held_code_added {s t : State} {m a n v : Nat} {o : ByteOrder} (h : BwMoved s m a (codeBits o n v) t) :
    t.bw.bits + 8 * m = s.bw.bits + n := by
  simpa only [codeBits_length] using h.held

/-- BW's procedures change of the streams SNK and its access count alone (42_bitwriter.md R120). -/
theorem BwMoved.io {s t : State} {m a : Nat} {code : List Bool} (h : BwMoved s m a code t) :
    t.io = { s.io with snk := t.io.snk, snkWrites := s.io.snkWrites + a } := by
  simp only [← h.writes, ← h.grow.src, ← h.srcPos, ← h.evt, ← h.srcReads, ← h.grow.script]

/-! ### Single moves -/

/-- BW alone is set, and `code` is added to the bits it holds. -/
theorem setBw_moved {s : State} {b : BitCache} {code : List Bool} (hcache : b.cache < 2 ^ b.bits)
    (hheld : b.bits = s.bw.bits + code.length) (hcount : b.count = s.bw.count)
    (hbits : pendingBits (byteOrderOf s.regs.cfg) b = pendingBits (byteOrderOf s.regs.cfg) s.bw ++ code) :
    BwMoved s 0 0 code (s.setBw b) where
  toWriterFrame := setBw_writer s b
  writes := rfl
  taken := rfl
  cache := hcache
  held := hheld
  count := hcount.trans (BitVec.add_zero _).symm
  written := by
    rw [writtenBits, writtenBits, List.append_assoc, ← hbits]
    rfl

theorem BwMoved.refl {s : State} (h : s.bw.cache < 2 ^ s.bw.bits) : BwMoved s 0 0 [] s :=
  setBw_moved h rfl rfl (List.append_nil _).symm

/-- The merge adds the code's bits (42_bitwriter.md R121, R122). -/
theorem bwMerge_moved (v n : Nat) {s : State} (h : s.bw.cache < 2 ^ s.bw.bits) :
    BwMoved s 0 0 (codeBits (byteOrderOf s.regs.cfg) n v) (s.setBw (bwMerge (byteOrderOf s.regs.cfg) v n s.bw)) :=
  setBw_moved (bwMerge_lt _ v n h) (by rw [codeBits_length]; rfl) rfl (bwMerge_bits _ v n h)

/-- SNK takes a byte and BW is set: the byte's bits and those then held are the bits held before and `code` (42_bitwriter.md
R120, R125). -/
theorem memWrite_of_accept {s : State} {b : Byte} {c : BitCache} {code : List Bool}
    (hans : ioFails s.io.script .snk s.io.snkWrites = false) (hcache : c.cache < 2 ^ c.bits)
    (hheld : c.bits + 8 = s.bw.bits + code.length) (hcount : c.count = s.bw.count + 1#32)
    (hbits : codeBits (byteOrderOf s.regs.cfg) 8 b.toNat ++ pendingBits (byteOrderOf s.regs.cfg) c =
      pendingBits (byteOrderOf s.regs.cfg) s.bw ++ code) :
    ∃ t, memWrite b s = .ok () t ∧ t.regs = s.regs ∧ t.bw = s.bw ∧ BwMoved s 1 1 code (t.setBw c) := by
  have hframe := memWrite_writer b s
  rcases memWrite_cases b s with ⟨-, hwrite⟩ | ⟨hfail, -⟩
  · rw [hwrite] at hframe
    refine ⟨_, hwrite, rfl, rfl, WriterFrame.trans _ _ _ hframe (setBw_writer _ c), rfl, List.length_append, hcache, hheld,
      hcount, ?_⟩
    simp only [writtenBits, State.setBw_regs, State.setIo_regs, State.setBw_bw, State.setBw_io, State.setIo_io,
      streamBits_append, streamBits_cons, streamBits_nil, List.append_nil, List.append_assoc, hbits]
  · simp [hans] at hfail

/-- A refused byte raises `IoError(1, 0)`, and BW keeps it (42_bitwriter.md R120). -/
theorem memWrite_of_refusal {s : State} (b : Byte) (hfail : ioFails s.io.script .snk s.io.snkWrites = true)
    (hcache : s.bw.cache < 2 ^ s.bw.bits) : ∃ t, memWrite b s = .raised .ioError 1 0 t ∧ BwMoved s 0 1 [] t := by
  have hframe := memWrite_writer b s
  rcases memWrite_cases b s with ⟨hans, -⟩ | ⟨-, hwrite⟩
  · simp [hans] at hfail
  · rw [hwrite] at hframe
    exact ⟨_, hwrite, hframe, rfl, rfl, hcache, rfl, (BitVec.add_zero _).symm, (List.append_nil _).symm⟩

/-! ### The answers left after a move -/

theorem BwMoved.accepted {s t : State} {m a k : Nat} {code : List Bool} (h : BwMoved s m a code t)
    (hans : WritesAccepted s (a + k)) : WritesAccepted t k := fun j hj => by
  rw [h.grow.script, h.writes, Nat.add_assoc]
  exact hans (a + j) (Nat.add_lt_add_left hj a)

theorem BwMoved.failsAt {s t : State} {m a k : Nat} {code : List Bool} (h : BwMoved s m a code t)
    (hfail : WriteFailsAt s (a + k)) : WriteFailsAt t k := by
  refine ⟨h.accepted hfail.1, ?_⟩
  rw [h.grow.script, h.writes, Nat.add_assoc]
  exact hfail.2

theorem WritesAccepted.mono {s : State} {k l : Nat} (h : WritesAccepted s l) (hle : k ≤ l) : WritesAccepted s k :=
  fun j hj => h j (Nat.lt_of_lt_of_le hj hle)

/-! ### The drain -/

theorem bwDrainLoop_of_short {s : State} (h : s.bw.bits < 8) (fuel : Nat) : bwDrainLoop fuel s = .ok () s := by
  cases fuel with
  | zero => rfl
  | succ k => exact if_neg (Nat.not_le.mpr h)

/-- While a whole byte is held and SNK accepts it, the drain writes it and goes on (42_bitwriter.md R120). -/
theorem bwDrainLoop_of_accept {s : State} (fuel : Nat) (hwhole : 8 ≤ s.bw.bits)
    (hans : ioFails s.io.script .snk s.io.snkWrites = false) :
    ∃ t, bwDrainLoop (fuel + 1) s = bwDrainLoop fuel t ∧ BwMoved s 1 1 [] t := by
  obtain ⟨t, hwrite, hregs, hbw, ht⟩ := memWrite_of_accept (code := []) hans (bwDropByte_lt (byteOrderOf s.regs.cfg) s.bw)
    (Nat.sub_add_cancel hwhole) rfl ((bwOutByte_bits _ _ hwhole).trans (List.append_nil _).symm)
  refine ⟨_, ?_, ht⟩
  rw [bwDrainLoop, if_pos hwhole, hwrite, Res.bind_ok, hregs, hbw]

/-- A refused byte ends the drain with that byte kept (42_bitwriter.md R120). -/
theorem bwDrainLoop_of_refusal {s : State} (fuel : Nat) (hcache : s.bw.cache < 2 ^ s.bw.bits) (hwhole : 8 ≤ s.bw.bits)
    (hfail : ioFails s.io.script .snk s.io.snkWrites = true) :
    ∃ t, bwDrainLoop (fuel + 1) s = .raised .ioError 1 0 t ∧ BwMoved s 0 1 [] t := by
  obtain ⟨t, hwrite, ht⟩ := memWrite_of_refusal (bwOutByte (byteOrderOf s.regs.cfg) s.bw) hfail hcache
  exact ⟨t, by rw [bwDrainLoop, if_pos hwhole, hwrite, Res.bind_raised], ht⟩

/-- The drain writes `m` whole bytes one after another while SNK accepts them (42_bitwriter.md R120). -/
theorem bwDrainLoop_writes {s : State} (fuel m : Nat) (hcache : s.bw.cache < 2 ^ s.bw.bits) (hwhole : 8 * m ≤ s.bw.bits)
    (hans : WritesAccepted s m) : ∃ t, bwDrainLoop (fuel + m) s = bwDrainLoop fuel t ∧ BwMoved s m m [] t := by
  induction m generalizing fuel with
  | zero => exact ⟨s, rfl, .refl hcache⟩
  | succ m ih =>
    obtain ⟨t, hloop, ht⟩ := ih (fuel + 1) (by omega) (hans.mono (Nat.le_succ m))
    have hnext : 8 ≤ t.bw.bits := by have := ht.held_nothing_added; omega
    obtain ⟨u, hlast, hu⟩ := bwDrainLoop_of_accept fuel hnext (ht.accepted hans 0 Nat.zero_lt_one)
    refine ⟨u, ?_, ht.trans hu⟩
    rw [← hlast, ← hloop, Nat.add_right_comm fuel 1 m]
    rfl

/-- `bw_drain()` when SNK accepts every whole byte (42_bitwriter.md R120). -/
theorem bwDrain_of_accepts {s : State} (hcache : s.bw.cache < 2 ^ s.bw.bits) (hans : WritesAccepted s (s.bw.bits / 8)) :
    ∃ t, bwDrain s = .ok () t ∧ BwMoved s (s.bw.bits / 8) (s.bw.bits / 8) [] t := by
  obtain ⟨t, hloop, ht⟩ := bwDrainLoop_writes 0 (s.bw.bits / 8) hcache (Nat.mul_div_le _ 8) hans
  rw [Nat.zero_add] at hloop
  exact ⟨t, hloop, ht⟩

/-- `bw_drain()` when SNK refuses the `j`-th whole byte (42_bitwriter.md R120). -/
theorem bwDrain_of_fail {j : Nat} {s : State} (hcache : s.bw.cache < 2 ^ s.bw.bits) (hj : j < s.bw.bits / 8)
    (hfail : WriteFailsAt s j) : ∃ t, bwDrain s = .raised .ioError 1 0 t ∧ BwMoved s j (j + 1) [] t := by
  obtain ⟨fuel, hfuel⟩ : ∃ fuel, s.bw.bits / 8 = fuel + 1 + j := ⟨s.bw.bits / 8 - j - 1, by omega⟩
  obtain ⟨t, hloop, ht⟩ := bwDrainLoop_writes (fuel + 1) j hcache (by omega) hfail.1
  have hwhole : 8 ≤ t.bw.bits := by have := ht.held_nothing_added; omega
  obtain ⟨u, hlast, hu⟩ := bwDrainLoop_of_refusal fuel ht.cache hwhole (ht.failsAt (k := 0) hfail).2
  exact ⟨u, by rw [bwDrain, hfuel, hloop, hlast], ht.trans hu⟩

/-! ### `bw_write` -/

/-- `bw_write(v, n)` up to its second drain, when the first one completes (42_bitwriter.md R121). -/
theorem bwWrite_merges (v n : Nat) {s : State} (hcache : s.bw.cache < 2 ^ s.bw.bits)
    (hans : WritesAccepted s (s.bw.bits / 8)) :
    ∃ t, bwWrite v n s = bwDrain t ∧
      BwMoved s (s.bw.bits / 8) (s.bw.bits / 8) (codeBits (byteOrderOf s.regs.cfg) n v) t := by
  obtain ⟨t, hdrain, ht⟩ := bwDrain_of_accepts hcache hans
  have hmerge := ht.trans (bwMerge_moved v n ht.cache)
  rw [ht.regs] at hmerge
  exact ⟨_, by rw [bwWrite, hdrain, Res.bind_ok, ht.regs], hmerge⟩

/-- `bw_write(v, n)` when SNK accepts every byte (42_bitwriter.md R121). -/
theorem bwWrite_of_accepts (v : Nat) {n : Nat} {s : State} (hcache : s.bw.cache < 2 ^ s.bw.bits)
    (hans : WritesAccepted s ((s.bw.bits + n) / 8)) :
    ∃ t, bwWrite v n s = .ok () t ∧
      BwMoved s ((s.bw.bits + n) / 8) ((s.bw.bits + n) / 8) (codeBits (byteOrderOf s.regs.cfg) n v) t := by
  obtain ⟨t, hwrite, ht⟩ := bwWrite_merges v n hcache (hans.mono (by omega))
  have hsum : s.bw.bits / 8 + t.bw.bits / 8 = (s.bw.bits + n) / 8 := by have := ht.held_code_added; omega
  obtain ⟨u, hdrain, hu⟩ := bwDrain_of_accepts ht.cache (ht.accepted (hsum ▸ hans))
  refine ⟨u, hwrite.trans hdrain, ?_⟩
  simpa only [hsum, List.append_nil] using ht.trans hu

/-- `bw_write(v, n)` when SNK refuses the `j`-th byte: the code has been merged unless that byte was held before
(42_bitwriter.md R120, R121). -/
theorem bwWrite_of_fail (v : Nat) {n j : Nat} {s : State} (hcache : s.bw.cache < 2 ^ s.bw.bits)
    (hj : j < (s.bw.bits + n) / 8) (hfail : WriteFailsAt s j) :
    ∃ t, bwWrite v n s = .raised .ioError 1 0 t ∧
      BwMoved s j (j + 1) (if j < s.bw.bits / 8 then [] else codeBits (byteOrderOf s.regs.cfg) n v) t := by
  split
  · next hold =>
    obtain ⟨t, hdrain, ht⟩ := bwDrain_of_fail hcache hold hfail
    exact ⟨t, by rw [bwWrite, hdrain, Res.bind_raised], ht⟩
  · next hnew =>
    obtain ⟨k, rfl⟩ : ∃ k, j = s.bw.bits / 8 + k := Nat.exists_eq_add_of_le (Nat.le_of_not_lt hnew)
    obtain ⟨t, hwrite, ht⟩ := bwWrite_merges v n hcache (hfail.1.mono (Nat.le_add_right _ k))
    have hk : k < t.bw.bits / 8 := by have := ht.held_code_added; omega
    obtain ⟨u, hdrain, hu⟩ := bwDrain_of_fail ht.cache hk (ht.failsAt hfail)
    refine ⟨u, hwrite.trans hdrain, ?_⟩
    simpa only [Nat.add_assoc, List.append_nil] using ht.trans hu

/-! ### `bw_flush` -/

theorem pendingBits_empty (o : ByteOrder) (count : Word) : pendingBits o { cache := 0, bits := 0, count := count } = [] :=
  codeBits_zero o 0

/-- With nothing left by the drain the flush writes nothing (42_bitwriter.md R125). -/
theorem bwFlush_of_drained {s t : State} (hdrain : bwDrain s = .ok () t) (hempty : t.bw.bits = 0) :
    ∃ u, bwFlush s = .ok () u ∧ BwMoved t 0 0 [] u := by
  refine ⟨t.setBw { cache := 0, bits := 0, count := t.bw.count }, ?_, setBw_moved Nat.one_pos hempty.symm rfl ?_⟩
  · rw [bwFlush, hdrain, Res.bind_ok, if_neg (by omega)]
  · simp [pendingBits, hempty]

/-- The fragment left by the drain is written with zeros behind it (42_bitwriter.md R125). -/
theorem bwFlush_of_fragment {s t : State} (hdrain : bwDrain s = .ok () t) (hpending : 0 < t.bw.bits) (hshort : t.bw.bits < 8)
    (hans : ioFails t.io.script .snk t.io.snkWrites = false) :
    ∃ u, bwFlush s = .ok () u ∧ BwMoved t 1 1 (List.replicate (8 - t.bw.bits) false) u := by
  obtain ⟨u, hwrite, -, hbw, hu⟩ := memWrite_of_accept (b := bwFlushByte (byteOrderOf t.regs.cfg) t.bw)
    (c := { cache := 0, bits := 0, count := t.bw.count + 1#32 }) (code := List.replicate (8 - t.bw.bits) false) hans
    Nat.one_pos (by simp only [List.length_replicate]; omega) rfl
    (by rw [bwFlushByte_bits _ hshort, pendingBits_empty, List.append_nil])
  exact ⟨_, by rw [bwFlush, hdrain, Res.bind_ok, if_pos hpending, hwrite, Res.bind_ok, hbw], hu⟩

/-- A refused fragment stays in BW (42_bitwriter.md R125). -/
theorem bwFlush_of_refused_fragment {s t : State} (hdrain : bwDrain s = .ok () t) (hpending : 0 < t.bw.bits)
    (hcache : t.bw.cache < 2 ^ t.bw.bits) (hfail : ioFails t.io.script .snk t.io.snkWrites = true) :
    ∃ u, bwFlush s = .raised .ioError 1 0 u ∧ BwMoved t 0 1 [] u := by
  obtain ⟨u, hwrite, hu⟩ := memWrite_of_refusal (bwFlushByte (byteOrderOf t.regs.cfg) t.bw) hfail hcache
  exact ⟨u, by rw [bwFlush, hdrain, Res.bind_ok, if_pos hpending, hwrite, Res.bind_raised], hu⟩

/-- `bw_flush()` when SNK accepts every byte (42_bitwriter.md R125). -/
theorem bwFlush_of_accepts {s : State} (hcache : s.bw.cache < 2 ^ s.bw.bits)
    (hans : WritesAccepted s ((s.bw.bits + 7) / 8)) :
    ∃ t, bwFlush s = .ok () t ∧ BwMoved s ((s.bw.bits + 7) / 8) ((s.bw.bits + 7) / 8)
      (List.replicate (8 * ((s.bw.bits + 7) / 8) - s.bw.bits) false) t := by
  obtain ⟨t, hdrain, ht⟩ := bwDrain_of_accepts hcache (hans.mono (by omega))
  have hleft : t.bw.bits = s.bw.bits % 8 := by have := ht.held_nothing_added; omega
  rcases Nat.eq_zero_or_pos t.bw.bits with hempty | hpending
  · obtain ⟨u, hflush, hu⟩ := bwFlush_of_drained hdrain hempty
    have hbytes : (s.bw.bits + 7) / 8 = s.bw.bits / 8 := by omega
    have hpad : 8 * (s.bw.bits / 8) - s.bw.bits = 0 := by omega
    rw [hbytes, hpad]
    exact ⟨u, hflush, ht.trans hu⟩
  · have hbytes : (s.bw.bits + 7) / 8 = s.bw.bits / 8 + 1 := by omega
    have hpad : 8 * (s.bw.bits / 8 + 1) - s.bw.bits = 8 - t.bw.bits := by omega
    rw [hbytes] at hans
    obtain ⟨u, hflush, hu⟩ := bwFlush_of_fragment hdrain hpending (by omega) (ht.accepted hans 0 Nat.one_pos)
    rw [hbytes, hpad]
    exact ⟨u, hflush, ht.trans hu⟩

/-- `bw_flush()` when SNK refuses the `j`-th byte, a whole one or the fragment (42_bitwriter.md R120, R125). -/
theorem bwFlush_of_fail {j : Nat} {s : State} (hcache : s.bw.cache < 2 ^ s.bw.bits) (hj : j < (s.bw.bits + 7) / 8)
    (hfail : WriteFailsAt s j) : ∃ t, bwFlush s = .raised .ioError 1 0 t ∧ BwMoved s j (j + 1) [] t := by
  rcases Nat.lt_or_ge j (s.bw.bits / 8) with hwhole | hlast
  · obtain ⟨t, hdrain, ht⟩ := bwDrain_of_fail hcache hwhole hfail
    exact ⟨t, by rw [bwFlush, hdrain, Res.bind_raised], ht⟩
  · obtain rfl : j = s.bw.bits / 8 := by omega
    obtain ⟨t, hdrain, ht⟩ := bwDrain_of_accepts hcache hfail.1
    have hpending : 0 < t.bw.bits := by have := ht.held_nothing_added; omega
    obtain ⟨u, hflush, hu⟩ := bwFlush_of_refused_fragment hdrain hpending ht.cache (ht.failsAt (k := 0) hfail).2
    exact ⟨u, hflush, ht.trans hu⟩

/-! ### The ends of BW's commands -/

/-- BW's commands return nothing beside OK (42_bitwriter.md R124, R126). -/
theorem endCommand_of_writer_ok {r : Res Unit} {s u : State} (hr : r = .ok () u) (hregs : u.regs = s.regs) :
    endCommand false (r.bind fun _ v => .ok returnedNothing v) = .next (u.setRegs (returnedRegs 0#32 false s.regs)) := by
  rw [hr, Res.bind_ok, endCommand_ok, ← hregs]
  rfl

theorem endCommand_of_writer_raised {r : Res Unit} {s u : State} {code : StatusCode} {i0 i1 : Nat} (hconf : Configured s)
    (hr : r = .raised code i0 i1 u) (hregs : u.regs = s.regs) :
    endCommand false (r.bind fun _ v => .ok returnedNothing v) = .next (u.setRegs (raisedRegs true code i0 i1 s.regs)) := by
  have hkeeps : Configured u := by rw [Configured, hregs]; exact hconf
  rw [hr, Res.bind_raised, endCommand_raised, takeRaise_of_configured hkeeps, hregs]

/-- Registers that keep CFG leave the written bits as they are. -/
theorem writtenBits_setRegs {s : State} {r : Regs} (h : r.cfg = s.regs.cfg) : writtenBits (s.setRegs r) = writtenBits s := by
  simp only [writtenBits, State.setRegs_regs, h]
  rfl

/-- A cache that holds nothing above its valid bits and has none is zero but for its counter. -/
theorem cache_eq_of_empty {b : BitCache} (hcache : b.cache < 2 ^ b.bits) (hempty : b.bits = 0) :
    b = { cache := 0, bits := 0, count := b.count } := by
  obtain ⟨cache, bits, count⟩ := b
  obtain rfl : bits = 0 := hempty
  obtain rfl : cache = 0 := Nat.lt_one_iff.mp hcache
  rfl

/-- With BW empty SNK has every bit written. -/
theorem writtenBits_of_empty {s : State} (h : s.bw.bits = 0) :
    writtenBits s = streamBits (byteOrderOf s.regs.cfg) s.io.snk := by
  simp [writtenBits, pendingBits, h]

end Sys2Proof.Machine
end

section
/-! The obligations of 42_bitwriter.md on BW's commands. -/

namespace Sys2Proof.Machine

/-- Settles O36: the drain before the merge and the drain after it write the whole bytes of the bits held and the code's. -/
theorem bwwriteAppendsCode : Obligations.BwwriteAppendsCode := by
  intro s value n hinv hconf hlow hhigh hans
  obtain ⟨u, hwrite, hu⟩ := bwWrite_of_accepts value hinv.bw.cache hans
  have hheld : u.bw.bits = (s.bw.bits + n) % 8 := by have := hu.held_code_added; omega
  exact ⟨_, (exec_bwwrite_of_legal hconf hlow hhigh).trans (endCommand_of_writer_ok hwrite hu.regs), rfl,
    (writtenBits_setRegs (congrArg Regs.cfg hu.regs).symm).trans hu.written, hu.grow.snk, hu.taken, hheld, hu.count, hu.io,
    hu.br, hu.c, hu.d, hu.port⟩

/-- Settles O37: a refusal in the first drain comes before the merge, one in the second drain after it. -/
theorem bwwriteSinkFails : Obligations.BwwriteSinkFails := by
  intro s value n j hinv hconf hlow hhigh hj hfail
  obtain ⟨u, hwrite, hu⟩ := bwWrite_of_fail value hinv.bw.cache hj hfail
  have hheld := hu.held
  rw [apply_ite List.length, List.length_nil, codeBits_length] at hheld
  exact ⟨_, (exec_bwwrite_of_legal hconf hlow hhigh).trans (endCommand_of_writer_raised hconf hwrite hu.regs), rfl,
    (writtenBits_setRegs (congrArg Regs.cfg hu.regs).symm).trans hu.written, hheld, hu.grow.snk, hu.taken, hu.count, hu.io,
    hu.br, hu.c, hu.d, hu.port⟩

/-- Settles O38: after the drain the fragment left, if any, is written with its padding, and BW is empty. -/
theorem bwflushPadsWithZeros : Obligations.BwflushPadsWithZeros := by
  intro s hinv hconf hans
  obtain ⟨u, hflush, hu⟩ := bwFlush_of_accepts hinv.bw.cache hans
  have hempty : u.bw.bits = 0 := by have := hu.held; rw [List.length_replicate] at this; omega
  have hbw := cache_eq_of_empty hu.cache hempty
  rw [hu.count] at hbw
  have hsnk := (writtenBits_of_empty hempty).symm.trans hu.written
  rw [hu.regs] at hsnk
  exact ⟨_, (exec_bwflush_of_configured hconf).trans (endCommand_of_writer_ok hflush hu.regs), rfl, hbw, hu.grow.snk, hsnk,
    hu.io, hu.br, hu.c, hu.d, hu.port⟩

/-- Settles O39: the refused byte, whole or fragment, and those behind it stay in BW. -/
theorem bwflushSinkFails : Obligations.BwflushSinkFails := by
  intro s j hinv hconf hj hfail
  obtain ⟨u, hflush, hu⟩ := bwFlush_of_fail hinv.bw.cache hj hfail
  exact ⟨_, (exec_bwflush_of_configured hconf).trans (endCommand_of_writer_raised hconf hflush hu.regs), rfl,
    ((writtenBits_setRegs (congrArg Regs.cfg hu.regs).symm).trans hu.written).trans (List.append_nil _), hu.held, hu.grow.snk,
    hu.taken, hu.count, hu.io, hu.br, hu.c, hu.d, hu.port⟩

end Sys2Proof.Machine
end

section
/-! SUPPORT. Partial guarantees: `Res.Meets` with nothing said of a fault, for what can be shown of C's and D's procedures from any
state; that they do not fault is said by their laws. -/

namespace Sys2Proof.Machine

variable {α β : Type}

/-- `post` holds where the piece goes on and `onRaise` where it raises. -/
def Res.Leaves (r : Res α) (post : α → State → Prop) (onRaise : StatusCode → Nat → Nat → State → Prop) : Prop :=
  match r with
  | .ok a s => post a s
  | .raised code i0 i1 s => onRaise code i0 i1 s
  | .fault _ => True

@[simp] theorem Res.leaves_ok (a : α) (s : State) (P : α → State → Prop) (Q : StatusCode → Nat → Nat → State → Prop) :
    (Res.ok a s).Leaves P Q ↔ P a s := Iff.rfl

@[simp] theorem Res.leaves_raised (code : StatusCode) (i0 i1 : Nat) (s : State) (P : α → State → Prop)
    (Q : StatusCode → Nat → Nat → State → Prop) :
    (Res.raised code i0 i1 s : Res α).Leaves P Q ↔ Q code i0 i1 s := Iff.rfl

@[simp] theorem Res.leaves_fault (f : Fault) (P : α → State → Prop) (Q : StatusCode → Nat → Nat → State → Prop) :
    (Res.fault f : Res α).Leaves P Q ↔ True := Iff.rfl

theorem Res.Leaves.bind {r : Res α} {k : α → State → Res β} {P : α → State → Prop} {P' : β → State → Prop}
    {Q : StatusCode → Nat → Nat → State → Prop} (h : r.Leaves P Q) (hk : ∀ a s, P a s → (k a s).Leaves P' Q) :
    (r.bind k).Leaves P' Q := by
  cases r with
  | ok a s => exact hk a s h
  | raised code i0 i1 s => exact h
  | fault f => trivial

theorem Res.Leaves.mono {r : Res α} {P P' : α → State → Prop} {Q Q' : StatusCode → Nat → Nat → State → Prop}
    (h : r.Leaves P Q) (hP : ∀ a s, P a s → P' a s) (hQ : ∀ c i j s, Q c i j s → Q' c i j s) : r.Leaves P' Q' := by
  cases r with
  | ok a s => exact hP a s h
  | raised code i0 i1 s => exact hQ code i0 i1 s h
  | fault f => trivial

theorem Res.Leaves.andAll {r : Res α} {P : α → State → Prop} {Q : StatusCode → Nat → Nat → State → Prop} {R : State → Prop}
    (h : r.Leaves P Q) (h' : r.All R) : r.Leaves (fun a s => P a s ∧ R s) fun c i j s => Q c i j s ∧ R s := by
  cases r with
  | ok a s => exact ⟨h, h'⟩
  | raised code i0 i1 s => exact ⟨h, h'⟩
  | fault f => trivial

/-- A frame is a partial guarantee. -/
theorem Res.All.leaves {r : Res α} {P : State → Prop} (h : r.All P) : r.Leaves (fun _ => P) fun _ _ _ => P := by
  cases r with
  | ok a s => exact h
  | raised code i0 i1 s => exact h
  | fault f => trivial

/-- A partial guarantee joins a guarantee. -/
theorem Res.Meets.andLeaves {r : Res α} {P P' : α → State → Prop} {Q Q' : StatusCode → Nat → Nat → State → Prop}
    (h : r.Meets P Q) (h' : r.Leaves P' Q') :
    r.Meets (fun a s => P a s ∧ P' a s) (fun c i j s => Q c i j s ∧ Q' c i j s) := by
  cases r with
  | ok a s => exact ⟨h, h'⟩
  | raised code i0 i1 s => exact ⟨h, h'⟩
  | fault f => exact h

end Sys2Proof.Machine
end

section
/-! SUPPORT. The keys of C_DICT (10_state.md R28, R32, 43_compressor.md R131, R134): which strings a sound dictionary has, and
which of their bytes are below CLEAR. -/

namespace Sys2Proof.Machine

/-- The strings that C_DICT maps to a code. -/
def keysOf (c : Compressor) : List ByteString := c.dict.map Prod.snd

section
variable {cfg : Word} {c : Compressor}

/-- An entry is a literal, or its string is longer and what precedes the last byte is a key (10_state.md R32). -/
theorem CompressorSound.entry_cases (h : CompressorSound cfg c) {e : Nat × ByteString} (he : e ∈ c.dict) :
    (e.1 < clearCode cfg ∧ e.2 = [BitVec.ofNat 8 e.1]) ∨ (1 < e.2.length ∧ e.2.dropLast ∈ keysOf c) := by
  have hcode : e.1 ∈ assignedCodes cfg c.codes := h.assigned ▸ List.mem_map.mpr ⟨e, he, rfl⟩
  rcases (mem_assignedCodes h.codes_low).mp hcode with hlit | hfree
  · have hcodes := ((codesRising_iff c.dict).mp (codesRising_assigned h.assigned)).imp fun hlt => Nat.ne_of_lt hlt
    have hsame := List.inj_on_of_nodup_map hcodes he (tableGet_mem (h.literal e.1 hlit)) rfl
    exact .inl ⟨hlit, congrArg Prod.snd hsame⟩
  · exact .inr (h.prefixed e he hfree.1)

theorem CompressorSound.nil_not_key (h : CompressorSound cfg c) : [] ∉ keysOf c := by
  intro hmem
  obtain ⟨e, he, hnil⟩ := List.mem_map.mp hmem
  rcases h.entry_cases he with ⟨-, hlit⟩ | ⟨hlong, -⟩
  · simp [hnil] at hlit
  · simp [hnil] at hlong

/-- With a byte taken off a key that is no literal, a key is left. -/
theorem CompressorSound.key_of_append (h : CompressorSound cfg c) {run : ByteString} {b : Byte} (hne : run ≠ [])
    (hmem : run ++ [b] ∈ keysOf c) : run ∈ keysOf c := by
  obtain ⟨e, he, hkey⟩ := List.mem_map.mp hmem
  rcases h.entry_cases he with ⟨-, hlit⟩ | ⟨-, hpre⟩
  · rw [hkey, List.append_eq_singleton_iff] at hlit
    rcases hlit with ⟨hnil, -⟩ | ⟨-, hb⟩
    · exact absurd hnil hne
    · cases hb
  · simpa [hkey] using hpre

/-- A literal has its own value as code (43_compressor.md R131). -/
theorem CompressorSound.codeOf_literal (hl : CfgLegal cfg) (h : CompressorSound cfg c) {b : Byte}
    (hb : b.toNat < clearCode cfg) : tableCodeOf [b] c.dict = some b.toNat := by
  have hlit := tableGet_mem (h.literal b.toNat hb)
  rw [BitVec.ofNat_toNat, BitVec.setWidth_eq] at hlit
  obtain ⟨code, hcode⟩ := Option.isSome_iff_exists.mp ((tableCodeOf_isSome [b] c.dict).mpr (List.mem_map.mpr ⟨_, hlit, rfl⟩))
  rcases h.entry_cases (tableCodeOf_mem hcode) with ⟨hlt, hsame⟩ | ⟨hlong, -⟩
  · have hclear := hl.clear_le
    have hval : b.toNat = code % 2 ^ 8 := by simpa [← BitVec.toNat_inj] using hsame
    rw [hcode]
    congr 1
    omega
  · simp at hlong

/-- The one-byte keys are the literals. -/
theorem CompressorSound.singleton_key_iff (hl : CfgLegal cfg) (h : CompressorSound cfg c) {b : Byte} :
    [b] ∈ keysOf c ↔ b.toNat < clearCode cfg := by
  constructor
  · intro hmem
    obtain ⟨e, he, hkey⟩ := List.mem_map.mp hmem
    rcases h.entry_cases he with ⟨hlt, hsame⟩ | ⟨hlong, -⟩
    · have hval : b.toNat = e.1 % 2 ^ 8 := by simpa [hkey, ← BitVec.toNat_inj] using hsame
      exact hval.trans_lt ((Nat.mod_le _ _).trans_lt hlt)
    · simp [hkey] at hlong
  · exact fun hb => List.mem_map.mpr ⟨_, tableCodeOf_mem (h.codeOf_literal hl hb), rfl⟩

/-- Every byte of every key is below CLEAR, as 10_state.md R28 has it (log entry 13). -/
def LiteralKeys (cfg : Word) (c : Compressor) : Prop := ∀ key ∈ keysOf c, ∀ b ∈ key, b.toNat < clearCode cfg

/-- Every byte of every key but the last is below CLEAR. -/
def LiteralPrefixes (cfg : Word) (c : Compressor) : Prop :=
  ∀ key ∈ keysOf c, ∀ b ∈ key.dropLast, b.toNat < clearCode cfg

theorem LiteralKeys.prefixes (h : LiteralKeys cfg c) : LiteralPrefixes cfg c :=
  fun key hkey b hb => h key hkey b (List.mem_of_mem_dropLast hb)

theorem clearedCompressor_literalKeys (cfg : Word) (c : Compressor) : LiteralKeys cfg (clearedCompressor cfg c) := by
  intro key hkey b hb
  obtain ⟨e, he, rfl⟩ := List.mem_map.mp hkey
  obtain ⟨hlt, hsame⟩ := mem_literalTable.mp he
  rw [hsame, List.mem_singleton] at hb
  rw [hb, BitVec.toNat_ofNat]
  exact (Nat.mod_le _ _).trans_lt hlt

/-- An insertion adds its string to the keys and no other. -/
theorem mem_keysOf_cInsert {key k : ByteString} {w : Nat} (h : k ∈ keysOf (cInsert key w c)) : k = key ∨ k ∈ keysOf c := by
  obtain ⟨e, he, rfl⟩ := List.mem_map.mp h
  exact (mem_tablePut he).imp (congrArg Prod.snd) fun he => List.mem_map.mpr ⟨e, he, rfl⟩

end

end Sys2Proof.Machine
end

section
/-! SUPPORT. What one iteration of SCAN makes of C (43_compressor.md R134, R136). -/

namespace Sys2Proof.Machine

/-- What one iteration of SCAN for the byte `b` makes of C: the run grows; or the run's code is written and the run begins anew with
`b`, after the string was inserted or the full table was cleared (43_compressor.md R134, R136). -/
inductive ScannedByte (cfg : Word) (b : Byte) (c : Compressor) : Compressor → Prop
  | extended (hkey : c.run ++ [b] ∈ keysOf c) : ScannedByte cfg b c { c with run := c.run ++ [b] }
  | inserted (hnew : c.run ++ [b] ∉ keysOf c) (hrun : c.run ∈ keysOf c) (w : Nat) :
      ScannedByte cfg b c { cInsert (c.run ++ [b]) w c with run := [b] }
  | cleared (hnew : c.run ++ [b] ∉ keysOf c) (hrun : c.run ∈ keysOf c) :
      ScannedByte cfg b c { clearedCompressor cfg c with run := [b] }

/-- Writing a code leaves C and the registers (43_compressor.md R135). -/
theorem cWriteCode_leaves (v : Nat) (kind : EvtKind) (s : State) :
    (cWriteCode v kind s).Leaves (fun _ t => t.c = s.c ∧ t.regs = s.regs) fun _ _ _ t => t.c = s.c :=
  ((cWriteCode_keeps v kind s).leaves.andAll (cWriteCode_compress v kind s)).mono (fun _ _ ⟨hc, hf⟩ => ⟨hc, hf.regs⟩)
    fun _ _ _ _ h => h.1

/-- What `c_add_table_entry` makes of C (43_compressor.md R134). -/
theorem cAddTableEntry_leaves (key : ByteString) (s : State) :
    (cAddTableEntry key s).Leaves
      (fun _ t => (∃ w, t.c = cInsert key w s.c) ∨ t.c = clearedCompressor s.regs.cfg s.c) fun _ _ _ t => t.c = s.c := by
  unfold cAddTableEntry
  split
  · split
    · exact .inl ⟨_, rfl⟩
    · refine (cWriteCode_leaves _ .clear s).bind ?_
      rintro _ t ⟨hc, hregs⟩
      exact .inr (by rw [cClearTable, State.setC_c, hc, hregs])
  · exact .inl ⟨_, rfl⟩

/-- The run's code is written if the run is a key; C stays (43_compressor.md R136). -/
theorem cWriteRun_leaves (s : State) :
    (cWriteRun s).Leaves (fun _ t => t.c = s.c ∧ t.regs = s.regs ∧ s.c.run ∈ keysOf s.c) fun _ _ _ t => t.c = s.c := by
  unfold cWriteRun
  split
  · next code hcode =>
    have hkey : s.c.run ∈ keysOf s.c := List.mem_map.mpr ⟨_, tableCodeOf_mem hcode, rfl⟩
    exact (cWriteCode_leaves code .data s).mono (fun _ _ ⟨hc, hregs⟩ => ⟨hc, hregs, hkey⟩) fun _ _ _ _ => id
  · rfl

/-- What one iteration of SCAN makes of C; where it raises, C stays. -/
theorem cScanByte_leaves (b : Byte) (s : State) :
    (cScanByte b s).Leaves (fun _ t => ScannedByte s.regs.cfg b s.c t.c) fun _ _ _ t => t.c = s.c := by
  unfold cScanByte
  split
  · next hkey => exact .extended ((tableCodeOf_isSome _ _).mp hkey)
  · next hkey =>
    have hnew : s.c.run ++ [b] ∉ keysOf s.c := fun hmem => hkey ((tableCodeOf_isSome _ _).mpr hmem)
    refine (cWriteRun_leaves s).bind ?_
    rintro _ t ⟨hc, hregs, hrun⟩
    refine ((cAddTableEntry_leaves (s.c.run ++ [b]) t).mono (fun _ _ => id) fun _ _ _ _ hu => hu.trans hc).bind ?_
    rintro _ u (⟨w, hu⟩ | hu)
    · rw [Res.leaves_ok, State.setC_c, hu, hc]
      exact .inserted hnew hrun w
    · rw [Res.leaves_ok, State.setC_c, hu, hc, hregs]
      exact .cleared hnew hrun

section
variable {cfg : Word} {b : Byte} {c c' : Compressor}

theorem ScannedByte.pos (h : ScannedByte cfg b c c') : c'.pos = c.pos := by
  cases h <;> rfl

theorem ScannedByte.run (h : ScannedByte cfg b c c') : c'.run = c.run ++ [b] ∨ c'.run = [b] := by
  cases h with
  | extended hkey => exact .inl rfl
  | inserted hnew hrun w => exact .inr rfl
  | cleared hnew hrun => exact .inr rfl

/-- A literal keeps every key's bytes below CLEAR. -/
theorem ScannedByte.literalKeys (h : ScannedByte cfg b c c') (hk : LiteralKeys cfg c)
    (hb : b.toNat < clearCode cfg) : LiteralKeys cfg c' := by
  cases h with
  | extended hkey => exact hk
  | inserted hnew hrun w =>
    intro key hkey x hx
    rcases mem_keysOf_cInsert (w := w) hkey with rfl | hold
    · rcases List.mem_append.mp hx with hx | hx
      · exact hk _ hrun x hx
      · exact List.mem_singleton.mp hx ▸ hb
    · exact hk key hold x hx
  | cleared hnew hrun => exact clearedCompressor_literalKeys cfg c

/-- A byte that is no literal begins a run of its own, behind the code of a run that was a key; it can be the last byte of one new
key (log entry 13). -/
theorem ScannedByte.of_nonLiteral (h : ScannedByte cfg b c c') (hk : LiteralKeys cfg c)
    (hb : clearCode cfg ≤ b.toNat) : c.run ∈ keysOf c ∧ c'.run = [b] ∧ LiteralPrefixes cfg c' := by
  cases h with
  | extended hkey => exact absurd (hk _ hkey b (by simp)) (Nat.not_lt.mpr hb)
  | inserted hnew hrun w =>
    refine ⟨hrun, rfl, fun key hkey x hx => ?_⟩
    rcases mem_keysOf_cInsert (w := w) hkey with rfl | hold
    · exact hk _ hrun x (by simpa using hx)
    · exact hk.prefixes key hold x hx
  | cleared hnew hrun => exact ⟨hrun, rfl, (clearedCompressor_literalKeys cfg c).prefixes⟩

end

end Sys2Proof.Machine
end

section
/-! SUPPORT. An induction over C's procedures, packaged once for what depends on the codes they write and on nothing of C
(43_compressor.md R134 to R136). -/

namespace Sys2Proof.Machine

/-- `I` holds from one primitive of C to the next and `E` where one raises; the codes written have events of `kinds`, CLEAR and DATA
at least. -/
structure KeptByCodes (kinds : EvtKind → Prop) (I E : State → Prop) : Prop where
  clear : kinds .clear
  data : kinds .data
  raise : ∀ s, I s → E s
  setC : ∀ s c, I s → I (s.setC c)
  access : ∀ s, I s → (memRead s).Leaves (fun _ => I) fun _ _ _ => E
  code : ∀ v kind s, kinds kind → I s → (cWriteCode v kind s).Leaves (fun _ => I) fun _ _ _ => E

section
variable {kinds : EvtKind → Prop} {I E : State → Prop} (h : KeptByCodes kinds I E)
include h

theorem KeptByCodes.cAddTableEntry (key : ByteString) {s : State} (hs : I s) :
    (cAddTableEntry key s).Leaves (fun _ => I) fun _ _ _ => E := by
  unfold Machine.cAddTableEntry
  split
  · split
    · exact h.setC s _ hs
    · exact (h.code _ _ s h.clear hs).bind fun _ t ht => h.setC t _ ht
  · exact h.setC s _ hs

theorem KeptByCodes.cWriteRun {s : State} (hs : I s) : (cWriteRun s).Leaves (fun _ => I) fun _ _ _ => E := by
  unfold Machine.cWriteRun
  split
  · exact h.code _ _ s h.data hs
  · exact h.raise s hs

theorem KeptByCodes.cScanByte (b : Byte) {s : State} (hs : I s) : (cScanByte b s).Leaves (fun _ => I) fun _ _ _ => E := by
  unfold Machine.cScanByte
  split
  · exact h.setC s _ hs
  · exact (h.cWriteRun hs).bind fun _ t ht => (h.cAddTableEntry _ ht).bind fun _ u hu => h.setC u _ hu

theorem KeptByCodes.cScan (fuel : Nat) {s : State} (hs : I s) : (cScan fuel s).Leaves (fun _ => I) fun _ _ _ => E := by
  induction fuel generalizing s with
  | zero =>
    unfold Machine.cScan
    refine (h.access s hs).bind fun answer t ht => ?_
    cases answer with
    | none => exact ht
    | some b => trivial
  | succ k ih =>
    unfold Machine.cScan
    refine (h.access s hs).bind fun answer t ht => ?_
    cases answer with
    | none => exact ht
    | some b => exact (h.cScanByte b (h.setC t _ ht)).bind fun _ u hu => ih hu

/-- `compress()` on the whole, with what its flush leaves (43_compressor.md R136). -/
theorem KeptByCodes.compressAll (heoi : kinds .eoi) {F : State → Prop}
    (hflush : ∀ s, I s → (bwFlush s).Leaves (fun _ => F) fun _ _ _ => E) {s : State} (hs : I s) :
    (compressAll s).Leaves (fun _ => F) fun _ _ _ => E := by
  refine (h.code _ _ _ h.clear (h.setC s _ hs)).bind fun _ t ht => (h.cScan _ ht).bind fun _ u hu => ?_
  have hrun : (if u.c.run = [] then Res.ok () u else Machine.cWriteRun u).Leaves (fun _ => I) fun _ _ _ => E := by
    split
    · exact hu
    · exact h.cWriteRun hu
  exact hrun.bind fun _ v hv => (h.code _ _ v heoi hv).bind fun _ w hw => hflush w hw

end

/-! ### The events of SCAN -/

/-- The kinds of C's events before EOI (43_compressor.md R136). -/
def ScanKind (u : EvtUnit) (k : EvtKind) : Prop := u = .c ∧ (k = .clear ∨ k = .data)

/-- SCAN emits no EOI (43_compressor.md R136). -/
theorem emitsOnly_keptByCodes (s : State) :
    KeptByCodes (fun k => k = .clear ∨ k = .data) (EmitsOnly ScanKind s) (EmitsOnly ScanKind s) where
  clear := .inl rfl
  data := .inr rfl
  raise _ h := h
  setC _ _ h := h.trans (.of_same_evt rfl rfl)
  access t h :=
    ((memRead_reader t).mono fun _ hf => h.trans ((emitsOnly_primitives ScanKind).reader _ _ hf)).leaves
  code v kind t hk h := by
    have hevent := h.trans (notify_emitsOnly (may := ScanKind) ⟨rfl, hk⟩ v t.c.width t)
    exact ((bwWrite_writer v t.c.width (notify .c kind v t.c.width t)).mono fun _ hf =>
      hevent.trans ((emitsOnly_primitives ScanKind).writer _ _ hf)).leaves

end Sys2Proof.Machine
end

section
/-! SUPPORT. COMPRESS followed byte by byte (43_compressor.md R136): the input up to its first byte at or above CLEAR, that byte, and
what the command comes to behind it. -/

namespace Sys2Proof.Machine

/-! ### One round of SCAN -/

/-- An access to SRC that gave no byte. -/
def accessMade (s : State) : State := s.setIo { s.io with srcReads := s.io.srcReads + 1 }

/-- A byte taken from SRC and counted by `C_POS` (43_compressor.md R136). -/
def byteTaken (s : State) : State :=
  (s.setIo { s.io with srcPos := s.io.srcPos + 1, srcReads := s.io.srcReads + 1 }).setC { s.c with pos := s.c.pos + 1 }

/-- The access that answers END or FAIL changes its count alone. -/
theorem accessMade_compress (s : State) : CompressFrame s (accessMade s) :=
  ⟨rfl, rfl, rfl, rfl, { StreamsGrow.refl s.io with srcReads := Nat.le_succ _ }⟩

theorem byteTaken_compress {s : State} {b : Byte} {rest : List Byte} (h : unreadBytes s = b :: rest) :
    CompressFrame s (byteTaken s) := by
  have hlt : s.io.srcPos < s.io.src.length := by
    have hlen := congrArg List.length h
    rw [unreadBytes, List.length_drop, List.length_cons] at hlen
    omega
  exact ⟨rfl, rfl, rfl, rfl,
    { StreamsGrow.refl s.io with srcPos := Nat.le_succ _, srcReads := Nat.le_succ _, inRange := fun _ => hlt }⟩

/-- With one byte consumed the rest of SRC is left. -/
theorem unreadBytes_after_byte {s t : State} {b : Byte} {rest : List Byte} (hun : unreadBytes s = b :: rest)
    (hsrc : t.io.src = s.io.src) (hpos : t.io.srcPos = s.io.srcPos + 1) : unreadBytes t = rest := by
  rw [unreadBytes, hsrc, hpos, ← List.tail_drop]
  exact congrArg List.tail hun

/-- A round of SCAN with a byte to read (43_compressor.md R136). -/
theorem cScan_of_byte {s : State} {b : Byte} {rest : List Byte} {P : Unit → State → Prop}
    {Q : StatusCode → Nat → Nat → State → Prop} (fuel : Nat) (hun : unreadBytes s = b :: rest)
    (hfail : SrcFailed s → Q .ioError 0 0 (accessMade s))
    (hbyte : (cScanByte b (byteTaken s)).Meets (fun _ t => (cScan fuel t).Meets P Q) Q) : (cScan (fuel + 1) s).Meets P Q := by
  unfold cScan
  rcases memRead_cases s with ⟨b', -, hb, hr⟩ | ⟨-, hend, -⟩ | ⟨hf, hr⟩
  · obtain rfl : b' = b := by
      rw [unreadBits_of_take hb] at hun
      exact (List.cons.inj hun).1
    rw [hr, Res.bind_ok]
    exact hbyte.bind fun _ _ => id
  · simp [unreadBytes_of_end hend] at hun
  · rw [hr]
    exact hfail ⟨_, Nat.le_refl _, hf⟩

/-- The round of SCAN that meets END (43_compressor.md R136). -/
theorem cScan_of_end {s : State} {P : Unit → State → Prop} {Q : StatusCode → Nat → Nat → State → Prop} (fuel : Nat)
    (hun : unreadBytes s = []) (hfail : SrcFailed s → Q .ioError 0 0 (accessMade s)) (hend : P () (accessMade s)) :
    (cScan fuel s).Meets P Q := by
  unfold cScan
  rcases memRead_cases s with ⟨b, -, hb, -⟩ | ⟨-, -, hr⟩ | ⟨hf, hr⟩
  · simp [unreadBits_of_take hb] at hun
  · rw [hr]
    exact hend
  · rw [hr]
    exact hfail ⟨_, Nat.le_refl _, hf⟩

/-- What SCAN keeps: C's frame, and it emits no EOI (43_compressor.md R136). -/
structure ScanFrame (s t : State) : Prop extends CompressFrame s t, EmitsOnly ScanKind s t

theorem ScanFrame.refl (s : State) : ScanFrame s s := { CompressFrame.refl s, EmitsOnly.of_same_evt rfl rfl with }

theorem ScanFrame.trans {a b c : State} (h : ScanFrame a b) (h' : ScanFrame b c) : ScanFrame a c :=
  { CompressFrame.trans _ _ _ h.toCompressFrame h'.toCompressFrame, h.toEmitsOnly.trans h'.toEmitsOnly with }

theorem accessMade_scanFrame (s : State) : ScanFrame s (accessMade s) :=
  { accessMade_compress s, EmitsOnly.of_same_evt rfl rfl with }

theorem byteTaken_scanFrame {s : State} {b : Byte} {rest : List Byte} (h : unreadBytes s = b :: rest) :
    ScanFrame s (byteTaken s) :=
  { byteTaken_compress h, EmitsOnly.of_same_evt rfl rfl with }

theorem cWriteCode_scanFrame (v : Nat) {kind : EvtKind} (hk : kind = .clear ∨ kind = .data) (s : State) :
    (cWriteCode v kind s).Leaves (fun _ => ScanFrame s) fun _ _ _ => ScanFrame s :=
  (((emitsOnly_keptByCodes s).code v kind s hk (.of_same_evt rfl rfl)).andAll (cWriteCode_compress v kind s)).mono
    (fun _ _ ⟨he, hc⟩ => { hc, he with }) fun _ _ _ _ ⟨he, hc⟩ => { hc, he with }

theorem cScanByte_scanFrame (b : Byte) (s : State) :
    (cScanByte b s).Leaves (fun _ => ScanFrame s) fun _ _ _ => ScanFrame s :=
  (((emitsOnly_keptByCodes s).cScanByte b (.of_same_evt rfl rfl)).andAll (cScanByte_compress b s)).mono
    (fun _ _ ⟨he, hc⟩ => { hc, he with }) fun _ _ _ _ ⟨he, hc⟩ => { hc, he with }

/-! ### The literals of the input -/

/-- The input byte is a literal. -/
abbrev Literal (cfg : Word) (b : Byte) : Prop := b.toNat < clearCode cfg

theorem CodingSound.byteTaken {cfg : Word} {most : Nat} {A : Prop} {s : State} (h : CodingSound cfg most A s) :
    CodingSound cfg most A (byteTaken s) :=
  ⟨h.cfg_eq, { h.c with run_counted := Nat.le_succ_of_le h.c.run_counted }, h.bw, h.keyed⟩

theorem CodingSound.accessMade {cfg : Word} {most : Nat} {A : Prop} {s : State} (h : CodingSound cfg most A s) :
    CodingSound cfg most A (accessMade s) :=
  ⟨h.cfg_eq, h.c, h.bw, h.keyed⟩

/-- A refused access in what follows the fresh session `s` ends the command with IoError (60_exceptions.md R184). -/
def IoRefused (s : State) (code : StatusCode) : Prop := code = .ioError ∧ (SnkFailed s ∨ SrcFailed s)

theorem IoRefused.earlier {s t : State} {code : StatusCode} (g : StreamsGrow s.io t.io) (h : IoRefused t code) :
    IoRefused s code :=
  ⟨h.1, h.2.imp (SnkFailed.earlier g) (SrcFailed.earlier g)⟩

/-- C's ways to raise are a refused access and a failed lookup (43_compressor.md R136, R138). -/
theorem CodingRaise.cases {cfg : Word} {A : Prop} {s t : State} {code : StatusCode} {i0 i1 : Nat}
    (h : CodingRaise cfg A s code i0 i1 t) : CompressorSound cfg t.c ∧ (IoRefused s code ∨
      (code = .dictionaryLookupFailure ∧ i0 = t.c.run.length ∧ i1 = t.c.pos ∧ t.c.run ∉ keysOf t.c ∧ ¬ A)) := by
  obtain ⟨-, hc, -, -, hwhy⟩ := h
  refine ⟨hc, ?_⟩
  rcases hwhy with ⟨hcode, -, -, hf⟩ | ⟨hcode, -, -, hf⟩ | hlookup
  · exact .inl ⟨hcode, .inl hf⟩
  · exact .inl ⟨hcode, .inr hf⟩
  · exact .inr hlookup

/-- SCAN stands at `t` behind the first bytes `xs` of the input of the fresh session `s`, all of them literals. -/
structure Scanned (cfg : Word) (s : State) (xs : List Byte) (t : State) : Prop extends CodingSound cfg 7 True t where
  frame : ScanFrame s t
  keys : LiteralKeys cfg t.c
  pos : t.c.pos = xs.length
  srcPos : t.io.srcPos = s.io.srcPos + xs.length
  run_suffix : t.c.run <:+ xs
  run_nil : t.c.run = [] ↔ xs = []

/-- What a refused access leaves of C while only literals were read. -/
def LiteralsRefused (cfg : Word) (s : State) (code : StatusCode) (t : State) : Prop :=
  IoRefused s code ∧ CompressorSound cfg t.c ∧ LiteralKeys cfg t.c

section
variable {cfg : Word} {s t : State} {xs rest : List Byte} {b : Byte}

theorem Scanned.unread (h : Scanned cfg s xs t) : unreadBytes t = (unreadBytes s).drop xs.length := by
  rw [unreadBytes, unreadBytes, h.frame.grow.src, h.srcPos, List.drop_drop]

theorem Scanned.accessMade (h : Scanned cfg s xs t) : Scanned cfg s xs (accessMade t) :=
  { h with
    toCodingSound := h.toCodingSound.accessMade
    frame := h.frame.trans (accessMade_scanFrame t) }

/-- A refused access to SRC. -/
theorem Scanned.refused (h : Scanned cfg s xs t) (hf : SrcFailed t) : LiteralsRefused cfg s .ioError (Machine.accessMade t) :=
  ⟨⟨rfl, .inr (hf.earlier h.frame.grow)⟩, h.c, h.keys⟩

/-- One round for a literal (43_compressor.md R136). -/
theorem Scanned.literal (hl : CfgLegal cfg) (h : Scanned cfg s xs t) (hun : unreadBytes t = b :: rest) (hb : Literal cfg b) :
    (cScanByte b (byteTaken t)).Meets (fun _ u => Scanned cfg s (xs ++ [b]) u ∧ unreadBytes u = rest)
      fun code _ _ u => LiteralsRefused cfg s code u := by
  have htaken := h.frame.trans (byteTaken_scanFrame hun)
  have hcfg : (byteTaken t).regs.cfg = cfg := h.cfg_eq
  have hbyte := ((cScanByte_meets hl b _ h.toCodingSound.byteTaken (Nat.lt_succ_of_le h.c.run_counted) fun _ => hb).andLeaves
    (cScanByte_leaves b (byteTaken t))).andLeaves (cScanByte_scanFrame b (byteTaken t))
  refine hbyte.mono ?_ ?_
  · rintro _ u ⟨⟨⟨hcoding, hpos⟩, hscan⟩, hframe⟩
    rw [hcfg] at hscan
    refine ⟨?_, unreadBytes_after_byte hun hframe.grow.src hpos⟩
    exact
      { hcoding with
        frame := htaken.trans hframe
        keys := hscan.literalKeys h.keys hb
        pos := by rw [hscan.pos, List.length_append]; exact congrArg (· + 1) h.pos
        srcPos := by rw [hpos, List.length_append, ← Nat.add_assoc]; exact congrArg (· + 1) h.srcPos
        run_suffix := by
          rcases hscan.run with hrun | hrun
          · rw [hrun]
            obtain ⟨front, hfront⟩ := h.run_suffix
            exact ⟨front, by rw [← hfront, List.append_assoc]; rfl⟩
          · exact hrun ▸ List.suffix_append xs [b]
        run_nil := by
          have hne : u.c.run ≠ [] := by rcases hscan.run with hrun | hrun <;> simp [hrun]
          simp [hne] }
  · rintro code i0 i1 u ⟨⟨hraise, hc⟩, -⟩
    obtain ⟨hsound, hio | ⟨-, -, -, -, hno⟩⟩ := hraise.cases
    · exact ⟨hio.earlier htaken.grow, hsound, hc ▸ h.keys⟩
    · exact absurd trivial hno

/-- SCAN over literals: what holds of the rest of it holds of the whole, with the ends by a refused access (43_compressor.md R136). -/
theorem Scanned.literals (hl : CfgLegal cfg) {P : Unit → State → Prop} {Q : StatusCode → Nat → Nat → State → Prop} {fuel : Nat}
    (ys : List Byte) (h : Scanned cfg s xs t) (hun : unreadBytes t = ys ++ rest) (hlit : ∀ y ∈ ys, Literal cfg y)
    (hfail : ∀ code i0 i1 u, LiteralsRefused cfg s code u → Q code i0 i1 u)
    (hnext : ∀ u, Scanned cfg s (xs ++ ys) u → unreadBytes u = rest → (cScan fuel u).Meets P Q) :
    (cScan (fuel + ys.length) t).Meets P Q := by
  induction ys generalizing xs t with
  | nil => exact hnext t (by rwa [List.append_nil]) hun
  | cons y ys ih =>
    obtain ⟨hy, hys⟩ := List.forall_mem_cons.mp hlit
    refine cScan_of_byte (fuel + ys.length) hun (fun hf => hfail _ _ _ _ (h.refused hf)) ?_
    refine (h.literal hl hun hy).mono ?_ hfail
    rintro _ u ⟨hu, hrest⟩
    exact ih hu hrest hys fun v hv => hnext v (by rwa [List.append_assoc] at hv)

end

/-! ### The first byte that is no literal -/

/-- A run that is no key: its lookup fails (43_compressor.md R138). -/
theorem cWriteRun_of_not_key {s : State} (h : s.c.run ∉ keysOf s.c) :
    cWriteRun s = .raised .dictionaryLookupFailure s.c.run.length s.c.pos s := by
  rw [cWriteRun, (tableCodeOf_eq_none _ _).mpr h]

theorem cScanByte_of_not_keys {s : State} {b : Byte} (hnew : s.c.run ++ [b] ∉ keysOf s.c) (hrun : s.c.run ∉ keysOf s.c) :
    cScanByte b s = .raised .dictionaryLookupFailure s.c.run.length s.c.pos s := by
  rw [cScanByte, (tableCodeOf_eq_none _ _).mpr hnew, cWriteRun_of_not_key hrun]
  rfl

/-- The command has raised: for a refused access, or for the failed lookup of `run` with `read` bytes read and no EOI written
(43_compressor.md R138). -/
def LookupStopped (cfg : Word) (s : State) (run : ByteString) (read : Nat) (code : StatusCode) (i0 i1 : Nat) (t : State) : Prop :=
  CompressorSound cfg t.c ∧ LiteralPrefixes cfg t.c ∧ (IoRefused s code ∨
    (code = .dictionaryLookupFailure ∧ i0 = run.length ∧ i1 = read ∧ t.c.run = run ∧ t.c.pos = read ∧
      t.io.srcPos = s.io.srcPos + read ∧ ScanFrame s t))

theorem LiteralsRefused.lookupStopped {cfg : Word} {s t : State} {code : StatusCode} (h : LiteralsRefused cfg s code t)
    (run : ByteString) (read i0 i1 : Nat) : LookupStopped cfg s run read code i0 i1 t :=
  ⟨h.2.1, h.2.2.prefixes, .inl h.1⟩

/-- `t` is reached from the fresh session `s` with `read` bytes of the input read, and the run is the byte `b` alone, which is no
literal and so no key. -/
structure Stuck (cfg : Word) (s : State) (b : Byte) (read : Nat) (t : State) : Prop extends CodingSound cfg 7 False t where
  frame : ScanFrame s t
  prefixes : LiteralPrefixes cfg t.c
  nonLiteral : clearCode cfg ≤ b.toNat
  pos : t.c.pos = read
  srcPos : t.io.srcPos = s.io.srcPos + read
  run : t.c.run = [b]

section
variable {cfg : Word} {s t : State} {xs rest : List Byte} {b : Byte} {read fuel : Nat}

/-- The very first byte is no literal: the lookup is that of the empty run (43_compressor.md R136, log entry 18). -/
theorem Scanned.nonLiteral_first (hl : CfgLegal cfg) (h : Scanned cfg s [] t) (hun : unreadBytes t = b :: rest)
    (hb : clearCode cfg ≤ b.toNat) :
    (cScan (fuel + 1) t).Meets (fun _ _ => False) (LookupStopped cfg s [] 1) := by
  have hrun : (byteTaken t).c.run = [] := h.run_nil.mpr rfl
  have hnew : (byteTaken t).c.run ++ [b] ∉ keysOf (byteTaken t).c := by
    rw [hrun]
    exact fun hmem => absurd ((h.c.singleton_key_iff hl).mp hmem) (Nat.not_lt.mpr hb)
  have hnil : (byteTaken t).c.run ∉ keysOf (byteTaken t).c := hrun ▸ h.c.nil_not_key
  refine cScan_of_byte fuel hun (fun hf => (h.refused hf).lookupStopped ..) ?_
  rw [cScanByte_of_not_keys hnew hnil, hrun]
  exact ⟨h.toCodingSound.byteTaken.c, h.keys.prefixes, .inr ⟨rfl, rfl, congrArg (· + 1) h.pos, hrun, congrArg (· + 1) h.pos,
    congrArg (· + 1) h.srcPos, h.frame.trans (byteTaken_scanFrame hun)⟩⟩

/-- Behind literals the first byte that is none becomes the run (43_compressor.md R136). -/
theorem Scanned.nonLiteral_byte (hl : CfgLegal cfg) (hne : xs ≠ []) (h : Scanned cfg s xs t) (hun : unreadBytes t = b :: rest)
    (hb : clearCode cfg ≤ b.toNat) :
    (cScanByte b (byteTaken t)).Meets (fun _ u => Stuck cfg s b (xs.length + 1) u ∧ unreadBytes u = rest)
      fun code _ _ u => LiteralsRefused cfg s code u := by
  have htaken := h.frame.trans (byteTaken_scanFrame hun)
  have hcfg : (byteTaken t).regs.cfg = cfg := h.cfg_eq
  have hrun : (byteTaken t).c.run ∈ keysOf (byteTaken t).c :=
    (h.keyed trivial).resolve_left fun hnil => hne (h.run_nil.mp hnil)
  have hcoding : CodingSound cfg 7 False (byteTaken t) := ⟨h.cfg_eq, h.toCodingSound.byteTaken.c, h.bw, False.elim⟩
  have hbyte := ((cScanByte_meets hl b _ hcoding (Nat.lt_succ_of_le h.c.run_counted) False.elim).andLeaves
    (cScanByte_leaves b (byteTaken t))).andLeaves (cScanByte_scanFrame b (byteTaken t))
  refine hbyte.mono ?_ ?_
  · rintro _ u ⟨⟨⟨hu, hpos⟩, hscan⟩, hframe⟩
    rw [hcfg] at hscan
    obtain ⟨-, hnew, hprefixes⟩ := hscan.of_nonLiteral h.keys hb
    refine ⟨?_, unreadBytes_after_byte hun hframe.grow.src hpos⟩
    exact
      { hu with
        frame := htaken.trans hframe
        prefixes := hprefixes
        nonLiteral := hb
        pos := hscan.pos.trans (congrArg (· + 1) h.pos)
        srcPos := hpos.trans (congrArg (· + 1) h.srcPos)
        run := hnew }
  · rintro code i0 i1 u ⟨⟨hraise, hc⟩, -⟩
    obtain ⟨hsound, hio | ⟨-, -, -, hno, -⟩⟩ := hraise.cases
    · exact ⟨hio.earlier htaken.grow, hsound, hc ▸ h.keys⟩
    · exact absurd (hc ▸ hrun) hno

theorem Stuck.run_not_key (hl : CfgLegal cfg) (h : Stuck cfg s b read t) : t.c.run ∉ keysOf t.c := by
  rw [h.run]
  exact fun hmem => absurd ((h.c.singleton_key_iff hl).mp hmem) (Nat.not_lt.mpr h.nonLiteral)

/-- The state in which a run that is no key stops the command. -/
theorem Stuck.lookupStopped (h : Stuck cfg s b read t) :
    LookupStopped cfg s [b] read .dictionaryLookupFailure t.c.run.length t.c.pos t :=
  ⟨h.c, h.prefixes, .inr ⟨rfl, congrArg List.length h.run, h.pos, h.run, h.pos, h.srcPos, h.frame⟩⟩

theorem Stuck.refused (h : Stuck cfg s b read t) (hf : SrcFailed t) (run : ByteString) (n i0 i1 : Nat) :
    LookupStopped cfg s run n .ioError i0 i1 (Machine.accessMade t) :=
  ⟨h.c, h.prefixes, .inl ⟨rfl, .inr (hf.earlier h.frame.grow)⟩⟩

theorem Stuck.byteTaken (h : Stuck cfg s b read t) (hun : unreadBytes t = rest) (hne : rest ≠ []) :
    Stuck cfg s b (read + 1) (Machine.byteTaken t) := by
  obtain ⟨y, ys, rfl⟩ := List.exists_cons_of_ne_nil hne
  exact
    { h with
      toCodingSound := h.toCodingSound.byteTaken
      frame := h.frame.trans (byteTaken_scanFrame hun)
      pos := congrArg (· + 1) h.pos
      srcPos := congrArg (· + 1) h.srcPos }

theorem Stuck.accessMade (h : Stuck cfg s b read t) : Stuck cfg s b read (Machine.accessMade t) :=
  { h with
    toCodingSound := h.toCodingSound.accessMade
    frame := h.frame.trans (accessMade_scanFrame t) }

/-- The next byte, if there is one, makes SCAN look the run up, which fails; at END SCAN is done (43_compressor.md R136). -/
theorem Stuck.scan (hl : CfgLegal cfg) (h : Stuck cfg s b read t) (hun : unreadBytes t = rest) :
    (cScan (fuel + rest.length) t).Meets (fun _ u => rest = [] ∧ Stuck cfg s b read u)
      (LookupStopped cfg s [b] (min (read + 1) (read + rest.length))) := by
  cases rest with
  | nil => exact cScan_of_end _ hun (fun hf => h.refused hf ..) ⟨rfl, h.accessMade⟩
  | cons y ys =>
    have hstuck := h.byteTaken hun (List.cons_ne_nil y ys)
    have hrun := hstuck.run_not_key hl
    have hnew : (Machine.byteTaken t).c.run ++ [y] ∉ keysOf (Machine.byteTaken t).c := fun hmem =>
      hrun (hstuck.c.key_of_append (by rw [hstuck.run]; exact List.cons_ne_nil b []) hmem)
    refine cScan_of_byte (fuel + ys.length) hun (fun hf => h.refused hf ..) ?_
    rw [cScanByte_of_not_keys hnew hrun, Nat.min_eq_left (by simp)]
    exact hstuck.lookupStopped

/-- FINISH looks the run up, which fails before EOI is written (43_compressor.md R136). -/
theorem Stuck.finish (hl : CfgLegal cfg) (h : Stuck cfg s b read t) :
    cFinish t = .raised .dictionaryLookupFailure t.c.run.length t.c.pos t := by
  have hne : t.c.run ≠ [] := by rw [h.run]; exact List.cons_ne_nil b []
  rw [cFinish, if_neg hne, cWriteRun_of_not_key (h.run_not_key hl), Res.bind_raised]

end

end Sys2Proof.Machine
end

section
/-! SUPPORT. COMPRESS from its fresh session to its end (43_compressor.md R136, R137, R140): on an input of literals, and on one with a
byte that is none. -/

namespace Sys2Proof.Machine

/-- COMPRESS past its check is `compress()` on a fresh session (43_compressor.md R137). -/
theorem exec_compress_of_configured {s : State} (h : Configured s) :
    exec .compress s = endCommand false ((compressAll (freshCompress s)).bind fun _ u =>
      .ok { result := u.bw.count, sentinel := false } u) := by
  simp only [exec, execCompress, whenConfigured_on h]

/-- A guarantee of `compress()` is one of COMPRESS. -/
theorem exec_compress_meets {s : State} {P : State → Prop} {Q : StatusCode → Nat → Nat → State → Prop} {Z : State → Prop}
    (hconf : Configured s) (h : (compressAll (freshCompress s)).Meets (fun _ => P) Q)
    (hok : ∀ u, P u → Z (takeReturn { result := u.bw.count, sentinel := false } u))
    (hraise : ∀ code i0 i1 u, Q code i0 i1 u → Z (takeRaise false code i0 i1 u)) :
    ∃ t, exec .compress s = .next t ∧ Z t := by
  rw [exec_compress_of_configured hconf]
  refine endCommand_meets
    (P := fun x u => P u ∧ x = { result := u.bw.count, sentinel := false }) (h.bind fun _ u hu => ⟨hu, rfl⟩) ?_ hraise
  rintro _ u ⟨hu, rfl⟩
  exact hok u hu

/-- The registers behind a raise of a procedure that left them alone. -/
theorem takeRaise_regs_of_configured {s u : State} (hconf : Configured s) (hregs : u.regs = s.regs) (code : StatusCode)
    (i0 i1 : Nat) : (takeRaise false code i0 i1 u).regs = raisedRegs true code i0 i1 s.regs := by
  rw [takeRaise_regs, hregs, show configuredFlag s.regs.status = true from hconf]
  rfl

/-- A fresh session of COMPRESS under legal parameters (43_compressor.md R137, R140). -/
structure FreshSession (cfg : Word) (s : State) : Prop where
  legal : CfgLegal cfg
  cfg_eq : s.regs.cfg = cfg
  bw : s.bw = BitCache.zero
  run : s.c.run = []
  pos : s.c.pos = 0

theorem freshCompress_session {s : State} (hinv : Inv s) (hconf : Configured s) :
    FreshSession s.regs.cfg (freshCompress s) :=
  ⟨hinv.configured hconf, rfl, rfl, rfl, rfl⟩

theorem cacheSound_zero : CacheSound 7 BitCache.zero := ⟨Nat.one_pos, Nat.zero_le 7⟩

section
variable {cfg : Word} {s : State} {xs rest : List Byte} {b : Byte}

/-- The CLEAR that begins COMPRESS brings SCAN to the start of the input (43_compressor.md R136). -/
theorem FreshSession.start (h : FreshSession cfg s) :
    (cWriteCode (clearCode s.regs.cfg) .clear (cClearTable s)).Meets (fun _ t => Scanned cfg s [] t ∧ unreadBytes t = unreadBytes s)
      fun code _ _ t => LiteralsRefused cfg s code t := by
  have hclear : CodingSound cfg 7 True (cClearTable s) :=
    cClearTable_sound h.legal h.cfg_eq (by simp [h.run]) (h.bw ▸ cacheSound_zero) h.run
  have hkeys : LiteralKeys cfg (cClearTable s).c := by
    rw [cClearTable, State.setC_c, h.cfg_eq]
    exact clearedCompressor_literalKeys cfg s.c
  have hframe : ScanFrame s (cClearTable s) := { setC_compress s _, EmitsOnly.of_same_evt rfl rfl with }
  have hcode := ((cWriteCode_meets (clearCode s.regs.cfg) .clear (cClearTable s) hclear).andLeaves
    (cWriteCode_leaves _ .clear (cClearTable s))).andLeaves (cWriteCode_scanFrame _ (.inl rfl) (cClearTable s))
  refine hcode.mono ?_ ?_
  · rintro _ t ⟨⟨⟨ht, hc, -, hpos, -, -⟩, -⟩, hf⟩
    have hscanned : Scanned cfg s [] t :=
      { ht with
        frame := hframe.trans hf
        keys := hc ▸ hkeys
        pos := hc ▸ h.pos
        srcPos := hpos
        run_suffix := hc ▸ h.run ▸ List.suffix_rfl
        run_nil := iff_of_true (hc ▸ h.run) rfl }
    exact ⟨hscanned, hscanned.unread⟩
  · rintro code i0 i1 t ⟨⟨hraise, hc⟩, -⟩
    obtain ⟨hsound, hio | ⟨-, -, -, -, hno⟩⟩ := hraise.cases
    · exact ⟨hio.earlier hframe.grow, hsound, hc ▸ hkeys⟩
    · exact absurd trivial hno

/-- The rest of SCAN has as many rounds as there are bytes left (70_reset_and_hazards.md R211). -/
theorem unreadBytes_length (s : State) : s.io.src.length - s.io.srcPos = (unreadBytes s).length := List.length_drop.symm

/-- What COMPRESS has done when it has completed on literals: SCAN came to the end of the input, and FINISH left C and emptied BW. -/
structure Completed (cfg : Word) (s t : State) : Prop where
  frame : CompressFrame s t
  sound : CompressorSound cfg t.c
  keys : LiteralKeys cfg t.c
  cache : t.bw.cache = 0
  bits : t.bw.bits = 0
  pos : t.c.pos = (unreadBytes s).length
  srcPos : t.io.srcPos = s.io.srcPos + (unreadBytes s).length
  run_suffix : t.c.run <:+ unreadBytes s
  run_nil : t.c.run = [] ↔ unreadBytes s = []

/-- FINISH leaves C as it is (43_compressor.md R136). -/
theorem cFinish_leaves (s : State) : (cFinish s).Leaves (fun _ t => t.c = s.c) fun _ _ _ t => t.c = s.c := by
  have hrun : (if s.c.run = [] then Res.ok () s else cWriteRun s).Leaves (fun _ t => t.c = s.c) fun _ _ _ t => t.c = s.c := by
    split
    · rfl
    · exact (cWriteRun_leaves s).mono (fun _ _ h => h.1) fun _ _ _ _ => id
  refine hrun.bind fun _ t ht => Res.Leaves.bind (P := fun _ u => u.c = s.c) ?_ fun _ u hu => ?_
  · exact ((cWriteCode_keeps _ .eoi t).mono fun _ h => h.trans ht).leaves
  · exact ((bwFlush_writer u).mono fun _ h => h.c.trans hu).leaves

/-- FINISH behind literals (43_compressor.md R136). -/
theorem Scanned.finish {t : State} (h : Scanned cfg s (unreadBytes s) t) :
    (cFinish t).Meets (fun _ u => Completed cfg s u) fun code _ _ u => LiteralsRefused cfg s code u := by
  refine (((cFinish_meets t h.toCodingSound).andAll (cFinish_compress t)).andLeaves (cFinish_leaves t)).mono ?_ ?_
  · rintro _ u ⟨⟨⟨-, hsound, hcache, hbits, hsrc, -, -, hc⟩, hframe⟩, -⟩
    exact
      { frame := .trans _ _ _ h.frame.toCompressFrame hframe
        sound := hsound
        keys := hc ▸ h.keys
        cache := hcache
        bits := hbits
        pos := hc ▸ h.pos
        srcPos := hsrc.trans h.srcPos
        run_suffix := hc ▸ h.run_suffix
        run_nil := hc ▸ h.run_nil }
  · rintro code i0 i1 u ⟨⟨hraise, -⟩, hc⟩
    obtain ⟨hsound, hio | ⟨-, -, -, -, hno⟩⟩ := hraise.cases
    · exact ⟨hio.earlier h.frame.grow, hsound, hc ▸ h.keys⟩
    · exact absurd trivial hno

/-- `compress()` on an input of literals completes unless an access is refused (43_compressor.md R136, R138). -/
theorem FreshSession.literals (h : FreshSession cfg s) (hlit : ∀ x ∈ unreadBytes s, Literal cfg x) :
    (compressAll s).Meets (fun _ t => Completed cfg s t) fun code _ _ t => LiteralsRefused cfg s code t := by
  refine h.start.bind ?_
  rintro _ t ⟨ht, hun⟩
  refine Res.Meets.bind (P := fun _ u => Scanned cfg s (unreadBytes s) u) ?_ fun _ u hu => hu.finish
  rw [unreadBytes_length, hun, ← Nat.zero_add (unreadBytes s).length]
  refine ht.literals (rest := []) h.legal (unreadBytes s) (by rw [hun, List.append_nil]) hlit (fun _ _ _ _ => id)
    fun u hu hend => ?_
  exact cScan_of_end 0 hend hu.refused hu.accessMade

/-- `compress()` on an input whose first byte that is no literal is `b`: unless an access is refused, a lookup fails
(43_compressor.md R136, R138). -/
theorem FreshSession.nonLiteral (h : FreshSession cfg s) (hun : unreadBytes s = xs ++ b :: rest)
    (hlit : ∀ x ∈ xs, Literal cfg x) (hb : clearCode cfg ≤ b.toNat) :
    (compressAll s).Meets (fun _ _ => False) (LookupStopped cfg s (if xs = [] then [] else [b])
      (if xs = [] then 1 else min (xs.length + 2) (unreadBytes s).length)) := by
  refine (h.start.mono (fun _ _ => id) fun _ _ _ _ hio => hio.lookupStopped ..).bind ?_
  rintro _ t ⟨ht, hsame⟩
  have hlen : (unreadBytes s).length = xs.length + 1 + rest.length := by
    rw [hun, List.length_append, List.length_cons, Nat.add_assoc, Nat.add_comm 1]
  have hfuel : t.io.src.length - t.io.srcPos = rest.length + 1 + xs.length := by
    rw [unreadBytes_length, hsame, hlen]
    omega
  rw [hfuel]
  refine Res.Meets.bind (P := fun _ u => xs ≠ [] ∧ rest = [] ∧ Stuck cfg s b (xs.length + 1) u) ?_ ?_
  · refine ht.literals h.legal xs (hsame.trans hun) hlit (fun _ _ _ _ hio => hio.lookupStopped ..) fun u hu hrest => ?_
    rw [List.nil_append] at hu
    split
    · next hnil =>
      subst hnil
      exact (hu.nonLiteral_first h.legal hrest hb).mono (fun _ _ => False.elim) fun _ _ _ _ => id
    · next hne =>
      refine cScan_of_byte rest.length hrest (fun hf => (hu.refused hf).lookupStopped ..) ?_
      refine (hu.nonLiteral_byte h.legal hne hrest hb).mono ?_ fun _ _ _ _ hio => hio.lookupStopped ..
      rintro _ v ⟨hv, hlast⟩
      rw [← Nat.zero_add rest.length, hlen]
      exact (hv.scan h.legal hlast).mono (fun _ _ hw => ⟨hne, hw⟩) fun _ _ _ _ => id
  · rintro _ u ⟨hne, hnil, hu⟩
    rw [hu.finish h.legal, if_neg hne, if_neg hne, hlen, hnil]
    have hread : min (xs.length + 2) (xs.length + 1 + ([] : List Byte).length) = xs.length + 1 := by simp
    rw [hread]
    exact hu.lookupStopped

end

end Sys2Proof.Machine
end

section
/-! The obligations of 43_compressor.md on input bytes at or above CLEAR. -/

namespace Sys2Proof.Machine

/-- Where no access is refused, COMPRESS does not end with IoError. -/
theorem not_ioRefused {s : State} {code : StatusCode} (hsrc : SrcAnswers s) (hsnk : SnkAccepts s) : ¬ IoRefused s code :=
  fun h => h.2.elim (not_snkFailed hsnk) (not_srcFailed hsrc)

/-- The end of a command emits nothing, and so does the beginning of a session. -/
theorem ScanFrame.no_eoi {s u t : State} (h : ScanFrame (freshCompress s) u) (he : SameButOutcome u t) :
    ∀ r ∈ newEvents s t, r.event.kind ≠ .eoi := by
  intro r hr hk
  have hkind := (h.toEmitsOnly.outcome he).kind r hr
  rcases hkind.2 with hclear | hdata
  · exact EvtKind.noConfusion (hk.symm.trans hclear)
  · exact EvtKind.noConfusion (hk.symm.trans hdata)

/-- Settles O44: SCAN passes the literals before the byte; at the byte, the next one or END a lookup fails, and nothing else can
raise. -/
theorem compressLookupFailure : Obligations.CompressLookupFailure := by
  intro s k b hinv hconf hsrc hsnk hk hb hlit
  obtain ⟨hlt, hget⟩ := List.getElem?_eq_some_iff.mp hk
  have hsplit : unreadBytes s = (unreadBytes s).take k ++ b :: (unreadBytes s).drop (k + 1) := by
    rw [← hget, ← List.drop_eq_getElem_cons hlt, List.take_append_drop]
  have hlen : ((unreadBytes s).take k).length = k := by rw [List.length_take, Nat.min_eq_left hlt.le]
  have hnil : (unreadBytes s).take k = [] ↔ k = 0 := by rw [← List.length_eq_zero_iff, hlen]
  have hends := (freshCompress_session hinv hconf).nonLiteral hsplit hlit hb
  simp only [hnil, hlen] at hends
  refine exec_compress_meets hconf hends (fun _ => False.elim) ?_
  rintro code i0 i1 u ⟨-, -, hio | ⟨rfl, rfl, rfl, hrun, hpos, hsp, hframe⟩⟩
  · exact absurd hio (not_ioRefused hsrc hsnk)
  · refine ⟨?_, hrun, hpos, hsp.trans (congrArg (s.io.srcPos + ·) hpos.symm),
      hframe.no_eoi (takeRaise_sameButOutcome _ _ _ _ u), hframe.br, hframe.d, hframe.port⟩
    rw [takeRaise_regs_of_configured hconf hframe.regs, apply_ite List.length]
    rfl

/-- An input is all literals, or some literals, a byte that is none, and a rest. -/
theorem literals_or_nonLiteral (cfg : Word) (input : List Byte) :
    (∀ x ∈ input, Literal cfg x) ∨
      ∃ xs b rest, input = xs ++ b :: rest ∧ (∀ x ∈ xs, Literal cfg x) ∧ clearCode cfg ≤ b.toNat := by
  cases h : input.find? fun x => decide (clearCode cfg ≤ x.toNat) with
  | none => exact .inl fun x hx => by simpa using List.find?_eq_none.mp h x hx
  | some b =>
    obtain ⟨hb, xs, rest, hsplit, hlit⟩ := List.find?_eq_some_iff_append.mp h
    exact .inr ⟨xs, b, rest, hsplit, fun x hx => by simpa using hlit x hx, by simpa using hb⟩

/-- What a dictionary has of 10_state.md R28's words on the bytes of keys: all of it, or all but the last bytes. -/
theorem CompressorSound.entries {cfg : Word} {c : Compressor} (h : CompressorSound cfg c) (hp : LiteralPrefixes cfg c) :
    ∀ e ∈ c.dict, e.2 ≠ [] ∧ ∀ b ∈ e.2.dropLast, b.toNat < clearCode cfg := by
  intro e he
  have hkey : e.2 ∈ keysOf c := List.mem_map.mpr ⟨e, he, rfl⟩
  exact ⟨fun hnil => h.nil_not_key (hnil ▸ hkey), hp e.2 hkey⟩

/-- Settles O45: an input of literals keeps every key's bytes literals; the first byte that is none can only end one key, and then a
lookup fails. -/
theorem keysBelowClear : Obligations.KeysBelowClear := by
  intro s t hinv hconf hexec
  have hsession := freshCompress_session hinv hconf
  rcases literals_or_nonLiteral s.regs.cfg (unreadBytes s) with hlit | ⟨xs, b, rest, hsplit, hlit, hb⟩
  · have hkeys : CompressorSound s.regs.cfg t.c ∧ LiteralKeys s.regs.cfg t.c := by
      obtain ⟨t', hexec', ht'⟩ := exec_compress_meets (Z := fun t => CompressorSound s.regs.cfg t.c ∧ LiteralKeys s.regs.cfg t.c)
        hconf (hsession.literals hlit) (fun u hu => ⟨hu.sound, hu.keys⟩) fun _ _ _ u hu => hu.2
      cases hexec.symm.trans hexec'
      exact ht'
    exact ⟨hkeys.1.entries hkeys.2.prefixes, fun _ e he => hkeys.2 e.2 (List.mem_map.mpr ⟨e, he, rfl⟩)⟩
  · obtain ⟨t', hexec', ht'⟩ := exec_compress_meets (Z := fun t => CompressorSound s.regs.cfg t.c ∧ LiteralPrefixes s.regs.cfg t.c)
      hconf (hsession.nonLiteral hsplit hlit hb) (fun _ => False.elim) fun _ _ _ u hu => ⟨hu.1, hu.2.1⟩
    cases hexec.symm.trans hexec'
    refine ⟨ht'.1.entries ht'.2, fun hall => ?_⟩
    exact absurd (hall b (by simp [hsplit])) (Nat.not_lt.mpr hb)

end Sys2Proof.Machine
end

section
/-! SUPPORT. The codes C writes, exactly (42_bitwriter.md R121, R125, 43_compressor.md R135): what BW and SNK are after each, whether
SNK accepts every byte or not. -/

namespace Sys2Proof.Machine

/-- Among the first `k` answers none is FAIL, or there is a first that is. -/
theorem all_false_or_first_true (fails : Nat → Bool) (k : Nat) :
    (∀ j, j < k → fails j = false) ∨ ∃ j, j < k ∧ (∀ i, i < j → fails i = false) ∧ fails j = true := by
  induction k with
  | zero => exact .inl fun j hj => absurd hj (Nat.not_lt_zero j)
  | succ k ih =>
    rcases ih with hans | ⟨j, hj, hfirst⟩
    · cases hk : fails k with
      | true => exact .inr ⟨k, Nat.lt_succ_self k, hans, hk⟩
      | false =>
        refine .inl fun j hj => ?_
        rcases Nat.lt_succ_iff_lt_or_eq.mp hj with hlt | rfl
        · exact hans j hlt
        · exact hk
    · exact .inr ⟨j, Nat.lt_succ_of_lt hj, hfirst⟩

/-- SNK accepts the next `k` bytes, or refuses a first one of them. -/
theorem writesAccepted_or_failsAt (s : State) (k : Nat) : WritesAccepted s k ∨ ∃ j, j < k ∧ WriteFailsAt s j :=
  all_false_or_first_true (fun j => ioFails s.io.script .snk (s.io.snkWrites + j)) k

/-- BW moved, be it before a raise. -/
def BwMovedSome (s t : State) : Prop := ∃ m a code, BwMoved s m a code t

/-- `bw_write(v, n)` either way (42_bitwriter.md R121). -/
theorem bwWrite_moves (v n : Nat) {s : State} (hcache : s.bw.cache < 2 ^ s.bw.bits) :
    (bwWrite v n s).Meets
      (fun _ t => BwMoved s ((s.bw.bits + n) / 8) ((s.bw.bits + n) / 8) (codeBits (byteOrderOf s.regs.cfg) n v) t)
      fun _ _ _ t => BwMovedSome s t := by
  rcases writesAccepted_or_failsAt s ((s.bw.bits + n) / 8) with hans | ⟨j, hj, hfail⟩
  · obtain ⟨t, hwrite, ht⟩ := bwWrite_of_accepts v hcache hans
    exact hwrite ▸ ht
  · obtain ⟨t, hwrite, ht⟩ := bwWrite_of_fail v hcache hj hfail
    exact hwrite ▸ ⟨_, _, _, ht⟩

/-- `bw_flush()` either way (42_bitwriter.md R125). -/
theorem bwFlush_moves {s : State} (hcache : s.bw.cache < 2 ^ s.bw.bits) :
    (bwFlush s).Meets (fun _ t => BwMovedSome s t) fun _ _ _ t => BwMovedSome s t := by
  rcases writesAccepted_or_failsAt s ((s.bw.bits + 7) / 8) with hans | ⟨j, hj, hfail⟩
  · obtain ⟨t, hflush, ht⟩ := bwFlush_of_accepts hcache hans
    exact hflush ▸ ⟨_, _, _, ht⟩
  · obtain ⟨t, hflush, ht⟩ := bwFlush_of_fail hcache hj hfail
    exact hflush ▸ ⟨_, _, _, ht⟩

theorem Res.Meets.leaves {α : Type} {r : Res α} {P : α → State → Prop} {Q : StatusCode → Nat → Nat → State → Prop}
    (h : r.Meets P Q) : r.Leaves P Q := by
  cases r with
  | ok a s => exact h
  | raised code i0 i1 s => exact h
  | fault f => trivial

@[simp] theorem notify_writtenBits (u : EvtUnit) (k : EvtKind) (v1 v2 : Nat) (s : State) :
    writtenBits (notify u k v1 v2 s) = writtenBits s := by
  simp [writtenBits]

/-- An event leaves the answers of SNK as they are. -/
theorem WritesAccepted.after_event {s : State} {n : Nat} (h : WritesAccepted s n) (u : EvtUnit) (k : EvtKind) (v1 v2 : Nat) :
    WritesAccepted (notify u k v1 v2 s) n := by
  simpa [WritesAccepted] using h

/-- From `s` to `t` C wrote the code `v` at its width (43_compressor.md R135): BW's move behind the code's event. -/
def CodeMoved (v : Nat) (kind : EvtKind) (s t : State) : Prop :=
  BwMoved (notify .c kind v s.c.width s) ((s.bw.bits + s.c.width) / 8) ((s.bw.bits + s.c.width) / 8)
    (codeBits (byteOrderOf s.regs.cfg) s.c.width v) t

/-- Writing a code when SNK accepts every byte (43_compressor.md R135). -/
theorem cWriteCode_of_accepts (v : Nat) (kind : EvtKind) {s : State} (hcache : s.bw.cache < 2 ^ s.bw.bits)
    (hans : WritesAccepted s ((s.bw.bits + s.c.width) / 8)) :
    ∃ t, cWriteCode v kind s = .ok () t ∧ CodeMoved v kind s t := by
  have hwrite := bwWrite_of_accepts v (n := s.c.width) (s := notify .c kind v s.c.width s) (by simpa using hcache)
    (by simpa using hans.after_event .c kind v s.c.width)
  simpa only [cWriteCode, CodeMoved, notify_bw, notify_regs] using hwrite

/-- Writing a code either way (43_compressor.md R135). -/
theorem cWriteCode_moves (v : Nat) (kind : EvtKind) {s : State} (hcache : s.bw.cache < 2 ^ s.bw.bits) :
    (cWriteCode v kind s).Meets (fun _ t => CodeMoved v kind s t)
      fun _ _ _ t => BwMovedSome (notify .c kind v s.c.width s) t := by
  have hwrite := bwWrite_moves v s.c.width (s := notify .c kind v s.c.width s) (by simpa using hcache)
  simpa only [cWriteCode, CodeMoved, notify_bw, notify_regs] using hwrite

section
variable {v : Nat} {kind : EvtKind} {s t : State}

theorem CodeMoved.frame (h : CodeMoved v kind s t) : CompressFrame s t :=
  CompressFrame.trans _ _ _ (notify_only .c kind v s.c.width s).compress h.toWriterFrame.compress

theorem CodeMoved.c_eq (h : CodeMoved v kind s t) : t.c = s.c := (BwMoved.toWriterFrame h).c.trans (notify_c _ _ _ _ _)

theorem CodeMoved.srcPos_eq (h : CodeMoved v kind s t) : t.io.srcPos = s.io.srcPos :=
  (BwMoved.toWriterFrame h).srcPos.trans (notify_srcPos _ _ _ _ _)

theorem CodeMoved.srcReads_eq (h : CodeMoved v kind s t) : t.io.srcReads = s.io.srcReads :=
  (BwMoved.toWriterFrame h).srcReads.trans (notify_srcReads _ _ _ _ _)

theorem CodeMoved.cache_lt (h : CodeMoved v kind s t) : t.bw.cache < 2 ^ t.bw.bits := BwMoved.cache h

theorem CodeMoved.writes_eq (h : CodeMoved v kind s t) :
    t.io.snkWrites = s.io.snkWrites + (s.bw.bits + s.c.width) / 8 := by
  simpa using BwMoved.writes h

theorem CodeMoved.held_eq (h : CodeMoved v kind s t) :
    t.bw.bits + 8 * ((s.bw.bits + s.c.width) / 8) = s.bw.bits + s.c.width := by
  simpa using BwMoved.held_code_added h

theorem CodeMoved.taken_eq (h : CodeMoved v kind s t) :
    t.io.snk.length = s.io.snk.length + (s.bw.bits + s.c.width) / 8 := by
  simpa using BwMoved.taken h

theorem CodeMoved.count_eq (h : CodeMoved v kind s t) :
    t.bw.count = s.bw.count + BitVec.ofNat 32 ((s.bw.bits + s.c.width) / 8) := by
  simpa using BwMoved.count h

theorem CodeMoved.written_eq (h : CodeMoved v kind s t) :
    writtenBits t = writtenBits s ++ codeBits (byteOrderOf s.regs.cfg) s.c.width v := by
  simpa using BwMoved.written h

theorem CodeMoved.accepted {k : Nat} (h : CodeMoved v kind s t) (hans : WritesAccepted s ((s.bw.bits + s.c.width) / 8 + k)) :
    WritesAccepted t k :=
  BwMoved.accepted h (hans.after_event .c kind v s.c.width)

end

/-! ### BW_COUNT over a whole COMPRESS -/

/-- BW has counted the bytes that SNK took since `s` (42_bitwriter.md R120). -/
structure SnkCounted (s t : State) : Prop where
  cache : t.bw.cache < 2 ^ t.bw.bits
  counted : ∃ m, t.io.snk.length = s.io.snk.length + m ∧ t.bw.count = s.bw.count + BitVec.ofNat 32 m

theorem SnkCounted.moved {s t u : State} (h : SnkCounted s t) (hu : BwMovedSome t u) : SnkCounted s u := by
  obtain ⟨m, hlen, hcount⟩ := h.counted
  obtain ⟨m', a, code, hmove⟩ := hu
  exact ⟨hmove.cache, m + m', by rw [hmove.taken, hlen, Nat.add_assoc],
    by rw [hmove.count, hcount, BitVec.add_assoc, BitVec.ofNat_add]⟩

theorem SnkCounted.after_event {s t : State} (h : SnkCounted s t) (u : EvtUnit) (k : EvtKind) (v1 v2 : Nat) :
    SnkCounted s (notify u k v1 v2 t) :=
  ⟨by simpa using h.cache, by simpa using h.counted⟩

theorem snkCounted_keptByCodes (s : State) : KeptByCodes (fun _ => True) (SnkCounted s) (SnkCounted s) where
  clear := trivial
  data := trivial
  raise _ h := h
  setC _ _ h := ⟨h.cache, h.counted⟩
  access t h := ((memRead_reader t).mono fun u hu => (⟨hu.bw ▸ h.cache, hu.bw ▸ hu.snk ▸ h.counted⟩ : SnkCounted s u)).leaves
  code v kind t _ h :=
    (cWriteCode_moves v kind h.cache).leaves.mono
      (fun _ _ hu => (h.after_event .c kind v t.c.width).moved ⟨_, _, _, hu⟩)
      fun _ _ _ _ hu => (h.after_event .c kind v t.c.width).moved hu

/-- BW_COUNT is what SNK grew by in a session that began with BW empty (43_compressor.md R137). -/
theorem compressAll_counted {s : State} (h : s.bw = BitCache.zero) :
    (compressAll s).Leaves (fun _ => SnkCounted s) fun _ _ _ => SnkCounted s :=
  (snkCounted_keptByCodes s).compressAll trivial
    (fun _ ht => (bwFlush_moves ht.cache).leaves.mono (fun _ _ => ht.moved) fun _ _ _ _ => ht.moved)
    ⟨by rw [h]; exact Nat.one_pos, 0, rfl, (BitVec.add_zero _).symm⟩

/-! ### A string inserted -/

theorem tableCodeOf_append (key : ByteString) (t t' : CodeTable) :
    tableCodeOf key (t ++ t') = (tableCodeOf key t).or (tableCodeOf key t') := by
  induction t with
  | nil => rfl
  | cons e t ih =>
    obtain ⟨code, str⟩ := e
    simp only [List.cons_append, tableCodeOf]
    split
    · rfl
    · exact ih

/-- The dictionary after an insertion, read by key (43_compressor.md R134). -/
theorem CompressorSound.codeOf_cInsert {cfg : Word} {c : Compressor} (h : CompressorSound cfg c) {key : ByteString}
    (hnew : tableCodeOf key c.dict = none) (w : Nat) (k : ByteString) :
    tableCodeOf k (cInsert key w c).dict = if k = key then some c.codes else tableCodeOf k c.dict := by
  rw [cInsert, tablePut_above (assigned_below h.codes_low h.assigned), tableCodeOf_append]
  split
  · next hk => simp [hk, hnew, tableCodeOf]
  · next hk => simp [tableCodeOf, Ne.symm hk]

/-- With room left, or with the width below 12, the string is inserted (43_compressor.md R134). -/
theorem cAddTableEntry_inserts (key : ByteString) {s : State}
    (h : s.c.codes ≠ effectiveLimit s.c.width (elOf s.regs.cfg) ∨ s.c.width < maxWidth) :
    cAddTableEntry key s = .ok () (s.setC
      (cInsert key (s.c.width + if s.c.codes = effectiveLimit s.c.width (elOf s.regs.cfg) then 1 else 0) s.c)) := by
  rw [cAddTableEntry]
  split
  · next hfull => rw [if_pos (h.resolve_left (not_not.mpr hfull))]
  · rfl

/-- At the limit at width 12 a CLEAR is written and the table is rebuilt (43_compressor.md R134). -/
theorem cAddTableEntry_clears (key : ByteString) {s : State} (hfull : s.c.codes = effectiveLimit s.c.width (elOf s.regs.cfg))
    (hwidth : s.c.width = 12) (hcache : s.bw.cache < 2 ^ s.bw.bits) (hans : SnkAccepts s) :
    ∃ t, cAddTableEntry key s = .ok () (cClearTable t) ∧ CodeMoved (clearCode s.regs.cfg) .clear s t := by
  obtain ⟨t, hcode, ht⟩ := cWriteCode_of_accepts (clearCode s.regs.cfg) .clear hcache fun j _ => hans _ (Nat.le_add_right _ j)
  have hwide : ¬ s.c.width < maxWidth := by rw [hwidth]; exact Nat.lt_irrefl 12
  exact ⟨t, by rw [cAddTableEntry, if_pos hfull, if_neg hwide, hcode]; rfl, ht⟩

end Sys2Proof.Machine
end

section
/-! SUPPORT. The first accesses of COMPRESS one by one (43_compressor.md R136, R139): the CLEAR, SCAN's first access, and on an empty
input the EOI and the flush. Nothing is assumed of the accesses behind them. -/

namespace Sys2Proof.Machine

/-- SCAN's access is refused (43_compressor.md R136). -/
theorem cScan_refused {s : State} (hfail : ioFails s.io.script .src s.io.srcReads = true) (fuel : Nat) :
    cScan fuel s = .raised .ioError 0 0 (accessMade s) := by
  rcases memRead_cases s with ⟨b, hans, -, -⟩ | ⟨hans, -, -⟩ | ⟨-, hr⟩
  · simp [hans] at hfail
  · simp [hans] at hfail
  · unfold cScan
    rw [hr]
    rfl

/-- SCAN's access meets END (43_compressor.md R136). -/
theorem cScan_answered_end {s : State} (hans : ioFails s.io.script .src s.io.srcReads = false) (hun : unreadBytes s = [])
    (fuel : Nat) : cScan fuel s = .ok () (accessMade s) := by
  rcases memRead_cases s with ⟨b, -, hb, -⟩ | ⟨-, -, hr⟩ | ⟨hfail, -⟩
  · simp [unreadBits_of_take hb] at hun
  · unfold cScan
    rw [hr]
    rfl
  · simp [hans] at hfail

/-- FINISH without a run is EOI and the flush (43_compressor.md R136). -/
theorem cFinish_of_no_run {s : State} (h : s.c.run = []) :
    cFinish s = (cWriteCode (eoiCode s.regs.cfg) .eoi s).bind fun _ t => bwFlush t := by
  rw [cFinish, if_pos h]
  rfl

section
variable {cfg : Word} {s t : State}

theorem FreshSession.width (h : FreshSession cfg s) : (cClearTable s).c.width = w0Of cfg + 1 := by
  rw [cClearTable, State.setC_c, h.cfg_eq]
  exact h.legal.widen_w0

theorem FreshSession.empty (h : FreshSession cfg s) : (cClearTable s).bw.bits = 0 := congrArg BitCache.bits h.bw

theorem FreshSession.cache (h : FreshSession cfg s) : (cClearTable s).bw.cache < 2 ^ (cClearTable s).bw.bits := by
  rw [show (cClearTable s).bw = BitCache.zero from h.bw]
  exact Nat.one_pos

/-- A session begins with no bit written but SNK's. -/
theorem FreshSession.written (h : FreshSession cfg s) :
    writtenBits (cClearTable s) = streamBits (byteOrderOf cfg) s.io.snk := by
  rw [writtenBits_of_empty h.empty, ← h.cfg_eq]
  rfl

/-- `t` stands behind the CLEAR that begins the session `s` (43_compressor.md R136). -/
structure ClearWritten (cfg : Word) (s t : State) : Prop where
  frame : CompressFrame s t
  c : t.c = clearedCompressor cfg s.c
  srcPos : t.io.srcPos = s.io.srcPos
  srcReads : t.io.srcReads = s.io.srcReads
  writes : t.io.snkWrites = s.io.snkWrites + (w0Of cfg + 1) / 8
  cache : t.bw.cache < 2 ^ t.bw.bits
  held : t.bw.bits + 8 * ((w0Of cfg + 1) / 8) = w0Of cfg + 1
  count : t.bw.count = BitVec.ofNat 32 ((w0Of cfg + 1) / 8)
  written : writtenBits t =
    streamBits (byteOrderOf cfg) s.io.snk ++ codeBits (byteOrderOf cfg) (w0Of cfg + 1) (clearCode cfg)

/-- The CLEAR is written first (43_compressor.md R136). -/
theorem FreshSession.writes_clear (h : FreshSession cfg s) (hans : WritesAccepted s ((w0Of cfg + 1) / 8)) :
    ∃ t, compressAll s = ((cScan (t.io.src.length - t.io.srcPos) t).bind fun _ u => cFinish u) ∧ ClearWritten cfg s t := by
  have hbits : (cClearTable s).bw.bits + (cClearTable s).c.width = w0Of cfg + 1 := by rw [h.empty, h.width, Nat.zero_add]
  have hcfg : (cClearTable s).regs.cfg = cfg := h.cfg_eq
  obtain ⟨t, hcode, ht⟩ := cWriteCode_of_accepts (clearCode cfg) .clear h.cache (by rwa [hbits])
  have hcount := ht.count_eq
  have hheld := ht.held_eq
  have hwrites := ht.writes_eq
  have hwritten := ht.written_eq
  rw [hbits] at hcount hheld hwrites
  rw [h.written, h.width, hcfg] at hwritten
  refine ⟨t, by rw [compressAll, h.cfg_eq, hcode]; rfl, ?_⟩
  exact
    { frame := .trans _ _ _ (setC_compress s _) ht.frame
      c := by rw [ht.c_eq, cClearTable, State.setC_c, h.cfg_eq]
      srcPos := ht.srcPos_eq
      srcReads := ht.srcReads_eq
      writes := hwrites
      cache := ht.cache_lt
      held := hheld
      count := by rw [hcount, show (cClearTable s).bw = BitCache.zero from h.bw]; exact BitVec.zero_add _
      written := hwritten }

theorem ClearWritten.accepted {k : Nat} (h : ClearWritten cfg s t) (hans : WritesAccepted s ((w0Of cfg + 1) / 8 + k)) :
    WritesAccepted t k := fun j hj => by
  rw [h.frame.grow.script, h.writes, Nat.add_assoc]
  exact hans _ (Nat.add_lt_add_left hj _)

/-- The byte that the CLEAR completes is refused (43_compressor.md R136). -/
theorem FreshSession.clear_refused (h : FreshSession cfg s) (hw : 7 ≤ w0Of cfg) (hfail : WriteFailsAt s 0) :
    ∃ t, compressAll s = .raised .ioError 1 0 t ∧
      BwMoved (notify .c .clear (clearCode cfg) (w0Of cfg + 1) (cClearTable s)) 0 1
        (codeBits (byteOrderOf cfg) (w0Of cfg + 1) (clearCode cfg)) t := by
  have hfail' : WriteFailsAt (notify .c .clear (clearCode cfg) (w0Of cfg + 1) (cClearTable s)) 0 :=
    ⟨fun j hj => absurd hj (Nat.not_lt_zero j), by simpa [cClearTable] using hfail.2⟩
  obtain ⟨t, hwrite, ht⟩ := bwWrite_of_fail (clearCode cfg) (n := w0Of cfg + 1) (by simpa using h.cache)
    (by rw [notify_bw, h.empty]; omega) hfail'
  rw [notify_bw, h.empty, if_neg (Nat.not_lt_zero 0), notify_regs] at ht
  have hcfg : (cClearTable s).regs.cfg = cfg := h.cfg_eq
  rw [hcfg] at ht
  refine ⟨t, ?_, ht⟩
  rw [compressAll, cWriteCode, h.width, h.cfg_eq, hwrite]
  rfl

/-- What COMPRESS of an empty input leaves (43_compressor.md R139). -/
structure EmptyCompressed (cfg : Word) (s t : State) : Prop where
  frame : CompressFrame s t
  c : t.c = clearedCompressor cfg s.c
  srcPos : t.io.srcPos = s.io.srcPos
  count : t.bw.count = BitVec.ofNat 32 ((2 * (w0Of cfg + 1) + 7) / 8)
  written : streamBits (byteOrderOf cfg) t.io.snk = streamBits (byteOrderOf cfg) s.io.snk ++
    codeBits (byteOrderOf cfg) (w0Of cfg + 1) (clearCode cfg) ++ codeBits (byteOrderOf cfg) (w0Of cfg + 1) (eoiCode cfg) ++
    List.replicate (8 * ((2 * (w0Of cfg + 1) + 7) / 8) - 2 * (w0Of cfg + 1)) false

/-- COMPRESS of an empty input, every access of it answered (43_compressor.md R139). -/
theorem FreshSession.no_input (h : FreshSession cfg s) (hun : unreadBytes s = []) (hread : ReadsAnswered s 1)
    (hans : WritesAccepted s ((2 * (w0Of cfg + 1) + 7) / 8)) : ∃ t, compressAll s = .ok () t ∧ EmptyCompressed cfg s t := by
  obtain ⟨t, hclear, ht⟩ := h.writes_clear (hans.mono (by omega))
  have hheld := ht.held
  have hscan : cScan (t.io.src.length - t.io.srcPos) t = .ok () (accessMade t) := by
    refine cScan_answered_end ?_ ?_ _
    · rw [ht.frame.grow.script, ht.srcReads]
      exact hread 0 Nat.one_pos
    · rw [unreadBytes, ht.frame.grow.src, ht.srcPos]
      exact hun
  have hwidth : (accessMade t).c.width = w0Of cfg + 1 := (congrArg Compressor.width ht.c).trans h.legal.widen_w0
  have hcfg : (accessMade t).regs.cfg = cfg := (congrArg Regs.cfg ht.frame.regs).trans h.cfg_eq
  have hrun : (accessMade t).c.run = [] := (congrArg Compressor.run ht.c).trans h.run
  have hleft : WritesAccepted (accessMade t) ((2 * (w0Of cfg + 1) + 7) / 8 - (w0Of cfg + 1) / 8) :=
    ht.accepted (hans.mono (by omega))
  have hbits : (accessMade t).bw.bits = t.bw.bits := rfl
  obtain ⟨u, heoi, hu⟩ := cWriteCode_of_accepts (eoiCode cfg) .eoi (s := accessMade t) ht.cache
    (hleft.mono (by rw [hwidth, hbits]; omega))
  have hheld' := hu.held_eq
  rw [hwidth, hbits] at hheld'
  obtain ⟨w, hflush, hw⟩ := bwFlush_of_accepts hu.cache_lt (hu.accepted (hleft.mono (by rw [hwidth, hbits]; omega)))
  have hempty : w.bw.bits = 0 := by have := hw.held; rw [List.length_replicate] at this; omega
  have hbytes : (w0Of cfg + 1) / 8 + (t.bw.bits + (w0Of cfg + 1)) / 8 + (u.bw.bits + 7) / 8 = (2 * (w0Of cfg + 1) + 7) / 8 := by
    omega
  have hpad : 8 * ((u.bw.bits + 7) / 8) - u.bw.bits = 8 * ((2 * (w0Of cfg + 1) + 7) / 8) - 2 * (w0Of cfg + 1) := by omega
  have hwcfg : w.regs.cfg = cfg := by rw [hw.regs, hu.frame.regs, hcfg]
  refine ⟨w, ?_, ?_⟩
  · rw [hclear, hscan, Res.bind_ok, cFinish_of_no_run hrun, hcfg, heoi, Res.bind_ok, hflush]
  · exact
      { frame := .trans _ _ _ ht.frame (.trans _ _ _ (accessMade_compress t) (.trans _ _ _ hu.frame hw.toWriterFrame.compress))
        c := by rw [hw.c, hu.c_eq]; exact ht.c
        srcPos := by rw [hw.srcPos, hu.srcPos_eq]; exact ht.srcPos
        count := by
          rw [hw.count, hu.count_eq, hwidth, show (accessMade t).bw = t.bw from rfl, ht.count, ← BitVec.ofNat_add,
            ← BitVec.ofNat_add, hbytes]
        written := by
          rw [← hpad, ← hwcfg, ← writtenBits_of_empty hempty, hw.written, hu.written_eq, hwidth, hcfg, hwcfg,
            show writtenBits (accessMade t) = writtenBits t from rfl, ht.written] }

end

end Sys2Proof.Machine
end

section
/-! The obligations of 43_compressor.md on whole commands and on the dictionary. -/

namespace Sys2Proof.Machine

/-- Settles O41: the string is new, so the insertion lists it behind every other code; at the limit at width 12 the CLEAR is written
before the reset. -/
theorem addTableEntryEffect : Obligations.AddTableEntryEffect := by
  intro s key hinv hconf _ hnew hans
  have hl := hinv.configured hconf
  have hc := hinv.compressor hl
  by_cases hroom : s.c.codes ≠ effectiveLimit s.c.width (elOf s.regs.cfg) ∨ s.c.width < maxWidth
  · have hcode := hc.codeOf_cInsert hnew
    refine ⟨_, cAddTableEntry_inserts key hroom, rfl, rfl, rfl, rfl, rfl, fun _ => ?_, fun hfull hwidth => ?_⟩
    · exact ⟨(hcode _ key).trans (if_pos rfl), rfl, rfl, fun k hk => (hcode _ k).trans (if_neg hk), rfl, rfl⟩
    · rcases hroom with hfree | hlow
      · exact absurd hfull hfree
      · exact absurd hwidth (Nat.ne_of_lt hlow)
  · obtain ⟨hfull, hhigh⟩ := not_or.mp hroom
    rw [not_not] at hfull
    have hwidth : s.c.width = 12 := Nat.le_antisymm hc.width_high (Nat.not_lt.mp hhigh)
    obtain ⟨t, hadd, ht⟩ := cAddTableEntry_clears key hfull hwidth hinv.bw.cache hans
    have hregs := ht.frame.regs
    have hcleared : (cClearTable t).c = clearedCompressor s.regs.cfg s.c := by
      rw [cClearTable, State.setC_c, hregs, ht.c_eq]
    refine ⟨_, hadd, hregs, ht.frame.br, ht.frame.d, by rw [hcleared]; rfl, by rw [hcleared]; rfl,
      fun hno => absurd hno hroom, fun _ _ => ?_⟩
    rw [hcleared]
    exact ⟨rfl, hl.widen_w0, tableCodeOf_literalTable hl.clear_le, hwidth ▸ ht.written_eq⟩

/-- Settles O43: the input is scanned to its end and its last run written; BW counted every byte, and the flush left it empty. -/
theorem compressCompletes : Obligations.CompressCompletes := by
  intro s hinv hconf hsrc hsnk hlit
  have hl := hinv.configured hconf
  have hends := ((freshCompress_session hinv hconf).literals hlit).andLeaves (compressAll_counted (s := freshCompress s) rfl)
  refine exec_compress_meets hconf hends ?_ fun _ _ _ _ h => absurd h.1.1 (not_ioRefused hsrc hsnk)
  rintro u ⟨hu, hcache, m, hlen, hcount⟩
  have hregs : u.regs = s.regs := hu.frame.regs
  have hgrown : u.io.snk.length - s.io.snk.length = m := by rw [hlen]; exact Nat.add_sub_cancel_left ..
  have hresult : u.bw.count = BitVec.ofNat 32 (u.io.snk.length - s.io.snk.length) := by
    rw [hgrown, hcount]
    exact BitVec.zero_add _
  have hend : s.io.srcPos + (unreadBytes s).length = s.io.src.length := by
    rw [unreadBytes, List.length_drop]
    exact Nat.add_sub_cancel' hinv.src_pos
  refine ⟨by rw [takeReturn_regs, hregs, hresult]; rfl, ?_, hu.srcPos.trans hend, hu.pos, hu.frame.grow.snk, hu.run_suffix,
    hu.run_nil, fun b hb => hu.sound.codeOf_literal hl hb, hu.frame.br, hu.frame.d, hu.frame.port, hu.frame.grow.src,
    hu.frame.grow.evt⟩
  exact hresult ▸ cache_eq_of_empty hcache hu.bits

/-- Bytes are told apart by their stream bits. -/
theorem streamBits_inj {o : ByteOrder} {a b : List Byte} (h : streamBits o a = streamBits o b) : a = b := by
  induction a generalizing b with
  | nil =>
    have hlen := congrArg List.length h
    rw [streamBits_length, streamBits_length, List.length_nil] at hlen
    exact (List.eq_nil_of_length_eq_zero (by omega)).symm
  | cons x a ih =>
    cases b with
    | nil =>
      have hlen := congrArg List.length h
      rw [streamBits_length, streamBits_length, List.length_nil, List.length_cons] at hlen
      omega
    | cons y b =>
      rw [streamBits_cons, streamBits_cons] at h
      obtain ⟨hbyte, hrest⟩ := List.append_inj h (by simp)
      rw [BitVec.eq_of_toNat_eq (codeBits_inj x.isLt y.isLt hbyte), ih hrest]

/-- The bits of CLEAR, EOI and the padding at `W0 = 8` and MSBFirst are the bytes 80 40 40 (43_compressor.md R139). -/
theorem emptyStream_msb8 : streamBits .msbFirst [0x80#8, 0x40#8, 0x40#8] =
    codeBits .msbFirst 9 256 ++ codeBits .msbFirst 9 257 ++ List.replicate 6 false := by
  decide

/-- Settles O42: with no byte to scan there is no run; CLEAR and EOI are written at the first width and padded to whole bytes. -/
theorem compressEmptyInput : Obligations.CompressEmptyInput := by
  intro s hinv hconf hend hread hans
  have hl := hinv.configured hconf
  obtain ⟨u, hall, hu⟩ := (freshCompress_session hinv hconf).no_input hend hread hans
  refine ⟨takeReturn { result := u.bw.count, sentinel := false } u, ?_, ?_, hu.written, fun hw0 hmsb => ?_, ?_⟩
  · rw [exec_compress_of_configured hconf, hall, Res.bind_ok, endCommand_ok]
  · rw [takeReturn_regs, hu.frame.regs, hu.count]
    rfl
  · have hbits := hu.written
    simp only [clearCode, eoiCode, hw0, hmsb, List.append_assoc] at hbits
    refine streamBits_inj (o := .msbFirst) (hbits.trans ?_)
    rw [streamBits_append, emptyStream_msb8, List.append_assoc]
    rfl
  · rw [takeReturn_c, hu.c]
    exact ⟨rfl, hl.widen_w0, rfl, rfl, hu.srcPos, hu.frame.br, hu.frame.d, hu.frame.port⟩

/-- Settles O46: the first code is the CLEAR, and SCAN's first access comes behind it. -/
theorem compressEarlyFailures : Obligations.CompressEarlyFailures := by
  intro s hinv hconf
  have hsession := freshCompress_session hinv hconf
  refine ⟨fun hw hfail => ?_, fun hans hfail => ?_⟩
  · obtain ⟨u, hall, hu⟩ := hsession.clear_refused hw hfail
    have hframe := hu.toWriterFrame
    have hsnk : u.io.snk = s.io.snk := by
      have hgrow := hframe.grow.snk
      rw [notify_snk] at hgrow
      exact (hgrow.eq_of_length (by rw [hu.taken, notify_snk]; rfl)).symm
    have hbits : u.bw.bits = w0Of s.regs.cfg + 1 := by
      have hheld := hu.held_code_added
      rw [notify_bw, hsession.empty] at hheld
      omega
    have hcache : u.bw.cache = clearCode s.regs.cfg := by
      have hclear : clearCode s.regs.cfg < 2 ^ (w0Of s.regs.cfg + 1) := Nat.pow_lt_pow_right (by decide) (Nat.lt_succ_self _)
      have hregs : u.regs.cfg = s.regs.cfg := by rw [hframe.regs, notify_regs]; rfl
      have hwritten := hu.written
      rw [notify_writtenBits, hsession.written, writtenBits, hregs, hsnk, pendingBits, hbits] at hwritten
      exact codeBits_inj (hbits ▸ hu.cache) hclear (List.append_cancel_left hwritten)
    refine ⟨takeRaise false .ioError 1 0 u, ?_, ?_, ?_, hsnk, ?_, ?_, hbits, hcache⟩
    · rw [exec_compress_of_configured hconf, hall, Res.bind_raised, endCommand_raised]
    · exact takeRaise_regs_of_configured hconf (by rw [hframe.regs, notify_regs]; rfl) _ _ _
    · rw [takeRaise_io, hframe.srcReads, notify_srcReads]
      rfl
    · rw [takeRaise_c, hframe.c, notify_c]
      rfl
    · rw [takeRaise_c, hframe.c, notify_c]
      rfl
  · have hw8 := (hinv.configured hconf).w0_high
    obtain ⟨u, hall, hu⟩ := hsession.writes_clear (hans.mono (by omega))
    have hrefused : ioFails u.io.script .src u.io.srcReads = true := by
      rw [hu.frame.grow.script, hu.srcReads]
      exact hfail.2
    refine ⟨takeRaise false .ioError 0 0 (accessMade u), ?_, ?_, hu.srcPos, ?_, ?_, hu.written⟩
    · rw [exec_compress_of_configured hconf, hall, cScan_refused hrefused, Res.bind_raised, Res.bind_raised, endCommand_raised]
    · exact takeRaise_regs_of_configured hconf hu.frame.regs _ _ _
    · exact congrArg Compressor.pos hu.c
    · exact congrArg Compressor.run hu.c

/-- Settles O47: the session zeroes BW and clears the table before anything reads them. -/
theorem compressIsAFreshSession : Obligations.CompressIsAFreshSession := by
  intro s b c hconf
  have hconf' : Configured ((s.setBw b).setC c) := hconf
  rw [exec_compress_of_configured hconf', exec_compress_of_configured hconf]
  rfl

end Sys2Proof.Machine
end

section
/-! SUPPORT. Where C's events stand among the bytes of SNK (43_compressor.md R135, 60_exceptions.md R192). -/

namespace Sys2Proof.Machine

/-- The widths of the codes that the events name, all together. -/
def widthSum (events : List EvtRecord) : Nat := (events.map fun e => e.event.v2).sum

@[simp] theorem widthSum_nil : widthSum [] = 0 := rfl

@[simp] theorem widthSum_concat (events : List EvtRecord) (r : EvtRecord) :
    widthSum (events ++ [r]) = widthSum events + r.event.v2 := by
  simp [widthSum]

/-- What an element of a list with one more at its end is. -/
theorem getElem?_concat_cases {α : Type} {l : List α} {x y : α} {n : Nat} (h : (l ++ [x])[n]? = some y) :
    (l[n]? = some y ∧ n < l.length) ∨ (n = l.length ∧ y = x) := by
  rcases Nat.lt_trichotomy n l.length with hlt | rfl | hgt
  · exact .inl ⟨by rwa [List.getElem?_append_left hlt] at h, hlt⟩
  · exact .inr ⟨rfl, by simpa using h.symm⟩
  · rw [List.getElem?_eq_none (by simp; omega)] at h
    cases h

/-- Each event of `new` finds in SNK the whole bytes of the codes before it, behind those that SNK held in `s`. -/
def SnkStamps (s : State) (new : List EvtRecord) : Prop :=
  ∀ n r, new[n]? = some r → r.snkLen = s.io.snk.length + widthSum (new.take n) / 8

theorem snkStamps_nil (s : State) : SnkStamps s [] := fun _ _ h => by simp at h

theorem SnkStamps.concat {s : State} {new : List EvtRecord} {r : EvtRecord} (h : SnkStamps s new)
    (hr : r.snkLen = s.io.snk.length + widthSum new / 8) : SnkStamps s (new ++ [r]) := by
  intro n x hx
  rcases getElem?_concat_cases hx with ⟨hold, hlt⟩ | ⟨rfl, rfl⟩
  · rw [List.take_append_of_le_length hlt.le]
    exact h n x hold
  · rwa [List.take_left]

/-- The events since `s` are stamped. -/
def EventsStamped (s t : State) : Prop := ∃ new, t.io.evt = s.io.evt ++ new ∧ SnkStamps s new

/-- Between two codes of an observed COMPRESS: SNK has the whole bytes of the codes written since `s`, and BW the rest of them. -/
structure CodesStamped (s t : State) : Prop where
  observed : obsOf t.regs.cfg = true
  cache : t.bw.cache < 2 ^ t.bw.bits
  part : t.bw.bits < 8
  stamped : ∃ new, t.io.evt = s.io.evt ++ new ∧ SnkStamps s new ∧
    8 * t.io.snk.length + t.bw.bits = 8 * s.io.snk.length + widthSum new

theorem CodesStamped.events {s t : State} (h : CodesStamped s t) : EventsStamped s t := by
  obtain ⟨new, hevt, hstamps, -⟩ := h.stamped
  exact ⟨new, hevt, hstamps⟩

/-- The event of the next code, before its bytes (43_compressor.md R135). -/
theorem CodesStamped.next_event {s t : State} (h : CodesStamped s t) (kind : EvtKind) (v w : Nat) :
    ∃ new, (notify .c kind v w t).io.evt = s.io.evt ++ new ∧ SnkStamps s new ∧
      8 * t.io.snk.length + t.bw.bits + w = 8 * s.io.snk.length + widthSum new := by
  obtain ⟨new, hevt, hstamps, hsum⟩ := h.stamped
  have hpart := h.part
  refine ⟨new ++ [⟨⟨.c, kind, v, w⟩, t.io.srcPos, t.io.snk.length⟩], ?_, hstamps.concat (by simp only; omega), ?_⟩
  · rw [notify_on h.observed, State.setIo_io, hevt, List.append_assoc]
  · rw [widthSum_concat, hsum, Nat.add_assoc]

theorem codesStamped_keptByCodes (s : State) : KeptByCodes (fun _ => True) (CodesStamped s) (EventsStamped s) where
  clear := trivial
  data := trivial
  raise _ h := h.events
  setC _ _ h := ⟨h.observed, h.cache, h.part, h.stamped⟩
  access t h := by
    have hkeeps : ∀ u, ReaderFrame t u → CodesStamped s u := fun u hu =>
      ⟨hu.regs ▸ h.observed, hu.bw ▸ h.cache, hu.bw ▸ h.part, hu.bw ▸ hu.snk ▸ hu.evt ▸ h.stamped⟩
    exact (memRead_reader t).leaves.mono (fun _ u hu => hkeeps u hu) fun _ _ _ u hu => (hkeeps u hu).events
  code v kind t _ h := by
    obtain ⟨new, hevt, hstamps, hsum⟩ := h.next_event kind v t.c.width
    refine (cWriteCode_moves v kind h.cache).leaves.mono ?_ ?_
    · intro _ u hu
      have hheld := hu.held_eq
      have htaken := hu.taken_eq
      exact
        { observed := by rw [hu.frame.regs]; exact h.observed
          cache := hu.cache_lt
          part := by omega
          stamped := ⟨new, (BwMoved.toWriterFrame hu).evt.trans hevt, hstamps, by omega⟩ }
    · rintro _ _ _ u ⟨m, a, code, hu⟩
      exact ⟨new, hu.evt.trans hevt, hstamps⟩

/-- The events of an observed `compress()` are stamped, however it ends (60_exceptions.md R192). -/
theorem compressAll_stamped {s : State} (hobs : obsOf s.regs.cfg = true) (h : s.bw = BitCache.zero) :
    (compressAll s).Leaves (fun _ => EventsStamped s) fun _ _ _ => EventsStamped s := by
  have hstart : CodesStamped s s :=
    { observed := hobs
      cache := by rw [h]; exact Nat.one_pos
      part := by rw [h]; exact Nat.succ_pos 7
      stamped := ⟨[], (List.append_nil _).symm, snkStamps_nil s, by rw [h]; rfl⟩ }
  refine (codesStamped_keptByCodes s).compressAll trivial (fun t ht => ?_) hstart
  obtain ⟨new, hevt, hstamps⟩ := ht.events
  exact ((bwFlush_writer t).mono fun u hu => (⟨new, hu.evt.trans hevt, hstamps⟩ : EventsStamped s u)).leaves

end Sys2Proof.Machine
end

section
/-! SUPPORT. What D reads of SRC and writes to SNK for one code, exactly (44_decompressor.md R152 to R158). -/

namespace Sys2Proof.Machine

/-! ### One read -/

/-- SRC answers the next `k` accesses, or refuses a first one of them. -/
theorem readsAnswered_or_failsAt (s : State) (k : Nat) : ReadsAnswered s k ∨ ∃ j, j < k ∧ ReadFailsAt s j :=
  all_false_or_first_true (fun j => ioFails s.io.script .src (s.io.srcReads + j)) k

/-- `br_read(n)` either way (41_bitreader.md R110 to R113, R117): a code, with the bytes taken that it needed; the sentinel where
TM is 1, with SRC at END; or a raise. -/
theorem brRead_moves (n : Nat) {s : State} (hcache : s.br.cache < 2 ^ s.br.bits) :
    (brRead n s).Meets
      (fun r t => (r.2 = .code ∧ BrMoved s (refillBytes s n) (refillBytes s n) n t) ∨
        (tmOf s.regs.cfg = true ∧ r = (tiffSentinel, .sentinel) ∧
          BrMoved s (unreadBytes s).length ((unreadBytes s).length + 1) 0 t))
      fun _ _ _ t => ∃ m, BrMoved s m (m + 1) 0 t := by
  rcases Nat.lt_or_ge (unreadBits s).length n with hshort | henough
  · have hbits := unreadBits_length_bytes s
    rcases readsAnswered_or_failsAt s ((unreadBytes s).length + 1) with hans | ⟨j, hj, hfail⟩
    · obtain ⟨t, hread, ht⟩ := brRead_past_end hcache hshort hans
      rw [hread]
      split
      · next htm => exact .inr ⟨htm, rfl, ht⟩
      · exact ⟨_, ht⟩
    · obtain ⟨t, hread, ht⟩ := brRead_of_fail (n := n) hcache (Nat.le_of_lt_succ hj) (by omega) hfail
      exact hread ▸ ⟨_, ht⟩
  · rcases readsAnswered_or_failsAt s (refillBytes s n) with hans | ⟨j, hj, hfail⟩
    · obtain ⟨t, hread, ht⟩ := brRead_of_enough hcache henough hans
      exact hread ▸ .inl ⟨rfl, ht⟩
    · have hmore := refillBytes_le henough
      obtain ⟨t, hread, ht⟩ := brRead_of_fail (n := n) hcache (hj.le.trans hmore) (by rw [refillBytes] at hj; omega) hfail
      exact hread ▸ ⟨_, ht⟩

/-! ### One data code -/

/-- D appended `str` to SNK, and touched neither SRC's position nor BR nor EVT (44_decompressor.md R158). -/
structure Emitted (s : State) (str : ByteString) (t : State) : Prop where
  snk : t.io.snk = s.io.snk ++ str
  srcPos : t.io.srcPos = s.io.srcPos
  br : t.br = s.br
  evt : t.io.evt = s.io.evt

/-- D appended something, be it before a raise. -/
def EmittedSome (s t : State) : Prop := ∃ str, Emitted s str t

theorem Emitted.refl (s : State) : Emitted s [] s := ⟨(List.append_nil _).symm, rfl, rfl, rfl⟩

theorem Emitted.trans {a b c : State} {x y : ByteString} (h : Emitted a x b) (h' : Emitted b y c) : Emitted a (x ++ y) c :=
  ⟨by rw [h'.snk, h.snk, List.append_assoc], h'.srcPos.trans h.srcPos, h'.br.trans h.br, h'.evt.trans h.evt⟩

theorem Emitted.then_nothing {a b c : State} {x : ByteString} (h : Emitted a x b) (h' : Emitted b [] c) : Emitted a x c := by
  simpa using h.trans h'

theorem EmittedSome.after {a b c : State} {x : ByteString} (h : Emitted a x b) (h' : EmittedSome b c) : EmittedSome a c :=
  h'.elim fun _ hy => ⟨_, h.trans hy⟩

theorem setD_emitted (s : State) (d : Decompressor) : Emitted s [] (s.setD d) :=
  ⟨(List.append_nil _).symm, rfl, rfl, rfl⟩

/-- `d_emit` appends the whole string where it goes on (44_decompressor.md R158). -/
theorem dEmit_emits (str : ByteString) (s : State) :
    (dEmit str s).Leaves (fun _ t => Emitted s str t) fun _ _ _ t => EmittedSome s t := by
  induction str generalizing s with
  | nil => exact .refl s
  | cons b rest ih =>
    rw [dEmit]
    rcases memWrite_cases b s with ⟨-, hr⟩ | ⟨-, hr⟩ <;> rw [hr]
    · have hbyte : Emitted s [b] (s.setIo { s.io with snk := s.io.snk ++ [b], snkWrites := s.io.snkWrites + 1 }) :=
        ⟨rfl, rfl, rfl, rfl⟩
      have hcounted := hbyte.then_nothing (setD_emitted _ { s.d with written := s.d.written + 1 })
      exact (ih _).mono (fun _ _ ht => hcounted.trans ht) fun _ _ _ _ ht => .after hcounted ht
    · exact ⟨[], (List.append_nil _).symm, rfl, rfl, rfl⟩

/-- `T[c]` where it is read: an entry that is not empty (44_decompressor.md R153). -/
theorem dEntry_reads (c : Nat) (s : State) :
    (dEntry c s).Leaves (fun str t => t = s ∧ tableGet c s.d.table = some str ∧ str ≠ []) fun _ _ _ _ => False := by
  unfold dEntry
  split
  · next b rest hget => exact ⟨rfl, hget, List.cons_ne_nil b rest⟩
  · trivial
  · trivial

theorem dAppend_emits (str : ByteString) (code : Nat) (s : State) :
    (dAppend str code s).Leaves (fun _ t => Emitted s [] t) fun _ _ _ t => EmittedSome s t := by
  unfold dAppend
  split
  · exact ⟨[], .refl s⟩
  · exact setD_emitted s _

/-- The end of a data code emits nothing more (44_decompressor.md R153 to R155). -/
theorem dAppend_setOld_emits {s t : State} {x : ByteString} (h : Emitted s x t) (str : ByteString) (code : Nat) :
    ((dAppend str code t).bind fun _ u => Res.ok () (dSetOld code u)).Leaves (fun _ u => Emitted s x u)
      fun _ _ _ u => EmittedSome s u :=
  ((dAppend_emits str code t).mono (fun _ _ hu => h.then_nothing hu) fun _ _ _ _ hu => .after h hu).bind
    fun _ u hu => hu.then_nothing (setD_emitted u _)

/-- A known code emits its entry (44_decompressor.md R153). -/
theorem dKnown_emits (code old : Nat) (s : State) :
    (dKnown code old s).Leaves (fun _ t => ∃ str, tableGet code s.d.table = some str ∧ str ≠ [] ∧ Emitted s str t)
      fun _ _ _ t => EmittedSome s t := by
  refine ((dEntry_reads code s).mono (fun _ _ => id) fun _ _ _ _ => False.elim).bind ?_
  rintro str _ ⟨rfl, hget, hne⟩
  refine (dEmit_emits str _).bind fun _ t ht => ?_
  refine ((dEntry_reads old t).mono (fun _ _ => id) fun _ _ _ _ => False.elim).bind ?_
  rintro oldStr _ ⟨rfl, -, -⟩
  exact (dAppend_setOld_emits ht _ code).mono (fun _ _ hu => ⟨str, hget, hne, hu⟩) fun _ _ _ _ => id

/-- The code at the cursor emits a string that is not empty (44_decompressor.md R154). -/
theorem dKwKwK_emits (code old : Nat) (s : State) :
    (dKwKwK code old s).Leaves (fun _ t => ∃ str, str ≠ [] ∧ Emitted s str t) fun _ _ _ t => EmittedSome s t := by
  refine ((dEntry_reads old s).mono (fun _ _ => id) fun _ _ _ _ => False.elim).bind ?_
  rintro oldStr _ ⟨rfl, -, hne⟩
  refine (dEmit_emits (withFirstOf oldStr oldStr) _).bind fun _ t ht => ?_
  exact (dAppend_setOld_emits ht _ code).mono (fun _ _ hu => ⟨_, by simp [withFirstOf, hne], hu⟩) fun _ _ _ _ => id

/-- What a code makes D append: nothing for CLEAR and EOI, its byte for a literal, one byte at least for any other
(44_decompressor.md R150 to R154). -/
structure StringOfCode (cfg : Word) (code : Nat) (str : ByteString) : Prop where
  nothing : code = clearCode cfg ∨ code = eoiCode cfg → str = []
  literal : code < clearCode cfg → str = [BitVec.ofNat 8 code]
  more : eoiCode cfg < code → str ≠ []

theorem stringOfCode_clear (cfg : Word) : StringOfCode cfg (clearCode cfg) [] :=
  ⟨fun _ => rfl, fun h => absurd h (Nat.lt_irrefl _), fun h => absurd h (by simp [eoiCode])⟩

theorem stringOfCode_eoi (cfg : Word) : StringOfCode cfg (eoiCode cfg) [] :=
  ⟨fun _ => rfl, fun h => absurd h (by simp [eoiCode]), fun h => absurd h (Nat.lt_irrefl _)⟩

/-- The string of a code that is neither CLEAR nor EOI. -/
theorem stringOfCode_data {cfg : Word} {code : Nat} {str : ByteString} (hclear : code ≠ clearCode cfg) (heoi : code ≠ eoiCode cfg)
    (hlit : code < clearCode cfg → str = [BitVec.ofNat 8 code]) (hne : str ≠ []) : StringOfCode cfg code str :=
  ⟨fun h => (h.elim hclear heoi).elim, hlit, fun _ => hne⟩

/-- A data code at a label appends its string where it goes on (44_decompressor.md R152 to R154). -/
theorem dDataCode_emits {cfg : Word} {label : DLabel} {code : Nat} {s : State} (h : DecodingSound cfg label s)
    (hclear : code ≠ clearCode cfg) (heoi : code ≠ eoiCode cfg) :
    (dDataCode label code s).Leaves (fun _ t => ∃ str, StringOfCode cfg code str ∧ Emitted s str t)
      fun _ _ _ t => EmittedSome s t := by
  have hentry : ∀ {str}, tableGet code s.d.table = some str → code < clearCode cfg → str = [BitVec.ofNat 8 code] :=
    fun hget hlit => Option.some.inj (hget.symm.trans (h.d.literal code hlit))
  cases label with
  | postClear =>
    rw [dDataCode, dPostClearCode]
    split
    · exact ⟨[], .refl s⟩
    · refine ((dEntry_reads code s).mono (fun _ _ => id) fun _ _ _ _ => False.elim).bind ?_
      rintro str _ ⟨rfl, hget, hne⟩
      exact (dEmit_emits str _).bind fun _ t ht =>
        ⟨str, stringOfCode_data hclear heoi (hentry hget) hne, ht.then_nothing (setD_emitted t _)⟩
  | code =>
    rw [dDataCode, dSteadyCode]
    split
    · exact ⟨[], .refl s⟩
    · next old _ =>
      split
      · exact (dKnown_emits code old s).mono
          (fun _ _ ⟨str, hget, hne, ht⟩ => ⟨str, stringOfCode_data hclear heoi (hentry hget) hne, ht⟩) fun _ _ _ _ => id
      · split
        · next hcursor =>
          have hfree : ¬ code < clearCode cfg := by
            have hlow := h.d.codes_low
            rw [firstFree] at hlow
            omega
          exact (dKwKwK_emits code old s).mono
            (fun _ _ ⟨str, hne, ht⟩ => ⟨str, stringOfCode_data hclear heoi (fun hlit => absurd hlit hfree) hne, ht⟩)
            fun _ _ _ _ => id
        · exact ⟨[], .refl s⟩

end Sys2Proof.Machine
end

section
/-! SUPPORT. Where D's events stand between the bytes that their codes took of SRC and those they put into SNK
(44_decompressor.md R156, 60_exceptions.md R192). -/

namespace Sys2Proof.Machine

/-! ### One read and its event -/

/-- `d_next_code` read `code` from `t` on, and `r` is the event of it (44_decompressor.md R156). -/
structure ReadWithEvent (t : State) (code : Nat) (r : EvtRecord) (u : State) : Prop where
  evt : u.io.evt = t.io.evt ++ [r]
  snk : u.io.snk = t.io.snk
  code : r.event.v1 = code
  snkLen : r.snkLen = t.io.snk.length
  srcPos : r.srcPos = u.io.srcPos
  ends : (r.event.kind = .code ∧ 8 * u.io.srcPos + t.br.bits = 8 * t.io.srcPos + r.event.v2 + u.br.bits ∧
      (t.br.bits < 8 → u.br.bits < 8)) ∨
    (r.event.kind = .sentinel ∧ tmOf t.regs.cfg = true ∧ r.event.v1 = tiffSentinel ∧
      u.io.srcPos = t.io.srcPos + (unreadBytes t).length)

theorem dNextCode_readWithEvent {t : State} (hobs : obsOf t.regs.cfg = true) (hcache : t.br.cache < 2 ^ t.br.bits) :
    (dNextCode t).Leaves (fun code u => ∃ r, ReadWithEvent t code r u)
      fun _ _ _ u => u.io.evt = t.io.evt ∧ u.io.snk = t.io.snk := by
  refine ((brRead_moves t.d.width hcache).leaves.mono (fun _ _ => id) ?_).bind ?_
  · rintro _ _ _ u ⟨m, hu⟩
    exact ⟨by rw [hu.io], by rw [hu.io]⟩
  · rintro ⟨code, kind⟩ u hread
    have hon : ∀ {m a k}, BrMoved t m a k u → notify .d (readEvtKind kind) code u.d.width u = u.setIo { u.io with
        evt := t.io.evt ++ [⟨⟨.d, readEvtKind kind, code, t.d.width⟩, u.io.srcPos, t.io.snk.length⟩] } := fun hu => by
      rw [notify_on (by rw [hu.regs]; exact hobs), hu.d, hu.io]
    rcases hread with ⟨hkind, hu⟩ | ⟨htm, hsentinel, hu⟩
    · have hpos : u.io.srcPos = t.io.srcPos + refillBytes t t.d.width := by rw [hu.io]
      have hheld := hu.held
      refine ⟨_, by rw [hon hu]; rfl, by rw [hon hu]; simp [hu.io], rfl, rfl, by rw [hon hu]; rfl, .inl ⟨?_, ?_, ?_⟩⟩
      · exact congrArg readEvtKind hkind
      · rw [hon hu]
        simp only [State.setIo_io, State.setIo_br]
        omega
      · rw [hon hu]
        simp only [State.setIo_br]
        rw [refillBytes] at hheld
        omega
    · cases hsentinel
      refine ⟨_, by rw [hon hu]; rfl, by rw [hon hu]; simp [hu.io], rfl, rfl, by rw [hon hu]; rfl, .inr ⟨rfl, htm, rfl, ?_⟩⟩
      rw [hon hu]
      simp [hu.io]

/-! ### The events of a DECOMPRESS so far -/

/-- Behind the event `r` SNK took the bytes of its code, and then held `next` bytes. -/
structure CodeFollowed (cfg : Word) (snk : List Byte) (r : EvtRecord) (next : Nat) : Prop where
  nothing : r.event.v1 = clearCode cfg ∨ r.event.v1 = eoiCode cfg → next = r.snkLen
  literal : r.event.v1 < clearCode cfg → next = r.snkLen + 1 ∧ snk[r.snkLen]? = some (BitVec.ofNat 8 r.event.v1)
  more : eoiCode cfg < r.event.v1 → r.snkLen < next

theorem CodeFollowed.later {cfg : Word} {snk snk' : List Byte} {r : EvtRecord} {next : Nat}
    (h : CodeFollowed cfg snk r next) (hsnk : snk <+: snk') : CodeFollowed cfg snk' r next where
  nothing := h.nothing
  literal hlit := (h.literal hlit).imp_right fun hbyte => by
    obtain ⟨more, rfl⟩ := hsnk
    rwa [List.getElem?_append_left (List.getElem?_eq_some_iff.mp hbyte).1]
  more := h.more

/-- SNK took the string of the code that `r` stands for. -/
theorem codeFollowed_of_string {cfg : Word} {snk : List Byte} {r : EvtRecord} {str : ByteString}
    (hstr : StringOfCode cfg r.event.v1 str) (hr : r.snkLen = snk.length) :
    CodeFollowed cfg (snk ++ str) r (snk ++ str).length where
  nothing h := by simp [hstr.nothing h, hr]
  literal h := by simp [hstr.literal h, hr]
  more h := by
    have hpos := List.length_pos_of_ne_nil (hstr.more h)
    rw [List.length_append]
    omega

/-- From the streams `a` to `b` the events `new` came in, each behind the SRC bytes of its read and between the SNK bytes of
the codes before it and those of its own. -/
structure Bracketed (cfg : Word) (a b : Streams) (new : List EvtRecord) : Prop where
  evt : b.evt = a.evt ++ new
  first : ∀ r, new.head? = some r → r.snkLen = a.snk.length
  srcPos : ∀ n r, new[n]? = some r → r.srcPos =
    if r.event.kind = .code then a.srcPos + (widthSum (new.take (n + 1)) + 7) / 8 else a.src.length
  followed : ∀ n r r', new[n]? = some r → new[n + 1]? = some r' → CodeFollowed cfg b.snk r r'.snkLen

/-- The bytes of the last event's code are all in SNK. -/
structure Settled (cfg : Word) (a b : Streams) (new : List EvtRecord) : Prop where
  none_yet : new = [] → b.snk.length = a.snk.length
  last : ∀ r, new.getLast? = some r → CodeFollowed cfg b.snk r b.snk.length

section
variable {cfg : Word} {a b c : Streams} {new : List EvtRecord} {r : EvtRecord}

theorem bracketed_nil (cfg : Word) (a : Streams) : Bracketed cfg a a [] where
  evt := (List.append_nil _).symm
  first _ h := by cases h
  srcPos _ _ h := by simp at h
  followed _ _ _ h := by simp at h

theorem settled_nil (cfg : Word) (a : Streams) : Settled cfg a a [] := ⟨fun _ => rfl, fun _ h => by cases h⟩

/-- More bytes in SNK move no event. -/
theorem Bracketed.later (h : Bracketed cfg a b new) (hevt : c.evt = b.evt) (hsnk : b.snk <+: c.snk) :
    Bracketed cfg a c new where
  evt := hevt.trans h.evt
  first := h.first
  srcPos := h.srcPos
  followed n r r' hr hr' := (h.followed n r r' hr hr').later hsnk

/-- The next event, where the bytes of the codes before it are in SNK. -/
theorem Bracketed.concat (h : Bracketed cfg a b new) (hsettled : Settled cfg a b new) (hevt : c.evt = b.evt ++ [r])
    (hsnk : c.snk = b.snk) (hlen : r.snkLen = b.snk.length)
    (hpos : r.srcPos = if r.event.kind = .code then a.srcPos + (widthSum (new ++ [r]) + 7) / 8 else a.src.length) :
    Bracketed cfg a c (new ++ [r]) where
  evt := by rw [hevt, h.evt, List.append_assoc]
  first x hx := by
    cases new with
    | nil =>
      cases hx
      exact hlen.trans (hsettled.none_yet rfl)
    | cons y ys => exact h.first x hx
  srcPos n x hx := by
    rcases getElem?_concat_cases hx with ⟨hold, hlt⟩ | ⟨rfl, rfl⟩
    · rw [List.take_append_of_le_length hlt]
      exact h.srcPos n x hold
    · rwa [List.take_of_length_le (by simp)]
  followed n x y hx hy := by
    rw [hsnk]
    rcases getElem?_concat_cases hy with ⟨hold, hlt⟩ | ⟨hn, rfl⟩
    · rw [List.getElem?_append_left (by omega)] at hx
      exact h.followed n x y hx hold
    · rw [List.getElem?_append_left (by omega)] at hx
      rw [hlen]
      refine hsettled.last x ?_
      rwa [List.getLast?_eq_getElem?, ← hn, Nat.add_sub_cancel]

theorem settled_concat (h : CodeFollowed cfg b.snk r b.snk.length) : Settled cfg a b (new ++ [r]) where
  none_yet hnil := absurd hnil (by simp)
  last x hx := by
    rw [List.getLast?_concat] at hx
    cases hx
    exact h

end

/-! ### The loop -/

/-- BR took what the codes of `new` needed, and keeps less than a byte of it. -/
structure BitsTaken (a : Streams) (new : List EvtRecord) (t : State) : Prop where
  part : t.br.bits < 8
  taken : 8 * t.io.srcPos = 8 * a.srcPos + widthSum new + t.br.bits

/-- At a label of D's loop: the codes of `new` are read and their bytes emitted. -/
structure AtLabel (cfg : Word) (a : Streams) (label : DLabel) (new : List EvtRecord) (t : State) : Prop where
  sound : DecodingSound cfg label t
  grow : StreamsGrow a t.io
  bracketed : Bracketed cfg a t.io new
  settled : Settled cfg a t.io new
  bits : BitsTaken a new t

/-- Behind a read: the code of the event `r` is read, and nothing of its bytes emitted. -/
structure BehindRead (cfg : Word) (a : Streams) (label : DLabel) (new : List EvtRecord) (r : EvtRecord) (t : State) : Prop where
  sound : DecodingSound cfg label t
  grow : StreamsGrow a t.io
  bracketed : Bracketed cfg a t.io (new ++ [r])
  snkLen : r.snkLen = t.io.snk.length
  bits : r.event.v1 ≠ eoiCode cfg → BitsTaken a (new ++ [r]) t

section
variable {cfg : Word} {a : Streams} {label label' : DLabel} {new : List EvtRecord} {r : EvtRecord} {t u : State}
  {str : ByteString}

/-- What D leaves where it goes on: the events since `a` are bracketed and settled. -/
def EventsSettled (cfg : Word) (a : Streams) (t : State) : Prop := ∃ new, Bracketed cfg a t.io new ∧ Settled cfg a t.io new

/-- What D leaves where it raises: bytes of the last code may be missing in SNK. -/
def EventsBracketed (cfg : Word) (a : Streams) (t : State) : Prop := ∃ new, Bracketed cfg a t.io new

theorem BehindRead.followed (h : BehindRead cfg a label new r t) (hstr : StringOfCode cfg r.event.v1 str)
    (hu : Emitted t str u) : Bracketed cfg a u.io (new ++ [r]) ∧ Settled cfg a u.io (new ++ [r]) :=
  ⟨h.bracketed.later hu.evt ⟨str, hu.snk.symm⟩, settled_concat (hu.snk ▸ codeFollowed_of_string hstr h.snkLen)⟩

theorem BehindRead.raised (h : BehindRead cfg a label new r t) (hu : EmittedSome t u) : EventsBracketed cfg a u :=
  hu.elim fun str hu => ⟨_, h.bracketed.later hu.evt ⟨str, hu.snk.symm⟩⟩

/-- Once the bytes of a code other than EOI are emitted D is at its next label. -/
theorem BehindRead.atLabel (h : BehindRead cfg a label new r t) (hstr : StringOfCode cfg r.event.v1 str)
    (heoi : r.event.v1 ≠ eoiCode cfg) (hu : Emitted t str u) (hgrow : StreamsGrow t.io u.io)
    (hsound : DecodingSound cfg label' u) : AtLabel cfg a label' (new ++ [r]) u where
  sound := hsound
  grow := h.grow.trans hgrow
  bracketed := (h.followed hstr hu).1
  settled := (h.followed hstr hu).2
  bits :=
    { part := by rw [hu.br]; exact (h.bits heoi).part
      taken := by rw [hu.br, hu.srcPos]; exact (h.bits heoi).taken }

/-- What an event says of SRC's position, at a label's read (44_decompressor.md R156). -/
theorem AtLabel.position (hl : CfgLegal cfg) (hin : a.srcPos ≤ a.src.length) (h : AtLabel cfg a label new t) {code : Nat}
    (hu : ReadWithEvent t code r u) :
    (r.srcPos = if r.event.kind = .code then a.srcPos + (widthSum (new ++ [r]) + 7) / 8 else a.src.length) ∧
      (r.event.v1 ≠ eoiCode cfg → BitsTaken a (new ++ [r]) u) := by
  obtain ⟨hpart, htaken⟩ := h.bits
  rw [hu.srcPos]
  rcases hu.ends with ⟨hkind, hread, hfew⟩ | ⟨hkind, htm, hcode, hend⟩
  · have hbits : BitsTaken a (new ++ [r]) u := ⟨hfew hpart, by rw [widthSum_concat]; omega⟩
    obtain ⟨hpart', htaken'⟩ := hbits
    exact ⟨by rw [if_pos hkind]; omega, fun _ => ⟨hpart', htaken'⟩⟩
  · refine ⟨?_, fun hne => absurd ?_ hne⟩
    · have hpos := h.grow.inRange hin
      rw [hkind, if_neg (by decide), hend, unreadBytes, List.length_drop]
      rw [h.grow.src] at hpos ⊢
      omega
    · exact hcode.trans (sentinel_is_eoi hl (h.sound.cfg_eq ▸ htm))

/-- One read at a label. -/
theorem AtLabel.dNextCode (hl : CfgLegal cfg) (hobs : obsOf cfg = true) (hin : a.srcPos ≤ a.src.length)
    (h : AtLabel cfg a label new t) :
    (dNextCode t).Leaves (fun code u => ∃ r, r.event.v1 = code ∧ BehindRead cfg a label new r u)
      fun _ _ _ => EventsBracketed cfg a := by
  refine ((dNextCode_meets hl t h.sound).andLeaves
    (dNextCode_readWithEvent (by rw [h.sound.cfg_eq]; exact hobs) h.sound.br.1)).leaves.mono ?_ ?_
  · rintro code u ⟨⟨hsound, -, -, hgrow, -⟩, r, hu⟩
    obtain ⟨hpos, hbits⟩ := h.position hl hin hu
    exact ⟨r, hu.code,
      { sound := hsound
        grow := h.grow.trans hgrow
        bracketed := h.bracketed.concat h.settled hu.evt hu.snk hu.snkLen hpos
        snkLen := by rw [hu.snk]; exact hu.snkLen
        bits := hbits }⟩
  · rintro _ _ _ u ⟨-, hevt, hsnk⟩
    exact ⟨new, h.bracketed.later hevt (hsnk ▸ List.prefix_refl _)⟩

/-- A data code behind its read. -/
theorem BehindRead.dDataCode (hl : CfgLegal cfg) (h : BehindRead cfg a label new r t) (hclear : r.event.v1 ≠ clearCode cfg)
    (heoi : r.event.v1 ≠ eoiCode cfg) :
    (dDataCode label r.event.v1 t).Leaves (fun _ => AtLabel cfg a .code (new ++ [r])) fun _ _ _ => EventsBracketed cfg a := by
  refine ((dDataCode_meets hl label _ t h.sound hclear heoi).andLeaves (dDataCode_emits h.sound hclear heoi)).leaves.mono ?_ ?_
  · rintro _ u ⟨⟨hsound, -, hgrow⟩, str, hstr, hu⟩
    exact h.atLabel hstr heoi hu hgrow hsound
  · rintro _ _ _ u ⟨-, hu⟩
    exact h.raised hu

/-- A CLEAR behind its read. -/
theorem BehindRead.dClearTable (hl : CfgLegal cfg) (h : BehindRead cfg a label new r t) (hclear : r.event.v1 = clearCode cfg) :
    AtLabel cfg a .postClear (new ++ [r]) (dClearTable t) := by
  have hsound : DecompressorSound cfg (Machine.dClearTable t).d := by
    simp only [Machine.dClearTable, State.setD_d, h.sound.cfg_eq]
    exact clearedDecompressor_sound hl _ h.sound.d.old
  exact h.atLabel (hclear ▸ stringOfCode_clear cfg) (by rw [hclear, eoiCode]; omega) (setD_emitted t _) (.refl _)
    ⟨h.sound.cfg_eq, hsound, h.sound.br, fun hlabel => by cases hlabel⟩

/-- The events of an observed loop, however it ends. -/
theorem AtLabel.dLoop (hl : CfgLegal cfg) (hobs : obsOf cfg = true) (hin : a.srcPos ≤ a.src.length) (limit fuel : Nat)
    (h : AtLabel cfg a label new t) :
    (dLoop limit fuel label t).Leaves (fun _ => EventsSettled cfg a) fun _ _ _ => EventsBracketed cfg a := by
  induction fuel generalizing label new t with
  | zero => trivial
  | succ fuel ih =>
    refine (h.dNextCode hl hobs hin).bind ?_
    rintro _ u ⟨r, rfl, hu⟩
    rw [hu.sound.cfg_eq]
    split
    · next heoi => exact ⟨_, hu.followed (heoi ▸ stringOfCode_eoi cfg) (.refl u)⟩
    · next heoi =>
      split
      · next hclear =>
        have hlabel := hu.dClearTable hl hclear
        split
        · exact ⟨_, hlabel.bracketed, hlabel.settled⟩
        · exact ih hlabel
      · next hclear =>
        refine (hu.dDataCode hl hclear heoi).bind fun _ v hv => ?_
        split
        · exact ⟨_, hv.bracketed, hv.settled⟩
        · exact ih hv

end

/-- The events of an observed `decompress(L)` on a fresh session, however it ends. -/
theorem decompressAll_bracketed {s : State} {len : Word} (hl : CfgLegal s.regs.cfg) (hobs : obsOf s.regs.cfg = true)
    (hin : s.io.srcPos ≤ s.io.src.length) (limit : Nat) :
    (decompressAll limit (freshDecompress len s)).Leaves (fun _ => EventsSettled s.regs.cfg s.io)
      fun _ _ _ => EventsBracketed s.regs.cfg s.io := by
  refine AtLabel.dLoop (new := []) hl hobs hin limit _
    ⟨⟨rfl, clearedDecompressor_sound hl _ (by simp [freshDecompress]), ⟨Nat.one_pos, Nat.zero_le 11⟩, ?_⟩, .refl _,
      bracketed_nil _ _, settled_nil _ _, ⟨Nat.succ_pos 7, rfl⟩⟩
  intro _ c hc
  simp [dClearTable, clearedDecompressor, freshDecompress] at hc

/-- The events of an observed DECOMPRESS: bracketed, and settled where it ends OK. -/
theorem exec_decompress_bracketed {s t : State} {len : Word} (hinv : Inv s) (hconf : Configured s)
    (hobs : obsOf s.regs.cfg = true) (h : exec (.decompress len) s = .next t) :
    ∃ new, Bracketed s.regs.cfg s.io t.io new ∧ (codeField t.regs.status = 0 → Settled s.regs.cfg s.io t.io new) := by
  have hall := decompressAll_bracketed (len := len) (hinv.configured hconf) hobs hinv.src_pos len.toNat
  have herror := decompressAll_raisesError len.toNat (freshDecompress len s)
  cases hend : decompressAll len.toNat (freshDecompress len s) with
  | ok _ u =>
    rw [hend] at hall
    obtain ⟨new, hbracketed, hsettled⟩ := hall
    cases (exec_decompress_of_ok hconf hend).symm.trans h
    exact ⟨new, hbracketed, fun _ => hsettled⟩
  | raised code i0 i1 u =>
    rw [hend] at hall herror
    obtain ⟨new, hbracketed⟩ := hall
    cases (exec_decompress_of_raised hconf hend).symm.trans h
    exact ⟨new, hbracketed, fun hok => absurd hok (codeField_raised_ne_zero herror false i0 i1 u)⟩
  | fault f =>
    rw [exec_decompress_of_configured hconf, hend] at h
    cases h

/-- The events of an observed COMPRESS are stamped. -/
theorem exec_compress_stamped {s t : State} (hconf : Configured s) (hobs : obsOf s.regs.cfg = true)
    (h : exec .compress s = .next t) : EventsStamped s t := by
  have hall := compressAll_stamped (s := freshCompress s) hobs rfl
  rw [exec_compress_of_configured hconf] at h
  cases hend : compressAll (freshCompress s) with
  | ok _ u =>
    rw [hend] at hall h
    cases h
    exact hall
  | raised code i0 i1 u =>
    rw [hend] at hall h
    cases h
    exact hall
  | fault f =>
    rw [hend] at h
    cases h

end Sys2Proof.Machine
end

section
/-! The obligation on code events and the bytes of their codes (60_exceptions.md R192). -/

namespace Sys2Proof.Machine

/-- Settles O25: BW keeps less than a byte of the codes written, BR less than a byte of those read, at every event of an
observed command. -/
theorem codeEventsBracketTheirBytes : Obligations.CodeEventsBracketTheirBytes := by
  unfold Obligations.CodeEventsBracketTheirBytes
  intro s t hinv hconf
  have hquiet : ∀ {i}, isConfig i = false → exec i s = .next t → obsOf s.regs.cfg = false → newEvents s t = [] :=
    fun hi h hoff => by
      have hemits := exec_emitsOnly hi h
      exact hemits.unobserved (by rw [hemits.cfg]; exact hoff)
  constructor
  · intro h
    cases hobs : obsOf s.regs.cfg with
    | false => simp [hquiet rfl h hobs]
    | true =>
      obtain ⟨new, hevt, hstamps⟩ := exec_compress_stamped hconf hobs h
      rw [newEvents_of_append hevt]
      exact hstamps
  · intro len h
    cases hobs : obsOf s.regs.cfg with
    | false => simp [hquiet rfl h hobs]
    | true =>
      obtain ⟨new, hbracketed, hsettled⟩ := exec_decompress_bracketed hinv hconf hobs h
      rw [newEvents_of_append hbracketed.evt]
      refine ⟨hbracketed.first, hbracketed.srcPos, fun n x y hx hy => ?_, fun hok r hr => ?_⟩
      · have hfollowed := hbracketed.followed n x y hx hy
        exact ⟨fun hclear => hfollowed.nothing (.inl hclear), hfollowed.literal, hfollowed.more⟩
      · have hlast := (hsettled hok).last r hr
        split
        · next hnone => exact (hlast.nothing hnone).symm
        · next hsome =>
          rcases Nat.lt_or_ge r.event.v1 (clearCode s.regs.cfg) with hlit | hhigh
          · have := (hlast.literal hlit).1
            omega
          · refine hlast.more ?_
            rw [eoiCode] at hsome ⊢
            omega

end Sys2Proof.Machine
end

section
/-! SUPPORT. What a data code at label CODE leaves, exactly, when SNK accepts the bytes of its string (44_decompressor.md R152 to
R155, R158). -/

namespace Sys2Proof.Machine

/-- D has appended `str` to SNK and counted each byte of it (44_decompressor.md R158). -/
def emitted (str : ByteString) (s : State) : State :=
  (s.setIo { s.io with snk := s.io.snk ++ str, snkWrites := s.io.snkWrites + str.length }).setD
    { s.d with written := s.d.written + str.length }

@[simp] theorem emitted_regs (str : ByteString) (s : State) : (emitted str s).regs = s.regs := rfl
@[simp] theorem emitted_bw (str : ByteString) (s : State) : (emitted str s).bw = s.bw := rfl
@[simp] theorem emitted_br (str : ByteString) (s : State) : (emitted str s).br = s.br := rfl
@[simp] theorem emitted_c (str : ByteString) (s : State) : (emitted str s).c = s.c := rfl
@[simp] theorem emitted_d (str : ByteString) (s : State) :
    (emitted str s).d = { s.d with written := s.d.written + str.length } := rfl
@[simp] theorem emitted_snk (str : ByteString) (s : State) : (emitted str s).io.snk = s.io.snk ++ str := rfl

/-- `d_emit` when SNK accepts every byte (44_decompressor.md R158). -/
theorem dEmit_of_accepts {str : ByteString} {s : State} (hans : WritesAccepted s str.length) :
    dEmit str s = .ok () (emitted str s) := by
  induction str generalizing s with
  | nil => rw [dEmit, emitted, List.append_nil]; rfl
  | cons b rest ih =>
    have hfirst : memWrite b s = .ok () (s.setIo { s.io with snk := s.io.snk ++ [b], snkWrites := s.io.snkWrites + 1 }) :=
      if_neg (by simpa using hans 0 (Nat.succ_pos _))
    rw [dEmit, hfirst, Res.bind_ok, ih]
    · simp [emitted, State.setIo, State.setD, Nat.add_assoc, Nat.add_comm 1]
    · intro j hj
      have hlater := hans (j + 1) (Nat.succ_lt_succ hj)
      rwa [Nat.add_comm j, ← Nat.add_assoc] at hlater

/-- `T[c]` where the entry is there and not empty (44_decompressor.md R153). -/
theorem dEntry_of_get {c : Nat} {str : ByteString} {s : State} (h : tableGet c s.d.table = some str) (hne : str ≠ []) :
    dEntry c s = .ok str s := by
  cases str with
  | nil => exact absurd rfl hne
  | cons b rest => rw [dEntry, h]

/-- `d_append` with room in the table (44_decompressor.md R155). -/
theorem dAppend_of_room {str : ByteString} {code : Nat} {s : State} (h : s.d.codes < 4096) :
    dAppend str code s = .ok () (s.setD (dGrow (tmOf s.regs.cfg) str s.d)) :=
  if_neg (Nat.not_le.mpr h)

/-- `d_append` with the table full (44_decompressor.md R155). -/
theorem dAppend_of_full {str : ByteString} {code : Nat} {s : State} (h : 4096 ≤ s.d.codes) :
    dAppend str code s = .raised .tableOverflow s.d.codes code s :=
  if_pos h

section
variable {code old : Nat} {str oldStr : ByteString} {s : State}

/-- A known code emits its string and appends that of `D_OLD` with its first byte (44_decompressor.md R153). -/
theorem dDataCode_known (hold : s.d.old = some old) (hcode : code < s.d.codes) (hget : tableGet code s.d.table = some str)
    (hne : str ≠ []) (hgetOld : tableGet old s.d.table = some oldStr) (hneOld : oldStr ≠ [])
    (hans : WritesAccepted s str.length) :
    dDataCode .code code s =
      (dAppend (withFirstOf oldStr str) code (emitted str s)).bind fun _ t => .ok () (dSetOld code t) := by
  have holdEntry : dEntry old (emitted str s) = .ok oldStr (emitted str s) := dEntry_of_get hgetOld hneOld
  simp only [dDataCode, dSteadyCode, hold, if_pos hcode, dKnown, dEntry_of_get hget hne, dEmit_of_accepts hans, holdEntry,
    Res.bind_ok]

/-- The code at the cursor emits the string it then appends (44_decompressor.md R154). -/
theorem dDataCode_cursor (hold : s.d.old = some old) (hgetOld : tableGet old s.d.table = some oldStr) (hneOld : oldStr ≠ [])
    (hans : WritesAccepted s (withFirstOf oldStr oldStr).length) :
    dDataCode .code s.d.codes s =
      (dAppend (withFirstOf oldStr oldStr) s.d.codes (emitted (withFirstOf oldStr oldStr) s)).bind fun _ t =>
        .ok () (dSetOld s.d.codes t) := by
  simp only [dDataCode, dSteadyCode, hold, if_neg (Nat.lt_irrefl _), dKwKwK, dEntry_of_get hgetOld hneOld,
    dEmit_of_accepts hans, Res.bind_ok, if_true]

end

/-- With no `D_OLD` a data code at label CODE is refused as it comes (44_decompressor.md R152). -/
theorem dDataCode_without_old {s : State} (h : s.d.old = none) (code : Nat) :
    dDataCode .code code s = .raised .corruptStreamCode code s.d.codes s := by
  simp only [dDataCode, dSteadyCode, h]

end Sys2Proof.Machine
end

section
/-! The obligations of 44_decompressor.md on one data code and on the growth of the table. -/

namespace Sys2Proof.Machine

/-- Settles O51: a full table raises at once, and with room the growth is `dGrow`. -/
theorem appendGrowsTable : Obligations.AppendGrowsTable := by
  intro s str c
  refine ⟨dAppend_of_full, fun hroom => ⟨_, dAppend_of_room hroom, tableGet_put_same _ _ _,
    fun k hk => tableGet_put_other hk _ _, rfl, rfl, rfl, ?_⟩⟩
  exact (apply_ite (s.d.width + ·) _ 1 0).symm

/-- Settles O49: the emission comes before the append, which the room left in the table decides. -/
theorem knownCodeEffect : Obligations.KnownCodeEffect := by
  intro s code old b str oldStr hold hcode _ hget hgetOld hneOld hans
  have hdata := dDataCode_known hold hcode hget (List.cons_ne_nil b str) hgetOld hneOld hans
  constructor
  · intro hroom
    have hroom' : (emitted (b :: str) s).d.codes < 4096 := hroom
    rw [dAppend_of_room hroom', Res.bind_ok] at hdata
    exact ⟨_, hdata, rfl, rfl, rfl, rfl, tableGet_put_same _ _ _, fun c hc => tableGet_put_other hc _ _, rfl, rfl, rfl, rfl⟩
  · intro hfull
    have hfull' : 4096 ≤ (emitted (b :: str) s).d.codes := hfull.ge
    rw [dAppend_of_full hfull', Res.bind_raised, emitted_d, hfull] at hdata
    exact ⟨_, hdata, rfl, rfl, hold, hfull, rfl⟩

/-- Settles O50: KwKwK emits `T[old]` with its own first byte behind it; a code beyond the cursor is refused as it comes. -/
theorem cursorCodeEffect : Obligations.CursorCodeEffect := by
  intro s code old b oldStr hold hgetOld
  constructor
  · rintro rfl hroom hans
    have hlength : (withFirstOf (b :: oldStr) (b :: oldStr)).length = oldStr.length + 2 := by simp [withFirstOf]
    have hdata := dDataCode_cursor hold hgetOld (List.cons_ne_nil b oldStr) (hlength ▸ hans)
    have hroom' : (emitted (withFirstOf (b :: oldStr) (b :: oldStr)) s).d.codes < 4096 := hroom
    rw [dAppend_of_room hroom', Res.bind_ok] at hdata
    refine ⟨_, hdata, ?_, congrArg (s.d.written + ·) hlength, rfl, rfl, tableGet_put_same _ _ _,
      fun c hc => tableGet_put_other hc _ _⟩
    exact (List.append_assoc _ _ _).symm
  · intro hbeyond
    simp only [dDataCode, dSteadyCode, hold, if_neg (Nat.not_lt.mpr hbeyond.le), if_neg hbeyond.ne']

/-- Settles O56: the fresh session and the clear overwrite all of BR and D. -/
theorem decompressIsAFreshSession : Obligations.DecompressIsAFreshSession := by
  intro s len b d hconf
  have hconf' : Configured ((s.setBr b).setD d) := hconf
  rw [exec_decompress_of_configured hconf', exec_decompress_of_configured hconf]
  rfl

end Sys2Proof.Machine
end

section
/-! SUPPORT. D's loop code by code when no access is refused (44_decompressor.md R150 to R158): where it stands between two codes,
and what the next one does. -/

namespace Sys2Proof.Machine

/-- From the fresh session `v` D came to `u` with `out` emitted, and the stream bits `rest` are unread. -/
structure DecodedTo (v : State) (out : ByteString) (rest : List Bool) (u : State) : Prop where
  frame : DecompressFrame v u
  cache : CacheSound 11 u.br
  snk : u.io.snk = v.io.snk ++ out
  written : u.d.written = out.length
  unread : unreadBits u = rest

/-- `decompress(limit)` on `v` has come to a label at `u`, with `fuel` rounds left, which the unread bits cannot use up
(70_reset_and_hazards.md R211). -/
structure DecodesOn (v : State) (limit : Nat) (out : ByteString) (rest : List Bool) (fuel : Nat) (label : DLabel) (u : State) :
    Prop extends DecodedTo v out rest u where
  loop : decompressAll limit v = dLoop limit fuel label u
  fuel_left : rest.length < fuel

/-- A data code at a label, whatever the streams are: it emits `str` and makes `d'` of D, when SNK accepts. -/
structure DataCodeGives (cfg : Word) (label : DLabel) (code : Nat) (d : Decompressor) (str : ByteString) (d' : Decompressor) :
    Prop where
  written : d'.written = d.written + str.length
  runs : ∀ t : State, t.d = d → t.regs.cfg = cfg → SnkAccepts t → dDataCode label code t = .ok () ((emitted str t).setD d')

theorem SnkAccepts.writes {s : State} (h : SnkAccepts s) (k : Nat) : WritesAccepted s k :=
  fun j _ => h _ (Nat.le_add_right _ j)

/-! ### The data codes -/

section
variable {cfg : Word} {code old : Nat} {str oldStr : ByteString} {d : Decompressor}

/-- A known code with room in the table (44_decompressor.md R153). -/
theorem dataCodeGives_known (hold : d.old = some old) (hcode : code < d.codes) (hget : tableGet code d.table = some str)
    (hne : str ≠ []) (hgetOld : tableGet old d.table = some oldStr) (hneOld : oldStr ≠ []) (hroom : d.codes < 4096) :
    DataCodeGives cfg .code code d str
      { dGrow (tmOf cfg) (withFirstOf oldStr str) d with old := some code, written := d.written + str.length } where
  written := rfl
  runs := by
    rintro t rfl rfl hans
    have hroom' : (emitted str t).d.codes < 4096 := hroom
    rw [dDataCode_known hold hcode hget hne hgetOld hneOld (hans.writes _), dAppend_of_room hroom']
    rfl

/-- The code at the cursor with room in the table (44_decompressor.md R154). -/
theorem dataCodeGives_cursor (hold : d.old = some old) (hgetOld : tableGet old d.table = some oldStr) (hneOld : oldStr ≠ [])
    (hroom : d.codes < 4096) :
    DataCodeGives cfg .code d.codes d (withFirstOf oldStr oldStr)
      { dGrow (tmOf cfg) (withFirstOf oldStr oldStr) d with
        old := some d.codes, written := d.written + (withFirstOf oldStr oldStr).length } where
  written := rfl
  runs := by
    rintro t rfl rfl hans
    have hroom' : (emitted (withFirstOf oldStr oldStr) t).d.codes < 4096 := hroom
    rw [dDataCode_cursor hold hgetOld hneOld (hans.writes _), dAppend_of_room hroom']
    rfl

/-- A literal behind a CLEAR (44_decompressor.md R152). -/
theorem dataCodeGives_postClear (hcode : code < clearCode cfg) (hget : tableGet code d.table = some str) (hne : str ≠ []) :
    DataCodeGives cfg .postClear code d str { d with old := some code, written := d.written + str.length } where
  written := rfl
  runs := by
    rintro t rfl rfl hans
    simp only [dDataCode, dPostClearCode, if_neg (Nat.not_le.mpr hcode), dEntry_of_get hget hne, dEmit_of_accepts (hans.writes _),
      Res.bind_ok]
    rfl

end

/-! ### The loop -/

section
variable {v u : State} {limit fuel code : Nat} {out str : ByteString} {rest : List Bool} {label : DLabel} {d' : Decompressor}

/-- The clear that begins DECOMPRESS emits nothing and reads nothing (44_decompressor.md R150, R157). -/
theorem freshDecompress_decodesOn (limit : Nat) (len : Word) (s : State) :
    DecodesOn (freshDecompress len s) limit [] (unreadBits (freshDecompress len s)) (dMaxReads (freshDecompress len s)) .code
      (dClearTable (freshDecompress len s)) where
  frame := setD_decompress _ _
  cache := ⟨Nat.one_pos, Nat.zero_le 11⟩
  snk := (List.append_nil _).symm
  written := rfl
  unread := rfl
  loop := rfl
  fuel_left := by rw [unreadBits_length]; exact Nat.lt_succ_self _

/-- A read takes the code whose bits come next (44_decompressor.md R156). -/
theorem DecodedTo.next_code (hs : SessionRuns v) (hwidth : u.d.width ≤ 12) (hcode : code < 2 ^ u.d.width)
    (h : DecodedTo v out (codeBits (byteOrderOf v.regs.cfg) u.d.width code ++ rest) u) :
    ∃ t, dNextCode u = .ok code t ∧ t.d = u.d ∧ DecodedTo v out rest t := by
  have hconf : Configured u := by rw [Configured, h.frame.regs]; exact hs.configured
  obtain ⟨t, hread, hcache, hframe, hrest⟩ := brRead_unpacks ⟨hconf, h.cache, hs.answers.later h.frame.grow⟩ hwidth hcode
    (by rw [h.unread, h.frame.regs])
  refine ⟨notify .d .code code t.d.width t, by rw [dNextCode, hread]; rfl, (notify_d _ _ _ _ t).trans hframe.d, ?_⟩
  exact
    { frame := .trans _ _ _ h.frame (.trans _ _ _ hframe.decompress (notify_only _ _ _ _ t).decompress)
      cache := (notify_br _ _ _ _ t).symm ▸ hcache
      snk := by rw [notify_snk, hframe.snk, h.snk]
      written := by rw [notify_d, hframe.d, h.written]
      unread := (notify_unreadBits _ _ _ _ t).trans hrest }

/-- A label's round takes a code of one bit at least, and leaves the fuel for the rest. -/
theorem DecodesOn.fuel_succ {w : Nat} {o : ByteOrder} (hwidth : 1 ≤ w)
    (h : DecodesOn v limit out (codeBits o w code ++ rest) fuel label u) : ∃ k, fuel = k + 1 ∧ rest.length < k := by
  have hfuel := h.fuel_left
  rw [List.length_append, codeBits_length] at hfuel
  exact ⟨fuel - 1, by omega, by omega⟩

/-- A CLEAR, with the budget met or not (44_decompressor.md R150). -/
theorem DecodesOn.clear (hs : SessionRuns v) (hwidth : w0Of v.regs.cfg + 1 ≤ u.d.width) (hhigh : u.d.width ≤ 12)
    (h : DecodesOn v limit out (codeBits (byteOrderOf v.regs.cfg) u.d.width (clearCode v.regs.cfg) ++ rest) fuel label u) :
    ∃ t, t.d = clearedDecompressor v.regs.cfg u.d ∧ DecodedTo v out rest t ∧
      if limit ≤ out.length then decompressAll limit v = .ok () t else ∃ k, DecodesOn v limit out rest k .postClear t := by
  obtain ⟨k, rfl, hk⟩ := h.fuel_succ (by omega)
  have hcode : clearCode v.regs.cfg < 2 ^ u.d.width := Nat.pow_lt_pow_right (by decide) (by omega)
  obtain ⟨t, hnext, hd, ht⟩ := h.toDecodedTo.next_code hs hhigh hcode
  have hclear : clearCode v.regs.cfg ≠ eoiCode v.regs.cfg := by simp [eoiCode]
  have hround : decompressAll limit v =
      if limit ≤ out.length then .ok () (dClearTable t) else dLoop limit k .postClear (dClearTable t) := by
    simp only [h.loop, dLoop, hnext, Res.bind_ok, ht.frame.regs, if_neg hclear, if_true, ht.written]
  have hstands : DecodedTo v out rest (dClearTable t) :=
    { ht with frame := .trans _ _ _ ht.frame (setD_decompress t _) }
  refine ⟨dClearTable t, by rw [dClearTable, State.setD_d, ht.frame.regs, hd], hstands, ?_⟩
  split
  · next hbudget => rw [hround, if_pos hbudget]
  · next hbudget => exact ⟨k, { hstands with loop := by rw [hround, if_neg hbudget], fuel_left := hk }⟩

/-- A data code: its string is emitted, and then the budget decides (44_decompressor.md R150, R158). -/
theorem DecodesOn.data (hs : SessionRuns v) (hlow : 1 ≤ u.d.width) (hhigh : u.d.width ≤ 12) (hcode : code < 2 ^ u.d.width)
    (hclear : code ≠ clearCode v.regs.cfg) (heoi : code ≠ eoiCode v.regs.cfg)
    (hgives : DataCodeGives v.regs.cfg label code u.d str d')
    (h : DecodesOn v limit out (codeBits (byteOrderOf v.regs.cfg) u.d.width code ++ rest) fuel label u) :
    ∃ t, t.d = d' ∧ DecodedTo v (out ++ str) rest t ∧
      if limit ≤ (out ++ str).length then decompressAll limit v = .ok () t
      else ∃ k, DecodesOn v limit (out ++ str) rest k .code t := by
  obtain ⟨k, rfl, hk⟩ := h.fuel_succ hlow
  obtain ⟨t, hnext, hd, ht⟩ := h.toDecodedTo.next_code hs hhigh hcode
  have hdata := hgives.runs t hd (congrArg Regs.cfg ht.frame.regs) (hs.accepts.later ht.frame.grow)
  have hwritten : d'.written = (out ++ str).length := by
    rw [hgives.written, ← hd, ht.written, List.length_append]
  have hround : decompressAll limit v =
      if limit ≤ (out ++ str).length then .ok () ((emitted str t).setD d')
      else dLoop limit k .code ((emitted str t).setD d') := by
    simp only [h.loop, dLoop, hnext, Res.bind_ok, ht.frame.regs, if_neg hclear, if_neg heoi, hdata, State.setD_d, hwritten]
  have hframe := dDataCode_decompress label code t
  rw [hdata] at hframe
  have hstands : DecodedTo v (out ++ str) rest ((emitted str t).setD d') :=
    { frame := .trans _ _ _ ht.frame hframe
      cache := ht.cache
      snk := by rw [State.setD_io, emitted_snk, ht.snk, List.append_assoc]
      written := hwritten
      unread := ht.unread }
  refine ⟨_, rfl, hstands, ?_⟩
  split
  · next hbudget => rw [hround, if_pos hbudget]
  · next hbudget => exact ⟨k, { hstands with loop := by rw [hround, if_neg hbudget], fuel_left := hk }⟩

end

end Sys2Proof.Machine
end

section
/-! SUPPORT. D one entry behind C (44_decompressor.md R153, R154, 43_compressor.md R134, R136): how D's table and width stand to C's
when D has read every code that C has written. -/

namespace Sys2Proof.Machine

/-- What `cfgD` must have in common with the `cfgC` that a stream was written under (44_decompressor.md R160). -/
structure ReadsBack (cfgC cfgD : Word) : Prop where
  w0 : w0Of cfgD = w0Of cfgC
  order : byteOrderOf cfgD = byteOrderOf cfgC
  flag : tmOf cfgD = elOf cfgC

theorem ReadsBack.clear_eq {cfgC cfgD : Word} (h : ReadsBack cfgC cfgD) : clearCode cfgD = clearCode cfgC := by
  rw [clearCode, clearCode, h.w0]

/-- Between two input bytes of C. Behind a CLEAR D has C's table; after a first data code the last entry of C's is not yet in D's:
it is the string of `D_OLD` and the first byte of C's run. -/
inductive InStep (cfg : Word) (c : Compressor) : DLabel → Decompressor → Prop
  | cleared {d : Decompressor} (htable : d.table = c.dict) (hfirst : c.codes = firstFree cfg) (hcodes : d.codes = c.codes)
      (hwidth : d.width = c.width) : InStep cfg c .postClear d
  | behind {d : Decompressor} {old : Nat} {oldStr : ByteString} (hold : d.old = some old)
      (hget : tableGet old d.table = some oldStr) (hne : oldStr ≠ []) (hrun : c.run ≠ [])
      (hdict : c.dict = d.table ++ [(d.codes, withFirstOf oldStr c.run)]) (hcodes : c.codes = d.codes + 1)
      (hwidth : d.width = c.width) : InStep cfg c .code d

/-- Between C's writing the code of its run and its new entry: D has read that code, and has C's table. -/
structure CaughtUp (cfg : Word) (c : Compressor) (d : Decompressor) : Prop where
  old : ∃ code, d.old = some code ∧ tableGet code d.table = some c.run
  table : d.table = c.dict
  codes : d.codes = c.codes
  width : d.width = if c.codes = effectiveLimit c.width (elOf cfg) ∧ c.width < maxWidth then c.width + 1 else c.width

section
variable {cfg cfgD : Word} {c : Compressor} {d : Decompressor} {label : DLabel} {code : Nat}

theorem InStep.width (h : InStep cfg c label d) : d.width = c.width := by
  cases h <;> assumption

/-- C's position is not looked at. -/
theorem InStep.withPos (h : InStep cfg c label d) (pos : Nat) : InStep cfg { c with pos := pos } label d := by
  cases h with
  | cleared htable hfirst hcodes hwidth => exact .cleared htable hfirst hcodes hwidth
  | behind hold hget hne hrun hdict hcodes hwidth => exact .behind hold hget hne hrun hdict hcodes hwidth

/-- The run may grow: its first byte stays. -/
theorem InStep.extended (h : InStep cfg c label d) (b : Byte) : InStep cfg { c with run := c.run ++ [b] } label d := by
  cases h with
  | cleared htable hfirst hcodes hwidth => exact .cleared htable hfirst hcodes hwidth
  | behind hold hget hne hrun hdict hcodes hwidth =>
    refine .behind hold hget hne (by simp) ?_ hcodes hwidth
    obtain ⟨x, xs, hxs⟩ := List.exists_cons_of_ne_nil hrun
    simpa [withFirstOf, hxs] using hdict

/-- An entry that a string is found under is the one read by code (10_state.md R32). -/
theorem CompressorSound.get_of_codeOf (h : CompressorSound cfg c) {key : ByteString} (hkey : tableCodeOf key c.dict = some code) :
    tableGet code c.dict = some key := by
  have hmem := tableCodeOf_mem hkey
  obtain ⟨str, hget⟩ := tableGet_of_code (List.mem_map.mpr ⟨_, hmem, rfl⟩)
  have hcodes := ((codesRising_iff c.dict).mp (codesRising_assigned h.assigned)).imp fun hlt => Nat.ne_of_lt hlt
  have hsame := List.inj_on_of_nodup_map hcodes (tableGet_mem hget) hmem rfl
  rw [hget, (Prod.mk.inj hsame).2]

/-- A code that C writes is neither CLEAR nor EOI (10_state.md R32). -/
theorem CompressorSound.code_not_reserved (h : CompressorSound cfg c) {key : ByteString}
    (hkey : tableCodeOf key c.dict = some code) : code ≠ clearCode cfg ∧ code ≠ eoiCode cfg := by
  have hcode : code ∈ assignedCodes cfg c.codes :=
    h.assigned ▸ List.mem_map.mpr ⟨_, tableCodeOf_mem hkey, rfl⟩
  rw [mem_assignedCodes h.codes_low, firstFree] at hcode
  rw [eoiCode]
  omega

theorem CompressorSound.codes_le (h : CompressorSound cfg c) : c.codes ≤ 4096 :=
  h.codes_high.trans ((effectiveLimit_le _ _).trans (pow_le_tableSize h.width_high))

/-- With the table just cleared C's codes are the literals (43_compressor.md R131). -/
theorem CompressorSound.code_lt_clear (h : CompressorSound cfg c) (hfirst : c.codes = firstFree cfg)
    (hkey : tableCodeOf c.run c.dict = some code) : code < clearCode cfg := by
  have hcode : code ∈ assignedCodes cfg c.codes := h.assigned ▸ List.mem_map.mpr ⟨_, tableCodeOf_mem hkey, rfl⟩
  rw [hfirst, assignedCodes_first] at hcode
  exact List.mem_range.mp hcode

/-- A table that lacks the last entry of C's becomes C's when D appends it (44_decompressor.md R155). -/
theorem CompressorSound.put_last_entry (h : CompressorSound cfg c) {str : ByteString}
    (hdict : c.dict = d.table ++ [(d.codes, str)]) : tablePut d.codes str d.table = c.dict := by
  have hrising := (codesRising_iff c.dict).mp (codesRising_assigned h.assigned)
  rw [hdict, List.map_append] at hrising
  rw [hdict]
  exact tablePut_above (fun e he => (List.pairwise_append.mp hrising).2.2 _ (List.mem_map.mpr ⟨e, he, rfl⟩) _ (by simp)) str

/-- D's growth by the entry that was missing brings it up with C (44_decompressor.md R155, 43_compressor.md R134). -/
theorem caughtUp_of_dGrow (hback : ReadsBack cfg cfgD) (h : CompressorSound cfg c) {str : ByteString}
    (hdict : c.dict = d.table ++ [(d.codes, str)]) (hcodes : c.codes = d.codes + 1) (hwidth : d.width = c.width)
    (hget : tableGet code c.dict = some c.run) (written : Nat) :
    CaughtUp cfg c { dGrow (tmOf cfgD) str d with old := some code, written := written } where
  old := ⟨code, rfl, by rw [← hget]; exact congrArg (tableGet code) (h.put_last_entry hdict)⟩
  table := h.put_last_entry hdict
  codes := hcodes.symm
  width := by simp only [dGrow, hback.flag, hwidth, hcodes]

/-- A string that is another's with its own first byte behind it (44_decompressor.md R154). -/
theorem withFirstOf_self {s t : ByteString} (hne : s ≠ []) (h : withFirstOf s t = t) : withFirstOf s s = t := by
  obtain ⟨x, xs, rfl⟩ := List.exists_cons_of_ne_nil hne
  rw [← h]
  simp only [withFirstOf] at h ⊢
  rw [← h]
  rfl

/-- The code of C's run, read by D: its string is the run, and D has caught up (44_decompressor.md R152 to R154). -/
theorem InStep.run_code (hback : ReadsBack cfg cfgD) (hl : CfgLegal cfg) (h : CompressorSound cfg c)
    (hstep : InStep cfg c label d) (hkey : tableCodeOf c.run c.dict = some code) :
    ∃ d', DataCodeGives cfgD label code d c.run d' ∧ CaughtUp cfg c d' := by
  have hget := h.get_of_codeOf hkey
  have hrun : c.run ≠ [] := fun hnil => h.nil_not_key (hnil ▸ List.mem_map.mpr ⟨_, tableCodeOf_mem hkey, rfl⟩)
  cases hstep with
  | cleared htable hfirst hcodes hwidth =>
    have hlit := h.code_lt_clear hfirst hkey
    have hbelow : c.codes ≠ effectiveLimit c.width (elOf cfg) := by
      have hwider : effectiveLimit (w0Of cfg + 1) (elOf cfg) ≤ effectiveLimit c.width (elOf cfg) :=
        Nat.sub_le_sub_right (Nat.pow_le_pow_right (by decide) h.width_low) _
      have := hl.limit_first (elOf cfg)
      omega
    exact ⟨_, dataCodeGives_postClear (hback.clear_eq ▸ hlit) (htable ▸ hget) hrun,
      ⟨code, rfl, htable ▸ hget⟩, htable, hcodes, by rw [if_neg fun hlim => hbelow hlim.1]; exact hwidth⟩
  | behind hold hgetOld hne _ hdict hcodes hwidth =>
    have hroom : d.codes < 4096 := by have := h.codes_le; omega
    have hcode : code < c.codes := assigned_below h.codes_low h.assigned _ (tableCodeOf_mem hkey)
    have hcaught := caughtUp_of_dGrow hback h hdict hcodes hwidth hget
    rw [← h.put_last_entry hdict] at hget
    rcases Nat.lt_succ_iff_lt_or_eq.mp (hcodes ▸ hcode) with hknown | rfl
    · rw [tableGet_put_other hknown.ne] at hget
      exact ⟨_, dataCodeGives_known hold hknown hget hrun hgetOld hne hroom, hcaught _⟩
    · rw [tableGet_put_same] at hget
      have hstring := withFirstOf_self hne (Option.some.inj hget)
      have hgives := dataCodeGives_cursor (cfg := cfgD) hold hgetOld hne hroom
      rw [hstring] at hgives
      rw [Option.some.inj hget] at hcaught
      exact ⟨_, hgives, hcaught _⟩

/-- The new entry of C is the one that D then misses (43_compressor.md R134, R136). -/
theorem CaughtUp.inserted (h : CompressorSound cfg c) (hd : CaughtUp cfg c d) (hrun : c.run ≠ []) (b : Byte) {w : Nat}
    (hwidth : d.width = w) : InStep cfg { cInsert (c.run ++ [b]) w c with run := [b] } .code d := by
  obtain ⟨code, hold, hget⟩ := hd.old
  refine .behind hold hget hrun (by simp) ?_ (congrArg (· + 1) hd.codes.symm) hwidth
  rw [hd.table, hd.codes]
  exact tablePut_above (assigned_below h.codes_low h.assigned) _

/-- A CLEAR makes D and C the same (43_compressor.md R131, 44_decompressor.md R151). -/
theorem inStep_cleared (hback : ReadsBack cfg cfgD) (c : Compressor) (d : Decompressor) (run : ByteString) :
    InStep cfg { clearedCompressor cfg c with run := run } .postClear (clearedDecompressor cfgD d) := by
  refine .cleared ?_ rfl ?_ ?_
  · simp only [clearedCompressor, clearedDecompressor, hback.clear_eq]
  · simp only [clearedCompressor, clearedDecompressor, firstFree, hback.clear_eq]
  · simp only [clearedCompressor, clearedDecompressor, hback.w0]

end

end Sys2Proof.Machine
end

section
/-! SUPPORT. D following C over a whole input (44_decompressor.md R160): the bits that COMPRESS has written, read by a DECOMPRESS
from its fresh session on, and where they bring it. -/

namespace Sys2Proof.Machine

/-- DECOMPRESS with the budget of the input's length ends OK from `v`, and delivers that input. -/
def Delivered (v : State) (input : List Byte) : Prop :=
  ∃ u rest, decompressAll input.length v = .ok () u ∧ DecodedTo v input rest u

/-- When the bits that C has written from its fresh session `s` to `t` are the first ones that `v` can read, `D` holds of the
rest. -/
def ReadAs (v s t : State) (D : List Bool → Prop) : Prop :=
  ∃ bits, writtenBits t = writtenBits s ++ bits ∧ ∀ rest, unreadBits v = bits ++ rest → D rest

/-- C is behind the bytes `xs` of the input: D has emitted them but for C's run. On an empty input it ends at the CLEAR. -/
inductive Follows (cfg : Word) (v : State) (input xs : List Byte) (c : Compressor) (rest : List Bool) : Prop
  | empty (hnil : input = []) (hdone : Delivered v input)
  | behind (out : ByteString) (fuel : Nat) (label : DLabel) (u : State) (hne : input ≠ []) (hout : out ++ c.run = xs)
      (hu : DecodesOn v input.length out rest fuel label u) (hstep : InStep cfg c label u.d)

/-- C has written the code of its run and not yet added the new entry: D has emitted all of `xs`. -/
def FollowsRun (cfg : Word) (v : State) (input xs : List Byte) (c : Compressor) (rest : List Bool) : Prop :=
  ∃ fuel u, DecodesOn v input.length xs rest fuel .code u ∧ CaughtUp cfg c u.d

/-! ### The bits read -/

section
variable {v s t t' : State} {D D' : List Bool → Prop} {more : List Bool}

theorem ReadAs.writes (h : ReadAs v s t D) (hwritten : writtenBits t' = writtenBits t ++ more)
    (hD : ∀ rest, D (more ++ rest) → D' rest) : ReadAs v s t' D' := by
  obtain ⟨bits, hbits, hread⟩ := h
  refine ⟨bits ++ more, by rw [hwritten, hbits, List.append_assoc], fun rest hrest => hD rest (hread _ ?_)⟩
  rw [hrest, List.append_assoc]

theorem ReadAs.mono (h : ReadAs v s t D) (hwritten : writtenBits t' = writtenBits t) (hD : ∀ rest, D rest → D' rest) :
    ReadAs v s t' D' :=
  h.writes (more := []) (hwritten.trans (List.append_nil _).symm) hD

end

/-! ### D, for each code that C writes -/

section
variable {cfg : Word} {v u : State} {input xs : List Byte} {c : Compressor} {rest : List Bool} {fuel code : Nat} {b : Byte}

/-- The CLEAR that begins the stream (44_decompressor.md R150). -/
theorem follows_start (hback : ReadsBack cfg v.regs.cfg) (hs : SessionRuns v) (hd : u.d = clearedDecompressor v.regs.cfg v.d)
    (hrun : c.run = [])
    (h : DecodesOn v input.length [] (codeBits (byteOrderOf cfg) (clearedCompressor cfg c).width (clearCode cfg) ++ rest) fuel
      .code u) :
    Follows cfg v input [] (clearedCompressor cfg c) rest := by
  have hwidth : u.d.width = w0Of v.regs.cfg + 1 := by rw [hd, clearedDecompressor, hs.legal.widen_w0]
  have hsame : (clearedCompressor cfg c).width = u.d.width := by rw [hd, clearedCompressor, clearedDecompressor, hback.w0]
  rw [hsame, ← hback.order, ← hback.clear_eq] at h
  obtain ⟨t, ht, hstands, hbudget⟩ := h.clear hs hwidth.ge (by have := hs.legal.w0_high; omega)
  split at hbudget
  · next hmet =>
    have hnil : input = [] := List.eq_nil_of_length_eq_zero (Nat.le_zero.mp hmet)
    exact .empty hnil ⟨t, rest, hbudget, hnil ▸ hstands⟩
  · next hleft =>
    obtain ⟨k, hk⟩ := hbudget
    refine .behind [] k .postClear t (fun hnil => hleft (by rw [hnil])) hrun hk ?_
    rw [ht]
    exact inStep_cleared hback c u.d c.run

/-- The input's position is not looked at. -/
theorem Follows.withPos (h : Follows cfg v input xs c rest) (pos : Nat) :
    Follows cfg v input xs { c with pos := pos } rest := by
  cases h with
  | empty hnil hdone => exact .empty hnil hdone
  | behind out fuel label u hne hout hu hstep => exact .behind out fuel label u hne hout hu (hstep.withPos pos)

/-- A byte that extends the run makes C write nothing (43_compressor.md R136). -/
theorem Follows.extended (h : Follows cfg v input xs c rest) (b : Byte) :
    Follows cfg v input (xs ++ [b]) { c with run := c.run ++ [b] } rest := by
  cases h with
  | empty hnil hdone => exact .empty hnil hdone
  | behind out fuel label u hne hout hu hstep =>
    exact .behind out fuel label u hne (by rw [← hout, List.append_assoc]) hu (hstep.extended b)

/-- The code of the run brings D up with C, and ends DECOMPRESS when it was the last of the input (44_decompressor.md R152 to
R154, R158). -/
theorem Follows.run_code (hl : CfgLegal cfg) (hback : ReadsBack cfg v.regs.cfg) (hs : SessionRuns v) (hne : input ≠ [])
    (hsound : CompressorSound cfg c) (hkey : tableCodeOf c.run c.dict = some code)
    (h : Follows cfg v input xs c (codeBits (byteOrderOf cfg) c.width code ++ rest)) :
    ∃ t, DecodedTo v xs rest t ∧ CaughtUp cfg c t.d ∧
      if input.length ≤ xs.length then decompressAll input.length v = .ok () t
      else ∃ k, DecodesOn v input.length xs rest k .code t := by
  cases h with
  | empty hnil => exact absurd hnil hne
  | behind out fuel label u _ hout hu hstep =>
    obtain ⟨d', hgives, hcaught⟩ := hstep.run_code hback hl hsound hkey
    obtain ⟨hclear, heoi⟩ := hsound.code_not_reserved hkey
    rw [← hback.order, ← hstep.width] at hu
    have hlow : 1 ≤ u.d.width := by rw [hstep.width]; exact (Nat.le_add_left 1 _).trans hsound.width_low
    have hhigh : u.d.width ≤ 12 := by rw [hstep.width]; exact hsound.width_high
    obtain ⟨t, rfl, ht, hbudget⟩ := hu.data hs hlow hhigh (by rw [hstep.width]; exact hsound.code_lt hkey)
      (by rwa [hback.clear_eq]) (by rwa [eoiCode, hback.clear_eq]) hgives
    rw [hout] at ht hbudget
    exact ⟨t, ht, hcaught, hbudget⟩

/-- C adds its new entry, and the run begins anew (43_compressor.md R134, R136). -/
theorem FollowsRun.inserted (hne : input ≠ []) (hsound : CompressorSound cfg c) (hrun : c.run ≠ [])
    (h : FollowsRun cfg v input xs c rest)
    (hroom : c.codes ≠ effectiveLimit c.width (elOf cfg) ∨ c.width < maxWidth) (b : Byte) :
    Follows cfg v input (xs ++ [b])
      { cInsert (c.run ++ [b]) (c.width + if c.codes = effectiveLimit c.width (elOf cfg) then 1 else 0) c with run := [b] }
      rest := by
  obtain ⟨fuel, u, hu, hcaught⟩ := h
  refine .behind xs fuel .code u hne rfl hu (hcaught.inserted hsound hrun b ?_)
  rw [hcaught.width]
  by_cases hlim : c.codes = effectiveLimit c.width (elOf cfg)
  · rw [if_pos ⟨hlim, hroom.resolve_left (not_not.mpr hlim)⟩, if_pos hlim]
  · rw [if_neg fun hboth => hlim hboth.1, if_neg hlim]
    rfl

/-- The in-band CLEAR of a full table (43_compressor.md R134, 44_decompressor.md R150). -/
theorem FollowsRun.cleared (hback : ReadsBack cfg v.regs.cfg) (hs : SessionRuns v) (hlt : xs.length < input.length)
    (hwidth : c.width = 12) (h : FollowsRun cfg v input xs c (codeBits (byteOrderOf cfg) c.width (clearCode cfg) ++ rest))
    (b : Byte) : Follows cfg v input (xs ++ [b]) { clearedCompressor cfg c with run := [b] } rest := by
  obtain ⟨fuel, u, hu, hcaught⟩ := h
  have hsame : u.d.width = c.width := by
    rw [hcaught.width, if_neg fun hboth => (hwidth ▸ hboth.2 : 12 < maxWidth).false]
  rw [← hback.order, ← hback.clear_eq, ← hsame] at hu
  obtain ⟨t, ht, -, hbudget⟩ := hu.clear hs (by have := hs.legal.w0_high; omega) (by omega)
  rw [if_neg (Nat.not_le.mpr hlt)] at hbudget
  obtain ⟨k, hk⟩ := hbudget
  refine .behind xs k .postClear t (List.ne_nil_of_length_pos (Nat.zero_lt_of_lt hlt)) rfl hk ?_
  rw [ht]
  exact inStep_cleared hback c u.d [b]

end

/-! ### C, code by code -/

section
variable {cfg : Word} {A : Prop} {v s t : State} {input xs : List Byte}

/-- What writing a code adds to the written bits, where it goes on (43_compressor.md R135). -/
theorem cWriteCode_writes (code : Nat) (kind : EvtKind) (h : CodingSound cfg 7 A t) :
    (cWriteCode code kind t).Leaves
      (fun _ u => CodingSound cfg 7 A u ∧ u.c = t.c ∧ writtenBits u = writtenBits t ++ codeBits (byteOrderOf cfg) t.c.width code)
      fun _ _ _ _ => True :=
  (cWriteCode_meets code kind t h).leaves.mono (fun _ _ ⟨hu, hc, _, _, _, hbits⟩ => ⟨hu, hc, hbits⟩) fun _ _ _ _ _ => trivial

/-- C writes the code of its run (43_compressor.md R136). -/
theorem cWriteRun_writes {D D' : List Bool → Prop} (h : CodingSound cfg 7 A t) (hread : ReadAs v s t D)
    (hD : ∀ code rest, tableCodeOf t.c.run t.c.dict = some code →
      D (codeBits (byteOrderOf cfg) t.c.width code ++ rest) → D' rest) :
    (cWriteRun t).Leaves (fun _ u => CodingSound cfg 7 A u ∧ u.c = t.c ∧ t.c.run ∈ keysOf t.c ∧ ReadAs v s u D')
      fun _ _ _ _ => True := by
  unfold cWriteRun
  split
  · next code hkey =>
    refine (cWriteCode_writes code .data h).mono ?_ fun _ _ _ _ => id
    rintro _ u ⟨hu, hc, hbits⟩
    exact ⟨hu, hc, List.mem_map.mpr ⟨_, tableCodeOf_mem hkey, rfl⟩, hread.writes hbits fun rest => hD code rest hkey⟩
  · trivial

/-- C adds the entry, or clears its table (43_compressor.md R134). -/
theorem cAddTableEntry_followed (hback : ReadsBack cfg v.regs.cfg) (hs : SessionRuns v) (hlt : xs.length < input.length)
    (h : CodingSound cfg 7 A t) (hrun : t.c.run ≠ []) (hread : ReadAs v s t (FollowsRun cfg v input xs t.c)) (b : Byte) :
    (cAddTableEntry (t.c.run ++ [b]) t).Leaves
      (fun _ u => ReadAs v s u (Follows cfg v input (xs ++ [b]) { u.c with run := [b] })) fun _ _ _ _ => True := by
  have hne : input ≠ [] := List.ne_nil_of_length_pos (Nat.zero_lt_of_lt hlt)
  by_cases hroom : t.c.codes ≠ effectiveLimit t.c.width (elOf t.regs.cfg) ∨ t.c.width < maxWidth
  · rw [cAddTableEntry_inserts _ hroom]
    rw [h.cfg_eq] at hroom ⊢
    exact hread.mono rfl fun rest hrest => hrest.inserted hne h.c hrun hroom b
  · obtain ⟨hfull, hwide⟩ := not_or.mp hroom
    have hwidth : t.c.width = 12 := Nat.le_antisymm h.c.width_high (Nat.not_lt.mp hwide)
    rw [cAddTableEntry, if_pos (not_not.mp hfull), if_neg hwide, h.cfg_eq]
    refine (cWriteCode_writes (clearCode cfg) .clear h).bind ?_
    rintro _ u ⟨hu, hc, hbits⟩
    refine hread.writes hbits fun rest hrest => ?_
    rw [cClearTable, State.setC_c, hu.cfg_eq, hc]
    exact hrest.cleared hback hs hlt hwidth b

/-- One iteration of SCAN (43_compressor.md R136). -/
theorem cScanByte_followed (hl : CfgLegal cfg) (hback : ReadsBack cfg v.regs.cfg) (hs : SessionRuns v)
    (hlt : xs.length < input.length) (h : CodingSound cfg 7 A t) (hread : ReadAs v s t (Follows cfg v input xs t.c)) (b : Byte) :
    (cScanByte b t).Leaves (fun _ u => ReadAs v s u (Follows cfg v input (xs ++ [b]) u.c)) fun _ _ _ _ => True := by
  have hne : input ≠ [] := List.ne_nil_of_length_pos (Nat.zero_lt_of_lt hlt)
  unfold cScanByte
  split
  · exact hread.mono rfl fun rest hrest => hrest.extended b
  · have hcode : ∀ code rest, tableCodeOf t.c.run t.c.dict = some code →
        Follows cfg v input xs t.c (codeBits (byteOrderOf cfg) t.c.width code ++ rest) →
        FollowsRun cfg v input xs t.c rest := by
      intro code rest hkey hrest
      obtain ⟨u, -, hcaught, hbudget⟩ := hrest.run_code hl hback hs hne h.c hkey
      rw [if_neg (Nat.not_le.mpr hlt)] at hbudget
      obtain ⟨k, hk⟩ := hbudget
      exact ⟨k, u, hk, hcaught⟩
    refine (cWriteRun_writes h hread hcode).bind ?_
    rintro _ u ⟨hu, hc, hkey, hread'⟩
    have hrun : t.c.run ≠ [] := fun hnil => h.c.nil_not_key (hnil ▸ hkey)
    rw [← hc] at hrun hread' ⊢
    exact (cAddTableEntry_followed hback hs hlt hu hrun hread' b).bind fun _ w hw => hw

/-- SCAN over an input of literals (43_compressor.md R136). -/
theorem Scanned.followed (hl : CfgLegal cfg) (hback : ReadsBack cfg v.regs.cfg) (hs : SessionRuns v) (ys : List Byte)
    (h : Scanned cfg s xs t) (hread : ReadAs v s t (Follows cfg v input xs t.c)) (hinput : xs ++ ys = input)
    (hun : unreadBytes t = ys) (hlit : ∀ y ∈ ys, Literal cfg y) :
    (cScan ys.length t).Meets (fun _ u => Scanned cfg s input u ∧ ReadAs v s u (Follows cfg v input input u.c))
      fun code _ _ u => LiteralsRefused cfg s code u := by
  induction ys generalizing xs t with
  | nil =>
    rw [List.append_nil] at hinput
    subst hinput
    exact cScan_of_end 0 hun h.refused ⟨h.accessMade, hread.mono rfl fun _ => id⟩
  | cons y ys ih =>
    obtain ⟨hy, hys⟩ := List.forall_mem_cons.mp hlit
    have hlt : xs.length < input.length := by simp [← hinput]
    have hfollowed := cScanByte_followed hl hback hs hlt h.toCodingSound.byteTaken
      (hread.mono (t' := byteTaken t) rfl fun _ hrest => hrest.withPos _) y
    refine cScan_of_byte ys.length hun h.refused ?_
    refine ((h.literal hl hun hy).andLeaves hfollowed).mono ?_ fun _ _ _ _ hu => hu.1
    rintro _ u ⟨⟨hu, hrest⟩, hread'⟩
    exact ih hu hread' (by rw [List.append_assoc]; exact hinput) hrest hys

/-- FINISH: the code of the last run completes the input for D, which reads no further (43_compressor.md R136, 44_decompressor.md
R158). -/
theorem cFinish_followed (hl : CfgLegal cfg) (hback : ReadsBack cfg v.regs.cfg) (hs : SessionRuns v)
    (h : Scanned cfg s input t) (hread : ReadAs v s t (Follows cfg v input input t.c)) :
    (cFinish t).Leaves (fun _ u => ReadAs v s u fun _ => Delivered v input) fun _ _ _ _ => True := by
  have hlast : (if t.c.run = [] then Res.ok () t else cWriteRun t).Leaves
      (fun _ u => CodingSound cfg 7 True u ∧ ReadAs v s u fun _ => Delivered v input) fun _ _ _ _ => True := by
    split
    · next hnil =>
      refine ⟨h.toCodingSound, hread.mono rfl fun rest hrest => ?_⟩
      cases hrest with
      | empty _ hdone => exact hdone
      | behind _ _ _ _ hne => exact absurd (h.run_nil.mp hnil) hne
    · next hrun =>
      refine (cWriteRun_writes h.toCodingSound hread ?_).mono (fun _ _ ⟨hu, _, _, hread'⟩ => ⟨hu, hread'⟩) fun _ _ _ _ => id
      intro code rest hkey hrest
      obtain ⟨u, hu, -, hbudget⟩ := hrest.run_code hl hback hs (fun hnil => hrun (h.run_nil.mpr hnil)) h.c hkey
      rw [if_pos (Nat.le_refl _)] at hbudget
      exact ⟨u, rest, hbudget, hu⟩
  refine hlast.bind ?_
  rintro _ u ⟨hu, hdone⟩
  refine (cWriteCode_writes _ .eoi hu).bind ?_
  rintro _ w ⟨hw, -, hbits⟩
  exact (bwFlush_meets w (hw.bw.mono (by decide))).leaves.mono
    (fun _ _ ⟨_, _, hpad⟩ => (hdone.writes hbits fun _ => id).writes hpad fun _ => id) fun _ _ _ _ _ => trivial

/-- COMPRESS of an input of literals, from its fresh session to its end: what it writes makes DECOMPRESS deliver the input
(44_decompressor.md R160). -/
theorem FreshSession.followed {len : Word} {u : State} (h : FreshSession cfg s) (hlit : ∀ x ∈ unreadBytes s, Literal cfg x)
    (hback : ReadsBack cfg u.regs.cfg) (hs : SessionRuns (freshDecompress len u)) :
    (compressAll s).Meets
      (fun _ t => Completed cfg s t ∧
        ReadAs (freshDecompress len u) s t fun _ => Delivered (freshDecompress len u) (unreadBytes s))
      fun code _ _ t => LiteralsRefused cfg s code t := by
  have hclear : CodingSound cfg 7 True (cClearTable s) :=
    cClearTable_sound h.legal h.cfg_eq (by simp [h.run]) (h.bw ▸ cacheSound_zero) h.run
  have hc : (cClearTable s).c = clearedCompressor cfg s.c := by rw [cClearTable, State.setC_c, h.cfg_eq]
  have hstart := h.start.andLeaves (cWriteCode_writes (clearCode s.regs.cfg) .clear hclear)
  refine (hstart.mono (fun _ _ => id) fun _ _ _ _ ht => ht.1).bind ?_
  rintro _ t ⟨⟨ht, hun⟩, -, htc, hbits⟩
  have hread : ReadAs (freshDecompress len u) s t (Follows cfg (freshDecompress len u) (unreadBytes s) [] t.c) := by
    refine ⟨_, hbits, fun rest hrest => ?_⟩
    have hstart := freshDecompress_decodesOn (unreadBytes s).length len u
    rw [hrest, hc, h.cfg_eq] at hstart
    rw [htc, hc]
    exact follows_start hback hs rfl h.run hstart
  rw [unreadBytes_length, hun]
  refine (ht.followed (v := freshDecompress len u) h.legal hback hs (unreadBytes s) hread rfl hun hlit).bind ?_
  rintro _ w ⟨hw, hread'⟩
  have hfinish := cFinish_followed (v := freshDecompress len u) h.legal hback hs hw hread'
  exact (hw.finish.andLeaves hfinish).mono (fun _ _ => id) fun _ _ _ _ hv => hv.1

end

end Sys2Proof.Machine
end

section
/-! The obligation of 44_decompressor.md on the round trip. -/

namespace Sys2Proof.Machine

/-- The bits that a completed COMPRESS wrote are those of the bytes that it added to SNK. -/
theorem Completed.read_back {cfg : Word} {s t v : State} {D : List Bool → Prop} (h : Completed cfg s t) (hbw : s.bw.bits = 0)
    (hread : ReadAs v s t D)
    (hv : unreadBits v = streamBits (byteOrderOf s.regs.cfg) (t.io.snk.drop s.io.snk.length)) : D [] := by
  obtain ⟨bits, hbits, hD⟩ := hread
  obtain ⟨more, hmore⟩ := h.frame.grow.snk
  rw [writtenBits_of_empty h.bits, writtenBits_of_empty hbw, h.frame.regs, ← hmore, streamBits_append] at hbits
  refine hD [] ?_
  rw [hv, ← hmore, List.drop_left, List.append_nil]
  exact List.append_cancel_left hbits

/-- A DECOMPRESS that delivers its input ends OK with its length as RESULT. -/
theorem Delivered.command_ends {u : State} {input : List Byte} {len : Word} (hconf : Configured u)
    (hlen : len.toNat = input.length) (h : Delivered (freshDecompress len u) input) :
    ∃ v, exec (.decompress len) u = .next v ∧ codeField v.regs.status = 0 ∧ v.io.snk = u.io.snk ++ input ∧
      v.regs.result = BitVec.ofNat 32 input.length := by
  obtain ⟨w, rest, hend, hw⟩ := h
  rw [← hlen] at hend
  refine ⟨_, exec_decompress_of_ok hconf hend, codeField_returned _ w, hw.snk, ?_⟩
  rw [takeReturn_regs, ← hw.written]
  rfl

/-- Settles O60: D reads each code of C in step with it, one table entry behind, until the code of the last run meets the budget. -/
theorem roundTrip : Obligations.RoundTrip := by
  intro s u hinvS hconfS hinvU hconfU hsrcS hsnkS hsrcU hsnkU hw0 horder hflag hlit hlen
  have hruns := freshDecompress_runs hinvU hconfU hsrcU hsnkU (BitVec.ofNat 32 (unreadBytes s).length)
  have hends := (freshCompress_session hinvS hconfS).followed hlit ⟨hw0, horder, hflag⟩ hruns
  refine exec_compress_meets hconfS hends ?_ fun code _ _ _ hraise => absurd hraise.1 (not_ioRefused hsrcS hsnkS)
  rintro t ⟨hdone, hread⟩
  refine ⟨codeField_returned _ t, fun hbind => ?_⟩
  have hbits : unreadBits (freshDecompress (BitVec.ofNat 32 (unreadBytes s).length) u) =
      streamBits (byteOrderOf s.regs.cfg) (t.io.snk.drop s.io.snk.length) := by
    rw [← horder]
    exact (freshDecompress_atEpochStart _ u).bits.trans (congrArg (streamBits _) hbind)
  exact (hdone.read_back rfl hread hbits).command_ends hconfU (by rw [BitVec.toNat_ofNat, Nat.mod_eq_of_lt hlen])

end Sys2Proof.Machine
end

section
/-! SUPPORT. The first code of a DECOMPRESS when only the accesses that it takes are known to be answered (44_decompressor.md R150,
R152, R156). -/

namespace Sys2Proof.Machine

section
variable {s : State} {len : Word} {limit : Nat}

/-- The first read takes the code at the start of SRC (44_decompressor.md R156). -/
theorem first_code (hl : CfgLegal s.regs.cfg) (hroom : w0Of s.regs.cfg + 1 ≤ 8 * (unreadBytes s).length)
    (hans : ReadsAnswered s ((w0Of s.regs.cfg + 8) / 8)) :
    ∃ u, dNextCode (dClearTable (freshDecompress len s)) = .ok (sourceCode s 0 (w0Of s.regs.cfg + 1)) u ∧
      AtEpochStart (freshDecompress len s) (w0Of s.regs.cfg + 1) [] none u := by
  have hstart := freshDecompress_counted len s
  have hwidth : (dClearTable (freshDecompress len s)).d.width = w0Of s.regs.cfg + 1 := hl.widen_w0
  have henough : w0Of s.regs.cfg + 1 ≤ (unreadBits (dClearTable (freshDecompress len s))).length := by
    rw [hstart.bits_left]
    exact hroom
  obtain ⟨u, hread, hu⟩ := brRead_of_enough hstart.cache.cache henough hans
  have hpart : u.br.bits ≤ 7 := by
    have hheld : u.br.bits + (w0Of s.regs.cfg + 1) = 0 + 8 * ((w0Of s.regs.cfg + 1 - 0 + 7) / 8) := hu.held
    omega
  have hmoved := hstart.moved hu (refillBytes_le henough) hpart
  rw [Nat.zero_add] at hmoved
  refine ⟨_, ?_, (hmoved.after_event .d .code (sourceCode s 0 (w0Of s.regs.cfg + 1)) u.d.width).toAtEpochStart⟩
  rw [dNextCode, hwidth, hread, hstart.bits]
  rfl

/-- CLEAR with no budget ends DECOMPRESS, D cleared as it was (44_decompressor.md R150). -/
theorem AtEpochStart.clearTable {used : Nat} {t : State} (h : AtEpochStart s used [] none t) :
    AtEpochStart s used [] none (dClearTable t) :=
  { h with
    frame := .trans _ _ _ h.frame (setD_decompress t _)
    d := by rw [dClearTable, State.setD_d, clearedDecompressor_eq, h.frame.regs, h.d]; rfl }

/-- DECOMPRESS whose first code ends it, from its fresh session on. -/
theorem decompressAll_first_code {code : Nat} {u : State}
    (hnext : dNextCode (dClearTable (freshDecompress len s)) = .ok code u)
    (hu : AtEpochStart (freshDecompress len s) (w0Of s.regs.cfg + 1) [] none u)
    (hcode : code = eoiCode s.regs.cfg ∨ (code = clearCode s.regs.cfg ∧ limit = 0) ∨
      (code ≠ clearCode s.regs.cfg ∧ code ≠ eoiCode s.regs.cfg)) :
    ∃ v, AtEpochStart (freshDecompress len s) (w0Of s.regs.cfg + 1) [] none v ∧
      decompressAll limit (freshDecompress len s) =
        if code = eoiCode s.regs.cfg ∨ code = clearCode s.regs.cfg then .ok () v
        else .raised .corruptStreamCode code (firstFree s.regs.cfg) v := by
  have hcfg : u.regs.cfg = s.regs.cfg := by rw [hu.frame.regs]; rfl
  have hold : u.d.old = none := by rw [hu.d]; rfl
  have hcodes : u.d.codes = firstFree s.regs.cfg := by rw [hu.d]; rfl
  rcases hcode with rfl | ⟨rfl, rfl⟩ | ⟨hclear, heoi⟩
  · exact ⟨u, hu, by simp only [decompressAll, dMaxReads, dLoop, hnext, Res.bind_ok, hcfg, if_true, true_or]⟩
  · have hclear : clearCode s.regs.cfg ≠ eoiCode s.regs.cfg := by simp [eoiCode]
    exact ⟨_, hu.clearTable, by
      simp only [decompressAll, dMaxReads, dLoop, hnext, Res.bind_ok, hcfg, if_neg hclear, Nat.zero_le, if_true, or_true]⟩
  · exact ⟨u, hu, by
      simp only [decompressAll, dMaxReads, dLoop, hnext, Res.bind_ok, hcfg, heoi, hclear, if_false, or_false,
        dDataCode_without_old hold, hcodes, Res.bind_raised]⟩

end

end Sys2Proof.Machine
end

section
/-! The obligation of 44_decompressor.md on the first code. -/

namespace Sys2Proof.Machine

/-- Settles O53: the first read is at the start of an epoch, with no `D_OLD`, and leaves it there. -/
theorem decompressFirstCode : Obligations.DecompressFirstCode := by
  rintro s len hinv hconf hroom hans code rfl hcode
  have hl := hinv.configured hconf
  obtain ⟨u, hnext, hu⟩ := first_code (len := len) hl hroom hans
  obtain ⟨v, hv, hend⟩ := decompressAll_first_code (limit := len.toNat) hnext hu
    (hcode.imp_right (Or.imp_left (And.imp_right fun hlen => by rw [hlen]; rfl)))
  have hleft : ∃ t, exec (.decompress len) s = .next t ∧ LeftAtEpochStart s
      (if sourceCode s 0 (w0Of s.regs.cfg + 1) = eoiCode s.regs.cfg ∨
          sourceCode s 0 (w0Of s.regs.cfg + 1) = clearCode s.regs.cfg
        then { returnedRegs 0#32 false s.regs with expectedLen := len }
        else { raisedRegs true .corruptStreamCode (sourceCode s 0 (w0Of s.regs.cfg + 1)) (firstFree s.regs.cfg) s.regs with
          expectedLen := len }) (w0Of s.regs.cfg + 1) [] none t := by
    split
    · next hends => exact hv.returned hinv hconf hroom (hend.trans (if_pos hends))
    · next hraises => exact hv.raised hinv hconf hroom (hend.trans (if_neg hraises))
  obtain ⟨t, hexec, ht⟩ := hleft
  refine ⟨t, hexec, ht.regs, ht.snk.trans (List.append_nil _), ht.srcPos, ht.bits, ?_, ?_, ?_, ?_, fun c => ?_, ht.bw, ht.c,
    ht.port⟩
  · rw [ht.d]; rfl
  · rw [ht.d]; exact hl.widen_w0
  · rw [ht.d]; rfl
  · rw [ht.d]; rfl
  · rw [ht.d]; exact tableGet_cleared _ _ _ c

end Sys2Proof.Machine
end

section
/-! SUPPORT. What DECOMPRESS writes against its budget, however it ends (44_decompressor.md R150, R158, 10_state.md R33,
70_reset_and_hazards.md R208): the bytes counted, how many one code can add, and why it stops. -/

namespace Sys2Proof.Machine

/-! ### One code -/

/-- D appended `n` bytes to SNK, and D_WRITTEN has counted them (44_decompressor.md R158). -/
structure Counted (n : Nat) (s t : State) : Prop where
  snk : t.io.snk.length = s.io.snk.length + n
  written : t.d.written = s.d.written + n

/-- D appended and counted `most` bytes at most. -/
def CountedUpTo (most : Nat) (s t : State) : Prop := ∃ n, n ≤ most ∧ Counted n s t

theorem Counted.refl (s : State) : Counted 0 s s := ⟨rfl, rfl⟩

theorem Counted.then_nothing {n : Nat} (s t u : State) (h : Counted n s t) (h' : Counted 0 t u) : Counted n s u :=
  ⟨h'.snk.trans h.snk, h'.written.trans h.written⟩

theorem CountedUpTo.refl (most : Nat) (s : State) : CountedUpTo most s s := ⟨0, Nat.zero_le _, .refl s⟩

/-- Neither SNK nor D changed. -/
structure NothingEmitted (s t : State) : Prop where
  snk : t.io.snk = s.io.snk
  d : t.d = s.d

theorem NothingEmitted.trans (s t u : State) (h : NothingEmitted s t) (h' : NothingEmitted t u) : NothingEmitted s u :=
  ⟨h'.snk.trans h.snk, h'.d.trans h.d⟩

/-- A read emits nothing (44_decompressor.md R156). -/
theorem dNextCode_emits_nothing (s : State) : (dNextCode s).All (NothingEmitted s) :=
  Res.All.bind NothingEmitted.trans ((brRead_reader _ s).mono fun _ ht => ⟨ht.snk, ht.d⟩)
    fun _ t => ⟨notify_snk _ _ _ _ t, notify_d _ _ _ _ t⟩

/-- The event of a read is the last one, where events are observed (44_decompressor.md R156). -/
theorem dNextCode_event {s : State} (hcache : s.br.cache < 2 ^ s.br.bits) :
    (dNextCode s).Leaves
      (fun code t => obsOf s.regs.cfg = true → ∃ r, t.io.evt = s.io.evt ++ [r] ∧ r.event.v1 = code) fun _ _ _ _ => True := by
  by_cases hobs : obsOf s.regs.cfg = true
  · exact (dNextCode_readWithEvent hobs hcache).mono (fun _ _ ⟨r, hr⟩ _ => ⟨r, hr.evt, hr.code⟩) fun _ _ _ _ _ => trivial
  · exact (dNextCode_emits_nothing s).leaves.mono (fun _ _ _ h => absurd h hobs) fun _ _ _ _ _ => trivial

theorem dAppend_counted (str : ByteString) (code : Nat) (s : State) : (dAppend str code s).All (Counted 0 s) := by
  unfold dAppend
  split
  · exact Counted.refl s
  · exact ⟨rfl, rfl⟩

theorem dEntry_counted (c : Nat) (s : State) : (dEntry c s).All (Counted 0 s) := by
  unfold dEntry
  split
  · exact Counted.refl s
  · trivial
  · trivial

/-- A string emitted, in whole or up to a refused byte, and then no more (44_decompressor.md R158). -/
theorem dEmit_then_nothing {str : ByteString} {most : Nat} {s : State} {k : State → Res Unit} (hlen : str.length ≤ most)
    (hk : ∀ t, (k t).All (Counted 0 t)) : ((dEmit str s).bind fun _ t => k t).All (CountedUpTo most s) := by
  have hemit := dEmit_meets str s
  cases hr : dEmit str s with
  | ok _ t =>
    rw [hr] at hemit
    obtain ⟨hsnk, hd, -⟩ := hemit
    have hcounted : Counted str.length s t := ⟨by rw [hsnk, List.length_append], by rw [hd]⟩
    exact (hk t).mono fun u hu => ⟨_, hlen, .then_nothing _ _ _ hcounted hu⟩
  | raised code i0 i1 t =>
    rw [hr] at hemit
    obtain ⟨-, -, -, ⟨n, hn, hsnk, hd⟩, -⟩ := hemit
    exact ⟨n, hn.le.trans hlen, by rw [hsnk, List.length_append, List.length_take, Nat.min_eq_left hn.le], by rw [hd]⟩
  | fault f => trivial

/-- A data code emits less than the table can hold beside the literals (10_state.md R33, 44_decompressor.md R152 to R154). -/
theorem dDataCode_counted {cfg : Word} {label : DLabel} {code : Nat} {s : State} (h : DecodingSound cfg label s)
    (hcode : code < tableSize) (hclear : code ≠ clearCode cfg) (heoi : code ≠ eoiCode cfg) :
    (dDataCode label code s).All (CountedUpTo (4095 - clearCode cfg) s) := by
  have hfull : s.d.codes ≤ 4096 := h.d.codes_high
  cases label with
  | postClear =>
    rw [dDataCode, dPostClearCode]
    split
    · exact CountedUpTo.refl _ s
    · next hlit =>
      rw [h.cfg_eq, Nat.not_le] at hlit
      obtain ⟨b, rest, hentry, hlen⟩ := dEntry_known h.d (.inl hlit : Known cfg s.d.codes code)
      rw [hentry, Res.bind_ok]
      exact dEmit_then_nothing (by omega) fun t => (⟨rfl, rfl⟩ : Counted 0 t (dSetOld code t))
  | code =>
    rw [dDataCode, dSteadyCode]
    split
    · exact CountedUpTo.refl _ s
    · next old hold =>
      obtain ⟨b, rest, holdEntry, hlenOld⟩ := dEntry_known h.d (h.old rfl old hold)
      split
      · next hlt =>
        have hknown : Known cfg s.d.codes code := by rw [eoiCode] at heoi; rw [Known, firstFree]; omega
        obtain ⟨b', rest', hentry, hlen⟩ := dEntry_known h.d hknown
        rw [dKnown, hentry, Res.bind_ok]
        exact dEmit_then_nothing (by omega) fun t => Res.All.bind Counted.then_nothing (dEntry_counted old t) fun _ u =>
          Res.All.bind Counted.then_nothing (dAppend_counted _ _ u) fun _ w => ⟨rfl, rfl⟩
      · split
        · next hcursor =>
          have hlen : (withFirstOf (b :: rest) (b :: rest)).length ≤ 4095 - clearCode cfg := by
            have hroom : code < 4096 := hcode
            simp only [withFirstOf, List.take_succ_cons, List.take_zero, List.length_append, List.length_singleton]
            omega
          rw [dKwKwK, holdEntry, Res.bind_ok]
          exact dEmit_then_nothing hlen fun t =>
            Res.All.bind Counted.then_nothing (dAppend_counted _ _ t) fun _ w => ⟨rfl, rfl⟩
        · exact CountedUpTo.refl _ s

/-! ### The loop -/

/-- What a DECOMPRESS from `a` has done to SNK by `t`, be it before a raise: D_WRITTEN counts it, and it is past the budget by less
than the longest string. -/
structure Spent (cfg : Word) (a : State) (limit : Nat) (t : State) : Prop where
  counted : t.io.snk.length = a.io.snk.length + t.d.written
  bound : t.d.written + clearCode cfg ≤ limit + 4094

/-- At a label the budget is not met, or nothing can be emitted before a CLEAR (44_decompressor.md R150, R152). -/
structure WithinBudget (cfg : Word) (a : State) (limit : Nat) (label : DLabel) (t : State) : Prop where
  sound : DecodingSound cfg label t
  evt : a.io.evt <+: t.io.evt
  counted : t.io.snk.length = a.io.snk.length + t.d.written
  budget : t.d.written < limit ∨ (label = .code ∧ t.d.old = none ∧ t.d.written = 0)

/-- Why the loop ended OK at `t`: the budget is met, or the last event is that of an EOI (44_decompressor.md R150). -/
def StoppedForAReason (cfg : Word) (a : State) (limit : Nat) (t : State) : Prop :=
  limit ≤ t.d.written ∨
    (obsOf cfg = true → ∃ evt r, t.io.evt = evt ++ [r] ∧ a.io.evt <+: evt ∧ r.event.v1 = eoiCode cfg)

section
variable {cfg : Word} {a t : State} {limit : Nat} {label : DLabel} {code : Nat}

theorem WithinBudget.spent (hl : CfgLegal cfg) (h : WithinBudget cfg a limit label t) : Spent cfg a limit t where
  counted := h.counted
  bound := by
    have := hl.clear_le
    rcases h.budget with hleft | ⟨-, -, hnothing⟩ <;> omega

/-- A read leaves the budget as it is. -/
theorem WithinBudget.next_code (hl : CfgLegal cfg) (h : WithinBudget cfg a limit label t) :
    (dNextCode t).Leaves
      (fun code u => WithinBudget cfg a limit label u ∧ (code < tableSize ∨ code = eoiCode cfg) ∧
        (obsOf cfg = true → ∃ evt r, u.io.evt = evt ++ [r] ∧ a.io.evt <+: evt ∧ r.event.v1 = code))
      fun _ _ _ u => Spent cfg a limit u := by
  refine ((((dNextCode_meets hl t h.sound).andLeaves (dNextCode_event h.sound.br.cache)).andAll
    (dNextCode_emits_nothing t))).leaves.mono ?_ ?_
  · rintro code u ⟨⟨⟨hsound, hd, hsnk, hgrow, hcode⟩, hevent⟩, -⟩
    refine ⟨⟨hsound, h.evt.trans hgrow.evt, by rw [hsnk, hd, h.counted], by rw [hd]; exact h.budget⟩,
      hcode.imp_left And.left, fun hobs => ?_⟩
    obtain ⟨r, hr, hv⟩ := hevent (h.sound.cfg_eq.symm ▸ hobs)
    exact ⟨_, r, hr, h.evt, hv⟩
  · rintro _ _ _ u ⟨-, hsame⟩
    have hspent := h.spent hl
    exact ⟨by rw [hsame.snk, hsame.d]; exact hspent.counted, by rw [hsame.d]; exact hspent.bound⟩

/-- A data code takes D past the budget by less than its string (70_reset_and_hazards.md R208). -/
theorem WithinBudget.data (hl : CfgLegal cfg) (h : WithinBudget cfg a limit label t) (hcode : code < tableSize)
    (hclear : code ≠ clearCode cfg) (heoi : code ≠ eoiCode cfg) :
    (dDataCode label code t).Leaves
      (fun _ u => DecodingSound cfg .code u ∧ a.io.evt <+: u.io.evt ∧ Spent cfg a limit u) fun _ _ _ u => Spent cfg a limit u := by
  rcases h.budget with hleft | ⟨rfl, hold, -⟩
  · have hspent : ∀ u, CountedUpTo (4095 - clearCode cfg) t u → Spent cfg a limit u := by
      rintro u ⟨n, hn, hsnk, hwritten⟩
      have hlow := hl.clear_le
      exact ⟨by rw [hsnk, hwritten, h.counted, Nat.add_assoc], by omega⟩
    refine ((dDataCode_meets hl label code t h.sound hclear heoi).andAll (dDataCode_counted h.sound hcode hclear heoi)).leaves.mono
      ?_ fun _ _ _ u hu => hspent u hu.2
    rintro _ u ⟨⟨hsound, -, hgrow⟩, hcounted⟩
    exact ⟨hsound, h.evt.trans hgrow.evt, hspent u hcounted⟩
  · rw [dDataCode_without_old hold]
    exact h.spent hl

/-- The loop against its budget, however it ends (44_decompressor.md R150). -/
theorem WithinBudget.loop (hl : CfgLegal cfg) (fuel : Nat) (h : WithinBudget cfg a limit label t) :
    (dLoop limit fuel label t).Leaves (fun _ u => Spent cfg a limit u ∧ StoppedForAReason cfg a limit u)
      fun _ _ _ u => Spent cfg a limit u := by
  induction fuel generalizing label t with
  | zero => trivial
  | succ fuel ih =>
    refine (h.next_code hl).bind ?_
    rintro code u ⟨hu, hcode, hevent⟩
    rw [hu.sound.cfg_eq]
    split
    · next heoi => exact ⟨hu.spent hl, .inr (heoi ▸ hevent)⟩
    · next heoi =>
      split
      · have hspent := hu.spent hl
        split
        · next hmet => exact ⟨⟨hspent.counted, hspent.bound⟩, .inl hmet⟩
        · next hleft =>
          have hsound : DecompressorSound cfg (dClearTable u).d := by
            rw [dClearTable, State.setD_d, hu.sound.cfg_eq]
            exact clearedDecompressor_sound hl _ hu.sound.d.old
          exact ih ⟨⟨hu.sound.cfg_eq, hsound, hu.sound.br, fun hlabel => by cases hlabel⟩, hu.evt, hu.counted,
            .inl (Nat.not_le.mp hleft)⟩
      · next hclear =>
        refine (hu.data hl (hcode.resolve_right heoi) hclear heoi).bind ?_
        rintro _ w ⟨hsound, hevt, hspent⟩
        split
        · next hmet => exact ⟨hspent, .inl hmet⟩
        · next hleft => exact ih ⟨hsound, hevt, hspent.counted, .inl (Nat.not_le.mp hleft)⟩

end

/-- DECOMPRESS against its budget, however it ends. -/
theorem exec_decompress_spent {s t : State} {len : Word} (hinv : Inv s) (hconf : Configured s)
    (h : exec (.decompress len) s = .next t) :
    Spent s.regs.cfg s len.toNat t ∧ (codeField t.regs.status = 0 → StoppedForAReason s.regs.cfg s len.toNat t) := by
  have hl := hinv.configured hconf
  have hstart : WithinBudget s.regs.cfg s len.toNat .code (dClearTable (freshDecompress len s)) :=
    { sound := ⟨rfl, clearedDecompressor_sound hl _ (by simp [freshDecompress]), ⟨Nat.one_pos, Nat.zero_le 11⟩,
        fun _ _ hold => by cases hold⟩
      evt := List.prefix_rfl
      counted := rfl
      budget := .inr ⟨rfl, rfl, rfl⟩ }
  have hall := hstart.loop hl (dMaxReads (freshDecompress len s))
  have herror := decompressAll_raisesError len.toNat (freshDecompress len s)
  rw [exec_decompress_of_configured hconf] at h
  rw [decompressAll] at h herror
  cases hend : dLoop len.toNat (dMaxReads (freshDecompress len s)) .code (dClearTable (freshDecompress len s)) with
  | ok _ u =>
    rw [hend] at hall h
    obtain ⟨hspent, hstopped⟩ := hall
    cases h
    exact ⟨⟨hspent.counted, hspent.bound⟩, fun _ => hstopped⟩
  | raised code i0 i1 u =>
    rw [hend] at hall h herror
    cases h
    exact ⟨⟨hall.counted, hall.bound⟩, fun hok => absurd hok (codeField_raised_ne_zero herror false i0 i1 u)⟩
  | fault f =>
    rw [hend] at h
    cases h

end Sys2Proof.Machine
end

section
/-! The obligations of 44_decompressor.md on the budget of DECOMPRESS. -/

namespace Sys2Proof.Machine

/-- The last of the new events, where one came behind those of `s`. -/
theorem newEvents_getLast {s t : State} {evt : List EvtRecord} {r : EvtRecord} (hevt : t.io.evt = evt ++ [r])
    (hold : s.io.evt <+: evt) : (newEvents s t).getLast? = some r := by
  rw [newEvents, hevt, List.drop_append_of_le_length hold.length_le, List.getLast?_concat]

/-- Settles O57: every byte emitted is counted, and the loop ends OK where it finds the budget met or EOI read. -/
theorem decompressStopsForAReason : Obligations.DecompressStopsForAReason := by
  intro s t len hinv hconf hexec
  obtain ⟨hspent, hstopped⟩ := exec_decompress_spent hinv hconf hexec
  refine ⟨hspent.counted, fun hok hobs => (hstopped hok).imp_right fun hevent => ?_⟩
  obtain ⟨evt, r, hevt, hold, hcode⟩ := hevent hobs
  exact ⟨r, newEvents_getLast hevt hold, hcode⟩

/-- Settles O58: the last code was read below the budget, and its string is shorter than the codes from CLEAR up. -/
theorem budgetOvershootIsBounded : Obligations.BudgetOvershootIsBounded := by
  intro s t len hinv hconf hexec
  have hbound := (exec_decompress_spent hinv hconf hexec).1.bound
  refine ⟨hbound, fun hw0 => ?_⟩
  rw [clearCode, hw0] at hbound
  omega

end Sys2Proof.Machine
end

section
/-! SUPPORT. Why a command can end with an error (60_exceptions.md R180, R182), said once for every row of R180: what each unit's
procedures raise, from any state, and with it how every command ends. -/

namespace Sys2Proof.Machine

variable {α : Type}

/-! ### The causes -/

/-- Where the piece raises, `cause` holds. -/
abbrev Res.RaisesBy (r : Res α) (cause : StatusCode → Nat → Nat → State → Prop) : Prop := r.Leaves (fun _ _ => True) cause

/-- The operand that `InvalidArgument(i0, i1)` of a command reports, with the field's number (30_encoding.md R83, 40_config.md
R100). -/
inductive BadOperand : Instr → Nat → Nat → Prop
  | width (w0 bo : Nat) (el tm obs : Bool) : BadOperand (.config w0 bo el tm obs) w0 1
  | tiff (w0 bo : Nat) (el tm obs : Bool) : BadOperand (.config w0 bo el tm obs) w0 3
  | written (value n : Nat) : BadOperand (.bwwrite value n) n 2
  | read (n : Nat) : BadOperand (.brread n) n 2

/-- The commands that access the stream with this number in ERRINFO0 (41_bitreader.md R117, 42_bitwriter.md R120). -/
inductive Accesses : Instr → Nat → Prop
  | brread (n : Nat) : Accesses (.brread n) 0
  | bwwrite (value n : Nat) : Accesses (.bwwrite value n) 1
  | bwflush : Accesses .bwflush 1
  | compressSrc : Accesses .compress 0
  | compressSnk : Accesses .compress 1
  | decompressSrc (len : Word) : Accesses (.decompress len) 0
  | decompressSnk (len : Word) : Accesses (.decompress len) 1

/-- When observed, the last event of `evt` is the read of `code`, and it came behind the events of `s`. -/
def LastRead (s : State) (code : Nat) (evt : List EvtRecord) : Prop :=
  obsOf s.regs.cfg = true → ∃ old r, evt = old ++ [r] ∧ s.io.evt <+: old ∧ r.event.v1 = code

@[simp] theorem newEvents_takeRaise (b : Bool) (code : StatusCode) (i0 i1 : Nat) (s u : State) :
    newEvents s (takeRaise b code i0 i1 u) = newEvents s u := rfl

theorem LastRead.last_event {s t : State} {code : Nat} (h : LastRead s code t.io.evt) (hobs : obsOf s.regs.cfg = true) :
    ∃ r, (newEvents s t).getLast? = some r ∧ BitVec.ofNat 32 code = BitVec.ofNat 32 r.event.v1 := by
  obtain ⟨old, r, hevt, hold, hcode⟩ := h hobs
  exact ⟨r, newEvents_getLast hevt hold, hcode ▸ rfl⟩

/-- Why a configured command that began in `s`, or a CONFIG, can raise `code(i0, i1)` at `u`: the rows of 60_exceptions.md
R180. -/
inductive RaiseCause (s : State) : Instr → StatusCode → Nat → Nat → State → Prop
  | byteOrder (w0 bo : Nat) (el tm obs : Bool) (u : State) :
      RaiseCause s (.config w0 bo el tm obs) .unknownByteOrder bo 0 u
  | lookup (u : State) : RaiseCause s .compress .dictionaryLookupFailure u.c.run.length u.c.pos u
  | corrupt (len : Word) (code : Nat) (u : State) (hread : LastRead s code u.io.evt) :
      RaiseCause s (.decompress len) .corruptStreamCode code u.d.codes u
  | tableFull (len : Word) (code : Nat) (u : State) (hread : LastRead s code u.io.evt) (hfull : tableSize ≤ u.d.codes) :
      RaiseCause s (.decompress len) .tableOverflow u.d.codes code u
  | endInRead (n : Nat) (u : State) (htm : tmOf s.regs.cfg = false) :
      RaiseCause s (.brread n) .prematureEndOfData n u.br.bits u
  | endInCode (len : Word) (u : State) (htm : tmOf s.regs.cfg = false) :
      RaiseCause s (.decompress len) .prematureEndOfData u.d.width u.br.bits u
  | access {i : Instr} {i0 : Nat} (h : Accesses i i0) (u : State) : RaiseCause s i .ioError i0 0 u
  | operand {i : Instr} {i0 i1 : Nat} (h : BadOperand i i0 i1) (u : State) : RaiseCause s i .invalidArgument i0 i1 u

/-! ### BW and BR -/

section
variable {Q : StatusCode → Nat → Nat → State → Prop}

section
variable (hsnk : ∀ u, Q .ioError 1 0 u)
include hsnk

theorem memWrite_raisesBy (b : Byte) (s : State) : (memWrite b s).RaisesBy Q := by
  rcases memWrite_cases b s with ⟨-, h⟩ | ⟨-, h⟩ <;> rw [h]
  · trivial
  · exact hsnk _

theorem bwDrainLoop_raisesBy (fuel : Nat) (s : State) : (bwDrainLoop fuel s).RaisesBy Q := by
  induction fuel generalizing s with
  | zero => trivial
  | succ n ih =>
    rw [bwDrainLoop]
    split
    · exact (memWrite_raisesBy hsnk _ s).bind fun _ _ _ => ih _
    · trivial

theorem bwWrite_raisesBy (v n : Nat) (s : State) : (bwWrite v n s).RaisesBy Q :=
  (bwDrainLoop_raisesBy hsnk _ s).bind fun _ _ _ => bwDrainLoop_raisesBy hsnk _ _

theorem bwFlush_raisesBy (s : State) : (bwFlush s).RaisesBy Q := by
  refine (bwDrainLoop_raisesBy hsnk _ s).bind fun _ t _ => ?_
  split
  · exact (memWrite_raisesBy hsnk _ t).bind fun _ _ _ => trivial
  · trivial

end

section
variable (hsrc : ∀ u, Q .ioError 0 0 u)
include hsrc

theorem memRead_raisesBy (s : State) : (memRead s).RaisesBy Q := by
  rcases memRead_cases s with ⟨b, -, -, h⟩ | ⟨-, -, h⟩ | ⟨-, h⟩ <;> rw [h]
  · trivial
  · trivial
  · exact hsrc _

theorem brRefill_raisesBy (n fuel : Nat) (s : State) : (brRefill n fuel s).RaisesBy Q := by
  induction fuel generalizing s with
  | zero => trivial
  | succ k ih =>
    rw [brRefill]
    split
    · trivial
    · refine (memRead_raisesBy hsrc s).bind fun answer t _ => ?_
      cases answer with
      | none => trivial
      | some b => exact ih _

/-- Beside a refused access only the end of SRC makes `br_read` raise, with `TM = 0` (41_bitreader.md R113). -/
theorem brRead_raisesBy {n : Nat} {s : State}
    (hend : ∀ u, ReaderFrame s u → tmOf u.regs.cfg = false → Q .prematureEndOfData n u.br.bits u) :
    (brRead n s).RaisesBy Q := by
  refine (((brRefill_raisesBy hsrc n n s).andAll (brRefill_reader n n s)).mono (fun _ _ h => h.2)
    fun _ _ _ _ h => h.1).bind fun ending t hframe => ?_
  cases ending with
  | filled => trivial
  | exhausted =>
    cases htm : tmOf t.regs.cfg with
    | true => simp
    | false => simpa [htm] using hend t hframe htm

end
end

/-! ### C -/

section
variable (s : State)

theorem cWriteCode_raisesBy (v : Nat) (kind : EvtKind) (t : State) :
    (cWriteCode v kind t).RaisesBy (RaiseCause s .compress) :=
  bwWrite_raisesBy (.access .compressSnk) _ _ _

theorem cAddTableEntry_raisesBy (key : ByteString) (t : State) :
    (cAddTableEntry key t).RaisesBy (RaiseCause s .compress) := by
  unfold cAddTableEntry
  split
  · split
    · trivial
    · exact (cWriteCode_raisesBy s _ _ t).bind fun _ _ _ => trivial
  · trivial

/-- A run that has no code is reported where it is met (43_compressor.md R136). -/
theorem cWriteRun_raisesBy (t : State) : (cWriteRun t).RaisesBy (RaiseCause s .compress) := by
  unfold cWriteRun
  split
  · exact cWriteCode_raisesBy s _ _ t
  · exact .lookup t

theorem cScanByte_raisesBy (b : Byte) (t : State) : (cScanByte b t).RaisesBy (RaiseCause s .compress) := by
  unfold cScanByte
  split
  · trivial
  · exact (cWriteRun_raisesBy s t).bind fun _ u _ => (cAddTableEntry_raisesBy s _ u).bind fun _ _ _ => trivial

theorem cScan_raisesBy (fuel : Nat) (t : State) : (cScan fuel t).RaisesBy (RaiseCause s .compress) := by
  induction fuel generalizing t with
  | zero =>
    unfold cScan
    refine (memRead_raisesBy (.access .compressSrc) t).bind fun answer u _ => ?_
    cases answer <;> trivial
  | succ k ih =>
    unfold cScan
    refine (memRead_raisesBy (.access .compressSrc) t).bind fun answer u _ => ?_
    cases answer with
    | none => trivial
    | some b => exact (cScanByte_raisesBy s b _).bind fun _ v _ => ih v

theorem cFinish_raisesBy (t : State) : (cFinish t).RaisesBy (RaiseCause s .compress) := by
  have hrun : (if t.c.run = [] then .ok () t else cWriteRun t).RaisesBy (RaiseCause s .compress) := by
    split
    · trivial
    · exact cWriteRun_raisesBy s t
  exact hrun.bind fun _ u _ => (cWriteCode_raisesBy s _ _ u).bind fun _ v _ => bwFlush_raisesBy (.access .compressSnk) v

theorem compressAll_raisesBy (t : State) : (compressAll t).RaisesBy (RaiseCause s .compress) :=
  (cWriteCode_raisesBy s _ _ _).bind fun _ u _ => (cScan_raisesBy s _ u).bind fun _ v _ => cFinish_raisesBy s v

end

/-! ### D -/

/-- Why a data code `code` can raise, read when EVT was `evt` (44_decompressor.md R152, R155, R158). -/
inductive DataCodeCause (code : Nat) (evt : List EvtRecord) : StatusCode → Nat → Nat → State → Prop
  | refused (u : State) : DataCodeCause code evt .ioError 1 0 u
  | corrupt (u : State) (hevt : u.io.evt = evt) : DataCodeCause code evt .corruptStreamCode code u.d.codes u
  | tableFull (u : State) (hevt : u.io.evt = evt) (hfull : tableSize ≤ u.d.codes) :
      DataCodeCause code evt .tableOverflow u.d.codes code u

section
variable {code : Nat} {evt : List EvtRecord}

theorem dEmit_raises (str : ByteString) {t : State} (hevt : t.io.evt = evt) :
    (dEmit str t).Leaves (fun _ u => u.io.evt = evt) (DataCodeCause code evt) := by
  induction str generalizing t with
  | nil => exact hevt
  | cons b rest ih =>
    rw [dEmit]
    rcases memWrite_cases b t with ⟨-, h⟩ | ⟨-, h⟩ <;> rw [h]
    · exact ih hevt
    · exact .refused _

/-- Reading an entry never raises (44_decompressor.md R153). -/
theorem dEntry_raises (c : Nat) (t : State) : (dEntry c t).Leaves (fun _ u => u = t) (DataCodeCause code evt) :=
  (dEntry_reads c t).mono (fun _ _ h => h.1) fun _ _ _ _ => False.elim

/-- The end of a data code raises where the table is full (44_decompressor.md R155). -/
theorem dAppend_setOld_raises (str : ByteString) {t : State} (hevt : t.io.evt = evt) :
    ((dAppend str code t).bind fun _ u => Res.ok () (dSetOld code u)).RaisesBy (DataCodeCause code evt) := by
  unfold dAppend
  split
  · next hfull => exact .tableFull t hevt hfull
  · trivial

theorem dKnown_raises (old : Nat) {t : State} (hevt : t.io.evt = evt) :
    (dKnown code old t).RaisesBy (DataCodeCause code evt) := by
  refine (dEntry_raises code t).bind ?_
  rintro str _ rfl
  refine (dEmit_raises str hevt).bind fun _ u hu => (dEntry_raises old u).bind ?_
  rintro oldStr _ rfl
  exact dAppend_setOld_raises _ hu

theorem dKwKwK_raises (old : Nat) {t : State} (hevt : t.io.evt = evt) :
    (dKwKwK code old t).RaisesBy (DataCodeCause code evt) := by
  refine (dEntry_raises old t).bind ?_
  rintro oldStr _ rfl
  exact (dEmit_raises _ hevt).bind fun _ _ hu => dAppend_setOld_raises _ hu

/-- A data code raises CorruptStreamCode before it emits, and TableOverflow behind the string it emitted. -/
theorem dDataCode_raises (label : DLabel) {t : State} (hevt : t.io.evt = evt) :
    (dDataCode label code t).RaisesBy (DataCodeCause code evt) := by
  cases label with
  | code =>
    rw [dDataCode, dSteadyCode]
    split
    · exact .corrupt t hevt
    · split
      · exact dKnown_raises _ hevt
      · split
        · exact dKwKwK_raises _ hevt
        · exact .corrupt t hevt
  | postClear =>
    rw [dDataCode, dPostClearCode]
    split
    · exact .corrupt t hevt
    · refine (dEntry_raises code t).bind ?_
      rintro str _ rfl
      exact (dEmit_raises str hevt).bind fun _ _ _ => trivial

end

/-- The cause of a data code's raise is one of its DECOMPRESS, where its read is the last event. -/
theorem DataCodeCause.raiseCause {s u : State} {len : Word} {c : StatusCode} {code i0 i1 : Nat} {evt : List EvtRecord}
    (h : DataCodeCause code evt c i0 i1 u) (hread : LastRead s code evt) : RaiseCause s (.decompress len) c i0 i1 u := by
  cases h with
  | refused => exact .access (.decompressSnk len) u
  | corrupt _ hevt => exact .corrupt len code u (hevt ▸ hread)
  | tableFull _ hevt hfull => exact .tableFull len code u (hevt ▸ hread) hfull

section
variable {s t : State} (len : Word) (h : EmitsOnly DecompressKind s t)
include h

/-- A read is the last event where it goes on; where it raises, SRC refused it or ended (44_decompressor.md R156). -/
theorem dNextCode_raises :
    (dNextCode t).Leaves (fun code u => EmitsOnly DecompressKind s u ∧ LastRead s code u.io.evt)
      (RaiseCause s (.decompress len)) := by
  have hread : (brRead t.d.width t).RaisesBy (RaiseCause s (.decompress len)) :=
    brRead_raisesBy (.access (.decompressSrc len)) fun u hu htm => by
      rw [hu.regs, h.cfg] at htm
      exact hu.d ▸ .endInCode len u htm
  refine ((hread.andAll (brRead_reader t.d.width t)).mono (fun _ _ hu => hu.2) fun _ _ _ _ hu => hu.1).bind fun r u hu => ?_
  have hsu := h.trans ((emitsOnly_primitives DecompressKind).reader t u hu)
  have hkind : DecompressKind .d (readEvtKind r.2) := by
    cases r.2 with
    | code => exact ⟨rfl, .inl rfl⟩
    | sentinel => exact ⟨rfl, .inr rfl⟩
  refine ⟨hsu.trans (notify_emitsOnly hkind _ _ u), fun hobs => ?_⟩
  obtain ⟨new, hnew, -⟩ := hsu.evt
  rw [notify_on (hsu.cfg.symm ▸ hobs)]
  exact ⟨u.io.evt, _, rfl, ⟨new, hnew.symm⟩, rfl⟩

theorem dLoop_raisesBy (limit fuel : Nat) (label : DLabel) :
    (dLoop limit fuel label t).RaisesBy (RaiseCause s (.decompress len)) := by
  induction fuel generalizing label t with
  | zero => trivial
  | succ fuel ih =>
    refine (dNextCode_raises len h).bind ?_
    rintro code u ⟨hu, hlast⟩
    have hdata := ((dDataCode_raises (code := code) label (t := u) rfl).andAll
      ((emitsOnly_primitives DecompressKind).dDataCode label code u)).mono (fun _ _ hv => hu.trans hv.2)
      fun _ _ _ _ hv => hv.1.raiseCause (len := len) hlast
    split
    · trivial
    · split
      · split
        · trivial
        · exact ih (hu.trans ((emitsOnly_primitives DecompressKind).setD u _)) .postClear
      · refine hdata.bind fun _ v hv => ?_
        split
        · trivial
        · exact ih hv .code

end

theorem decompressAll_raisesBy (s : State) (len : Word) :
    (decompressAll len.toNat (freshDecompress len s)).RaisesBy (RaiseCause s (.decompress len)) :=
  have hstart : EmitsOnly DecompressKind s (dClearTable (freshDecompress len s)) := .of_same_evt rfl rfl
  dLoop_raisesBy len hstart _ _ _

/-! ### Whole commands -/

/-- The ends of a command from `s`: a return, the configuration check's raise, or one of a row of 60_exceptions.md R180. -/
inductive CauseOfEnd (i : Instr) (s : State) : State → Prop
  | returned (r : Returned) (u : State) : CauseOfEnd i s (takeReturn r u)
  | unconfigured (hi : isConfig i = false) (hs : configuredFlag s.regs.status = false) :
      CauseOfEnd i s (s.setRegs (raisedRegs false .notConfigured (opcodeOfInstr i) 0 s.regs))
  | raised {code : StatusCode} {i0 i1 : Nat} {u : State} (h : RaiseCause s i code i0 i1 u) :
      CauseOfEnd i s (takeRaise (isConfig i) code i0 i1 u)

/-- For a command that begins with the configuration check it is enough to say why its body can raise. -/
theorem causeOfEnd_of_body {i : Instr} {op : Nat} {s t : State} {body : State → Res Returned} (hi : isConfig i = false)
    (hexec : exec i s = endCommand false (whenConfigured op s body)) (hbody : (body s).RaisesBy (RaiseCause s i))
    (h : exec i s = .next t) : CauseOfEnd i s t := by
  cases hs : configuredFlag s.regs.status with
  | false =>
    rw [exec_unconfigured hi hs] at h
    cases h
    exact .unconfigured hi hs
  | true =>
    rw [hexec, whenConfigured_on hs] at h
    rcases endCommand_next h with ⟨r, u, -, rfl⟩ | ⟨code, i0, i1, u, hr, rfl⟩
    · exact .returned r u
    · rw [hr] at hbody
      exact hi ▸ .raised hbody

theorem ConfigFault.raiseCause {w0 bo i0 i1 : Nat} {tm : Bool} {code : StatusCode} (h : ConfigFault w0 bo tm code i0 i1)
    (el obs : Bool) (s : State) : RaiseCause s (.config w0 bo el tm obs) code i0 i1 s := by
  cases h with
  | byteOrder => exact .byteOrder ..
  | width => exact .operand (.width ..) s
  | tiff => exact .operand (.tiff ..) s

theorem exec_causeOfEnd {i : Instr} {s t : State} (h : exec i s = .next t) : CauseOfEnd i s t := by
  cases i with
  | config w0 bo el tm obs =>
    rcases exec_config_cases h with ⟨code, i0, i1, hfault, rfl⟩ | ⟨-, rfl⟩
    · exact takeRaise_of_config code i0 i1 s ▸ .raised (hfault.raiseCause el obs s)
    · exact .returned ..
  | bwwrite value n =>
    refine causeOfEnd_of_body rfl rfl ?_ h
    split
    · exact .operand (.written value n) s
    · exact (bwWrite_raisesBy (.access (.bwwrite value n)) value n s).bind fun _ _ _ => trivial
  | bwflush =>
    exact causeOfEnd_of_body rfl rfl ((bwFlush_raisesBy (.access .bwflush) s).bind fun _ _ _ => trivial) h
  | brread n =>
    refine causeOfEnd_of_body rfl rfl ?_ h
    split
    · exact .operand (.read n) s
    · exact (brRead_raisesBy (.access (.brread n)) fun u hu htm => .endInRead n u (hu.regs ▸ htm)).bind fun _ _ _ => trivial
  | brreset => exact causeOfEnd_of_body rfl rfl trivial h
  | compress => exact causeOfEnd_of_body rfl rfl ((compressAll_raisesBy s _).bind fun _ _ _ => trivial) h
  | decompress len => exact causeOfEnd_of_body rfl rfl ((decompressAll_raisesBy s len).bind fun _ _ _ => trivial) h

end Sys2Proof.Machine
end

section
/-! The obligations of 60_exceptions.md on the causes of errors. -/

namespace Sys2Proof.Machine

/-- Settles O30: the configuration check comes before the body of every command but CONFIG. -/
theorem notConfiguredGate : Obligations.NotConfiguredGate := fun _ _ => exec_unconfigured

/-- Settles O18: each end of a command has one status, and its cause gives the command and the registers of that row. -/
theorem errorCausesAndInfo : Obligations.ErrorCausesAndInfo := by
  intro i s t h
  cases exec_causeOfEnd h with
  | returned r u => simp [returnedRegs, statusNumber]
  | unconfigured hi hs => simp [raisedRegs, statusNumber, hi, hs]
  | raised hcause =>
    cases hcause with
    | byteOrder w0 bo el tm obs u => simp [raisedRegs, statusNumber]
    | lookup u => simp [raisedRegs, statusNumber]
    | corrupt len code u hread => simpa [raisedRegs, statusNumber] using LastRead.last_event hread
    | tableFull len code u hread hfull =>
      simpa [raisedRegs, statusNumber, tableSize] using And.intro hfull (LastRead.last_event hread)
    | endInRead n u htm => simp [raisedRegs, statusNumber, htm]
    | endInCode len u htm => simp [raisedRegs, statusNumber, htm]
    | access haccess u => cases haccess <;> simp [raisedRegs, statusNumber]
    | operand hbad u => cases hbad <;> simp [raisedRegs, statusNumber]

end Sys2Proof.Machine
end

section
/-! SUPPORT. A step at a port whose head is no whole command (70_reset_and_hazards.md R200, 20_memory.md R50, 60_exceptions.md
R195): the host's action is done, or the block waits. -/

namespace Sys2Proof.Machine

/-- An action that is no command word is taken whole. -/
theorem fetch_host {a : HostAction} (h : ∀ w, a ≠ .word w) (rest : List HostAction) : fetch (a :: rest) = .host a rest := by
  cases a with
  | word w => exact absurd rfl (h w)
  | _ => rfl

/-- Resets behind the first word of a two-word command do not complete it (30_encoding.md R80). -/
theorem fetch_awaiting {w : Word} (h : opcodeOf w = 0x40) (k : Nat) :
    fetch (.word w :: List.replicate k .reset) = .awaitingOperand := by
  rw [fetch, if_pos (commandWords_eq_two.mpr h), fetchOperand_awaiting]

theorem step_of_host {s : State} {a : HostAction} {rest : List HostAction} (hport : s.port = a :: rest)
    (h : ∀ w, a ≠ .word w) : step s = .next (hostAct a (s.setPort rest)) := by
  rw [step, hport, fetch_host h]

theorem step_of_idle {s : State} (h : s.port = []) : step s = .next s := by
  rw [step, h, fetch]

theorem step_of_awaiting {s : State} (h : fetch s.port = .awaitingOperand) : step s = .next s := by
  rw [step, h]

/-- A reset leaves the streams and the port, and nothing else (70_reset_and_hazards.md R200). -/
theorem hostAct_reset (s : State) : hostAct .reset s = { State.reset with io := s.io, port := s.port } := rfl

theorem hostAct_bindSrc (bytes : List Byte) (s : State) :
    hostAct (.bindSrc bytes) s = { s with io := { s.io with src := bytes, srcPos := 0 } } := rfl

theorem hostAct_bindSnk (bytes : List Byte) (s : State) :
    hostAct (.bindSnk bytes) s = { s with io := { s.io with snk := bytes } } := rfl

end Sys2Proof.Machine
end

section
/-! The obligations of 70_reset_and_hazards.md on the host's actions and the waiting block. -/

namespace Sys2Proof.Machine

/-- Settles O2: the step takes the action off the port and does it, and `hostAct` writes no more than the claim names. -/
theorem hostActionsBetweenCommands : Obligations.HostActionsBetweenCommands := by
  intro s rest bytes
  refine ⟨fun hport => ?_, fun hport => ?_, fun hport => ?_⟩
  · rw [step_of_host hport nofun, hostAct_reset, State.setPort_io, State.setPort_port]
  · rw [step_of_host hport nofun, hostAct_bindSrc]
    rfl
  · rw [step_of_host hport nofun, hostAct_bindSnk]
    rfl

/-- Settles O3: an empty port and a first word with only resets behind it give `fetch` no whole command. -/
theorem idleBlockWaits : Obligations.IdleBlockWaits := by
  intro s
  refine ⟨step_of_idle, fun w k hport hop => step_of_awaiting ?_⟩
  rw [hport, fetch_awaiting hop]

end Sys2Proof.Machine
end

section
/-! SUPPORT. A constructed block (10_state.md R31 to R33): what `Inv` says of it while a command runs, and how a command's end gives
`Inv` back. -/

namespace Sys2Proof.Machine

/-- The block under a legal CFG, its outcome registers aside: every unit is sound and SRC's position is in range (10_state.md R21, R31
to R33). BW may hold what a failed write left. -/
structure Constructed (s : State) : Prop where
  legal : CfgLegal s.regs.cfg
  bw : CacheSound 19 s.bw
  br : CacheSound 11 s.br
  c : CompressorSound s.regs.cfg s.c
  d : DecompressorSound s.regs.cfg s.d
  src_pos : s.io.srcPos ≤ s.io.src.length

theorem not_cfgLegal_zero : ¬ CfgLegal 0#32 := fun h => absurd h.w0_low (by decide)

theorem Inv.constructed {s : State} (h : Inv s) (hl : CfgLegal s.regs.cfg) : Constructed s :=
  ⟨hl, h.bw, h.br, h.compressor hl, h.decompressor hl, h.src_pos⟩

section
variable {s t : State}

/-- Under a legal CFG it is enough to look at STATUS and at BW's latch. -/
theorem Constructed.inv (h : Constructed s) (hstatus : StatusSound s.regs.status)
    (hlatched : 7 < s.bw.bits → errLatchFlag s.regs.status = true) : Inv s where
  cfg := .inr h.legal
  status := hstatus
  configured := fun _ => h.legal
  bw := h.bw
  bw_latched := hlatched
  br := h.br
  stores := (memory_wf_iff s).mpr ⟨codesRising_assigned h.c.assigned, codesRising_assigned h.d.assigned⟩
  src_pos := h.src_pos
  unconstructed := fun hzero => absurd (hzero ▸ h.legal) not_cfgLegal_zero
  compressor := fun _ => h.c
  decompressor := fun _ => h.d

/-- A raise latches the error, whatever BW holds (60_exceptions.md R181, R184). -/
theorem Constructed.raised (h : Constructed s) (b : Bool) (code : StatusCode) (i0 i1 : Nat) :
    Inv (takeRaise b code i0 i1 s) :=
  have hraised : Constructed (takeRaise b code i0 i1 s) := ⟨h.legal, h.bw, h.br, h.c, h.d, h.src_pos⟩
  hraised.inv (statusSound_raise b _) fun _ => errLatchFlag_statusWord _ _ _ _

/-- A return keeps the latch, so BW holds more than 7 bits only behind an earlier error (60_exceptions.md R181). -/
theorem Constructed.returned (h : Constructed s) (hlatched : 7 < s.bw.bits → errLatchFlag s.regs.status = true) (r : Returned) :
    Inv (takeReturn r s) :=
  have hreturned : Constructed (takeReturn r s) := ⟨h.legal, h.bw, h.br, h.c, h.d, h.src_pos⟩
  hreturned.inv (statusSound_return _ _) fun hbits => (errLatchFlag_statusWord _ _ _ _).trans (hlatched hbits)

/-- BW's procedures keep the block sound where they keep BW sound. -/
theorem Constructed.writer (h : Constructed s) (hf : WriterFrame s t) (hbw : CacheSound 19 t.bw) : Constructed t where
  legal := hf.regs ▸ h.legal
  bw := hbw
  br := hf.br ▸ h.br
  c := hf.regs ▸ hf.c ▸ h.c
  d := hf.regs ▸ hf.d ▸ h.d
  src_pos := hf.grow.inRange h.src_pos

/-- BR's procedures keep the block sound where they keep BR sound. -/
theorem Constructed.reader (h : Constructed s) (hf : ReaderFrame s t) (hbr : CacheSound 11 t.br) : Constructed t where
  legal := hf.regs ▸ h.legal
  bw := hf.bw ▸ h.bw
  br := hbr
  c := hf.regs ▸ hf.c ▸ h.c
  d := hf.regs ▸ hf.d ▸ h.d
  src_pos := hf.grow.inRange h.src_pos

/-- COMPRESS keeps the block sound where it keeps C and BW sound. -/
theorem Constructed.compress (h : Constructed s) (hf : CompressFrame s t) (hc : CompressorSound s.regs.cfg t.c)
    (hbw : CacheSound 19 t.bw) : Constructed t where
  legal := hf.regs ▸ h.legal
  bw := hbw
  br := hf.br ▸ h.br
  c := hf.regs ▸ hc
  d := hf.regs ▸ hf.d ▸ h.d
  src_pos := hf.grow.inRange h.src_pos

/-- DECOMPRESS keeps the block sound where it keeps D and BR sound. -/
theorem Constructed.decompress (h : Constructed s) (hf : DecompressFrame s t) (hd : DecompressorSound s.regs.cfg t.d)
    (hbr : CacheSound 11 t.br) : Constructed t where
  legal := hf.regs ▸ h.legal
  bw := hf.bw ▸ h.bw
  br := hbr
  c := hf.regs ▸ hf.c ▸ h.c
  d := hf.regs ▸ hd
  src_pos := hf.grow.inRange h.src_pos

end

/-! ### The bodies of the commands -/

/-- A body keeps the block sound, and where it returns BW holds more than 7 bits only with the error latched. -/
def Res.KeepsConstructed (r : Res Returned) : Prop :=
  r.Meets (fun _ t => Constructed t ∧ (7 < t.bw.bits → errLatchFlag t.regs.status = true)) fun _ _ _ t => Constructed t

theorem Res.KeepsConstructed.ends {r : Res Returned} (h : r.KeepsConstructed) (b : Bool) :
    ∃ t, endCommand b r = .next t ∧ Inv t :=
  endCommand_meets h (fun x _ ht => ht.1.returned ht.2 x) fun code i0 i1 _ ht => ht.raised b code i0 i1

section
variable {s : State} (h : Constructed s)
include h

theorem Constructed.bwwrite (value n : Nat) (hn : n ≤ 12) :
    ((bwWrite value n s).bind fun _ t => .ok returnedNothing t).KeepsConstructed := by
  refine Res.Meets.bind (((bwWrite_meets value n hn s h.bw).andAll (bwWrite_writer value n s)).mono (fun _ _ => id) ?_) ?_
  · rintro _ _ _ t ⟨⟨-, -, -, hbw, -, -⟩, hf⟩
    exact h.writer hf hbw
  · rintro _ t ⟨⟨hbw, -, -⟩, hf⟩
    exact ⟨h.writer hf (hbw.mono (by omega)), fun hbits => absurd hbw.bits (Nat.not_le.mpr hbits)⟩

theorem Constructed.bwflush : ((bwFlush s).bind fun _ t => .ok returnedNothing t).KeepsConstructed := by
  refine Res.Meets.bind (((bwFlush_meets s h.bw).andAll (bwFlush_writer s)).mono (fun _ _ => id) ?_) ?_
  · rintro _ _ _ t ⟨⟨-, -, -, hbw, -⟩, hf⟩
    exact h.writer hf hbw
  · rintro _ t ⟨⟨hcache, hbits, -⟩, hf⟩
    exact ⟨h.writer hf ⟨by simp [hcache], by omega⟩, fun hmore => by omega⟩

theorem Constructed.brread (hlatched : 7 < s.bw.bits → errLatchFlag s.regs.status = true) (n : Nat) (hn : n ≤ 12) :
    ((brRead n s).bind fun r t => .ok { result := BitVec.ofNat 32 r.1, sentinel := isSentinel r.2 } t).KeepsConstructed := by
  refine Res.Meets.bind (((brRead_meets n s hn h.br).andAll (brRead_reader n s)).mono (fun _ _ => id) ?_) ?_
  · rintro _ _ _ t ⟨⟨hbr, -⟩, hf⟩
    exact h.reader hf hbr
  · rintro _ t ⟨⟨hbr, -⟩, hf⟩
    exact ⟨h.reader hf hbr, by rw [hf.bw, hf.regs]; exact hlatched⟩

theorem Constructed.compressed : ((compressAll (freshCompress s)).bind fun _ t =>
    .ok { result := t.bw.count, sentinel := false } t).KeepsConstructed := by
  have hframe : ∀ {t}, CompressFrame (freshCompress s) t → CompressFrame s t :=
    CompressFrame.trans _ _ _ (freshCompress_compress s)
  have hall := compressAll_meets (A := False) h.legal (freshCompress s) rfl rfl cacheSound_zero nofun
  refine Res.Meets.bind ((hall.andAll (compressAll_compress _)).mono (fun _ _ => id) ?_) ?_
  · rintro _ _ _ t ⟨⟨-, hc, hbw, -⟩, hf⟩
    exact h.compress (hframe hf) hc hbw
  · rintro _ t ⟨⟨-, hc, hcache, hbits, -⟩, hf⟩
    exact ⟨h.compress (hframe hf) hc ⟨by simp [hcache], by omega⟩, fun hmore => by omega⟩

theorem Constructed.decompressed (hlatched : 7 < s.bw.bits → errLatchFlag s.regs.status = true) (len : Word) :
    ((decompressAll len.toNat (freshDecompress len s)).bind fun _ t =>
      .ok { result := BitVec.ofNat 32 t.d.written, sentinel := false } t).KeepsConstructed := by
  have hbr : CacheSound 11 BitCache.zero := cacheSound_zero.mono (by decide)
  have hfresh : Constructed (freshDecompress len s) :=
    ⟨h.legal, h.bw, hbr, h.c, (h.d.written 0).withOld nofun, h.src_pos⟩
  have hall := decompressAll_meets h.legal len.toNat (freshDecompress len s) rfl rfl hbr
  refine Res.Meets.bind ((hall.andAll (decompressAll_decompress _ _)).mono (fun _ _ => id) ?_) ?_
  · rintro _ _ _ t ⟨⟨-, hd, hbr, -⟩, hf⟩
    exact hfresh.decompress hf hd hbr
  · rintro _ t ⟨⟨-, hd, hbr⟩, hf⟩
    exact ⟨hfresh.decompress hf hd hbr, by rw [hf.bw, hf.regs]; exact hlatched⟩

end

/-! ### Whole commands -/

/-- A raise before anything is written keeps a sound state sound (60_exceptions.md R183). -/
theorem Inv.raised {s : State} (h : Inv s) (b : Bool) (code : StatusCode) (i0 i1 : Nat) :
    Inv (takeRaise b code i0 i1 s) where
  cfg := h.cfg
  status := statusSound_raise b _
  configured := fun hconf => h.configured (Bool.and_eq_true_iff.mp ((configuredFlag_statusWord _ _ _ _).symm.trans hconf)).1
  bw := h.bw
  bw_latched := fun _ => errLatchFlag_statusWord _ _ _ _
  br := h.br
  stores := h.stores
  src_pos := h.src_pos
  unconstructed := h.unconstructed
  compressor := h.compressor
  decompressor := h.decompressor

theorem ConfigFieldsLegal.cfgLegal {w0 bo : Nat} {tm : Bool} (h : ConfigFieldsLegal w0 bo tm) (el obs : Bool) :
    CfgLegal (cfgWord w0 bo el tm obs) := by
  obtain ⟨hw, hb⟩ := h.cfgWord_fields
  have hw0 := w0Of_cfgWord hw hb el tm obs
  refine ⟨?_, hw0.symm ▸ h.w0_low, hw0.symm ▸ h.w0_high, fun htm => ?_⟩
  · have hel := toNat_le_one el
    have htm := toNat_le_one tm
    have hobs := toNat_le_one obs
    have := h.w0_high
    rw [cfgWord_toNat hw hb]
    omega
  · rw [hw0]
    exact h.tiff ((tmOf_cfgWord hw hb el tm obs).symm.trans htm)

/-- A successful CONFIG constructs a sound block (40_config.md R102). -/
theorem afterConfig_inv {w0 bo : Nat} {tm : Bool} (h : ConfigFieldsLegal w0 bo tm) (el obs : Bool) {s : State}
    (hs : s.io.srcPos ≤ s.io.src.length) : Inv (afterConfig w0 bo el tm obs s) := by
  have hl := h.cfgLegal el obs
  have hblock : Constructed (notifyInit (configured (cfgWord w0 bo el tm obs) s)) := by
    rw [notifyInit_eq]
    exact
      { legal := hl
        bw := cacheSound_zero.mono (by decide)
        br := cacheSound_zero.mono (by decide)
        c := clearedCompressor_sound hl { s.c with run := [], pos := 0 } (Nat.le_refl 0)
        d := clearedDecompressor_sound hl { s.d with old := none, written := 0 } nofun
        src_pos := hs }
  have hbw : (notifyInit (configured (cfgWord w0 bo el tm obs) s)).bw = BitCache.zero := by
    rw [notifyInit_eq]
    rfl
  exact hblock.returned (fun hbits => absurd (hbw ▸ hbits) (by decide)) returnedNothing

/-- From a sound state every command completes, in a sound state (60_exceptions.md R185, 70_reset_and_hazards.md R211). -/
theorem exec_completes {s : State} (h : Inv s) (i : Instr) : ∃ t, exec i s = .next t ∧ Inv t := by
  by_cases hi : isConfig i = true
  · cases i with
    | config w0 bo el tm obs =>
      rcases configFieldsLegal_or_fault w0 bo tm with hlegal | ⟨code, i0, i1, hfault⟩
      · exact ⟨_, exec_config_of_legal hlegal el obs s, afterConfig_inv hlegal el obs h.src_pos⟩
      · exact ⟨_, exec_config_of_fault hfault el obs s, takeRaise_of_config code i0 i1 s ▸ h.raised true code i0 i1⟩
    | _ => cases hi
  · rw [Bool.not_eq_true] at hi
    cases hs : configuredFlag s.regs.status with
    | false =>
      exact ⟨_, exec_unconfigured hi hs, takeRaise_of_config .notConfigured _ 0 s ▸ h.raised true _ _ _⟩
    | true =>
      have hblock := h.constructed (h.configured hs)
      have hwidth : ∀ n, (Res.raised .invalidArgument n 2 s : Res Returned).KeepsConstructed := fun _ => hblock
      cases i with
      | config w0 bo el tm obs => cases hi
      | bwwrite value n =>
        rw [exec, execBwwrite, whenConfigured_on hs]
        split
        · exact (hwidth n).ends false
        · exact (hblock.bwwrite value n (by omega)).ends false
      | bwflush =>
        rw [exec, execBwflush, whenConfigured_on hs]
        exact hblock.bwflush.ends false
      | brread n =>
        rw [exec, execBrread, whenConfigured_on hs]
        split
        · exact (hwidth n).ends false
        · exact (hblock.brread h.bw_latched n (by omega)).ends false
      | brreset =>
        rw [exec, execBrreset, whenConfigured_on hs]
        have hreset : Constructed (brResetCache s) :=
          hblock.reader (setBr_reader s _) ⟨Nat.one_pos, Nat.zero_le 11⟩
        exact Res.KeepsConstructed.ends (r := .ok returnedNothing (brResetCache s)) ⟨hreset, h.bw_latched⟩ false
      | compress =>
        rw [exec, execCompress, whenConfigured_on hs]
        exact hblock.compressed.ends false
      | decompress len =>
        rw [exec, execDecompress, whenConfigured_on hs]
        exact (hblock.decompressed h.bw_latched len).ends false

/-! ### Steps -/

/-- The port is no part of the sound state. -/
theorem Inv.withPort {s : State} (h : Inv s) (port : List HostAction) : Inv (s.setPort port) :=
  ⟨h.cfg, h.status, h.configured, h.bw, h.bw_latched, h.br, h.stores, h.src_pos, h.unconstructed, h.compressor, h.decompressor⟩

theorem statusSound_zero : StatusSound 0#32 := ⟨by decide, by decide, by decide, by decide⟩

/-- The reset values are sound (10_state.md R35), with SRC in range. -/
theorem powerOnReset_inv {s : State} (h : s.io.srcPos ≤ s.io.src.length) : Inv (powerOnReset s) where
  cfg := .inl rfl
  status := statusSound_zero
  configured := fun hconf => absurd hconf (by decide : configuredFlag 0#32 ≠ true)
  bw := cacheSound_zero.mono (by decide)
  bw_latched := fun hbits => absurd hbits (Nat.not_lt_zero 7)
  br := cacheSound_zero.mono (by decide)
  stores := rfl
  src_pos := h
  unconstructed := fun _ => ⟨rfl, rfl, rfl, rfl⟩
  compressor := fun hl => absurd hl not_cfgLegal_zero
  decompressor := fun hl => absurd hl not_cfgLegal_zero

/-- Other streams leave the block as it is. -/
theorem Inv.withStreams {s : State} (h : Inv s) {io : Streams} (hio : io.srcPos ≤ io.src.length) : Inv (s.setIo io) :=
  ⟨h.cfg, h.status, h.configured, h.bw, h.bw_latched, h.br, h.stores, hio, h.unconstructed, h.compressor, h.decompressor⟩

theorem Inv.afterHost {s : State} (h : Inv s) (a : HostAction) : Inv (hostAct a s) := by
  cases a with
  | word w => exact h
  | bindSrc bytes => exact h.withStreams (Nat.zero_le _)
  | bindSnk bytes => exact h.withStreams h.src_pos
  | reset => exact powerOnReset_inv h.src_pos

/-- The words of a command complete it in a sound state, illegal words with a raise (60_exceptions.md R182). -/
theorem runCommand_completes {s : State} (h : Inv s) (w0 w1 : Word) : ∃ t, runCommand w0 w1 s = .next t ∧ Inv t := by
  cases hdec : decode w0 w1 with
  | ok i => rw [runCommand_of_ok hdec]; exact exec_completes h i
  | illegal why =>
    have hraised := h.raised false .illegalCommand w0.toNat 0
    rw [takeRaise, statusAfterRaise, Bool.not_false, Bool.and_true] at hraised
    exact ⟨_, runCommand_of_illegal hdec s, hraised⟩

/-- Resets behind the first word do not hide a binding (93_implementation_defined.md item 16). -/
theorem fetchOperand_interrupted {w : Word} {port : List HostAction} (h : fetchOperand w port = .interrupted) (k : Nat) :
    fetchOperand w (List.replicate k .reset ++ port) = .interrupted := by
  induction k with
  | zero => exact h
  | succ k ih => rw [List.replicate_succ, List.cons_append, fetchOperand, ih, deferReset_interrupted]

theorem fetch_interrupted {port : List HostAction} (h : BindingInsideCommand port) : fetch port = .interrupted := by
  obtain ⟨w, k, rest, bytes, hop, hport⟩ := h
  have hfetch : ∀ behind, fetch (.word w :: behind) = fetchOperand w behind := fun behind => by
    rw [fetch, if_pos (commandWords_eq_two.mpr hop)]
  rcases hport with rfl | rfl
  · exact (hfetch _).trans (fetchOperand_interrupted rfl k)
  · exact (hfetch _).trans (fetchOperand_interrupted rfl k)

/-- Only a binding inside a command interrupts the fetch. -/
theorem bindingInsideCommand_of_fetch {port : List HostAction} (h : fetch port = .interrupted) : BindingInsideCommand port := by
  cases port with
  | nil => cases h
  | cons a behind =>
    cases a with
    | word w =>
      by_cases hop : opcodeOf w = 0x40
      · rw [fetch, if_pos (commandWords_eq_two.mpr hop)] at h
        rcases fetchOperand_cases w behind with ⟨_, _, _, -, hf⟩ | ⟨_, -, hf⟩ | ⟨k, rest, bytes, hbehind, -⟩
        · rw [hf] at h; cases h
        · rw [hf] at h; cases h
        · exact ⟨w, k, rest, bytes, hop, hbehind.imp (congrArg _) (congrArg _)⟩
      · rw [fetch_one_word hop] at h
        cases h
    | bindSrc bytes => cases h
    | bindSnk bytes => cases h
    | reset => cases h

/-- From a sound state a step leads to a sound state, or a binding inside a command is refused. -/
theorem step_completes {s : State} (h : Inv s) :
    (∃ t, step s = .next t ∧ Inv t) ∨ (fetch s.port = .interrupted ∧ step s = .refused .bindingInsideCommand) := by
  rw [step]
  cases hf : fetch s.port with
  | idle => exact .inl ⟨s, rfl, h⟩
  | awaitingOperand => exact .inl ⟨s, rfl, h⟩
  | command w0 w1 rest => exact .inl (runCommand_completes (h.withPort rest) w0 w1)
  | host a rest => exact .inl ⟨_, rfl, (h.withPort rest).afterHost a⟩
  | interrupted => exact .inr ⟨rfl, rfl⟩

end Sys2Proof.Machine
end

section
/-! The obligations on the invariant and on commands that complete (10_state.md R31 to R33, 60_exceptions.md R185). -/

namespace Sys2Proof.Machine

/-- Settles O12: the reset state is what a power-on reset makes of itself. -/
theorem resetIsSound : Obligations.ResetIsSound := powerOnReset_inv (s := State.reset) (Nat.le_refl 0)

/-- Settles O13: each command keeps the units it touches sound, on every end, and a raise latches the error. -/
theorem stepKeepsSound : Obligations.StepKeepsSound := by
  intro s t hinv hstep
  rcases step_completes hinv with ⟨u, hnext, hu⟩ | ⟨-, hrefused⟩
  · exact Host.Outcome.next.inj (hnext.symm.trans hstep) ▸ hu
  · cases hrefused.symm.trans hstep

/-- Settles O14: no body faults from a sound state, and only a binding inside a command interrupts the fetch. -/
theorem soundMachineNeverStops : Obligations.SoundMachineNeverStops := by
  intro s hinv
  refine ⟨fun i => (exec_completes hinv i).imp fun _ h => h.1, fun hbinding => ?_, fun hnone => ?_⟩
  · rw [step, fetch_interrupted hbinding]
  · rcases step_completes hinv with ⟨t, hnext, -⟩ | ⟨hfetch, -⟩
    · exact ⟨t, hnext⟩
    · exact absurd (bindingInsideCommand_of_fetch hfetch) hnone

end Sys2Proof.Machine
end

section
/-! SUPPORT. The observer hidden (60_exceptions.md R191): `hideObserver` is itself a state, one with `OBS = 0` and no events, and each
piece of pseudocode run from it does what the piece does from the state, with the observer hidden. -/

namespace Sys2Proof.Machine

variable {α β : Type}

/-! ### What is left of a state -/

/-- CFG without OBS, which is its bit 7 (10_state.md R21). -/
def hiddenCfg (cfg : Word) : Word := cfg &&& ~~~0x80#32

section
variable (s : State)

@[simp] theorem hideObserver_bw : (hideObserver s).bw = s.bw := rfl
@[simp] theorem hideObserver_br : (hideObserver s).br = s.br := rfl
@[simp] theorem hideObserver_c : (hideObserver s).c = s.c := rfl
@[simp] theorem hideObserver_d : (hideObserver s).d = s.d := rfl
@[simp] theorem hideObserver_port : (hideObserver s).port = s.port := rfl
@[simp] theorem hideObserver_io : (hideObserver s).io = { s.io with evt := [] } := rfl
@[simp] theorem hideObserver_regs :
    (hideObserver s).regs = { s.regs with cfg := hiddenCfg s.regs.cfg } := rfl

@[simp] theorem hideObserver_setBw (b : BitCache) : hideObserver (s.setBw b) = (hideObserver s).setBw b := rfl
@[simp] theorem hideObserver_setBr (b : BitCache) : hideObserver (s.setBr b) = (hideObserver s).setBr b := rfl
@[simp] theorem hideObserver_setC (c : Compressor) : hideObserver (s.setC c) = (hideObserver s).setC c := rfl
@[simp] theorem hideObserver_setD (d : Decompressor) : hideObserver (s.setD d) = (hideObserver s).setD d := rfl
@[simp] theorem hideObserver_setIo (io : Streams) :
    hideObserver (s.setIo io) = (hideObserver s).setIo { io with evt := [] } := rfl

end

/-- The fields below OBS are not hidden (10_state.md R21). -/
theorem bitField_hidden (cfg : Word) {lo len : Nat} (h : (~~~0x80#32).extractLsb' lo len = BitVec.allOnes len) :
    bitField (hiddenCfg cfg) lo len = bitField cfg lo len := by
  rw [hiddenCfg, bitField_eq_extractLsb', bitField_eq_extractLsb', BitVec.extractLsb'_and, h, BitVec.and_allOnes]

section
variable (cfg : Word)

@[simp] theorem w0Of_hidden : w0Of (hiddenCfg cfg) = w0Of cfg := bitField_hidden cfg (by decide)
@[simp] theorem byteOrderOf_hidden : byteOrderOf (hiddenCfg cfg) = byteOrderOf cfg := by
  rw [byteOrderOf, bitFlag, bitField_hidden cfg (by decide)]
  rfl
@[simp] theorem elOf_hidden : elOf (hiddenCfg cfg) = elOf cfg := by
  rw [elOf, bitFlag, bitField_hidden cfg (by decide)]
  rfl
@[simp] theorem tmOf_hidden : tmOf (hiddenCfg cfg) = tmOf cfg := by
  rw [tmOf, bitFlag, bitField_hidden cfg (by decide)]
  rfl
@[simp] theorem obsOf_hidden : obsOf (hiddenCfg cfg) = false := by
  rw [obsOf, bitFlag_eq_getLsbD, hiddenCfg, BitVec.getLsbD_and]
  simp
@[simp] theorem clearCode_hidden : clearCode (hiddenCfg cfg) = clearCode cfg := congrArg (2 ^ ·) (w0Of_hidden cfg)
@[simp] theorem eoiCode_hidden : eoiCode (hiddenCfg cfg) = eoiCode cfg := congrArg (· + 1) (clearCode_hidden cfg)
@[simp] theorem firstFree_hidden : firstFree (hiddenCfg cfg) = firstFree cfg := congrArg (· + 2) (clearCode_hidden cfg)

end

/-! ### Pieces of pseudocode -/

/-- The end of a piece with the observer hidden. -/
def Res.hide (r : Res α) : Res α :=
  match r with
  | .ok a s => .ok a (hideObserver s)
  | .raised code i0 i1 s => .raised code i0 i1 (hideObserver s)
  | .fault f => .fault f

@[simp] theorem Res.hide_ok (a : α) (s : State) : (Res.ok a s).hide = .ok a (hideObserver s) := rfl
@[simp] theorem Res.hide_raised (code : StatusCode) (i0 i1 : Nat) (s : State) :
    (Res.raised code i0 i1 s : Res α).hide = .raised code i0 i1 (hideObserver s) := rfl
@[simp] theorem Res.hide_fault (f : Fault) : (Res.fault f : Res α).hide = .fault f := rfl

/-- Hiding the observer before a piece is hiding it behind the piece. -/
def Unobserved (p : State → Res α) : Prop := ∀ s, p (hideObserver s) = (p s).hide

/-- Hiding goes through a sequence. -/
theorem Res.hide_bind {r r' : Res α} {k k' : α → State → Res β} (h : r' = r.hide)
    (hk : ∀ a s, k' a (hideObserver s) = (k a s).hide) : r'.bind k' = (r.bind k).hide := by
  subst h
  cases r with
  | ok a s => exact hk a s
  | raised code i0 i1 s => rfl
  | fault f => rfl

/-- Hiding goes into the branches of a test that no observer changes. -/
theorem Res.hide_ite {p : Prop} [Decidable p] {a a' b b' : Res α} (ha : a' = a.hide) (hb : b' = b.hide) :
    (if p then a' else b') = (if p then a else b).hide := by
  subst ha hb
  split <;> rfl

theorem memRead_unobserved : Unobserved memRead := by
  intro s
  have hanswer : readAnswer (hideObserver s).io = readAnswer s.io := rfl
  rw [memRead, memRead, hanswer]
  cases readAnswer s.io <;> rfl

theorem memWrite_unobserved (b : Byte) : Unobserved (memWrite b) := by
  intro s
  exact Res.hide_ite rfl rfl

/-- With `OBS = 0` there is no event, and hidden it is none (60_exceptions.md R190). -/
@[simp] theorem hideObserver_notify (u : EvtUnit) (k : EvtKind) (v1 v2 : Nat) (s : State) :
    hideObserver (notify u k v1 v2 s) = hideObserver s := by
  unfold notify
  split <;> rfl

@[simp] theorem notify_hideObserver (u : EvtUnit) (k : EvtKind) (v1 v2 : Nat) (s : State) :
    notify u k v1 v2 (hideObserver s) = hideObserver s :=
  notify_off (obsOf_hidden s.regs.cfg) u k v1 v2

/-! ### BW -/

theorem bwDrainLoop_unobserved (fuel : Nat) : Unobserved (bwDrainLoop fuel) := by
  induction fuel with
  | zero => exact fun _ => rfl
  | succ fuel ih =>
    intro s
    simp only [bwDrainLoop, hideObserver_bw, hideObserver_regs, byteOrderOf_hidden]
    exact Res.hide_ite (Res.hide_bind (memWrite_unobserved _ s) fun _ t => by simp [← ih _]) rfl

theorem bwDrain_unobserved : Unobserved bwDrain := fun s => bwDrainLoop_unobserved (s.bw.bits / 8) s

theorem bwWrite_unobserved (v n : Nat) : Unobserved (bwWrite v n) := fun s =>
  Res.hide_bind (bwDrain_unobserved s) fun _ t => by simp [← bwDrain_unobserved _]

theorem bwFlush_unobserved : Unobserved bwFlush := fun s =>
  Res.hide_bind (bwDrain_unobserved s) fun _ t => by
    simp only [hideObserver_bw, hideObserver_regs, byteOrderOf_hidden]
    exact Res.hide_ite (Res.hide_bind (memWrite_unobserved _ t) fun _ _ => rfl) rfl

/-! ### BR -/

theorem brRefill_unobserved (n fuel : Nat) : Unobserved (brRefill n fuel) := by
  induction fuel with
  | zero => exact fun _ => rfl
  | succ fuel ih =>
    intro s
    simp only [brRefill, hideObserver_br]
    refine Res.hide_ite rfl (Res.hide_bind (memRead_unobserved s) fun answer t => ?_)
    cases answer with
    | none => rfl
    | some b => simp [← ih _]

theorem brRead_unobserved (n : Nat) : Unobserved (brRead n) := fun s =>
  Res.hide_bind (brRefill_unobserved n n s) fun ending t => by
    cases ending with
    | filled => simp
    | exhausted =>
      simp only [hideObserver_regs, tmOf_hidden]
      exact Res.hide_ite rfl rfl

/-! ### C -/

theorem cClearTable_hideObserver (s : State) : cClearTable (hideObserver s) = hideObserver (cClearTable s) := by
  simp [cClearTable, clearedCompressor]

theorem cWriteCode_unobserved (v : Nat) (kind : EvtKind) : Unobserved (cWriteCode v kind) := fun s => by
  rw [cWriteCode, notify_hideObserver, cWriteCode, ← bwWrite_unobserved, hideObserver_notify, hideObserver_c]

theorem cAddTableEntry_unobserved (key : ByteString) : Unobserved (cAddTableEntry key) := by
  intro s
  simp only [cAddTableEntry, hideObserver_c, hideObserver_regs, elOf_hidden, clearCode_hidden]
  exact Res.hide_ite (Res.hide_ite rfl (Res.hide_bind (cWriteCode_unobserved _ _ s) fun _ t => by
    simp [cClearTable_hideObserver])) rfl

theorem cWriteRun_unobserved : Unobserved cWriteRun := by
  intro s
  simp only [cWriteRun, hideObserver_c]
  cases tableCodeOf s.c.run s.c.dict with
  | some code => exact cWriteCode_unobserved code .data s
  | none => rfl

theorem cScanByte_unobserved (b : Byte) : Unobserved (cScanByte b) := by
  intro s
  simp only [cScanByte, hideObserver_c]
  refine Res.hide_ite rfl (Res.hide_bind (cWriteRun_unobserved s) fun _ t => ?_)
  exact Res.hide_bind (cAddTableEntry_unobserved _ t) fun _ _ => rfl

theorem cScan_unobserved (fuel : Nat) : Unobserved (cScan fuel) := by
  induction fuel with
  | zero =>
    intro s
    unfold cScan
    refine Res.hide_bind (memRead_unobserved s) fun answer t => ?_
    cases answer <;> rfl
  | succ fuel ih =>
    intro s
    unfold cScan
    refine Res.hide_bind (memRead_unobserved s) fun answer t => ?_
    cases answer with
    | none => rfl
    | some b =>
      exact Res.hide_bind (cScanByte_unobserved b (t.setC { t.c with pos := t.c.pos + 1 })) fun _ u => ih u

theorem cFinish_unobserved : Unobserved cFinish := by
  intro s
  refine Res.hide_bind ?_ fun _ t => Res.hide_bind ?_ fun _ u => bwFlush_unobserved u
  · exact Res.hide_ite rfl (cWriteRun_unobserved s)
  · rw [hideObserver_regs, eoiCode_hidden]
    exact cWriteCode_unobserved _ _ t

theorem compressAll_unobserved : Unobserved compressAll := by
  intro s
  refine Res.hide_bind ?_ fun _ t => Res.hide_bind (cScan_unobserved _ t) fun _ u => cFinish_unobserved u
  rw [hideObserver_regs, clearCode_hidden, cClearTable_hideObserver]
  exact cWriteCode_unobserved _ _ _

/-! ### D -/

theorem dClearTable_hideObserver (s : State) : dClearTable (hideObserver s) = hideObserver (dClearTable s) := by
  simp [dClearTable, clearedDecompressor]

theorem dNextCode_unobserved : Unobserved dNextCode := fun s =>
  Res.hide_bind (brRead_unobserved _ s) fun _ t => by simp

theorem dEmit_unobserved (str : ByteString) : Unobserved (dEmit str) := by
  induction str with
  | nil => exact fun _ => rfl
  | cons b rest ih =>
    exact fun s => Res.hide_bind (memWrite_unobserved b s) fun _ t => ih (t.setD { t.d with written := t.d.written + 1 })

theorem dAppend_unobserved (str : ByteString) (code : Nat) : Unobserved (dAppend str code) := by
  intro s
  simp only [dAppend, hideObserver_d, hideObserver_regs, tmOf_hidden]
  exact Res.hide_ite rfl rfl

theorem dEntry_unobserved (c : Nat) : Unobserved (dEntry c) := by
  intro s
  simp only [dEntry, hideObserver_d]
  cases tableGet c s.d.table with
  | none => rfl
  | some str => cases str <;> rfl

theorem dKnown_unobserved (code old : Nat) : Unobserved (dKnown code old) := fun s =>
  Res.hide_bind (dEntry_unobserved _ s) fun _ t => Res.hide_bind (dEmit_unobserved _ t) fun _ u =>
    Res.hide_bind (dEntry_unobserved _ u) fun _ v => Res.hide_bind (dAppend_unobserved _ _ v) fun _ _ => rfl

theorem dKwKwK_unobserved (code old : Nat) : Unobserved (dKwKwK code old) := fun s =>
  Res.hide_bind (dEntry_unobserved _ s) fun _ t => Res.hide_bind (dEmit_unobserved _ t) fun _ u =>
    Res.hide_bind (dAppend_unobserved _ _ u) fun _ _ => rfl

theorem dSteadyCode_unobserved (code : Nat) : Unobserved (dSteadyCode code) := by
  intro s
  simp only [dSteadyCode, hideObserver_d]
  cases s.d.old with
  | none => rfl
  | some old => exact Res.hide_ite (dKnown_unobserved code old s) (Res.hide_ite (dKwKwK_unobserved code old s) rfl)

theorem dPostClearCode_unobserved (code : Nat) : Unobserved (dPostClearCode code) := by
  intro s
  simp only [dPostClearCode, hideObserver_regs, clearCode_hidden]
  refine Res.hide_ite rfl (Res.hide_bind (dEntry_unobserved _ s) fun _ t => ?_)
  exact Res.hide_bind (dEmit_unobserved _ t) fun _ _ => rfl

theorem dDataCode_unobserved (label : DLabel) (code : Nat) : Unobserved (dDataCode label code) := by
  cases label with
  | code => exact dSteadyCode_unobserved code
  | postClear => exact dPostClearCode_unobserved code

theorem dLoop_unobserved (limit fuel : Nat) (label : DLabel) : Unobserved (dLoop limit fuel label) := by
  induction fuel generalizing label with
  | zero => exact fun _ => rfl
  | succ fuel ih =>
    refine fun s => Res.hide_bind (dNextCode_unobserved s) fun code t => ?_
    simp only [hideObserver_regs, eoiCode_hidden, clearCode_hidden, hideObserver_d, dClearTable_hideObserver]
    refine Res.hide_ite rfl (Res.hide_ite (Res.hide_ite rfl (ih _ _)) ?_)
    exact Res.hide_bind (dDataCode_unobserved label code t) fun _ u => Res.hide_ite rfl (ih _ u)

theorem decompressAll_unobserved (limit : Nat) : Unobserved (decompressAll limit) := fun s => by
  rw [decompressAll, dClearTable_hideObserver]
  exact dLoop_unobserved _ _ _ _

/-! ### Whole commands -/

theorem endCommand_hide (b : Bool) (r : Res Returned) : endCommand b r.hide = hideOutcome (endCommand b r) := by
  cases r <;> rfl

/-- A command that begins with the configuration check, which no observer changes. -/
theorem checked_unobserved {op : Nat} {body : State → Res Returned} (hbody : Unobserved body) (s : State) :
    endCommand false (whenConfigured op (hideObserver s) body) =
      hideOutcome (endCommand false (whenConfigured op s body)) := by
  rw [← endCommand_hide, whenConfigured, whenConfigured]
  exact congrArg _ (Res.hide_ite (hbody s) rfl)

/-- A command that is not CONFIG does the same with the observer hidden. -/
theorem exec_hideObserver {i : Instr} (hi : isConfig i = false) (s : State) : exec i (hideObserver s) = hideOutcome (exec i s) := by
  cases i with
  | config w0 bo el tm obs => cases hi
  | bwwrite value n =>
    refine checked_unobserved (fun s => ?_) s
    exact Res.hide_ite rfl (Res.hide_bind (bwWrite_unobserved value n s) fun _ _ => rfl)
  | bwflush => exact checked_unobserved (fun s => Res.hide_bind (bwFlush_unobserved s) fun _ _ => rfl) s
  | brread n =>
    refine checked_unobserved (fun s => ?_) s
    exact Res.hide_ite rfl (Res.hide_bind (brRead_unobserved n s) fun _ _ => rfl)
  | brreset => exact checked_unobserved (fun _ => rfl) s
  | compress =>
    exact checked_unobserved (body := fun s => (compressAll (freshCompress s)).bind fun _ t =>
      .ok { result := t.bw.count, sentinel := false } t)
      (fun s => Res.hide_bind (compressAll_unobserved (freshCompress s)) fun _ _ => rfl) s
  | decompress len =>
    exact checked_unobserved (fun s => Res.hide_bind (decompressAll_unobserved _ (freshDecompress len s)) fun _ _ => rfl) s

/-! ### CONFIG -/

theorem State.eq_of_fields {s t : State} (hregs : s.regs = t.regs) (hbw : s.bw = t.bw) (hbr : s.br = t.br) (hc : s.c = t.c)
    (hd : s.d = t.d) (hio : s.io = t.io) (hport : s.port = t.port) : s = t := by
  cases s
  cases t
  simp_all

/-- OBS adds bit 7 to CFG, and hidden it is gone (40_config.md R100). -/
theorem hiddenCfg_cfgWord {w0 bo : Nat} {tm : Bool} (h : ConfigFieldsLegal w0 bo tm) (el obs : Bool) :
    hiddenCfg (cfgWord w0 bo el tm obs) = hiddenCfg (cfgWord w0 bo el tm false) := by
  cases obs with
  | false => rfl
  | true =>
    have hlow : w0 + bo * 2 ^ 4 + el.toNat * 2 ^ 5 + tm.toNat * 2 ^ 6 < 2 ^ 7 := by
      have := h.w0_high
      have := h.bo_le
      have := toNat_le_one el
      have := toNat_le_one tm
      omega
    obtain ⟨hw, hb⟩ := h.cfgWord_fields
    have hor : cfgWord w0 bo el tm true = 0x80#32 ||| cfgWord w0 bo el tm false := by
      refine BitVec.eq_of_toNat_eq ?_
      rw [BitVec.toNat_or, cfgWord_toNat hw hb, cfgWord_toNat hw hb, Bool.toNat_false, Nat.zero_mul, Nat.add_zero, Nat.add_comm]
      exact Nat.two_pow_add_eq_or_of_lt hlow 1
    rw [hor, hiddenCfg, hiddenCfg]
    generalize 0x80#32 = obsBit
    ext i
    cases hbit : obsBit[i] <;> simp [hbit]

/-- What a successful CONFIG leaves depends on OBS and the events only in OBS and the events. -/
theorem hideObserver_afterConfig {w0 bo : Nat} {tm : Bool} (h : ConfigFieldsLegal w0 bo tm) (el obs : Bool) (s : State) :
    hideObserver (afterConfig w0 bo el tm obs s) = hideObserver (afterConfig w0 bo el tm false (hideObserver s)) := by
  obtain ⟨hw, hb⟩ := h.cfgWord_fields
  apply State.eq_of_fields <;>
    simp [hiddenCfg_cfgWord h el obs, w0Of_cfgWord hw hb, clearCode, firstFree, clearedWith]

end Sys2Proof.Machine
end

section
/-! The obligation on the observer (60_exceptions.md R191). -/

namespace Sys2Proof.Machine

/-- Settles O26: every command but CONFIG commutes with hiding the observer, and what a CONFIG leaves has OBS only in CFG. -/
theorem observerDoesNotMatter : Obligations.ObserverDoesNotMatter := by
  intro s u hsame
  refine ⟨fun i hi => ?_, fun w0 bo el tm obs obs' => ?_⟩
  · rw [← exec_hideObserver hi s, hsame, exec_hideObserver hi u]
  · rcases configFieldsLegal_or_fault w0 bo tm with hlegal | ⟨code, i0, i1, hfault⟩
    · rw [exec_config_of_legal hlegal, exec_config_of_legal hlegal, hideOutcome, hideOutcome,
        hideObserver_afterConfig hlegal el obs s, hideObserver_afterConfig hlegal el obs' u, hsame]
    · rw [exec_config_of_fault hfault, exec_config_of_fault hfault]
      have hregs : ∀ v : State, hideObserver (v.setRegs (raisedRegs false code i0 i1 v.regs)) =
          (hideObserver v).setRegs (raisedRegs false code i0 i1 (hideObserver v).regs) := fun _ => rfl
      rw [hideOutcome, hideOutcome, hregs, hregs, hsame]

end Sys2Proof.Machine
end

section
/-! SUPPORT. An induction over C's procedures, packaged once for what depends on C too (43_compressor.md R134 to R136): SCAN goes from
one code to the next in two steps, the code of the run and the new entry. -/

namespace Sys2Proof.Machine

/-- `I` holds wherever SCAN is ready to write a code, `J` behind the code of the run, before its entry is added, and `E` where C
raises. -/
structure KeptByScan (I J E : State → Prop) : Prop where
  access : ∀ s, I s → (memRead s).Leaves (fun _ => I) fun _ _ _ => E
  counted : ∀ s n, I s → I (s.setC { s.c with pos := n })
  extended : ∀ s run, run ≠ [] → I s → I (s.setC { s.c with run := run })
  writeRun : ∀ s, I s → (cWriteRun s).Leaves (fun _ => J) fun _ _ _ => E
  addEntry : ∀ key s, J s →
    (cAddTableEntry key s).Leaves (fun _ t => ∀ run, run ≠ [] → I (t.setC { t.c with run := run })) fun _ _ _ => E

section
variable {I J E : State → Prop} (h : KeptByScan I J E)
include h

theorem KeptByScan.cScanByte (b : Byte) {s : State} (hs : I s) : (cScanByte b s).Leaves (fun _ => I) fun _ _ _ => E := by
  unfold Machine.cScanByte
  split
  · exact h.extended s _ (by simp) hs
  · exact (h.writeRun s hs).bind fun _ t ht => (h.addEntry _ t ht).bind fun _ u hu => hu [b] (by simp)

theorem KeptByScan.cScan (fuel : Nat) {s : State} (hs : I s) : (cScan fuel s).Leaves (fun _ => I) fun _ _ _ => E := by
  induction fuel generalizing s with
  | zero =>
    unfold Machine.cScan
    refine (h.access s hs).bind fun answer t ht => ?_
    cases answer with
    | none => exact ht
    | some b => trivial
  | succ fuel ih =>
    unfold Machine.cScan
    refine (h.access s hs).bind fun answer t ht => ?_
    cases answer with
    | none => exact ht
    | some b => exact (h.cScanByte b (h.counted t _ ht)).bind fun _ u hu => ih hu

/-- `compress()` on the whole: the CLEAR before SCAN brings it to `I`, and FINISH writes EOI behind an empty run or behind the run's
code (43_compressor.md R136). -/
theorem KeptByScan.compressAll {F : State → Prop} {s : State}
    (hstart : (cWriteCode (clearCode s.regs.cfg) .clear (cClearTable s)).Leaves (fun _ => I) fun _ _ _ => E)
    (hfinish : ∀ t, (I t ∧ t.c.run = []) ∨ J t →
      ((cWriteCode (eoiCode t.regs.cfg) .eoi t).bind fun _ u => bwFlush u).Leaves (fun _ => F) fun _ _ _ => E) :
    (compressAll s).Leaves (fun _ => F) fun _ _ _ => E := by
  refine hstart.bind fun _ t ht => (h.cScan _ ht).bind fun _ u hu => ?_
  have hrun : (if u.c.run = [] then Res.ok () u else cWriteRun u).Leaves (fun _ v => (I v ∧ v.c.run = []) ∨ J v) fun _ _ _ => E := by
    split
    · next hnil => exact .inl ⟨hu, hnil⟩
    · exact (h.writeRun u hu).mono (fun _ _ => .inr) fun _ _ _ _ => id
  exact hrun.bind fun _ v hv => hfinish v hv

end

/-! ### Commands whose pseudocode is one procedure -/

/-- What a command's procedure leaves, at the command's end: `F` where it returned, `E` where it ended with an error. -/
theorem endCommand_leaves {b : Bool} {r : Res Unit} {f : State → Returned} {F E : State → Prop} {t : State}
    (h : r.Leaves (fun _ => F) fun _ _ _ => E) (herr : r.RaisesError)
    (ht : endCommand b (r.bind fun _ u => .ok (f u) u) = .next t) :
    ∃ u, SameButOutcome u t ∧ (F u ∨ (E u ∧ codeField t.regs.status ≠ 0)) := by
  cases r with
  | ok _ u =>
    cases ht
    exact ⟨u, takeReturn_sameButOutcome _ u, .inl h⟩
  | raised code i0 i1 u =>
    cases ht
    exact ⟨u, takeRaise_sameButOutcome b code i0 i1 u, .inr ⟨h, codeField_raised_ne_zero herr b i0 i1 u⟩⟩
  | fault f => cases ht

theorem exec_compress_leaves {F E : State → Prop} {s t : State} (hconf : Configured s)
    (h : (compressAll (freshCompress s)).Leaves (fun _ => F) fun _ _ _ => E) (hexec : exec .compress s = .next t) :
    ∃ u, SameButOutcome u t ∧ (F u ∨ (E u ∧ codeField t.regs.status ≠ 0)) :=
  endCommand_leaves h (compressAll_raisesError _) (exec_compress_of_configured hconf ▸ hexec)

theorem exec_decompress_leaves {F E : State → Prop} {s t : State} {len : Word} (hconf : Configured s)
    (h : (decompressAll len.toNat (freshDecompress len s)).Leaves (fun _ => F) fun _ _ _ => E)
    (hexec : exec (.decompress len) s = .next t) :
    ∃ u, SameButOutcome u t ∧ (F u ∨ (E u ∧ codeField t.regs.status ≠ 0)) :=
  endCommand_leaves h (decompressAll_raisesError _ _) (exec_decompress_of_configured hconf ▸ hexec)

end Sys2Proof.Machine
end

section
/-! SUPPORT. What one data code makes of D (44_decompressor.md R152 to R155), from any state. -/

namespace Sys2Proof.Machine

/-- What a data code at a label makes of D: at CODE, where a D_OLD is held, an entry is appended; at POSTCLEAR the table stays. -/
inductive DataCodeMade (tm : Bool) (code : Nat) (d : Decompressor) : DLabel → Decompressor → Prop
  | appended (hold : d.old ≠ none) (str : ByteString) (n : Nat) :
      DataCodeMade tm code d .code { dGrow tm str { d with written := n } with old := some code }
  | emitted (n : Nat) : DataCodeMade tm code d .postClear { d with written := n, old := some code }

/-- D but for D_WRITTEN, the events and the registers are as they were: all that a string emitted can change, be it in part. -/
structure OnlyEmitted (s t : State) : Prop where
  d : ∃ n, t.d = { s.d with written := n }
  evt : t.io.evt = s.io.evt
  regs : t.regs = s.regs

theorem OnlyEmitted.refl (s : State) : OnlyEmitted s s := ⟨⟨s.d.written, rfl⟩, rfl, rfl⟩

theorem OnlyEmitted.trans (s t u : State) (h : OnlyEmitted s t) (h' : OnlyEmitted t u) : OnlyEmitted s u := by
  obtain ⟨n, hn⟩ := h.d
  obtain ⟨m, hm⟩ := h'.d
  exact ⟨⟨m, by rw [hm, hn]⟩, h'.evt.trans h.evt, h'.regs.trans h.regs⟩

theorem dEmit_onlyEmitted (str : ByteString) (s : State) : (dEmit str s).All (OnlyEmitted s) := by
  induction str generalizing s with
  | nil => exact .refl s
  | cons b rest ih =>
    refine Res.All.bind OnlyEmitted.trans ((memWrite_writer b s).mono fun t ht => ?_) fun _ t => (ih _).mono fun u hu => ?_
    · exact ⟨⟨s.d.written, ht.d⟩, ht.evt, ht.regs⟩
    · exact OnlyEmitted.trans t (t.setD { t.d with written := t.d.written + 1 }) u ⟨⟨t.d.written + 1, rfl⟩, rfl, rfl⟩ hu

theorem dEntry_onlyEmitted (c : Nat) (s : State) : (dEntry c s).All (OnlyEmitted s) := by
  unfold dEntry
  split
  · exact OnlyEmitted.refl s
  · trivial
  · trivial

/-- The end of a data code behind a string emitted: an entry is appended and D_OLD set, or the table is full. -/
theorem dAppend_setOld_makes {s t : State} (h : OnlyEmitted s t) (hold : s.d.old ≠ none) (str : ByteString) (code : Nat) :
    ((dAppend str code t).bind fun _ u => Res.ok () (dSetOld code u)).Leaves
      (fun _ u => DataCodeMade (tmOf s.regs.cfg) code s.d .code u.d ∧ u.io.evt = s.io.evt ∧ u.regs = s.regs)
      fun _ _ _ => OnlyEmitted s := by
  unfold dAppend
  split
  · exact h
  · obtain ⟨⟨n, hn⟩, hevt, hregs⟩ := h
    refine ⟨?_, hevt, hregs⟩
    simp only [dSetOld, State.setD_d, hn, hregs]
    exact .appended hold str n

/-- What a data code at a label leaves; where it raises, no more than bytes were emitted. -/
theorem dDataCode_makes (label : DLabel) (code : Nat) (s : State) :
    (dDataCode label code s).Leaves
      (fun _ t => DataCodeMade (tmOf s.regs.cfg) code s.d label t.d ∧ t.io.evt = s.io.evt ∧ t.regs = s.regs)
      fun _ _ _ => OnlyEmitted s := by
  have hemit : ∀ {str t}, OnlyEmitted s t → (dEmit str t).Leaves (fun _ => OnlyEmitted s) fun _ _ _ => OnlyEmitted s :=
    fun ht => ((dEmit_onlyEmitted _ _).mono fun _ hu => OnlyEmitted.trans _ _ _ ht hu).leaves
  have hentry : ∀ {c t}, OnlyEmitted s t → (dEntry c t).Leaves (fun _ => OnlyEmitted s) fun _ _ _ => OnlyEmitted s :=
    fun ht => ((dEntry_onlyEmitted _ _).mono fun _ hu => OnlyEmitted.trans _ _ _ ht hu).leaves
  cases label with
  | postClear =>
    rw [dDataCode, dPostClearCode]
    split
    · exact OnlyEmitted.refl s
    · refine (hentry (.refl s)).bind fun str t ht => (hemit ht).bind fun _ u hu => ?_
      obtain ⟨⟨n, hn⟩, hevt, hregs⟩ := hu
      refine ⟨?_, hevt, hregs⟩
      simp only [dSetOld, State.setD_d, hn]
      exact .emitted n
  | code =>
    rw [dDataCode, dSteadyCode]
    split
    · exact OnlyEmitted.refl s
    · next old hold =>
      have hsome : s.d.old ≠ none := by simp [hold]
      split
      · exact (hentry (.refl s)).bind fun str t ht => (hemit ht).bind fun _ u hu => (hentry hu).bind fun oldStr v hv =>
          dAppend_setOld_makes hv hsome _ code
      · split
        · exact (hentry (.refl s)).bind fun oldStr t ht => (hemit ht).bind fun _ u hu =>
            dAppend_setOld_makes hu hsome _ code
        · exact OnlyEmitted.refl s

end Sys2Proof.Machine
end

section
/-! SUPPORT. The tables keep their canonical form (10_state.md R28, R29, log entries 8, 9), from any state. -/

namespace Sys2Proof.Machine

/-- C_DICT is in canonical form. -/
def DictRising (s : State) : Prop := codesRising s.c.dict = true

/-- D_TABLE is in canonical form. -/
def TableRising (s : State) : Prop := codesRising s.d.table = true

theorem DictRising.same {s t : State} (h : DictRising s) (hc : t.c = s.c) : DictRising t := by
  rw [DictRising, hc]
  exact h

theorem TableRising.same {s t : State} (h : TableRising s) (htable : t.d.table = s.d.table) : TableRising t := by
  rw [TableRising, htable]
  exact h

theorem dictRising_keptByScan : KeptByScan DictRising DictRising DictRising where
  access s h := ((memRead_reader s).mono fun _ ht => h.same ht.c).leaves
  counted _ _ h := h
  extended _ _ _ h := h
  writeRun s h := (cWriteRun_leaves s).mono (fun _ _ ht => h.same ht.1)
    fun _ _ _ _ ht => h.same ht
  addEntry key s h := by
    refine (cAddTableEntry_leaves key s).mono ?_ fun _ _ _ _ ht => h.same ht
    rintro _ t (⟨w, ht⟩ | ht) run -
    · rw [DictRising, State.setC_c, ht]
      exact codesRising_put _ _ h
    · rw [DictRising, State.setC_c, ht]
      exact codesRising_literalTable _

/-- COMPRESS begins with a CLEAR, so its dictionary is in canonical form whatever it was (43_compressor.md R136). -/
theorem compressAll_dictRising (s : State) :
    (compressAll s).Leaves (fun _ => DictRising) fun _ _ _ => DictRising := by
  have hcode : ∀ v kind t, DictRising t → (cWriteCode v kind t).Leaves (fun _ => DictRising) fun _ _ _ => DictRising :=
    fun v kind t ht => ((cWriteCode_keeps v kind t).mono fun _ hu => ht.same hu).leaves
  refine dictRising_keptByScan.compressAll (hcode _ _ _ (codesRising_literalTable _)) fun t ht => ?_
  refine (hcode _ .eoi t (ht.elim And.left id)).bind fun _ u hu => ?_
  exact ((bwFlush_writer u).mono fun _ hv => hu.same hv.c).leaves

theorem DataCodeMade.rising {tm : Bool} {code : Nat} {d d' : Decompressor} {label : DLabel} (h : DataCodeMade tm code d label d')
    (hd : codesRising d.table = true) : codesRising d'.table = true := by
  cases h with
  | appended hold str n => exact codesRising_put _ _ hd
  | emitted n => exact hd

theorem dLoop_tableRising (limit fuel : Nat) (label : DLabel) {s : State} (h : TableRising s) :
    (dLoop limit fuel label s).Leaves (fun _ => TableRising) fun _ _ _ => TableRising := by
  induction fuel generalizing label s with
  | zero => trivial
  | succ fuel ih =>
    have hread : (dNextCode s).All TableRising :=
      (dNextCode_emits_nothing s).mono fun _ ht => h.same (congrArg Decompressor.table ht.d)
    refine hread.leaves.bind fun code t ht => ?_
    have hcleared : TableRising (dClearTable t) := codesRising_literalTable _
    split
    · exact ht
    · split
      · split
        · exact hcleared
        · exact ih _ hcleared
      · have hcode : (dDataCode label code t).Leaves (fun _ => TableRising) fun _ _ _ => TableRising := by
          refine (dDataCode_makes label code t).mono (fun _ _ hu => hu.1.rising ht) ?_
          rintro _ _ _ u ⟨⟨n, hn⟩, -, -⟩
          exact ht.same (by rw [hn])
        refine hcode.bind fun _ u hu => ?_
        split
        · exact hu
        · exact ih _ hu

/-- Every command keeps the canonical form of the tables. -/
theorem exec_wf {i : Instr} {s t : State} (h : Memory.wf s = true) (hexec : exec i s = .next t) : Memory.wf t = true := by
  have hindep := unitsAreIndependent i s t hexec
  rw [memory_wf_iff] at h ⊢
  cases i with
  | config w0 bo el tm obs =>
    rcases exec_config_cases hexec with ⟨code, i0, i1, -, rfl⟩ | ⟨-, rfl⟩
    · exact h
    · rw [afterConfig_c, afterConfig_d]
      exact ⟨codesRising_literalTable _, codesRising_literalTable _⟩
  | bwwrite value n => obtain ⟨-, hc, hd, -⟩ := hindep; rwa [hc, hd]
  | bwflush => obtain ⟨-, hc, hd, -⟩ := hindep; rwa [hc, hd]
  | brread n => obtain ⟨-, hc, hd, -⟩ := hindep; rwa [hc, hd]
  | brreset => obtain ⟨-, hc, hd, -⟩ := hindep; rwa [hc, hd]
  | compress =>
    refine ⟨?_, hindep.2.1 ▸ h.2⟩
    cases hs : configuredFlag s.regs.status with
    | false =>
      cases (exec_unconfigured rfl hs).symm.trans hexec
      exact h.1
    | true =>
      obtain ⟨u, hu, hdict | ⟨hdict, -⟩⟩ := exec_compress_leaves hs (compressAll_dictRising _) hexec
      · exact hu.c ▸ hdict
      · exact hu.c ▸ hdict
  | decompress len =>
    refine ⟨hindep.2 ▸ h.1, ?_⟩
    cases hs : configuredFlag s.regs.status with
    | false =>
      cases (exec_unconfigured rfl hs).symm.trans hexec
      exact h.2
    | true =>
      have hall := dLoop_tableRising len.toNat (dMaxReads (freshDecompress len s)) .code
        (s := dClearTable (freshDecompress len s)) (codesRising_literalTable _)
      obtain ⟨u, hu, htable | ⟨htable, -⟩⟩ := exec_decompress_leaves hs hall hexec
      · exact hu.d ▸ htable
      · exact hu.d ▸ htable

end Sys2Proof.Machine
end

section
/-! The obligation on the canonical form of the tables (10_state.md R28, R29, log entries 8, 9). -/

namespace Sys2Proof.Machine

/-- Settles O22: C and D only clear their tables or put an entry at the cursor, and no other command but CONFIG touches them. -/
theorem tablesStayCanonical : Obligations.TablesStayCanonical := by
  refine ⟨fun i s t h hexec => exec_wf h hexec, fun s t h hstep => ?_⟩
  rcases step_cases hstep with rfl | ⟨w, w1, _, rest, -, -, hrun⟩ | ⟨a, rest, -, rfl⟩
  · exact h
  · cases hdec : decode w w1 with
    | ok i => exact exec_wf (s := s.setPort rest) h (runCommand_of_ok hdec _ ▸ hrun)
    | illegal why =>
      cases (runCommand_of_illegal hdec _).symm.trans hrun
      exact h
  · cases a with
    | reset => exact reset_wf
    | _ => exact h

end Sys2Proof.Machine
end

section
/-! SUPPORT. A relation that every primitive of C and D meets, at a command's end, and the order of the events that it gives
(60_exceptions.md R192). -/

namespace Sys2Proof.Machine

theorem PrimitivesMeet.mono {may may' : EvtUnit → EvtKind → Prop} {R : State → State → Prop} (h : PrimitivesMeet may R)
    (hmay : ∀ u k, may' u k → may u k) : PrimitivesMeet may' R :=
  ⟨h.trans, h.writer, h.reader, h.setC, h.setD, fun u k v1 v2 s hk => h.event u k v1 v2 s (hmay u k hk)⟩

/-- A relation that the primitives meet whatever the event, and that loading EXPECTED_LEN meets, holds from the start of every command
but CONFIG to its end, up to the outcome registers. -/
theorem PrimitivesMeet.exec {R : State → State → Prop} (hR : PrimitivesMeet (fun _ _ => True) R)
    (hlen : ∀ s len, R s (s.setRegs { s.regs with expectedLen := len })) {i : Instr} {s t : State} (hi : isConfig i = false)
    (h : exec i s = .next t) : ∃ u, R s u ∧ SameButOutcome u t := by
  cases i with
  | config w0 bo el tm obs => cases hi
  | bwwrite value n => exact (execBwwrite_frame h).imp fun u hu => ⟨hR.writer s u hu.1, hu.2⟩
  | bwflush => exact (execBwflush_frame h).imp fun u hu => ⟨hR.writer s u hu.1, hu.2⟩
  | brread n => exact (execBrread_frame h).imp fun u hu => ⟨hR.reader s u hu.1, hu.2⟩
  | brreset => exact (execBrreset_frame h).imp fun u hu => ⟨hR.reader s u hu.1.1, hu.2⟩
  | compress => exact (hR.mono fun _ _ _ => trivial).execCompress h
  | decompress len => exact (hR.mono fun _ _ _ => trivial).execDecompress (hlen s len) h

/-! ### The stamps -/

/-- One event is stamped no later than another. -/
def StampedBefore (a b : EvtRecord) : Prop := a.srcPos ≤ b.srcPos ∧ a.snkLen ≤ b.snkLen

/-- The events since `s` are stamped in their order, with positions between those of `s` and of `t` (log entry 7). -/
structure EventsInOrder (s t : State) : Prop where
  srcPos : s.io.srcPos ≤ t.io.srcPos
  snkLen : s.io.snk.length ≤ t.io.snk.length
  events : ∃ new, t.io.evt = s.io.evt ++ new ∧ new.Pairwise StampedBefore ∧
    ∀ r ∈ new, s.io.srcPos ≤ r.srcPos ∧ r.srcPos ≤ t.io.srcPos ∧ s.io.snk.length ≤ r.snkLen ∧ r.snkLen ≤ t.io.snk.length

theorem EventsInOrder.of_same_evt {s t : State} (hpos : s.io.srcPos ≤ t.io.srcPos) (hlen : s.io.snk.length ≤ t.io.snk.length)
    (hevt : t.io.evt = s.io.evt) : EventsInOrder s t :=
  ⟨hpos, hlen, [], by simp [hevt]⟩

theorem EventsInOrder.trans (a b c : State) (h : EventsInOrder a b) (h' : EventsInOrder b c) : EventsInOrder a c := by
  obtain ⟨hpos, hlen, new, hevt, hsorted, hwithin⟩ := h
  obtain ⟨hpos', hlen', new', hevt', hsorted', hwithin'⟩ := h'
  refine ⟨hpos.trans hpos', hlen.trans hlen', new ++ new', by rw [hevt', hevt, List.append_assoc],
    List.pairwise_append.mpr ⟨hsorted, hsorted', fun x hx y hy => ?_⟩, fun r hr => ?_⟩
  · obtain ⟨-, hxpos, -, hxlen⟩ := hwithin x hx
    obtain ⟨hypos, -, hylen, -⟩ := hwithin' y hy
    exact ⟨hxpos.trans hypos, hxlen.trans hylen⟩
  · rcases List.mem_append.mp hr with hr | hr
    · obtain ⟨hlow, hhigh, hlow', hhigh'⟩ := hwithin r hr
      exact ⟨hlow, hhigh.trans hpos', hlow', hhigh'.trans hlen'⟩
    · obtain ⟨hlow, hhigh, hlow', hhigh'⟩ := hwithin' r hr
      exact ⟨hpos.trans hlow, hhigh, hlen.trans hlow', hhigh'⟩

/-- An event is stamped with the positions at its emission. -/
theorem notify_inOrder (u : EvtUnit) (k : EvtKind) (v1 v2 : Nat) (s : State) : EventsInOrder s (notify u k v1 v2 s) := by
  cases hobs : obsOf s.regs.cfg with
  | true =>
    rw [notify_on hobs]
    refine ⟨Nat.le_refl _, Nat.le_refl _, _, rfl, List.pairwise_singleton _ _, fun r hr => ?_⟩
    rw [List.mem_singleton.mp hr]
    exact ⟨Nat.le_refl _, Nat.le_refl _, Nat.le_refl _, Nat.le_refl _⟩
  | false =>
    rw [notify_off hobs]
    exact .of_same_evt (Nat.le_refl _) (Nat.le_refl _) rfl

theorem notifyInit_inOrder (s : State) : EventsInOrder s (notifyInit s) :=
  EventsInOrder.trans _ _ _ (notify_inOrder _ _ _ _ s) (notify_inOrder _ _ _ _ _)

theorem eventsInOrder_primitives : PrimitivesMeet (fun _ _ => True) EventsInOrder where
  trans := EventsInOrder.trans
  writer _ _ h := .of_same_evt h.grow.srcPos h.grow.snk.length_le h.evt
  reader _ _ h := .of_same_evt h.grow.srcPos h.grow.snk.length_le h.evt
  setC _ _ := .of_same_evt (Nat.le_refl _) (Nat.le_refl _) rfl
  setD _ _ := .of_same_evt (Nat.le_refl _) (Nat.le_refl _) rfl
  event u k v1 v2 s _ := notify_inOrder u k v1 v2 s

theorem exec_eventsInOrder {i : Instr} {s t : State} (h : exec i s = .next t) : EventsInOrder s t := by
  by_cases hi : isConfig i = true
  · cases i with
    | config w0 bo el tm obs =>
      rcases exec_config_cases h with ⟨code, i0, i1, -, rfl⟩ | ⟨-, rfl⟩
      · exact .of_same_evt (Nat.le_refl _) (Nat.le_refl _) rfl
      · obtain ⟨hpos, hlen, hevents⟩ := notifyInit_inOrder (configured (cfgWord w0 bo el tm obs) s)
        exact ⟨hpos, hlen, hevents⟩
    | _ => cases hi
  · obtain ⟨u, hu, he⟩ := eventsInOrder_primitives.exec (fun _ _ => .of_same_evt (Nat.le_refl _) (Nat.le_refl _) rfl)
      (Bool.not_eq_true _ ▸ hi) h
    exact hu.trans _ _ _ (.of_same_evt (by rw [he.io]) (by rw [he.io]) (by rw [he.io]))

/-! ### EOI -/

/-- `bw_flush()` writes the bits that BW holds, padded to bytes, and emits nothing (42_bitwriter.md R125). -/
theorem bwFlush_takes {s : State} (hcache : s.bw.cache < 2 ^ s.bw.bits) :
    (bwFlush s).Leaves
      (fun _ t => t.io.snk.length = s.io.snk.length + (s.bw.bits + 7) / 8 ∧ t.io.evt = s.io.evt) fun _ _ _ _ => True := by
  rcases writesAccepted_or_failsAt s ((s.bw.bits + 7) / 8) with hans | ⟨j, hj, hfail⟩
  · obtain ⟨t, hflush, ht⟩ := bwFlush_of_accepts hcache hans
    exact hflush ▸ ⟨ht.taken, ht.evt⟩
  · obtain ⟨t, hflush, -⟩ := bwFlush_of_fail hcache hj hfail
    exact hflush ▸ trivial

/-- Between two codes of an observed COMPRESS from `a`, under any parameters: a code has one bit at least. -/
structure CodesHaveBits (a t : State) : Prop where
  observed : obsOf t.regs.cfg = true
  cache : t.bw.cache < 2 ^ t.bw.bits
  width : 1 ≤ t.c.width
  evt : a.io.evt <+: t.io.evt

/-- The EOI event came before the last byte of SNK. -/
def EoiBeforeLastByte (a t : State) : Prop :=
  ∃ evt r, t.io.evt = evt ++ [r] ∧ a.io.evt <+: evt ∧ r.event.kind = .eoi ∧ r.snkLen < t.io.snk.length

theorem widen_pos (w : Nat) : 1 ≤ widen w := by
  unfold widen maxWidth
  split <;> omega

theorem CodesHaveBits.withC {a t : State} (h : CodesHaveBits a t) {c : Compressor} (hc : 1 ≤ c.width) :
    CodesHaveBits a (t.setC c) := ⟨h.observed, h.cache, hc, h.evt⟩

theorem CodesHaveBits.code {a t : State} (h : CodesHaveBits a t) (v : Nat) (kind : EvtKind) :
    (cWriteCode v kind t).Leaves (fun _ => CodesHaveBits a) fun _ _ _ _ => True := by
  refine (cWriteCode_moves v kind h.cache).leaves.mono (fun _ u hu => ?_) fun _ _ _ _ _ => trivial
  exact ⟨by rw [hu.frame.regs]; exact h.observed, hu.cache_lt, by rw [hu.c_eq]; exact h.width, h.evt.trans hu.frame.grow.evt⟩

theorem codesHaveBits_keptByScan (a : State) : KeptByScan (CodesHaveBits a) (CodesHaveBits a) fun _ => True where
  access s h := by
    refine (memRead_reader s).leaves.mono (fun _ t ht => ?_) fun _ _ _ _ _ => trivial
    exact ⟨by rw [ht.regs]; exact h.observed, by rw [ht.bw]; exact h.cache, by rw [ht.c]; exact h.width, by rw [ht.evt]; exact h.evt⟩
  counted _ _ h := h.withC h.width
  extended _ _ _ h := h.withC h.width
  writeRun s h := by
    unfold cWriteRun
    split
    · exact h.code _ .data
    · trivial
  addEntry key s h := by
    unfold cAddTableEntry
    split
    · split
      · exact fun _ _ => (h.withC (Nat.le_add_left 1 s.c.width)).withC (Nat.le_add_left 1 s.c.width)
      · exact (h.code _ .clear).bind fun _ t ht _ _ => (ht.withC (widen_pos _)).withC (widen_pos _)
    · exact fun _ _ => (h.withC h.width).withC h.width

/-- FINISH writes EOI's bits behind its event, and the flush the last of them (43_compressor.md R136, 42_bitwriter.md R125). -/
theorem CodesHaveBits.finish {a t : State} (h : CodesHaveBits a t) (v : Nat) :
    ((cWriteCode v .eoi t).bind fun _ u => bwFlush u).Leaves (fun _ => EoiBeforeLastByte a) fun _ _ _ _ => True := by
  refine (cWriteCode_moves v .eoi h.cache).leaves.mono (fun _ _ => id) (fun _ _ _ _ _ => trivial) |>.bind fun _ u hu => ?_
  refine (bwFlush_takes hu.cache_lt).mono ?_ fun _ _ _ _ => id
  rintro _ w ⟨hlen, hevt⟩
  have hheld := hu.held_eq
  have htaken := hu.taken_eq
  have hwidth := h.width
  refine ⟨t.io.evt, ⟨⟨.c, .eoi, v, t.c.width⟩, t.io.srcPos, t.io.snk.length⟩, ?_, h.evt, rfl, ?_⟩
  · rw [hevt, (BwMoved.toWriterFrame hu).evt, notify_on h.observed, State.setIo_io]
  · simp only
    omega

theorem exec_compress_eoi {s t : State} (hobs : obsOf s.regs.cfg = true) (hconf : Configured s) (h : exec .compress s = .next t)
    (hok : codeField t.regs.status = 0) : EoiBeforeLastByte s t := by
  have hstart : CodesHaveBits s (cClearTable (freshCompress s)) := ⟨hobs, Nat.one_pos, widen_pos _, List.prefix_rfl⟩
  have hall := (codesHaveBits_keptByScan s).compressAll (s := freshCompress s) (F := EoiBeforeLastByte s) (hstart.code _ .clear)
    fun u hu => (hu.elim And.left id).finish _
  obtain ⟨u, he, heoi | ⟨-, hne⟩⟩ := exec_compress_leaves hconf hall h
  · obtain ⟨evt, r, hevt, hrest⟩ := heoi
    exact ⟨evt, r, he.io ▸ hevt, he.io ▸ hrest⟩
  · exact absurd hok hne

end Sys2Proof.Machine
end

section
/-! The obligation on the order of the events (60_exceptions.md R192). -/

namespace Sys2Proof.Machine

/-- Settles O24: every primitive takes the streams on, an event is stamped with where they are, and EOI's bits are in SNK only behind
its event. -/
theorem eventsAreOrdered : Obligations.EventsAreOrdered := by
  intro i s t h
  obtain ⟨-, -, new, hevt, hsorted, hwithin⟩ := exec_eventsInOrder h
  rw [newEvents_of_append hevt]
  refine ⟨hwithin, hsorted, ?_⟩
  rintro rfl hok hobs
  have hconf : Configured s := by
    by_contra hoff
    cases (exec_unconfigured rfl (Bool.eq_false_iff.mpr hoff)).symm.trans h
    exact absurd hok (by simp [raisedRegs, statusNumber])
  have hcfg : t.regs.cfg = s.regs.cfg := (exec_emitsOnly rfl h).cfg
  obtain ⟨evt, r, hlast, hold, heoi, hlen⟩ := exec_compress_eoi (hcfg ▸ hobs) hconf h hok
  exact ⟨r, newEvents_of_append hevt ▸ newEvents_getLast hlast hold, heoi, hlen⟩

end Sys2Proof.Machine
end

section
/-! SUPPORT. The schedule of 30_encoding.md R71 as the machines keep it: a width is reached once the cursor has come to the effective
limits of the widths below it. -/

namespace Sys2Proof.Machine

theorem effectiveLimit_mono {w w' : Nat} (h : w ≤ w') (flag : Bool) : effectiveLimit w flag ≤ effectiveLimit w' flag :=
  Nat.sub_le_sub_right (Nat.pow_le_pow_right (by decide) h) _

/-- The widths below a bound, counted. -/
theorem length_filter_range' {a n m : Nat} {p : Nat → Bool} (hm : m ≤ n) (hp : ∀ w, a ≤ w → w < a + n → (p w = true ↔ w < a + m)) :
    ((List.range' a n).filter p).length = m := by
  obtain ⟨d, rfl⟩ := Nat.exists_eq_add_of_le hm
  have hlow : (List.range' a m).filter p = List.range' a m := List.filter_eq_self.mpr fun w hw => by
    obtain ⟨hge, hlt⟩ := List.mem_range'_1.mp hw
    exact (hp w hge (by omega)).mpr hlt
  have hhigh : (List.range' (a + m) d).filter p = [] := List.filter_eq_nil_iff.mpr fun w hw hpw => by
    obtain ⟨hge, hlt⟩ := List.mem_range'_1.mp hw
    have := (hp w (by omega) (by omega)).mp hpw
    omega
  have hsplit : List.range' a (m + d) = List.range' a m ++ List.range' (a + m) d := List.range'_append_1.symm
  rw [hsplit, List.filter_append, hlow, hhigh, List.append_nil, List.length_range']

/-- The schedule's width for the `k`-th data code is the one whose limits below, and only those, the cursor has reached
(30_encoding.md R71). -/
theorem scheduledWidth_eq {cfg : Word} {flag : Bool} {k width : Nat} (hlow : w0Of cfg + 1 ≤ width) (hhigh : width ≤ 12)
    (h : ∀ w, w0Of cfg + 1 ≤ w → w ≤ 11 → (effectiveLimit w flag ≤ firstFree cfg + k - 2 ↔ w < width)) :
    scheduledWidth cfg flag k = width := by
  rw [scheduledWidth, length_filter_range' (m := width - (w0Of cfg + 1)) (by omega)]
  · omega
  · intro w hge hlt
    rw [decide_eq_true_iff]
    have := h w hge (by omega)
    rw [effectiveLimit] at this
    rw [this]
    omega

end Sys2Proof.Machine
end

section
/-! SUPPORT. C on the schedule (30_encoding.md R71, 43_compressor.md R131, R134 to R136). -/

namespace Sys2Proof.Machine

/-- With `n` entries added in the epoch, C's width is the one that its cursor has come to (43_compressor.md R134). -/
structure WidthOfCursor (cfg : Word) (n : Nat) (c : Compressor) : Prop where
  codes : c.codes = firstFree cfg + n
  width_low : w0Of cfg + 1 ≤ c.width
  width_high : c.width ≤ 12
  room : c.codes ≤ effectiveLimit c.width (elOf cfg)
  passed : ∀ w, w0Of cfg + 1 ≤ w → w < c.width → effectiveLimit w (elOf cfg) < c.codes

section
variable {cfg : Word} {n : Nat} {c : Compressor}

/-- The epoch's next data code is written at the width the schedule gives it. -/
theorem WidthOfCursor.width_eq (h : WidthOfCursor cfg n c) : c.width = scheduledWidth cfg (elOf cfg) (n + 1) := by
  refine (scheduledWidth_eq h.width_low h.width_high fun w hlow _ => ⟨fun hreached => ?_, fun hlt => ?_⟩).symm
  · by_contra hge
    have hroom := h.room.trans (effectiveLimit_mono (Nat.not_lt.mp hge) _)
    have hcodes := h.codes
    have hfree : 2 ≤ firstFree cfg := Nat.le_add_left 2 _
    omega
  · have hpassed := h.passed w hlow hlt
    rw [h.codes] at hpassed
    omega

/-- Every data code of an epoch comes before its in-band CLEAR (30_encoding.md R71). -/
theorem WidthOfCursor.lt_fullEpoch (h : WidthOfCursor cfg n c) : n < fullEpoch cfg := by
  have hroom : firstFree cfg + n ≤ 4096 - (elOf cfg).toNat :=
    h.codes ▸ h.room.trans (effectiveLimit_mono h.width_high _)
  rw [fullEpoch]
  omega

theorem clearedCompressor_widthOfCursor (hl : CfgLegal cfg) (c : Compressor) : WidthOfCursor cfg 0 (clearedCompressor cfg c) := by
  have hwidth : (clearedCompressor cfg c).width = w0Of cfg + 1 := hl.widen_w0
  have hw0 := hl.w0_high
  exact
    { codes := rfl
      width_low := hwidth.ge
      width_high := by omega
      room := hwidth ▸ (hl.limit_first _).le
      passed := fun w hlow hlt => by omega }

/-- With no entry added the width is the one of the clear (43_compressor.md R131). -/
theorem WidthOfCursor.width_first (hl : CfgLegal cfg) (h : WidthOfCursor cfg 0 c) : c.width = w0Of cfg + 1 := by
  by_contra hne
  have hpassed := h.passed (w0Of cfg + 1) (Nat.le_refl _) (Nat.lt_of_le_of_ne h.width_low (Ne.symm hne))
  rw [h.codes] at hpassed
  exact absurd hpassed (hl.limit_first _).not_gt

/-- An entry added below the limit. -/
theorem WidthOfCursor.inserted (h : WidthOfCursor cfg n c) (hroom : c.codes ≠ effectiveLimit c.width (elOf cfg))
    (key : ByteString) : WidthOfCursor cfg (n + 1) (cInsert key c.width c) where
  codes := congrArg (· + 1) h.codes
  width_low := h.width_low
  width_high := h.width_high
  room := Nat.lt_of_le_of_ne h.room hroom
  passed w hlow hlt := Nat.lt_succ_of_lt (h.passed w hlow hlt)

/-- An entry added at the limit, where the width grows. -/
theorem WidthOfCursor.widened (h : WidthOfCursor cfg n c) (hfull : c.codes = effectiveLimit c.width (elOf cfg))
    (hwidth : c.width < 12) (key : ByteString) : WidthOfCursor cfg (n + 1) (cInsert key (c.width + 1) c) where
  codes := congrArg (· + 1) h.codes
  width_low := Nat.le_succ_of_le h.width_low
  width_high := hwidth
  room := by
    have hlow := h.width_low
    exact (congrArg (· + 1) hfull).le.trans (effectiveLimit_succ c.width (elOf cfg) (by omega))
  passed w hlow hlt := by
    rcases Nat.lt_succ_iff_lt_or_eq.mp hlt with hless | rfl
    · exact Nat.lt_succ_of_lt (h.passed w hlow hless)
    · exact Nat.lt_succ_of_le hfull.ge

end

/-! ### The events so far -/

/-- The events follow the schedule, and stand where `k` data codes of the epoch are written. -/
def ScheduledTo (cfg : Word) (events : List Event) (k : Nat) : Prop :=
  ∀ rest, followsSchedule cfg 0 (events ++ rest) = followsSchedule cfg k rest

section
variable {cfg : Word} {events : List Event} {k : Nat}

theorem scheduledTo_nil (cfg : Word) : ScheduledTo cfg [] 0 := fun _ => rfl

theorem ScheduledTo.follows (h : ScheduledTo cfg events k) : followsSchedule cfg 0 events = true := by
  have hnil := h []
  rwa [List.append_nil, followsSchedule] at hnil

theorem ScheduledTo.data (h : ScheduledTo cfg events k) (hk : k < fullEpoch cfg) (v : Nat) :
    ScheduledTo cfg (events ++ [⟨.c, .data, v, scheduledWidth cfg (elOf cfg) (k + 1)⟩]) (k + 1) := fun rest => by
  rw [List.append_assoc, h]
  simp [followsSchedule, hk]

theorem ScheduledTo.clear (h : ScheduledTo cfg events (fullEpoch cfg)) :
    ScheduledTo cfg (events ++ [⟨.c, .clear, clearCode cfg, 12⟩]) 0 := fun rest => by
  rw [List.append_assoc, h]
  simp [followsSchedule]

theorem ScheduledTo.eoi (h : ScheduledTo cfg events k) {w : Nat}
    (hw : w = if k = 0 then w0Of cfg + 1 else scheduledWidth cfg (elOf cfg) k) :
    followsSchedule cfg 0 (events ++ [⟨.c, .eoi, eoiCode cfg, w⟩]) = true := by
  rw [h]
  simp [followsSchedule, hw]

end

/-- Behind the events `base` an observed COMPRESS has written events that follow the schedule, `k` data codes of the epoch last. -/
structure EpochAt (cfg : Word) (base : List EvtRecord) (k : Nat) (t : State) : Prop where
  cfg_eq : t.regs.cfg = cfg
  events : ∃ rest, t.io.evt = base ++ rest ∧ ScheduledTo cfg (rest.map EvtRecord.event) k

/-- Behind the events `base` an observed COMPRESS has written events that follow the schedule. -/
def OnSchedule (cfg : Word) (base : List EvtRecord) (t : State) : Prop :=
  ∃ rest, t.io.evt = base ++ rest ∧ followsSchedule cfg 0 (rest.map EvtRecord.event) = true

/-- SCAN is ready to write a code: as many entries are added as data codes written, and an empty run is that of an epoch without
any. -/
def ReadyForCode (cfg : Word) (base : List EvtRecord) (t : State) : Prop :=
  ∃ k, EpochAt cfg base k t ∧ WidthOfCursor cfg k t.c ∧ (t.c.run = [] → k = 0)

/-- The code of the run is written, and its entry not yet added. -/
def EntryPending (cfg : Word) (base : List EvtRecord) (t : State) : Prop :=
  ∃ k, EpochAt cfg base (k + 1) t ∧ WidthOfCursor cfg k t.c

/-- Writing a code puts its event on EVT when observed, and leaves C and the registers (43_compressor.md R135). -/
theorem cWriteCode_event (v : Nat) (kind : EvtKind) {s : State} (hobs : obsOf s.regs.cfg = true) :
    (cWriteCode v kind s).All fun t => t.regs = s.regs ∧ t.c = s.c ∧
      t.io.evt = s.io.evt ++ [⟨⟨.c, kind, v, s.c.width⟩, s.io.srcPos, s.io.snk.length⟩] := by
  refine (bwWrite_writer v s.c.width (notify .c kind v s.c.width s)).mono fun t ht => ⟨?_, ?_, ?_⟩
  · rw [ht.regs, notify_regs]
  · rw [ht.c, notify_c]
  · rw [ht.evt, notify_on hobs, State.setIo_io]

section
variable {cfg : Word} {base : List EvtRecord} {k : Nat} {s t : State}

theorem EpochAt.onSchedule (h : EpochAt cfg base k t) : OnSchedule cfg base t := by
  obtain ⟨-, rest, hevt, hrest⟩ := h
  exact ⟨rest, hevt, hrest.follows⟩

/-- What neither CFG nor EVT is changed by leaves the epoch. -/
theorem EpochAt.same (h : EpochAt cfg base k s) (hregs : t.regs = s.regs) (hevt : t.io.evt = s.io.evt) : EpochAt cfg base k t :=
  ⟨hregs ▸ h.cfg_eq, hevt ▸ h.events⟩

/-- The next event, where the events with it stand at `k'`. -/
theorem EpochAt.next {k' : Nat} {r : EvtRecord} (h : EpochAt cfg base k s)
    (hnext : ∀ events, ScheduledTo cfg events k → ScheduledTo cfg (events ++ [r.event]) k') (hregs : t.regs = s.regs)
    (hevt : t.io.evt = s.io.evt ++ [r]) : EpochAt cfg base k' t := by
  obtain ⟨hcfg, rest, hrest, hscheduled⟩ := h
  exact ⟨hregs ▸ hcfg, rest ++ [r], by rw [hevt, hrest, List.append_assoc], by simpa using hnext _ hscheduled⟩

/-- The code of the run, at the width of the epoch's next data code. -/
theorem ReadyForCode.writeRun (hobs : obsOf cfg = true) (h : ReadyForCode cfg base s) :
    (cWriteRun s).Leaves (fun _ => EntryPending cfg base) fun _ _ _ => OnSchedule cfg base := by
  obtain ⟨k, hepoch, hcursor, -⟩ := h
  unfold cWriteRun
  split
  · next code _ =>
    have hnext : ∀ t, t.regs = s.regs ∧ t.c = s.c ∧
        t.io.evt = s.io.evt ++ [⟨⟨.c, .data, code, s.c.width⟩, s.io.srcPos, s.io.snk.length⟩] → EntryPending cfg base t := by
      rintro t ⟨hregs, hc, hevt⟩
      refine ⟨k, hepoch.next (fun _ hevents => ?_) hregs hevt, hc ▸ hcursor⟩
      rw [hcursor.width_eq]
      exact hevents.data hcursor.lt_fullEpoch code
    exact (cWriteCode_event code .data (hepoch.cfg_eq ▸ hobs)).leaves.mono (fun _ t => hnext t)
      fun _ _ _ t ht => (hnext t ht).elim fun _ hu => hu.1.onSchedule
  · exact hepoch.onSchedule

/-- The new entry, or the in-band CLEAR of a full epoch. -/
theorem EntryPending.addEntry (hl : CfgLegal cfg) (hobs : obsOf cfg = true) (h : EntryPending cfg base s) (key : ByteString) :
    (cAddTableEntry key s).Leaves (fun _ t => ∀ run, run ≠ [] → ReadyForCode cfg base (t.setC { t.c with run := run }))
      fun _ _ _ => OnSchedule cfg base := by
  obtain ⟨k, hepoch, hcursor⟩ := h
  have hready : ∀ {n} {t : State}, EpochAt cfg base n t → WidthOfCursor cfg n t.c → ∀ run, run ≠ [] →
      ReadyForCode cfg base (t.setC { t.c with run := run }) := fun ht hc run hrun =>
    ⟨_, ht.same rfl rfl, ⟨hc.codes, hc.width_low, hc.width_high, hc.room, hc.passed⟩, fun hnil => absurd hnil hrun⟩
  unfold cAddTableEntry
  rw [hepoch.cfg_eq]
  split
  · next hfull =>
    split
    · next hwidth =>
      exact hready (t := s.setC (cInsert key (s.c.width + 1) s.c)) (hepoch.same rfl rfl) (hcursor.widened hfull hwidth key)
    · next hwidth =>
      have h12 : s.c.width = 12 := Nat.le_antisymm hcursor.width_high (Nat.not_lt.mp hwidth)
      have hk : k + 1 = fullEpoch cfg := by
        have hcodes := hcursor.codes
        rw [hfull, h12, effectiveLimit] at hcodes
        rw [fullEpoch]
        omega
      have hnext : ∀ t, t.regs = s.regs ∧ t.c = s.c ∧
          t.io.evt = s.io.evt ++ [⟨⟨.c, .clear, clearCode cfg, s.c.width⟩, s.io.srcPos, s.io.snk.length⟩] →
          EpochAt cfg base 0 t := by
        rintro t ⟨hregs, -, hevt⟩
        refine hepoch.next (fun _ hevents => ?_) hregs hevt
        rw [h12]
        exact (hk ▸ hevents).clear
      refine ((cWriteCode_event (clearCode cfg) .clear (hepoch.cfg_eq ▸ hobs)).leaves.mono (fun _ t => hnext t)
        fun _ _ _ t ht => (hnext t ht).onSchedule).bind fun _ t ht => ?_
      refine hready (t := cClearTable t) (ht.same rfl rfl) ?_
      rw [cClearTable, State.setC_c, ht.cfg_eq]
      exact clearedCompressor_widthOfCursor hl t.c
  · next hroom =>
    exact hready (t := s.setC (cInsert key s.c.width s.c)) (hepoch.same rfl rfl) (hcursor.inserted hroom key)

theorem readyForCode_keptByScan (hl : CfgLegal cfg) (hobs : obsOf cfg = true) (base : List EvtRecord) :
    KeptByScan (ReadyForCode cfg base) (EntryPending cfg base) (OnSchedule cfg base) where
  access s h := by
    obtain ⟨k, hepoch, hcursor, hrun⟩ := h
    refine (memRead_reader s).leaves.mono (fun _ t ht => ?_) fun _ _ _ t ht => (hepoch.same ht.regs ht.evt).onSchedule
    exact ⟨k, hepoch.same ht.regs ht.evt, ht.c ▸ hcursor, ht.c ▸ hrun⟩
  counted _ _ h := by
    obtain ⟨k, hepoch, ⟨hcodes, hlow, hhigh, hroom, hpassed⟩, hrun⟩ := h
    exact ⟨k, hepoch.same rfl rfl, ⟨hcodes, hlow, hhigh, hroom, hpassed⟩, hrun⟩
  extended _ _ hne h := by
    obtain ⟨k, hepoch, ⟨hcodes, hlow, hhigh, hroom, hpassed⟩, -⟩ := h
    exact ⟨k, hepoch.same rfl rfl, ⟨hcodes, hlow, hhigh, hroom, hpassed⟩, fun hnil => absurd hnil hne⟩
  writeRun _ h := h.writeRun hobs
  addEntry key _ h := h.addEntry hl hobs key

/-- EOI ends the events on schedule (30_encoding.md R71). -/
def EndedBy (cfg : Word) (base : List EvtRecord) (t : State) : Prop :=
  ∃ rest r, t.io.evt = base ++ rest ++ [r] ∧ r.event.kind = .eoi ∧
    followsSchedule cfg 0 ((rest ++ [r]).map EvtRecord.event) = true

/-- FINISH writes EOI at the width of the epoch's last data code. -/
theorem EpochAt.finish (hobs : obsOf cfg = true) (h : EpochAt cfg base k s)
    (hw : s.c.width = if k = 0 then w0Of cfg + 1 else scheduledWidth cfg (elOf cfg) k) :
    ((cWriteCode (eoiCode s.regs.cfg) .eoi s).bind fun _ u => bwFlush u).Leaves (fun _ => EndedBy cfg base)
      fun _ _ _ => OnSchedule cfg base := by
  obtain ⟨hcfg, rest, hrest, hscheduled⟩ := h
  have hended : ∀ {t}, t.io.evt = s.io.evt ++ [⟨⟨.c, .eoi, eoiCode s.regs.cfg, s.c.width⟩, s.io.srcPos, s.io.snk.length⟩] →
      EndedBy cfg base t := fun hevt => by
    refine ⟨rest, _, by rw [hevt, hrest], rfl, ?_⟩
    rw [List.map_append, hcfg]
    exact hscheduled.eoi hw
  have hon : ∀ {t}, EndedBy cfg base t → OnSchedule cfg base t := by
    rintro t ⟨rest, r, hevt, -, hfollows⟩
    exact ⟨rest ++ [r], by rw [hevt, List.append_assoc], hfollows⟩
  refine Res.Leaves.bind ((cWriteCode_event _ .eoi (hcfg ▸ hobs)).leaves.mono (fun _ _ ht => hended ht.2.2)
    fun _ _ _ _ ht => hon (hended ht.2.2)) fun _ u hu => ?_
  have hsame : ∀ {v}, WriterFrame u v → EndedBy cfg base v := fun hv => by
    rw [EndedBy, hv.evt]
    exact hu
  exact (bwFlush_writer u).leaves.mono (fun _ _ => hsame) fun _ _ _ _ hv => hon (hsame hv)

end

/-- The event of the CLEAR that begins COMPRESS (43_compressor.md R136). -/
def firstClear (s : State) : EvtRecord :=
  ⟨⟨.c, .clear, clearCode s.regs.cfg, w0Of s.regs.cfg + 1⟩, s.io.srcPos, s.io.snk.length⟩

/-- The events of an observed `compress()` on a fresh session: the CLEAR, and the rest on schedule, however it ends. -/
theorem compressAll_onSchedule {s : State} (hl : CfgLegal s.regs.cfg) (hobs : obsOf s.regs.cfg = true) :
    (compressAll s).Leaves (fun _ => EndedBy s.regs.cfg (s.io.evt ++ [firstClear s]))
      fun _ _ _ => OnSchedule s.regs.cfg (s.io.evt ++ [firstClear s]) := by
  have hcursor : WidthOfCursor s.regs.cfg 0 (cClearTable s).c := clearedCompressor_widthOfCursor hl s.c
  refine (readyForCode_keptByScan hl hobs _).compressAll ?_ fun t ht => ?_
  · have hepoch : ∀ t, t.regs = s.regs ∧ t.c = (cClearTable s).c ∧ t.io.evt = s.io.evt ++
        [⟨⟨.c, .clear, clearCode s.regs.cfg, (cClearTable s).c.width⟩, s.io.srcPos, s.io.snk.length⟩] →
        EpochAt s.regs.cfg (s.io.evt ++ [firstClear s]) 0 t := by
      rintro t ⟨hregs, -, hevt⟩
      rw [hcursor.width_first hl] at hevt
      exact ⟨by rw [hregs], [], by rw [hevt, List.append_nil]; rfl, scheduledTo_nil _⟩
    exact (cWriteCode_event (clearCode s.regs.cfg) .clear (s := cClearTable s) hobs).leaves.mono
      (fun _ t ht => ⟨0, hepoch t ht, ht.2.1 ▸ hcursor, fun _ => rfl⟩) fun _ _ _ t ht => (hepoch t ht).onSchedule
  · rcases ht with ⟨⟨k, hepoch, hcursor, hnone⟩, hnil⟩ | ⟨k, hepoch, hcursor⟩
    · obtain rfl := hnone hnil
      exact hepoch.finish hobs (hcursor.width_first hl)
    · exact hepoch.finish hobs hcursor.width_eq

end Sys2Proof.Machine
end

section
/-! The obligation on the width schedule of C (30_encoding.md R71). -/

namespace Sys2Proof.Machine

/-- Settles O48: C's width is the one its cursor has come to, and the cursor counts the data codes of the epoch. -/
theorem compressFollowsSchedule : Obligations.CompressFollowsSchedule := by
  intro s t hinv hconf hobs hexec
  have hall := compressAll_onSchedule (s := freshCompress s) (hinv.configured hconf) hobs
  obtain ⟨u, hu, ⟨rest, r, hevt, heoi, hfollows⟩ | ⟨⟨rest, hevt, hfollows⟩, hne⟩⟩ := exec_compress_leaves hconf hall hexec
  · have hnew : newEvents s t = firstClear s :: (rest ++ [r]) :=
      newEvents_of_append (by rw [hu.io, hevt]; simp [firstClear, freshCompress])
    refine ⟨(rest ++ [r]).map EvtRecord.event, by rw [hnew]; rfl, hfollows, fun _ => ⟨r.event, ?_, heoi⟩⟩
    rw [List.map_append]
    exact List.getLast?_concat
  · have hnew : newEvents s t = firstClear s :: rest := newEvents_of_append (by rw [hu.io, hevt]; simp [firstClear, freshCompress])
    exact ⟨rest.map EvtRecord.event, by rw [hnew]; rfl, hfollows, fun hok => absurd hok hne⟩

end Sys2Proof.Machine
end

section
/-! SUPPORT. D on the schedule (30_encoding.md R71, R75, 44_decompressor.md R150 to R156). -/

namespace Sys2Proof.Machine

/-! ### The width of D's cursor -/

/-- At a label `k` data codes of the epoch are read, and D's cursor counts them from the second on: the one after a CLEAR adds no entry
(44_decompressor.md R152, R155). -/
structure CursorAt (cfg : Word) (label : DLabel) (k : Nat) (d : Decompressor) : Prop where
  codes : d.codes = firstFree cfg + (k - 1)
  passed : ∀ w, w0Of cfg + 1 ≤ w → w < d.width → effectiveLimit w (tmOf cfg) ≤ d.codes
  first : label = .postClear → k = 0
  later : label = .code → d.old ≠ none → k ≠ 0

section
variable {cfg : Word} {label : DLabel} {k : Nat} {d d' : Decompressor}

/-- The epoch's next data code is read at the width the schedule gives it. -/
theorem CursorAt.width_eq (hl : CfgLegal cfg) (hd : DecompressorSound cfg d) (h : CursorAt cfg label k d) :
    d.width = scheduledWidth cfg (tmOf cfg) (k + 1) := by
  have hcodes := h.codes
  refine (scheduledWidth_eq hd.width_low hd.width_high fun w hlow hhigh => ⟨fun hreached => ?_, fun hlt => ?_⟩).symm
  · by_contra hge
    have hwidth : d.width < maxWidth := by rw [maxWidth]; omega
    have hroom := (hd.grown hwidth).trans_le (effectiveLimit_mono (Nat.not_lt.mp hge) _)
    omega
  · have hpassed := h.passed w hlow hlt
    have hfirst := (hl.limit_first (tmOf cfg)).trans_le (effectiveLimit_mono hlow _)
    omega

/-- The clear starts an epoch (44_decompressor.md R151). -/
theorem clearedDecompressor_cursorAt (hl : CfgLegal cfg) (hlabel : label = .code → d.old = none) :
    CursorAt cfg label 0 (clearedDecompressor cfg d) where
  codes := rfl
  passed w hlow hlt := by
    have hwidth : (clearedDecompressor cfg d).width = w0Of cfg + 1 := hl.widen_w0
    omega
  first _ := rfl
  later hcode hold := absurd (hlabel hcode) hold

/-- A data code is one more of the epoch, and the width grows where the cursor comes to its limit (44_decompressor.md R155). -/
theorem DataCodeMade.cursorAt {code : Nat} (h : DataCodeMade (tmOf cfg) code d label d') (hd : CursorAt cfg label k d) :
    CursorAt cfg .code (k + 1) d' := by
  have hcodes := hd.codes
  cases h with
  | appended hold str n =>
    have hk := hd.later rfl hold
    refine ⟨?_, fun w hlow hlt => ?_, nofun, fun _ _ => Nat.succ_ne_zero k⟩
    · simp only [dGrow]
      omega
    · simp only [dGrow] at hlt ⊢
      split at hlt
      · next hgrown =>
        rcases Nat.lt_succ_iff_lt_or_eq.mp hlt with hless | rfl
        · exact Nat.le_succ_of_le (hd.passed w hlow hless)
        · exact hgrown.1.ge
      · exact Nat.le_succ_of_le (hd.passed w hlow hlt)
  | emitted n =>
    obtain rfl := hd.first rfl
    exact ⟨hcodes, hd.passed, nofun, fun _ _ => Nat.succ_ne_zero 0⟩

end

/-! ### One read -/

/-- A code read is below `2^width`, but for the TIFF sentinel (30_encoding.md R75). -/
def CodeInRange (tm : Bool) (e : Event) : Prop :=
  (e.kind = .code ∧ e.v1 < 2 ^ e.v2) ∨ (e.kind = .sentinel ∧ e.v1 = tiffSentinel ∧ tm = true)

/-- `d_next_code` read `code` from `t` on at D's width, and `r` is the event of it (44_decompressor.md R156). -/
structure ReadInRange (t : State) (code : Nat) (r : EvtRecord) (u : State) : Prop where
  evt : u.io.evt = t.io.evt ++ [r]
  d : u.d = t.d
  unit : r.event.unit = .d
  code : r.event.v1 = code
  width : r.event.v2 = t.d.width
  range : CodeInRange (tmOf t.regs.cfg) r.event

theorem dNextCode_inRange {t : State} (hobs : obsOf t.regs.cfg = true) :
    (dNextCode t).Leaves (fun code u => ∃ r, ReadInRange t code r u) fun _ _ _ u => u.io.evt = t.io.evt := by
  have hframe := brRead_reader t.d.width t
  unfold dNextCode
  cases hread : brRead t.d.width t with
  | ok r u =>
    rw [hread] at hframe
    have hu : ReaderFrame t u := hframe
    rw [Res.bind_ok, notify_on (hu.regs ▸ hobs)]
    refine ⟨_, congrArg (· ++ _) hu.evt, hu.d, rfl, rfl, congrArg Decompressor.width hu.d, ?_⟩
    rcases brRead_ok hread with ⟨hlt, hkind⟩ | ⟨rfl, htm⟩
    · exact .inl ⟨congrArg readEvtKind hkind, by rw [hu.d]; exact hlt⟩
    · exact .inr ⟨rfl, rfl, htm⟩
  | raised code i0 i1 u =>
    rw [hread] at hframe
    exact ReaderFrame.evt hframe
  | fault f => trivial

/-! ### The events so far -/

/-- The events follow the schedule, and stand where `k` data codes of the epoch are read. -/
def ReadTo (cfg : Word) (events : List Event) (k : Nat) : Prop :=
  ∀ rest, readsOnSchedule cfg 0 (events ++ rest) = readsOnSchedule cfg k rest

/-- The number of data codes of the epoch behind a read of `code`. -/
def codesRead (cfg : Word) (code k : Nat) : Nat := if code = clearCode cfg then 0 else k + 1

section
variable {cfg : Word} {events : List Event} {k : Nat}

theorem readTo_nil (cfg : Word) : ReadTo cfg [] 0 := fun _ => rfl

theorem ReadTo.reads (h : ReadTo cfg events k) : readsOnSchedule cfg 0 events = true := by
  have hnil := h []
  rwa [List.append_nil, readsOnSchedule] at hnil

theorem ReadTo.concat (h : ReadTo cfg events k) {e : Event} (hunit : e.unit = .d)
    (hwidth : e.v2 = scheduledWidth cfg (tmOf cfg) (k + 1)) : ReadTo cfg (events ++ [e]) (codesRead cfg e.v1 k) := fun rest => by
  rw [List.append_assoc, h]
  simp [readsOnSchedule, hunit, hwidth, codesRead]

end

/-- Behind the events `base` an observed DECOMPRESS has read on schedule, `k` data codes of the epoch last, and no sentinel yet. -/
def CodesReadTo (cfg : Word) (base : List EvtRecord) (k : Nat) (t : State) : Prop :=
  ∃ new, t.io.evt = base ++ new ∧ ReadTo cfg (new.map EvtRecord.event) k ∧
    ∀ r ∈ new, r.event.kind = .code ∧ r.event.v1 < 2 ^ r.event.v2

/-- Behind the events `base` an observed DECOMPRESS has read on schedule, with a sentinel at most at the end. -/
def ReadOnSchedule (cfg : Word) (base : List EvtRecord) (t : State) : Prop :=
  ∃ new, t.io.evt = base ++ new ∧ readsOnSchedule cfg 0 (new.map EvtRecord.event) = true ∧
    ∀ r ∈ new, CodeInRange (tmOf cfg) r.event ∧ (r.event.kind = .sentinel → new.getLast? = some r)

section
variable {cfg : Word} {base : List EvtRecord} {k : Nat} {r : EvtRecord} {label : DLabel} {t u : State}

theorem CodesReadTo.same (h : CodesReadTo cfg base k t) (hevt : u.io.evt = t.io.evt) : CodesReadTo cfg base k u := by
  rw [CodesReadTo, hevt]
  exact h

theorem ReadOnSchedule.same (h : ReadOnSchedule cfg base t) (hevt : u.io.evt = t.io.evt) : ReadOnSchedule cfg base u := by
  rw [ReadOnSchedule, hevt]
  exact h

theorem CodesReadTo.onSchedule (h : CodesReadTo cfg base k t) : ReadOnSchedule cfg base t := by
  obtain ⟨new, hevt, hnew, hcodes⟩ := h
  refine ⟨new, hevt, hnew.reads, fun r hr => ⟨.inl (hcodes r hr), fun hsentinel => ?_⟩⟩
  rw [(hcodes r hr).1] at hsentinel
  cases hsentinel

/-- One more read, be it of the sentinel. -/
theorem CodesReadTo.read (h : CodesReadTo cfg base k t) (hevt : u.io.evt = t.io.evt ++ [r]) (hunit : r.event.unit = .d)
    (hwidth : r.event.v2 = scheduledWidth cfg (tmOf cfg) (k + 1)) (hrange : CodeInRange (tmOf cfg) r.event) :
    ReadOnSchedule cfg base u ∧ (r.event.kind = .code → CodesReadTo cfg base (codesRead cfg r.event.v1 k) u) := by
  obtain ⟨new, hbase, hnew, hcodes⟩ := h
  have happ : u.io.evt = base ++ (new ++ [r]) := by rw [hevt, hbase, List.append_assoc]
  have hto : ReadTo cfg ((new ++ [r]).map EvtRecord.event) (codesRead cfg r.event.v1 k) := by
    rw [List.map_append]
    exact hnew.concat hunit hwidth
  refine ⟨⟨new ++ [r], happ, hto.reads, List.forall_mem_append.mpr ⟨fun x hx => ⟨.inl (hcodes x hx), fun hsentinel => ?_⟩,
    List.forall_mem_singleton.mpr ⟨hrange, fun _ => List.getLast?_concat⟩⟩⟩, fun hkind => ⟨new ++ [r], happ, hto,
    List.forall_mem_append.mpr ⟨hcodes, List.forall_mem_singleton.mpr ?_⟩⟩⟩
  · rw [(hcodes x hx).1] at hsentinel
    cases hsentinel
  · rcases hrange with hcode | ⟨hsentinel, -⟩
    · exact hcode
    · rw [hsentinel] at hkind
      cases hkind

/-! ### The loop -/

/-- At a label of an observed loop: what was read is on schedule, and D's cursor counts it. -/
structure ScheduleAt (cfg : Word) (base : List EvtRecord) (label : DLabel) (k : Nat) (t : State) : Prop where
  sound : DecodingSound cfg label t
  events : CodesReadTo cfg base k t
  cursor : CursorAt cfg label k t.d

/-- Behind a read of `code`: only EOI can be a sentinel. -/
structure ReadAt (cfg : Word) (base : List EvtRecord) (label : DLabel) (k code : Nat) (t : State) : Prop where
  sound : DecodingSound cfg label t
  events : ReadOnSchedule cfg base t
  codes : code ≠ eoiCode cfg → CodesReadTo cfg base (codesRead cfg code k) t
  cursor : CursorAt cfg label k t.d

/-- One read at a label. -/
theorem ScheduleAt.dNextCode (hl : CfgLegal cfg) (hobs : obsOf cfg = true) (h : ScheduleAt cfg base label k t) :
    (dNextCode t).Leaves (ReadAt cfg base label k) fun _ _ _ => ReadOnSchedule cfg base := by
  have hcfg := h.sound.cfg_eq
  refine ((dNextCode_meets hl t h.sound).andLeaves (dNextCode_inRange (hcfg ▸ hobs))).leaves.mono ?_ ?_
  · rintro code u ⟨⟨hsound, -⟩, r, hr⟩
    have hwidth := hr.width.trans (h.cursor.width_eq hl h.sound.d)
    have hrange : CodeInRange (tmOf cfg) r.event := hcfg ▸ hr.range
    obtain ⟨hon, hto⟩ := h.events.read hr.evt hr.unit hwidth hrange
    refine ⟨hsound, hon, fun hne => hr.code ▸ hto ?_, hr.d ▸ h.cursor⟩
    rcases hrange with ⟨hkind, -⟩ | ⟨-, hcode, htm⟩
    · exact hkind
    · exact absurd (hr.code.symm.trans (hcode.trans (sentinel_is_eoi hl htm))) hne
  · rintro _ _ _ u ⟨-, hevt⟩
    exact h.events.onSchedule.same hevt

/-- A data code behind its read. -/
theorem ReadAt.dDataCode {code : Nat} (hl : CfgLegal cfg) (h : ReadAt cfg base label k code t) (hclear : code ≠ clearCode cfg)
    (heoi : code ≠ eoiCode cfg) :
    (dDataCode label code t).Leaves (fun _ => ScheduleAt cfg base .code (k + 1)) fun _ _ _ => ReadOnSchedule cfg base := by
  refine ((dDataCode_meets hl label code t h.sound hclear heoi).andLeaves (dDataCode_makes label code t)).leaves.mono ?_ ?_
  · rintro _ u ⟨⟨hsound, -⟩, hmade, hevt, -⟩
    have hcodes := h.codes heoi
    rw [codesRead, if_neg hclear] at hcodes
    rw [h.sound.cfg_eq] at hmade
    exact ⟨hsound, hcodes.same hevt, hmade.cursorAt h.cursor⟩
  · rintro _ _ _ u ⟨-, hu⟩
    exact h.events.same hu.evt

/-- A CLEAR behind its read. -/
theorem ReadAt.dClearTable (hl : CfgLegal cfg) (h : ReadAt cfg base label k (clearCode cfg) t) :
    ScheduleAt cfg base .postClear 0 (dClearTable t) := by
  have hcodes := h.codes (by rw [eoiCode]; omega)
  rw [codesRead, if_pos rfl] at hcodes
  have hcfg := h.sound.cfg_eq
  refine ⟨⟨hcfg, ?_, h.sound.br, nofun⟩, hcodes.same rfl, ?_⟩ <;> rw [Machine.dClearTable, State.setD_d, hcfg]
  · exact clearedDecompressor_sound hl _ h.sound.d.old
  · exact clearedDecompressor_cursorAt hl nofun

/-- The events of an observed loop are on schedule, however it ends. -/
theorem ScheduleAt.dLoop (hl : CfgLegal cfg) (hobs : obsOf cfg = true) (limit fuel : Nat) (h : ScheduleAt cfg base label k t) :
    (dLoop limit fuel label t).Leaves (fun _ => ReadOnSchedule cfg base) fun _ _ _ => ReadOnSchedule cfg base := by
  induction fuel generalizing label k t with
  | zero => trivial
  | succ fuel ih =>
    refine (h.dNextCode hl hobs).bind fun code u hu => ?_
    rw [hu.sound.cfg_eq]
    split
    · exact hu.events
    · next heoi =>
      split
      · next hclear =>
        have hlabel := (hclear ▸ hu).dClearTable hl
        split
        · exact hlabel.events.onSchedule
        · exact ih hlabel
      · next hclear =>
        refine (hu.dDataCode hl hclear heoi).bind fun _ v hv => ?_
        split
        · exact hv.events.onSchedule
        · exact ih hv

end

/-- The events of an observed `decompress(L)` on a fresh session. -/
theorem decompressAll_onSchedule {s : State} {len : Word} (hl : CfgLegal s.regs.cfg) (hobs : obsOf s.regs.cfg = true) (limit : Nat) :
    (decompressAll limit (freshDecompress len s)).Leaves (fun _ => ReadOnSchedule s.regs.cfg s.io.evt)
      fun _ _ _ => ReadOnSchedule s.regs.cfg s.io.evt := by
  refine ScheduleAt.dLoop (label := .code) (k := 0) hl hobs limit _ ⟨⟨rfl, ?_, ⟨Nat.one_pos, Nat.zero_le 11⟩, fun _ _ hold => ?_⟩,
    ⟨[], (List.append_nil _).symm, readTo_nil _, nofun⟩, ?_⟩
  · exact clearedDecompressor_sound hl _ nofun
  · cases hold
  · exact clearedDecompressor_cursorAt hl fun _ => rfl

end Sys2Proof.Machine
end

section
/-! The obligation on the width schedule of D (30_encoding.md R71, R75). -/

namespace Sys2Proof.Machine

/-- Settles O59: D's width is the one its cursor has come to, the cursor counts the data codes of the epoch, and the sentinel is EOI,
at which the loop ends. -/
theorem decompressFollowsSchedule : Obligations.DecompressFollowsSchedule := by
  intro s t len hinv hconf hexec
  cases hobs : obsOf s.regs.cfg with
  | false =>
    have hemits := exec_emitsOnly rfl hexec
    rw [hemits.unobserved (hemits.cfg ▸ hobs)]
    exact ⟨rfl, nofun⟩
  | true =>
    have hall := decompressAll_onSchedule (len := len) (hinv.configured hconf) hobs len.toNat
    obtain ⟨u, hu, hend⟩ := exec_decompress_leaves hconf hall hexec
    obtain ⟨new, hevt, hreads, hnew⟩ := hend.elim id And.left
    rw [newEvents_of_append (hu.io ▸ hevt)]
    refine ⟨hreads, fun r hr => ?_⟩
    obtain ⟨⟨hkind, hlt⟩ | ⟨hkind, hcode, htm⟩, hlast⟩ := hnew r hr <;> rw [hkind]
    · exact ⟨fun _ => hlt, nofun⟩
    · exact ⟨nofun, fun _ => ⟨hcode, htm, hlast hkind⟩⟩

end Sys2Proof.Machine
end
